-- ==== Sys2Proof/Word.lean ====
section
/-! DEFINITION. The words of the NPD and the names that its tables are built from: bytes, registers,
the phases of R21 and the forward cursors of R14. -/

namespace Sys2Proof

/-- One byte of PM, OM, IM or of the container file. -/
abbrev Byte := BitVec 8

/-- A register of the unit's window (R23): 32 bits. -/
abbrev Reg32 := BitVec 32

/-- The values of the PHASE register that some rule writes (R21). -/
inductive Phase where
  | none | ctrl | litsel | litcode | litcopy | endchk | midx | mdist | mlen2 | mlenn | mcopy
  | rawcopy | imgclear | fold
  deriving DecidableEq, Repr, Inhabited

/-- The four forward bit cursors (R14). -/
inductive CursorId where
  | c1 | c2 | cx | c4
  deriving DecidableEq, Repr, Inhabited

end Sys2Proof
end

