-- ==== Sys2Proof/Config.lean ====
section
/-! DEFINITION. The implementation parameters of R6, as one record that a machine carries unchanged
(log entry 1), and the free values of the model (log entries 2, 4, 6): constants without a body that
nothing can evaluate. -/

namespace Sys2Proof

/-- FWD_MODE of R6: whether the forward cursors share one byte index (R16) or have one each (R17). -/
inductive FwdMode where
  | shared | independent
  deriving DecidableEq, Repr, Inhabited

/-- LSB_WORD_ORDER of R6: the byte order of cursor C4's refill word (R43). -/
inductive WordOrder where
  | le | be
  deriving DecidableEq, Repr, Inhabited

/-- One byte index for each forward cursor: OFF[0..3] of R17, and INIT_OFF of R6. -/
structure Offsets where
  c1 : Nat
  c2 : Nat
  cx : Nat
  c4 : Nat
  deriving DecidableEq, Repr, Inhabited

/-- A chunk tag of R6: four ASCII characters. -/
structure Tag where
  t0 : BitVec 7
  t1 : BitVec 7
  t2 : BitVec 7
  t3 : BitVec 7
  deriving DecidableEq, Repr, Inhabited

/-- The parameters of R6. -/
structure Config where
  nUnits : Nat
  pmSize : Nat
  omSize : Nat
  imSize : Nat
  fwdMode : FwdMode
  initOff : Offsets
  lsbWordOrder : WordOrder
  rowAlign : Nat
  tagHdr : Tag
  tagPal : Tag
  tagPlane : Tag
  planeSearchStep : Nat
  deriving DecidableEq, Repr, Inhabited

/-- IM_SIZE, OPEN in R6 (log entry 2). -/
opaque Config.openImSize : Nat

/-- TAG_HDR, TAG_PAL and TAG_PLANE, OPEN in R6 (log entry 2). -/
opaque Config.openTagHdr : Tag
@[inherit_doc Config.openTagHdr] opaque Config.openTagPal : Tag
@[inherit_doc Config.openTagHdr] opaque Config.openTagPlane : Tag

/-- The draws of R52: the value of the n-th host read of an invalid byte (log entry 6). -/
opaque Config.freeByte : Nat → Byte

/-- The n-th choice between agents that can all move (I15, log entry 4). -/
opaque Config.freeChoice : Nat → Nat

/-- R6's defaults, with the OPEN parameters left open. -/
def Config.default : Config where
  nUnits := 1
  pmSize := 65535
  omSize := 65535
  imSize := Config.openImSize
  fwdMode := .shared
  initOff := ⟨0, 0, 0, 0⟩
  lsbWordOrder := .le
  rowAlign := 1
  tagHdr := Config.openTagHdr
  tagPal := Config.openTagPal
  tagPlane := Config.openTagPlane
  planeSearchStep := 4

end Sys2Proof
end

