-- ==== Sys2Proof/Syntax.lean ====
section
/-! DEFINITION. The instructions of the NPD: one constructor for each row of spec/opcode_table.json, in
the table's order. The first eight are command words (R58, R59), whose bits above OP stand in `ignored`.
The others are rows of the token stream and the internal steps (R61, R70). -/

namespace Sys2Proof

/-- The rows of the opcode table (R70). `illegal67` and `illegal8F` carry the low bits of OP that their
row leaves open. `mdist` carries the width `n` of its symbol and the symbol's value `e` (R98). -/
inductive Instr where
  | decode (ignored : BitVec 28) -- DECODE, R88
  | copyRaw (ignored : BitVec 28) -- COPY_RAW, R89
  | imgClear (ignored : BitVec 28) -- IMG_CLEAR, R124
  | fold (ignored : BitVec 28) -- FOLD, R126
  | illegal0 (ignored : BitVec 28) -- ILLEGAL.0, R135
  | illegal5 (ignored : BitVec 28) -- ILLEGAL.5, R135
  | illegal67 (op0 : BitVec 1) (ignored : BitVec 28) -- ILLEGAL.6-7, R135
  | illegal8F (op20 : BitVec 3) (ignored : BitVec 28) -- ILLEGAL.8-F, R135
  | ctrlLit -- CTRL.LIT, R92
  | ctrlNolit -- CTRL.NOLIT, R92
  | litExt -- LIT.EXT, R93
  | litOne -- LIT.ONE, R93
  | litcodeCont -- LITCODE.CONT, R94
  | litcodeAdd4 -- LITCODE.ADD4, R94
  | litcodeAdd3 -- LITCODE.ADD3, R94
  | litcodeAdd2 -- LITCODE.ADD2, R94
  | litcopy -- LITCOPY, R95
  | endchk -- ENDCHK, R96
  | midx0 -- MIDX.0, R97
  | midx1 -- MIDX.1, R97
  | midx2 -- MIDX.2, R97
  | midx3 -- MIDX.3, R97
  | midx4 -- MIDX.4, R97
  | midx5 -- MIDX.5, R97
  | midx6 -- MIDX.6, R97
  | midx7 -- MIDX.7, R97
  | midx8 -- MIDX.8, R97
  | midx9 -- MIDX.9, R97
  | midx10 -- MIDX.10, R97
  | midx11 -- MIDX.11, R97
  | midx12 -- MIDX.12, R97
  | midx13 -- MIDX.13, R97
  | midx14 -- MIDX.14, R97
  | midx15 -- MIDX.15, R97
  | mdist (n : BitVec 4) (e : BitVec 14) -- MDIST, R98
  | mlen2Ext -- MLEN2.EXT, R99
  | mlen2L6 -- MLEN2.L6, R99
  | mlen2L5 -- MLEN2.L5, R99
  | mlen2L4 -- MLEN2.L4, R99
  | mlennCont -- MLENN.CONT, R100
  | mlennAdd1 -- MLENN.ADD1, R100
  | mlennAdd2 -- MLENN.ADD2, R100
  | mlennAdd3 -- MLENN.ADD3, R100
  | mlennAdd4 -- MLENN.ADD4, R100
  | mlennAdd5 -- MLENN.ADD5, R100
  | mlennAdd6 -- MLENN.ADD6, R100
  | mlennAdd7 -- MLENN.ADD7, R100
  | mlennAdd8 -- MLENN.ADD8, R100
  | mlennAdd9 -- MLENN.ADD9, R100
  | mlennAdd10 -- MLENN.ADD10, R100
  | mlennAdd11 -- MLENN.ADD11, R100
  | mlennAdd12 -- MLENN.ADD12, R100
  | mlennAdd13 -- MLENN.ADD13, R100
  | mlennAdd14 -- MLENN.ADD14, R100
  | mlennAdd15 -- MLENN.ADD15, R100
  | mcopy -- MCOPY, R101
  | rawcopy -- RAWCOPY, R90
  | imgclear -- IMGCLEAR, R125
  | foldStep -- FOLD.STEP, R127
  deriving DecidableEq, Repr, Inhabited

end Sys2Proof
end

