-- ==== Sys2Proof/Machine/State.lean ====
section
/-! DEFINITION. The state of the machine as plain data: the decoder units (R13), the shared image state
(R30), the host agent with its file and program (R5, R110), the parameters (R6) and the model's own
fields (log entries 1, 4, 17), with the values after reset (R36). -/

namespace Sys2Proof.Machine

/-- A byte memory: the written bytes, addresses strictly rising. An address that is not listed holds no
value (R41), so no entry can equal what an unlisted address reads as. -/
abbrev Memory := List Host.Cell

/-- The address spaces of R37. -/
inductive Space where
  | pm | om | im | window
  deriving DecidableEq, Repr, Inhabited

/-- STATUS.STATE (R27). -/
inductive UnitState where
  | idle | busy | done | fault
  deriving DecidableEq, Repr, Inhabited

/-- The error kinds of R132. Kinds 1 and 2 are host results only. -/
inductive ErrKind where
  | none | missingHeader | missingPalette | corruptStream | illegalCommand | configError
  deriving DecidableEq, Repr, Inhabited

/-- The causes of R133. `unknownType` and `chunkPastEof` arise in the host only. -/
inductive Cause where
  | none | fwdExhaust | tailCross | litOverrun | distBeforeStart | distZero | matchOverrun
  | rawSizeMismatch | planeShort | unknownType | chunkPastEof | badOpcode | srcRange | dstRange
  | imgRange | bpcRange | planeRange | noPlaneData | noImage
  deriving DecidableEq, Repr, Inhabited

/-- Why the model stops. None of these is an outcome of the hardware (R41, R160): all are safe. -/
inductive Fault where
  /-- A block step read a byte that no write has defined (R41). Raised by the memory reads of the
  cursor reads, RAWCOPY, MCOPY and FOLD.STEP. Of exec this is the outcome; a step of the machine
  records it and stops the unit alone (log entry 8). Safe. -/
  | unwritten (m : Space) (addr : Nat)
  /-- An access outside an address space (R37). Raised by the memory operations and by host accesses
  to a PM byte or a window offset that does not exist. Safe. -/
  | noSuchAddress (m : Space) (addr : Nat)
  /-- A host access or an instruction for a unit number that is not below N_UNITS (R142). Safe. -/
  | noSuchUnit (u : Nat)
  /-- A BUSY unit whose PHASE is NONE has no next step (R21). No run reaches it. Safe. -/
  | noStep (u : Nat)
  deriving DecidableEq, Repr

/-- Why the model gives no meaning. All are safe. -/
inductive Refusal where
  /-- An instruction without a meaning yet. No arm of exec answers so in this model. Safe. -/
  | notModelled (mnemonic : String)
  /-- The row is not the one that the unit's STATE, PHASE and next symbol select (R70). Raised by the
  meanings of the symbol and internal rows; step never runs such a row. Safe. -/
  | rowNotSelected (p : Phase)
  /-- A register access that is not an aligned 32-bit access (R52, I25). Raised by the host agent. Safe. -/
  | badRegisterAccess (off width : Nat)
  /-- A parameter outside the ranges of R6 and R7 (I26). Raised by every step. Safe. -/
  | badParameter
  deriving DecidableEq, Repr

/-- A forward cursor: the pending word and the count of its unread bits (R14). -/
structure Cursor (w : Nat) where
  pend : BitVec w
  rem : Nat
  deriving DecidableEq, Repr

/-- A decoder unit (R13). Registers and fields that the rules treat as bits are bit vectors; counters
and offsets are naturals, which R106 bounds below 2^32 (R7, log entry 7). -/
structure DecUnit where
  c1 : Cursor 16
  c2 : Cursor 16
  cx : Cursor 16
  c4 : Cursor 32
  fwd : Nat
  off : Offsets
  tail : Nat
  wp : Nat
  phase : Phase
  litcnt : Nat
  midx : BitVec 4
  mbl : BitVec 4
  mbase : BitVec 16
  dist : Nat
  mlen : Nat
  srcLen : BitVec 32
  dstLen : BitVec 32
  width : BitVec 16
  height : BitVec 16
  bpc : BitVec 8
  plane : BitVec 8
  state : UnitState
  omValid : Bool
  lastOp : BitVec 4
  errKind : ErrKind
  errCause : Cause
  errPos : BitVec 32
  omLen : BitVec 32
  pm : Memory
  om : Memory
  deriving DecidableEq, Repr

/-- A unit after reset (R36). -/
def DecUnit.reset : DecUnit where
  c1 := ⟨0, 0⟩
  c2 := ⟨0, 0⟩
  cx := ⟨0, 0⟩
  c4 := ⟨0, 0⟩
  fwd := 0
  off := ⟨0, 0, 0, 0⟩
  tail := 0
  wp := 0
  phase := .none
  litcnt := 0
  midx := 0
  mbl := 0
  mbase := 0
  dist := 0
  mlen := 0
  srcLen := 0
  dstLen := 0
  width := 0
  height := 0
  bpc := 0
  plane := 0
  state := .idle
  omValid := false
  lastOp := 0
  errKind := .none
  errCause := .none
  errPos := 0
  omLen := 0
  pm := []
  om := []

/-- What a host program does, one action a step. The first group is R52's accesses, WAIT and the
reset event; the second is the container walker of R112 to R122; the third its parallel form, R123. -/
inductive HostAction where
  /-- Write `v` to the window of unit `u` at offset `off`, as an access of `width` bits (R23, R52). -/
  | regWrite (u off width : Nat) (v : BitVec 32)
  /-- Read the window of unit `u` at offset `off` (R23, R52). -/
  | regRead (u off width : Nat)
  /-- PM(u)[a ..] = bytes (R71, R119). -/
  | pmWrite (u a : Nat) (bytes : List Byte)
  /-- Read OM(u)[i] (R52). -/
  | omRead (u i : Nat)
  /-- Read IM[i] (R52). -/
  | imRead (i : Nat)
  /-- Write OM(u)[i]: ignored (R52). -/
  | omWrite (u i : Nat) (v : Byte)
  /-- Write IM[i]: ignored (R52). -/
  | imWrite (i : Nat) (v : Byte)
  /-- WAIT(u): until STATUS(u).STATE is not BUSY (R71, R119). -/
  | wait (u : Nat)
  /-- The external reset (R147). -/
  | reset
  /-- Start the whole-file procedure on unit `u` (R120). -/
  | walk (u : Nat)
  /-- The loop head of R120 on unit `u`: search from `s`, discovery index `j`. -/
  | findPlane (u s j : Nat)
  /-- Return Err(ERR_KIND) if unit `u` is in FAULT (R120). -/
  | stopIfFault (u : Nat)
  /-- Return Ok(W, H, IM, palette) (R120, R122). -/
  | returnOk
  /-- Start the whole-file procedure over all units (R123). -/
  | walkParallel
  /-- Start the next batch of planes, one a unit, from file offset `s`, discovery index `j` (R123). -/
  | batch (s j : Nat)
  /-- Note a failure of plane `j` if unit `u` is in FAULT (R123). -/
  | noteIfFault (u j : Nat)
  /-- Note a failure of plane `j` found in the file itself (R117, R118). -/
  | noteFailure (j : Nat) (c : Cause)
  /-- Fold plane `j` on unit `u` unless its decode failed (R123). -/
  | foldPlane (u j : Nat)
  /-- Return the error of the lowest-numbered failing plane if there is one (R123). -/
  | stopIfNoted
  deriving DecidableEq, Repr

/-- The host's result (R122). -/
inductive HostResult where
  | ok (w h : BitVec 16) (pixels : List Byte) (palette : List (Byte × Byte × Byte))
  | err (kind : ErrKind) (cause : Cause)
  deriving DecidableEq, Repr

/-- A failure noted by the parallel host: the plane, its kind and cause (R123). -/
structure Failure where
  plane : Nat
  kind : ErrKind
  cause : Cause
  deriving DecidableEq, Repr

/-- The host agent: its file (R110), the actions it has still to do, the value its last read returned,
the failures it noted and its result. -/
structure HostState where
  file : List Byte
  todo : List HostAction
  got : Option (BitVec 32)
  noted : List Failure
  result : Option HostResult
  deriving DecidableEq, Repr

/-- A host with nothing loaded (log entry 13). -/
def HostState.reset : HostState := ⟨[], [], none, [], none⟩

/-- A record of the model fault Unwritten: the unit that it stopped, and the byte that the unit's step
read (R41). -/
structure Stopped where
  unit : Nat
  space : Space
  addr : Nat
  deriving DecidableEq, Repr

/-- The whole machine: the parameters, the units, the shared image state (R30), the host agent, the units
stopped by R41, and the model's own fields: the unit that the instruction in hand belongs to, the
interleaving choices fixed so far and the counter of free values (log entries 1, 4, 8, 11, 17). -/
structure State where
  cfg : Config
  units : List DecUnit
  im : Memory
  imgW : BitVec 16
  imgH : BitVec 16
  imgBpc : BitVec 8
  imValid : Bool
  host : HostState
  cur : Nat
  choices : List Nat
  draws : Nat
  stopped : List Stopped
  deriving DecidableEq, Repr

/-- The machine after reset (R36, R147), for given parameters. -/
def State.resetWith (c : Config) : State where
  cfg := c
  units := List.replicate c.nUnits DecUnit.reset
  im := []
  imgW := 0
  imgH := 0
  imgBpc := 0
  imValid := false
  host := HostState.reset
  cur := 0
  choices := []
  draws := 0
  stopped := []

/-- The machine after reset, with R6's default parameters. -/
def State.reset : State := State.resetWith Config.default

/-- The outcome of a step of this machine. -/
abbrev Out := Host.Outcome State Fault Refusal

/-- The outcome of an operation inside a step: a value, `raise` of R9 with its cause and position, or a
stop of the model. -/
inductive Res (α : Type) where
  | ok (a : α)
  | raise (c : Cause) (pos : Nat)
  | stop (f : Fault)
  | refuse (r : Refusal)
  deriving DecidableEq, Repr

/-- What a step has fetched: an instruction with the state it runs in, or an outcome without one. -/
inductive Fetched where
  | run (i : Instr) (s : State)
  | out (o : Out)

end Sys2Proof.Machine
end

