-- ==== Sys2Proof/Machine/Ops.lean ====
section
/-! DEFINITION. The named operations that every meaning is built from: sequencing inside a step, byte
memories (R37, R41), the parameters' ranges (R6, R7), starting a job, fault entry (R134) and completion
(R102), and the three shapes of a step: a command's start step, a phase step and a symbol row. -/

namespace Sys2Proof.Machine

/-! ### Sequencing -/

/-- Go on with the value of an operation; a raise or a stop ends the step. -/
def Res.bind {α β : Type} (x : Res α) (f : α → Res β) : Res β :=
  match x with
  | .ok a => f a
  | .raise c pos => .raise c pos
  | .stop e => .stop e
  | .refuse r => .refuse r

/-- Apply a function to the value of an operation. -/
def Res.map {α β : Type} (f : α → β) (x : Res α) : Res β :=
  match x with
  | .ok a => .ok (f a)
  | .raise c pos => .raise c pos
  | .stop e => .stop e
  | .refuse r => .refuse r

/-! ### Writing one register of a unit -/

/-- C1 <- x (R9). -/
def DecUnit.setC1 (u : DecUnit) (x : Cursor 16) : DecUnit := { u with c1 := x }

/-- C2 <- x (R9). -/
def DecUnit.setC2 (u : DecUnit) (x : Cursor 16) : DecUnit := { u with c2 := x }

/-- CX <- x (R9). -/
def DecUnit.setCX (u : DecUnit) (x : Cursor 16) : DecUnit := { u with cx := x }

/-- C4 <- x (R9). -/
def DecUnit.setC4 (u : DecUnit) (x : Cursor 32) : DecUnit := { u with c4 := x }

/-- FWD <- x (R9). -/
def DecUnit.setFwd (u : DecUnit) (x : Nat) : DecUnit := { u with fwd := x }

/-- OFF <- x (R9). -/
def DecUnit.setOff (u : DecUnit) (x : Offsets) : DecUnit := { u with off := x }

/-- TAIL <- x (R9). -/
def DecUnit.setTail (u : DecUnit) (x : Nat) : DecUnit := { u with tail := x }

/-- WP <- x (R9). -/
def DecUnit.setWp (u : DecUnit) (x : Nat) : DecUnit := { u with wp := x }

/-- LITCNT <- x (R9). -/
def DecUnit.setLitcnt (u : DecUnit) (x : Nat) : DecUnit := { u with litcnt := x }

/-- DIST <- x (R9). -/
def DecUnit.setDist (u : DecUnit) (x : Nat) : DecUnit := { u with dist := x }

/-- MLEN <- x (R9). -/
def DecUnit.setMlen (u : DecUnit) (x : Nat) : DecUnit := { u with mlen := x }

/-- PM <- x (R9). -/
def DecUnit.setPm (u : DecUnit) (x : Memory) : DecUnit := { u with pm := x }

/-- OM <- x (R9). -/
def DecUnit.setOm (u : DecUnit) (x : Memory) : DecUnit := { u with om := x }

/-- MIDX, MBL and MBASE (R97). -/
def DecUnit.setIndex (u : DecUnit) (i b : BitVec 4) (base : BitVec 16) : DecUnit :=
  { u with midx := i, mbl := b, mbase := base }

/-! ### Byte memories -/

/-- The canonical form of a memory: addresses strictly rising. -/
abbrev Memory.wf (m : Memory) : Prop := m.Pairwise fun x y => x.1 < y.1

/-- Every written address of a memory lies in a space of `size` bytes (R37). -/
abbrev Memory.within (size : Nat) (m : Memory) : Prop := ∀ x ∈ m, x.1 < size

/-- The byte at an address, if some write has defined it (R41). -/
def Memory.read (m : Memory) (a : Nat) : Option Byte :=
  match m with
  | [] => none
  | (b, v) :: rest => if a = b then some v else Memory.read rest a

/-- Define the byte at an address. -/
def Memory.write (m : Memory) (a : Nat) (v : Byte) : Memory :=
  match m with
  | [] => [(a, v)]
  | (b, w) :: rest =>
    if a < b then (a, v) :: (b, w) :: rest
    else if a = b then (a, v) :: rest
    else (b, w) :: Memory.write rest a v

/-- A block read of one byte of a space of `size` bytes (R9, R37, R41). -/
def readByte (sp : Space) (size : Nat) (m : Memory) (a : Nat) : Res Byte :=
  if a < size then
    match m.read a with
    | some v => .ok v
    | none => .stop (.unwritten sp a)
  else .stop (.noSuchAddress sp a)

/-- A block write of one byte of a space of `size` bytes (R9, R37). -/
def writeByte (sp : Space) (size : Nat) (m : Memory) (a : Nat) (v : Byte) : Res Memory :=
  if a < size then .ok (m.write a v) else .stop (.noSuchAddress sp a)

/-- PMRead(i) (R9). -/
def pmRead (c : Config) (u : DecUnit) (i : Nat) : Res Byte := readByte .pm c.pmSize u.pm i

/-- OMRead(i) (R9). -/
def omRead (c : Config) (u : DecUnit) (i : Nat) : Res Byte := readByte .om c.omSize u.om i

/-- OMWrite(i, v) (R9). -/
def omWrite (c : Config) (u : DecUnit) (i : Nat) (v : Byte) : Res DecUnit :=
  (writeByte .om c.omSize u.om i v).map u.setOm

/-! ### Parameters -/

/-- The ranges of R6 and R7. IM_SIZE, the tags, INIT_OFF below 2^32 and PLANE_SEARCH_STEP are free
(log entries 3, 18). -/
def paramsValid (c : Config) : Bool :=
  1 ≤ c.nUnits
    && (65535 ≤ c.pmSize && c.pmSize < 2 ^ 25)
    && (65535 ≤ c.omSize && c.omSize < 2 ^ 31)
    && (c.rowAlign == 1 || c.rowAlign == 8 || c.rowAlign == 16)
    && (c.initOff.c1 < 2 ^ 32 && c.initOff.c2 < 2 ^ 32 && c.initOff.cx < 2 ^ 32 && c.initOff.c4 < 2 ^ 32)

/-! ### Jobs: start, fault entry and exit, completion -/

/-- Write PHASE (R9). -/
def DecUnit.goto (u : DecUnit) (p : Phase) : DecUnit := { u with phase := p }

/-- The assignments that open every start step (R88, R89, R124, R126, R135). This is also the only way
out of FAULT and DONE (R136). -/
def DecUnit.startJob (u : DecUnit) (op : BitVec 4) : DecUnit :=
  { u with state := .busy, lastOp := op, errKind := .none, errCause := .none, errPos := 0 }

/-- The kind of each cause (R133). -/
def Cause.kind : Cause → ErrKind
  | .none => .none
  | .fwdExhaust | .tailCross | .litOverrun | .distBeforeStart | .distZero | .matchOverrun
  | .rawSizeMismatch | .planeShort | .unknownType | .chunkPastEof => .corruptStream
  | .badOpcode => .illegalCommand
  | .srcRange | .dstRange | .imgRange | .bpcRange | .planeRange | .noPlaneData | .noImage => .configError

/-- Fault entry: what `raise` leaves in a unit (R134), applied to the unit as it was before the step. -/
def DecUnit.enterFault (u : DecUnit) (c : Cause) (pos : Nat) : DecUnit :=
  { u with state := .fault, errKind := c.kind, errCause := c, errPos := BitVec.ofNat 32 pos }

/-- done() (R102). -/
def DecUnit.finish (u : DecUnit) : DecUnit :=
  let d := { u with state := .done, phase := .none }
  if u.lastOp = 1#4 ∨ u.lastOp = 2#4 then { d with omValid := true, omLen := u.dstLen } else d

/-! ### The shapes of a step -/

/-- The unit that the instruction in hand belongs to (log entry 11). -/
def State.unit? (s : State) : Option DecUnit := s.units[s.cur]?

/-- Replace that unit. -/
def State.setUnit (s : State) (u : DecUnit) : State := { s with units := s.units.set s.cur u }

/-- End a step with the outcome of its operations: `before` is the unit that a raise leaves, up to fault
entry (R10, R134). -/
def settle (s : State) (before : DecUnit) (r : Res State) : Out :=
  match r with
  | .ok t => .next t
  | .raise c pos => .next (s.setUnit (before.enterFault c pos))
  | .stop f => .fault f
  | .refuse e => .refused e

/-- A command's start step (R24, R138): ignored by a BUSY unit; otherwise `prep` are the assignments
above the first check, which a raise keeps (R10), and `body` is the rest. A raise leaves PHASE at NONE
(R21, log entry 9). -/
def commandStep (s : State) (op : BitVec 4) (prep : DecUnit → DecUnit)
    (body : State → DecUnit → Res State) : Out :=
  match s.unit? with
  | none => .fault (.noSuchUnit s.cur)
  | some u =>
    if u.state = .busy then .next s
    else settle s ((prep (u.startJob op)).goto .none) (body s (prep (u.startJob op)))

/-- A step of phase `p` (R10, R91): the unit must be BUSY in that phase (R70). -/
def phaseStep (s : State) (p : Phase) (body : State → DecUnit → Res State) : Out :=
  match s.unit? with
  | none => .fault (.noSuchUnit s.cur)
  | some u =>
    if u.state = .busy ∧ u.phase = p then settle s u (body s u)
    else .refused (.rowNotSelected p)

/-- The model fault Unwritten: record the byte and stop the unit in hand (R10, R41). DESIGN CHOICE, unsafe in
part: R41 does not say what a stopped unit shows; here the step is undone and the unit stays BUSY (log entry 8). -/
def State.stopUnit (s : State) (m : Space) (a : Nat) : State := { s with stopped := ⟨s.cur, m, a⟩ :: s.stopped }

/-- Whether R41 has stopped unit k. -/
def isStopped (l : List Stopped) (k : Nat) : Bool := l.any fun x => x.unit == k

/-- What the machine makes of a unit's step in `s`: Unwritten stops that unit alone (R41); every other
outcome stands. -/
def recordStop (s : State) (o : Out) : Out :=
  match o with
  | .fault (.unwritten m a) => .next (s.stopUnit m a)
  | .fault f => .fault f
  | .next t => .next t
  | .refused r => .refused r

/-- A phase step that touches its own unit only. -/
def unitStep (s : State) (p : Phase) (body : Config → DecUnit → Res DecUnit) : Out :=
  phaseStep s p fun s u => (body s.cfg u).map s.setUnit

/-- The step of a symbol row: read the symbol; it must be the row's (R70); then act. -/
def symbolStep {w : Nat} (s : State) (p : Phase) (rd : Config → DecUnit → Res (BitVec w × DecUnit))
    (v : BitVec w) (act : DecUnit → DecUnit) : Out :=
  unitStep s p fun c u => (rd c u).bind fun x =>
    if x.1 = v then .ok (act x.2) else .refuse (.rowNotSelected p)

end Sys2Proof.Machine
end

