-- ==== Sys2Proof/Machine/Operands.lean ====
section
/-! DEFINITION. Every form in which a step takes its operands: the reads of the five cursors over PM
(R73 to R80) and the VLC distance table (R83 to R86). -/

namespace Sys2Proof.Machine

/-! ### Byte orders (R8) -/

/-- BE16 (R8). -/
def be16 (b0 b1 : Byte) : BitVec 16 := b0 ++ b1

/-- BE32 (R8). -/
def be32 (b0 b1 b2 b3 : Byte) : BitVec 32 := b0 ++ b1 ++ b2 ++ b3

/-- LE32 (R8). -/
def le32 (b0 b1 b2 b3 : Byte) : BitVec 32 := b3 ++ b2 ++ b1 ++ b0

/-! ### The forward index (R16 to R18) -/

/-- OFF[k] (R17). -/
def offGet (o : Offsets) : CursorId → Nat
  | .c1 => o.c1
  | .c2 => o.c2
  | .cx => o.cx
  | .c4 => o.c4

/-- OFF[k] <- n (R17). -/
def offPut (o : Offsets) (k : CursorId) (n : Nat) : Offsets :=
  match k with
  | .c1 => { o with c1 := n }
  | .c2 => { o with c2 := n }
  | .cx => { o with cx := n }
  | .c4 => { o with c4 := n }

/-- Where the next refill of cursor k starts: FWD or OFF[k] (R74). -/
def forwardPos (c : Config) (u : DecUnit) (k : CursorId) : Nat :=
  match c.fwdMode with
  | .shared => u.fwd
  | .independent => offGet u.off k

/-- FWD or OFF[k] <- n (R74). -/
def setForward (c : Config) (u : DecUnit) (k : CursorId) (n : Nat) : DecUnit :=
  match c.fwdMode with
  | .shared => u.setFwd n
  | .independent => u.setOff (offPut u.off k n)

/-- FwdHi, the forward high-water mark (R18). -/
def fwdHi (c : Config) (u : DecUnit) : Nat :=
  match c.fwdMode with
  | .shared => u.fwd
  | .independent => max (max u.off.c1 u.off.c2) (max u.off.cx u.off.c4)

/-- CursorInit (R73). -/
def cursorInit (c : Config) (u : DecUnit) : DecUnit :=
  let v := ((((u.setC1 ⟨0, 0⟩).setC2 ⟨0, 0⟩).setCX ⟨0, 0⟩).setC4 ⟨0, 0⟩).setTail u.srcLen.toNat
  match c.fwdMode with
  | .shared => v.setFwd 0
  | .independent => v.setOff c.initOff

/-! ### Refills (R74, R75) -/

/-- ForwardTake(k, w) up to its bytes: the start of the w bytes, and the unit past them (R74). DEDUCED, unsafe:
the check is of cursor k's own index, so the first refill that R82 speaks of where max(INIT_OFF) > SRC_LEN is
the first of a cursor whose own OFF[k] is too high (log entry 28). -/
def forwardTake (c : Config) (u : DecUnit) (k : CursorId) (w : Nat) : Res (Nat × DecUnit) :=
  let p := forwardPos c u k
  if u.tail < p + w then .raise .fwdExhaust u.wp else .ok (p, setForward c u k (p + w))

/-- The refill word of an MSB cursor: two bytes, BE16 (R42, R75). -/
def take16 (c : Config) (u : DecUnit) (k : CursorId) : Res (BitVec 16 × DecUnit) :=
  (forwardTake c u k 2).bind fun t =>
    (pmRead c u t.1).bind fun b0 =>
    (pmRead c u (t.1 + 1)).bind fun b1 =>
    .ok (be16 b0 b1, t.2)

/-- The refill word of C4: four bytes in LSB_WORD_ORDER (R43, R75). -/
def take32 (c : Config) (u : DecUnit) : Res (BitVec 32 × DecUnit) :=
  (forwardTake c u .c4 4).bind fun t =>
    (pmRead c u t.1).bind fun b0 =>
    (pmRead c u (t.1 + 1)).bind fun b1 =>
    (pmRead c u (t.1 + 2)).bind fun b2 =>
    (pmRead c u (t.1 + 3)).bind fun b3 =>
    .ok (match c.lsbWordOrder with | .le => le32 b0 b1 b2 b3 | .be => be32 b0 b1 b2 b3, t.2)

/-- C1 with an unread bit: refilled when it has none (R75, R76). -/
def readyC1 (c : Config) (u : DecUnit) : Res DecUnit :=
  if u.c1.rem = 0 then (take16 c u .c1).map fun t => t.2.setC1 ⟨t.1, 16⟩ else .ok u

/-- C2 with unread bits: refilled when it has none (R75, R77). -/
def readyC2 (c : Config) (u : DecUnit) : Res DecUnit :=
  if u.c2.rem = 0 then (take16 c u .c2).map fun t => t.2.setC2 ⟨t.1, 16⟩ else .ok u

/-- CX with an unread bit: refilled when it has none (R75, R78). -/
def readyCX (c : Config) (u : DecUnit) : Res DecUnit :=
  if u.cx.rem = 0 then (take16 c u .cx).map fun t => t.2.setCX ⟨t.1, 16⟩ else .ok u

/-- C4 with unread bits: refilled when it has none (R75, R79). -/
def readyC4 (c : Config) (u : DecUnit) : Res DecUnit :=
  if u.c4.rem = 0 then (take32 c u).map fun t => t.2.setC4 ⟨t.1, 32⟩ else .ok u

/-! ### Symbol reads -/

/-- READ1 (R76). -/
def read1 (c : Config) (u : DecUnit) : Res (BitVec 1 × DecUnit) :=
  (readyC1 c u).map fun v =>
    (v.c1.pend.extractLsb' (v.c1.rem - 1) 1, v.setC1 ⟨v.c1.pend, v.c1.rem - 1⟩)

/-- READ2 (R77). -/
def read2 (c : Config) (u : DecUnit) : Res (BitVec 2 × DecUnit) :=
  (readyC2 c u).map fun v =>
    (v.c2.pend.extractLsb' (v.c2.rem - 2) 2, v.setC2 ⟨v.c2.pend, v.c2.rem - 2⟩)

/-- One turn of READX's loop: the next bit of CX (R78). -/
def readXBit (c : Config) (u : DecUnit) : Res (BitVec 1 × DecUnit) :=
  (readyCX c u).map fun v =>
    (v.cx.pend.extractLsb' (v.cx.rem - 1) 1, v.setCX ⟨v.cx.pend, v.cx.rem - 1⟩)

/-- READX's loop: n more bits behind the r read so far (R78). -/
def readXFrom (n r : Nat) (c : Config) (u : DecUnit) : Res (Nat × DecUnit) :=
  match n with
  | 0 => .ok (r, u)
  | n + 1 => (readXBit c u).bind fun x => readXFrom n (2 * r + x.1.toNat) c x.2

/-- READX(n) (R78). -/
def readX (n : Nat) (c : Config) (u : DecUnit) : Res (Nat × DecUnit) := readXFrom n 0 c u

/-- READ4 (R79). -/
def read4 (c : Config) (u : DecUnit) : Res (BitVec 4 × DecUnit) :=
  (readyC4 c u).map fun v =>
    (v.c4.pend.extractLsb' 0 4, v.setC4 ⟨v.c4.pend >>> 4, v.c4.rem - 4⟩)

/-- TAILBYTE (R80). -/
def tailByte (c : Config) (u : DecUnit) : Res (Byte × DecUnit) :=
  if u.tail ≤ fwdHi c u then .raise .tailCross u.wp
  else (pmRead c u (u.tail - 1)).map fun b => (b, u.setTail (u.tail - 1))

/-! ### The VLC distance table -/

/-- The seeds (R83). -/
def vlcSeeds : List Int := [4, 6, 8, 9, -4, 7, 9, 11, 13, 14, -5, 7, 9, 11, 13, 14]

/-- The table-building algorithm, from a running `length` (R84). -/
def buildVlc (length : Nat) (seeds : List Int) : List (Nat × Nat) :=
  match seeds with
  | [] => []
  | v :: rest =>
    if v < 0 then (v.natAbs, 0) :: buildVlc (2 ^ v.natAbs) rest
    else (v.natAbs, length) :: buildVlc (length + 2 ^ v.natAbs) rest

/-- The sixteen (MBL, MBASE) entries, as R85 lists them. -/
def vlcTable : List (Nat × Nat) :=
  [(4, 0), (6, 16), (8, 80), (9, 336), (4, 0), (7, 16), (9, 144), (11, 656),
    (13, 2704), (14, 10896), (5, 0), (7, 32), (9, 160), (11, 672), (13, 2720), (14, 10912)]

/-- VLC_LOOKUP(I) (R86): MBL and MBASE. -/
def vlcLookup (i : BitVec 4) : BitVec 4 × BitVec 16 :=
  let e := vlcTable.getD i.toNat (0, 0)
  (BitVec.ofNat 4 e.1, BitVec.ofNat 16 e.2)

end Sys2Proof.Machine
end

