-- ==== Sys2Proof/Machine/Flags.lean ====
section
/-! DEFINITION. The NPD's only flags are the fields of STATUS (R33). Here are their codes (R21, R27, R132,
R133), the STATUS word, and the register window built on them (R23, R28). -/

namespace Sys2Proof.Machine

/-- The code of STATE (R27). -/
def UnitState.code : UnitState → BitVec 2
  | .idle => 0
  | .busy => 1
  | .done => 2
  | .fault => 3

/-- The code of PHASE (R21). -/
def phaseCode : Phase → BitVec 4
  | .none => 0
  | .ctrl => 1
  | .litsel => 2
  | .litcode => 3
  | .litcopy => 4
  | .endchk => 5
  | .midx => 6
  | .mdist => 7
  | .mlen2 => 8
  | .mlenn => 9
  | .mcopy => 10
  | .rawcopy => 11
  | .imgclear => 12
  | .fold => 13

/-- The code of an error kind (R132). -/
def ErrKind.code : ErrKind → BitVec 8
  | .none => 0
  | .missingHeader => 1
  | .missingPalette => 2
  | .corruptStream => 3
  | .illegalCommand => 4
  | .configError => 5

/-- The code of a cause (R133). -/
def Cause.code : Cause → BitVec 8
  | .none => 0x00
  | .fwdExhaust => 0x01
  | .tailCross => 0x02
  | .litOverrun => 0x03
  | .distBeforeStart => 0x04
  | .distZero => 0x05
  | .matchOverrun => 0x06
  | .rawSizeMismatch => 0x07
  | .planeShort => 0x08
  | .unknownType => 0x09
  | .chunkPastEof => 0x0A
  | .badOpcode => 0x10
  | .srcRange => 0x11
  | .dstRange => 0x12
  | .imgRange => 0x13
  | .bpcRange => 0x14
  | .planeRange => 0x15
  | .noPlaneData => 0x16
  | .noImage => 0x17

/-- The STATUS word: the fields of R27, from bit 31 down. IM_VALID is the shared flag (R30). -/
def statusWord (u : DecUnit) (imValid : Bool) : BitVec 32 :=
  0#8 ++ u.errCause.code ++ u.errKind.code ++ u.lastOp ++ BitVec.ofBool imValid
    ++ BitVec.ofBool u.omValid ++ u.state.code

/-- A read of the window at an aligned offset below 64 (R23, R28). CMD and the reserved offsets read 0. -/
def readReg (c : Config) (imValid : Bool) (u : DecUnit) (off : Nat) : BitVec 32 :=
  match off with
  | 0x04 => u.srcLen
  | 0x08 => u.dstLen
  | 0x0C => u.width.setWidth 32
  | 0x10 => u.height.setWidth 32
  | 0x14 => u.bpc.setWidth 32
  | 0x18 => u.plane.setWidth 32
  | 0x1C => statusWord u imValid
  | 0x20 => u.errPos
  | 0x24 => BitVec.ofNat 32 u.wp
  | 0x28 => BitVec.ofNat 32 (fwdHi c u)
  | 0x2C => BitVec.ofNat 32 u.tail
  | 0x30 => (phaseCode u.phase).setWidth 32
  | 0x34 => u.omLen
  | _ => 0

/-- A write of the window at an aligned offset other than CMD's (R23): ignored by a BUSY unit (R138), by
read-only registers and by reserved offsets; bits above a register's used width are ignored. -/
def writeReg (u : DecUnit) (off : Nat) (v : BitVec 32) : DecUnit :=
  if u.state = .busy then u
  else
    match off with
    | 0x04 => { u with srcLen := v }
    | 0x08 => { u with dstLen := v }
    | 0x0C => { u with width := v.setWidth 16 }
    | 0x10 => { u with height := v.setWidth 16 }
    | 0x14 => { u with bpc := v.setWidth 8 }
    | 0x18 => { u with plane := v.setWidth 8 }
    | _ => u

end Sys2Proof.Machine
end

