-- ==== Sys2Proof/Machine/Commands.lean ====
section
/-! DEFINITION. The commands: the start steps of DECODE and COPY_RAW (R88, R89), IMG_CLEAR and FOLD (R124,
R126), and of the reserved OPs (R59, R135). -/

namespace Sys2Proof.Machine

/-- `if bad: raise ...` in a start step. -/
def refuseIf (bad : Prop) [Decidable bad] (c : Cause) (pos : Nat) (rest : Res State) : Res State :=
  if bad then .raise c pos else rest

/-- OM_VALID <- 0; OM_LEN <- 0 (R29). -/
def clearOutput (u : DecUnit) : DecUnit := { u with omValid := false, omLen := 0 }

/-- The two range checks that DECODE and COPY_RAW share (R88, R89). -/
def checkRanges (c : Config) (u : DecUnit) (rest : Res State) : Res State :=
  refuseIf (c.pmSize < u.srcLen.toNat) .srcRange u.srcLen.toNat
    (refuseIf (c.omSize < u.dstLen.toNat) .dstRange u.dstLen.toNat rest)

/-- DECODE (R88). -/
def execDecode (_ignored : BitVec 28) (s : State) : Out :=
  commandStep s 1#4 clearOutput fun s u =>
    checkRanges s.cfg u (.ok (s.setUnit (((cursorInit s.cfg u).setWp 0).goto .ctrl)))

/-- COPY_RAW (R89). -/
def execCopyRaw (_ignored : BitVec 28) (s : State) : Out :=
  commandStep s 2#4 clearOutput fun s u =>
    checkRanges s.cfg u
      (refuseIf (u.srcLen ≠ u.dstLen) .rawSizeMismatch u.srcLen.toNat
        (.ok (s.setUnit ((u.setWp 0).goto .rawcopy))))

/-- IMG_CLEAR (R124). It leaves WP, where R20 has it 0 at job start: log entry 27 (DEDUCED, unsafe). -/
def execImgClear (_ignored : BitVec 28) (s : State) : Out :=
  commandStep s 3#4 id fun s u =>
    refuseIf (8 < u.bpc.toNat) .bpcRange u.bpc.toNat
      (refuseIf (s.cfg.imSize < u.width.toNat * u.height.toNat) .imgRange (u.width.toNat * u.height.toNat)
        (.ok ({ s with imValid := false }.setUnit (u.goto .imgclear))))

/-- S, the row stride in bits: ceil(IMG_W / ROW_ALIGN) * ROW_ALIGN (45_plane_assembler). -/
def stride (c : Config) (w : Nat) : Nat := (w + (c.rowAlign - 1)) / c.rowAlign * c.rowAlign

/-- FOLD (R126). It leaves WP, where R20 has it 0 at job start: log entry 27 (DEDUCED, unsafe). -/
def execFold (_ignored : BitVec 28) (s : State) : Out :=
  commandStep s 4#4 id fun s u =>
    refuseIf (s.imValid = false) .noImage 0
      (refuseIf (s.imgBpc.toNat ≤ u.plane.toNat) .planeRange u.plane.toNat
        (refuseIf (u.omValid = false) .noPlaneData 0
          (refuseIf (8 * u.omLen.toNat < s.imgH.toNat * stride s.cfg s.imgW.toNat) .planeShort u.omLen.toNat
            (.ok (s.setUnit (u.goto .fold))))))

/-- A reserved OP (R59, R135). -/
def illegalStep (op : BitVec 4) (s : State) : Out :=
  commandStep s op id fun _ _ => .raise .badOpcode op.toNat

/-- OP 0 (R135). -/
def execIllegal0 (_ignored : BitVec 28) (s : State) : Out := illegalStep 0#4 s

/-- OP 5 (R135). -/
def execIllegal5 (_ignored : BitVec 28) (s : State) : Out := illegalStep 5#4 s

/-- OP 6 and 7 (R135). -/
def execIllegal67 (op0 : BitVec 1) (_ignored : BitVec 28) (s : State) : Out := illegalStep (3#3 ++ op0) s

/-- OP 8 to 15 (R135). -/
def execIllegal8F (op20 : BitVec 3) (_ignored : BitVec 28) (s : State) : Out := illegalStep (1#1 ++ op20) s

end Sys2Proof.Machine
end

