-- ==== Sys2Proof/Machine/Image.lean ====
section
/-! DEFINITION. The steps of the plane assembler that work on IM: IMGCLEAR (R125) and FOLD.STEP (R127). -/

namespace Sys2Proof.Machine

/-- The loop of R125: IMWrite(i, 0) for n indices from i up. -/
def clearFrom (n i : Nat) (c : Config) (im : Memory) : Res Memory :=
  match n with
  | 0 => .ok im
  | n + 1 => (writeByte .im c.imSize im i 0).bind fun m => clearFrom n (i + 1) c m

/-- IMGCLEAR (R125). -/
def execImgclear (s : State) : Out :=
  phaseStep s .imgclear fun s u =>
    (clearFrom (u.width.toNat * u.height.toNat) 0 s.cfg s.im).map fun m =>
      { s with im := m, imgW := u.width, imgH := u.height, imgBpc := u.bpc, imValid := true }.setUnit u.finish

/-- The plane bit of pixel k = y * IMG_W + x: bit index i = y * S + x of OM, MSB first (R44, R127). -/
def planeBit (c : Config) (w : Nat) (om : Memory) (k : Nat) : Res (BitVec 1) :=
  let i := k / w * stride c w + k % w
  (readByte .om c.omSize om (i / 8)).map fun b => b.extractLsb' (7 - i % 8) 1

/-- The loops of R127 over the pixels, row by row: n pixels from pixel k up. -/
def foldFrom (n k : Nat) (c : Config) (w plane : Nat) (om im : Memory) : Res Memory :=
  match n with
  | 0 => .ok im
  | n + 1 => (planeBit c w om k).bind fun b =>
      (readByte .im c.imSize im k).bind fun v =>
      (writeByte .im c.imSize im k (v ||| (b.setWidth 8) <<< plane)).bind fun m =>
      foldFrom n (k + 1) c w plane om m

/-- FOLD.STEP (R127). -/
def execFoldStep (s : State) : Out :=
  phaseStep s .fold fun s u =>
    (foldFrom (s.imgW.toNat * s.imgH.toNat) 0 s.cfg s.imgW.toNat u.plane.toNat u.om s.im).map fun m =>
      { s with im := m }.setUnit u.finish

end Sys2Proof.Machine
end

