-- ==== Sys2Proof/Machine/Literal.lean ====
section
/-! DEFINITION. The rows of the literal phases CTRL, LITSEL, LITCODE, LITCOPY and ENDCHK (R92 to R96), and
RAWCOPY (R90), the other step that fills OM. -/

namespace Sys2Proof.Machine

/-! ### CTRL (R92) and LITSEL (R93) -/

/-- CTRL.LIT: F = 0, a literal block follows (R92). With LITSEL's S, a one-byte block takes 2 bits of C1
(R62, R71, R93); that this holds against R69's count of 1 is log entry 26 (DEDUCED, unsafe). -/
def execCtrlLit (s : State) : Out := symbolStep s .ctrl read1 0#1 fun u => u.goto .litsel

/-- CTRL.NOLIT: F = 1, no literal block (R92). -/
def execCtrlNolit (s : State) : Out := symbolStep s .ctrl read1 1#1 fun u => u.goto .endchk

/-- LIT.EXT: S = 0, a length code follows (R93). -/
def execLitExt (s : State) : Out :=
  symbolStep s .litsel read1 0#1 fun u => (u.setLitcnt 0).goto .litcode

/-- LIT.ONE: S = 1, a run of one byte (R93), and the block's second bit of C1, where R69
counts one (log entry 26: DEDUCED, unsafe). -/
def execLitOne (s : State) : Out :=
  symbolStep s .litsel read1 1#1 fun u => (u.setLitcnt 1).goto .litcopy

/-! ### LITCODE (R94) -/

/-- LITCODE.CONT: Lc = 0 adds 3 and goes on (R94). -/
def execLitcodeCont (s : State) : Out :=
  symbolStep s .litcode read2 0#2 fun u => (u.setLitcnt (u.litcnt + 3)).goto .litcode

/-- A stopping code t in 1..3 adds 5 - t (R94). -/
def litcodeStop (t : BitVec 2) (s : State) : Out :=
  symbolStep s .litcode read2 t fun u => (u.setLitcnt (u.litcnt + (5 - t.toNat))).goto .litcopy

/-- LITCODE.ADD4: Lc = 1 (R94). -/
def execLitcodeAdd4 (s : State) : Out := litcodeStop 1#2 s

/-- LITCODE.ADD3: Lc = 2 (R94). -/
def execLitcodeAdd3 (s : State) : Out := litcodeStop 2#2 s

/-- LITCODE.ADD2: Lc = 3 (R94). -/
def execLitcodeAdd2 (s : State) : Out := litcodeStop 3#2 s

/-! ### LITCOPY (R95) -/

/-- The loop of R95: copy n bytes from the tail to OM[WP ..]. -/
def copyLiterals (n : Nat) (c : Config) (u : DecUnit) : Res DecUnit :=
  match n with
  | 0 => .ok u
  | n + 1 => (tailByte c u).bind fun x =>
      (omWrite c x.2 x.2.wp x.1).bind fun v => copyLiterals n c (v.setWp (v.wp + 1))

/-- The body of R95. -/
def literalBody (c : Config) (u : DecUnit) : Res DecUnit :=
  if u.dstLen.toNat < u.wp + u.litcnt then .raise .litOverrun u.wp
  else (copyLiterals u.litcnt c u).map fun v => v.goto .endchk

/-- LITCOPY (R95). -/
def execLitcopy (s : State) : Out := unitStep s .litcopy literalBody

/-! ### ENDCHK (R96) -/

/-- ENDCHK (R96). -/
def execEndchk (s : State) : Out :=
  unitStep s .endchk fun _ u => .ok (if u.wp = u.dstLen.toNat then u.finish else u.goto .midx)

/-! ### RAWCOPY (R90) -/

/-- The loop of R90: copy n bytes of PM to OM from index i up. -/
def copyRawFrom (n i : Nat) (c : Config) (u : DecUnit) : Res DecUnit :=
  match n with
  | 0 => .ok u
  | n + 1 => (pmRead c u i).bind fun b => (omWrite c u i b).bind fun v => copyRawFrom n (i + 1) c v

/-- RAWCOPY (R90). It writes WP as R90's pseudocode does, where R20 leaves WP to the literal and match copies; which
of the two holds is log entry 27 (DEDUCED, unsafe). -/
def execRawcopy (s : State) : Out :=
  unitStep s .rawcopy fun c u =>
    (copyRawFrom u.dstLen.toNat 0 c u).map fun v => (v.setWp v.dstLen.toNat).finish

end Sys2Proof.Machine
end

