-- ==== Sys2Proof/Machine/Match.lean ====
section
/-! DEFINITION. The rows of the match phases MIDX, MDIST, MLEN2, MLENN and MCOPY (R97 to R101). -/

namespace Sys2Proof.Machine

/-! ### MIDX (R97): one row for each of the sixteen indices -/

/-- The step of R97 for the index i. -/
def midxStep (i : BitVec 4) (s : State) : Out :=
  symbolStep s .midx read4 i fun u =>
    (u.setIndex i (vlcLookup i).1 (vlcLookup i).2).goto .mdist

/-- MIDX.0 (R97). -/
def execMidx0 (s : State) : Out := midxStep 0#4 s

/-- MIDX.1 (R97). -/
def execMidx1 (s : State) : Out := midxStep 1#4 s

/-- MIDX.2 (R97). -/
def execMidx2 (s : State) : Out := midxStep 2#4 s

/-- MIDX.3 (R97). -/
def execMidx3 (s : State) : Out := midxStep 3#4 s

/-- MIDX.4 (R97). -/
def execMidx4 (s : State) : Out := midxStep 4#4 s

/-- MIDX.5 (R97). -/
def execMidx5 (s : State) : Out := midxStep 5#4 s

/-- MIDX.6 (R97). -/
def execMidx6 (s : State) : Out := midxStep 6#4 s

/-- MIDX.7 (R97). -/
def execMidx7 (s : State) : Out := midxStep 7#4 s

/-- MIDX.8 (R97). -/
def execMidx8 (s : State) : Out := midxStep 8#4 s

/-- MIDX.9 (R97). -/
def execMidx9 (s : State) : Out := midxStep 9#4 s

/-- MIDX.10 (R97). -/
def execMidx10 (s : State) : Out := midxStep 10#4 s

/-- MIDX.11 (R97). -/
def execMidx11 (s : State) : Out := midxStep 11#4 s

/-- MIDX.12 (R97). -/
def execMidx12 (s : State) : Out := midxStep 12#4 s

/-- MIDX.13 (R97). -/
def execMidx13 (s : State) : Out := midxStep 13#4 s

/-- MIDX.14 (R97). -/
def execMidx14 (s : State) : Out := midxStep 14#4 s

/-- MIDX.15 (R97). -/
def execMidx15 (s : State) : Out := midxStep 15#4 s

/-! ### MDIST (R98) -/

/-- The rest of R98 once the extra bits e are read. -/
def setDistance (e : Nat) (u : DecUnit) : DecUnit :=
  let v := u.setDist (u.mbase.toNat + e)
  if u.midx.toNat < 4 then (v.setMlen 2).goto .mcopy
  else if u.midx.toNat < 10 then (v.setMlen 3).goto .mcopy
  else v.goto .mlen2

/-- MDIST with a symbol of n bits and value e (R98): n must be MBL. -/
def execMdist (n : BitVec 4) (e : BitVec 14) (s : State) : Out :=
  unitStep s .mdist fun c u => (readX u.mbl.toNat c u).bind fun x =>
    if u.mbl = n ∧ x.1 = e.toNat then .ok (setDistance x.1 x.2) else .refuse (.rowNotSelected .mdist)

/-! ### MLEN2 (R99) -/

/-- MLEN2.EXT: Mc = 0, a nibble code follows (R99). -/
def execMlen2Ext (s : State) : Out :=
  symbolStep s .mlen2 read2 0#2 fun u => (u.setMlen 6).goto .mlenn

/-- A code t in 1..3 gives the length 3 + (4 - t) (R99). -/
def mlen2Stop (t : BitVec 2) (s : State) : Out :=
  symbolStep s .mlen2 read2 t fun u => (u.setMlen (3 + (4 - t.toNat))).goto .mcopy

/-- MLEN2.L6: Mc = 1 (R99). -/
def execMlen2L6 (s : State) : Out := mlen2Stop 1#2 s

/-- MLEN2.L5: Mc = 2 (R99). -/
def execMlen2L5 (s : State) : Out := mlen2Stop 2#2 s

/-- MLEN2.L4: Mc = 3 (R99). -/
def execMlen2L4 (s : State) : Out := mlen2Stop 3#2 s

/-! ### MLENN (R100) -/

/-- MLENN.CONT: N = 0 adds 15 and goes on (R100). -/
def execMlennCont (s : State) : Out :=
  symbolStep s .mlenn read4 0#4 fun u => (u.setMlen (u.mlen + 15)).goto .mlenn

/-- A stopping nibble t in 1..15 adds 16 - t (R100). -/
def mlennStop (t : BitVec 4) (s : State) : Out :=
  symbolStep s .mlenn read4 t fun u => (u.setMlen (u.mlen + (16 - t.toNat))).goto .mcopy

/-- MLENN.ADD1: N = 15 (R100). -/
def execMlennAdd1 (s : State) : Out := mlennStop 15#4 s

/-- MLENN.ADD2: N = 14 (R100). -/
def execMlennAdd2 (s : State) : Out := mlennStop 14#4 s

/-- MLENN.ADD3: N = 13 (R100). -/
def execMlennAdd3 (s : State) : Out := mlennStop 13#4 s

/-- MLENN.ADD4: N = 12 (R100). -/
def execMlennAdd4 (s : State) : Out := mlennStop 12#4 s

/-- MLENN.ADD5: N = 11 (R100). -/
def execMlennAdd5 (s : State) : Out := mlennStop 11#4 s

/-- MLENN.ADD6: N = 10 (R100). -/
def execMlennAdd6 (s : State) : Out := mlennStop 10#4 s

/-- MLENN.ADD7: N = 9 (R100). -/
def execMlennAdd7 (s : State) : Out := mlennStop 9#4 s

/-- MLENN.ADD8: N = 8 (R100). -/
def execMlennAdd8 (s : State) : Out := mlennStop 8#4 s

/-- MLENN.ADD9: N = 7 (R100). -/
def execMlennAdd9 (s : State) : Out := mlennStop 7#4 s

/-- MLENN.ADD10: N = 6 (R100). -/
def execMlennAdd10 (s : State) : Out := mlennStop 6#4 s

/-- MLENN.ADD11: N = 5 (R100). -/
def execMlennAdd11 (s : State) : Out := mlennStop 5#4 s

/-- MLENN.ADD12: N = 4 (R100). -/
def execMlennAdd12 (s : State) : Out := mlennStop 4#4 s

/-- MLENN.ADD13: N = 3 (R100). -/
def execMlennAdd13 (s : State) : Out := mlennStop 3#4 s

/-- MLENN.ADD14: N = 2 (R100). -/
def execMlennAdd14 (s : State) : Out := mlennStop 2#4 s

/-- MLENN.ADD15: N = 1 (R100). -/
def execMlennAdd15 (s : State) : Out := mlennStop 1#4 s

/-! ### MCOPY (R101) -/

/-- The loop of R101: copy n bytes upward, one at a time, each read seeing the writes before it (R156). -/
def copyMatch (n : Nat) (c : Config) (u : DecUnit) : Res DecUnit :=
  match n with
  | 0 => .ok u
  | n + 1 => (omRead c u (u.wp - u.dist)).bind fun b =>
      (omWrite c u u.wp b).bind fun v => copyMatch n c (v.setWp (v.wp + 1))

/-- The body of R101. -/
def matchBody (c : Config) (u : DecUnit) : Res DecUnit :=
  if u.dist = 0 then .raise .distZero u.wp
  else if u.wp < u.dist then .raise .distBeforeStart u.wp
  else if u.dstLen.toNat < u.wp + u.mlen then .raise .matchOverrun u.wp
  else (copyMatch u.mlen c u).map fun v => v.goto .ctrl

/-- MCOPY (R101). -/
def execMcopy (s : State) : Out := unitStep s .mcopy matchBody

end Sys2Proof.Machine
end

