-- ==== Sys2Proof/Machine/Dispatch.lean ====
section
/-! DEFINITION. exec: one arm for each instruction, in the order of opcode_table.json. -/

namespace Sys2Proof.Machine

def exec (i : Instr) (s : State) : Host.Outcome State Fault Refusal :=
  match i with
  | .decode ignored => Sys2Proof.Machine.execDecode ignored s
  | .copyRaw ignored => Sys2Proof.Machine.execCopyRaw ignored s
  | .imgClear ignored => Sys2Proof.Machine.execImgClear ignored s
  | .fold ignored => Sys2Proof.Machine.execFold ignored s
  | .illegal0 ignored => Sys2Proof.Machine.execIllegal0 ignored s
  | .illegal5 ignored => Sys2Proof.Machine.execIllegal5 ignored s
  | .illegal67 op0 ignored => Sys2Proof.Machine.execIllegal67 op0 ignored s
  | .illegal8F op20 ignored => Sys2Proof.Machine.execIllegal8F op20 ignored s
  | .ctrlLit => Sys2Proof.Machine.execCtrlLit s
  | .ctrlNolit => Sys2Proof.Machine.execCtrlNolit s
  | .litExt => Sys2Proof.Machine.execLitExt s
  | .litOne => Sys2Proof.Machine.execLitOne s
  | .litcodeCont => Sys2Proof.Machine.execLitcodeCont s
  | .litcodeAdd4 => Sys2Proof.Machine.execLitcodeAdd4 s
  | .litcodeAdd3 => Sys2Proof.Machine.execLitcodeAdd3 s
  | .litcodeAdd2 => Sys2Proof.Machine.execLitcodeAdd2 s
  | .litcopy => Sys2Proof.Machine.execLitcopy s
  | .endchk => Sys2Proof.Machine.execEndchk s
  | .midx0 => Sys2Proof.Machine.execMidx0 s
  | .midx1 => Sys2Proof.Machine.execMidx1 s
  | .midx2 => Sys2Proof.Machine.execMidx2 s
  | .midx3 => Sys2Proof.Machine.execMidx3 s
  | .midx4 => Sys2Proof.Machine.execMidx4 s
  | .midx5 => Sys2Proof.Machine.execMidx5 s
  | .midx6 => Sys2Proof.Machine.execMidx6 s
  | .midx7 => Sys2Proof.Machine.execMidx7 s
  | .midx8 => Sys2Proof.Machine.execMidx8 s
  | .midx9 => Sys2Proof.Machine.execMidx9 s
  | .midx10 => Sys2Proof.Machine.execMidx10 s
  | .midx11 => Sys2Proof.Machine.execMidx11 s
  | .midx12 => Sys2Proof.Machine.execMidx12 s
  | .midx13 => Sys2Proof.Machine.execMidx13 s
  | .midx14 => Sys2Proof.Machine.execMidx14 s
  | .midx15 => Sys2Proof.Machine.execMidx15 s
  | .mdist n e => Sys2Proof.Machine.execMdist n e s
  | .mlen2Ext => Sys2Proof.Machine.execMlen2Ext s
  | .mlen2L6 => Sys2Proof.Machine.execMlen2L6 s
  | .mlen2L5 => Sys2Proof.Machine.execMlen2L5 s
  | .mlen2L4 => Sys2Proof.Machine.execMlen2L4 s
  | .mlennCont => Sys2Proof.Machine.execMlennCont s
  | .mlennAdd1 => Sys2Proof.Machine.execMlennAdd1 s
  | .mlennAdd2 => Sys2Proof.Machine.execMlennAdd2 s
  | .mlennAdd3 => Sys2Proof.Machine.execMlennAdd3 s
  | .mlennAdd4 => Sys2Proof.Machine.execMlennAdd4 s
  | .mlennAdd5 => Sys2Proof.Machine.execMlennAdd5 s
  | .mlennAdd6 => Sys2Proof.Machine.execMlennAdd6 s
  | .mlennAdd7 => Sys2Proof.Machine.execMlennAdd7 s
  | .mlennAdd8 => Sys2Proof.Machine.execMlennAdd8 s
  | .mlennAdd9 => Sys2Proof.Machine.execMlennAdd9 s
  | .mlennAdd10 => Sys2Proof.Machine.execMlennAdd10 s
  | .mlennAdd11 => Sys2Proof.Machine.execMlennAdd11 s
  | .mlennAdd12 => Sys2Proof.Machine.execMlennAdd12 s
  | .mlennAdd13 => Sys2Proof.Machine.execMlennAdd13 s
  | .mlennAdd14 => Sys2Proof.Machine.execMlennAdd14 s
  | .mlennAdd15 => Sys2Proof.Machine.execMlennAdd15 s
  | .mcopy => Sys2Proof.Machine.execMcopy s
  | .rawcopy => Sys2Proof.Machine.execRawcopy s
  | .imgclear => Sys2Proof.Machine.execImgclear s
  | .foldStep => Sys2Proof.Machine.execFoldStep s

end Sys2Proof.Machine
end

