-- ==== Sys2Proof/WellFormed.lean ====
section
/-! DEFINITION. Which terms of Instr stand for a symbol that the token stream can hold. Only MDIST has a
condition: its width is a bit_length of the VLC table, 4..14 (R85), and its value has that many bits (R98). -/

namespace Sys2Proof

/-- The conditions on an instruction's operands. -/
def Instr.wellFormed : Instr → Bool
  | .mdist n e => 4 ≤ n.toNat && n.toNat ≤ 14 && e.toNat < 2 ^ n.toNat
  | _ => true

/-- An instruction whose operands are in range. -/
abbrev Instr.WellFormed (i : Instr) : Prop := i.wellFormed = true

end Sys2Proof
end

