-- ==== Sys2Proof/Decode.lean ====
section
/-! DEFINITION. Decoding and encoding (R58 to R70). Encoded input has three shapes (Code): a command word
of 32 bits, a symbol of the token stream together with the phase it is read in, and a phase that reads no
symbol of its own row (LITCOPY reads LITCNT bytes from the tail, INTERNAL rows read none). The decoder is
total and rejects by name. The encoder is written from the same tables. -/

namespace Sys2Proof

/-- The encoded form of an instruction (R58, R61, R70). -/
inductive Code where
  /-- A command word (R58). -/
  | cmd (w : BitVec 32)
  /-- In phase `p`, a symbol of `n` bits with value `v` (R61). -/
  | sym (p : Phase) (n v : Nat)
  /-- In phase `p`, a step that selects its row without a symbol (R70: mask 0). -/
  | step (p : Phase)
  deriving DecidableEq, Repr, Inhabited

/-- Why a code has no instruction. -/
inductive Reject where
  /-- The phase reads symbols of another width (R61). -/
  | wrongWidth
  /-- The value has more bits than the symbol. -/
  | valueTooWide
  /-- The phase has no row of that shape (R70). -/
  | noRow
  deriving DecidableEq, Repr, Inhabited

/-- An OP field and the 28 ignored bits (R58). -/
def cmdWord (op : BitVec 4) (ignored : BitVec 28) : BitVec 32 := ignored ++ op

/-- The OP field of a command word: bits 3:0 (R58). -/
def cmdOp (w : BitVec 32) : BitVec 4 := w.extractLsb' 0 4

/-- Bits 31:4 of a command word (R58). -/
def cmdIgnored (w : BitVec 32) : BitVec 28 := w.extractLsb' 4 28

/-- The command with a given OP (R58, R59). -/
def decodeOp (op : BitVec 4) (ignored : BitVec 28) : Instr :=
  if op = 1#4 then .decode ignored
  else if op = 2#4 then .copyRaw ignored
  else if op = 3#4 then .imgClear ignored
  else if op = 4#4 then .fold ignored
  else if op = 0#4 then .illegal0 ignored
  else if op = 5#4 then .illegal5 ignored
  else if op.extractLsb' 1 3 = 3#3 then .illegal67 (op.extractLsb' 0 1) ignored
  else .illegal8F (op.extractLsb' 0 3) ignored

/-- Every command word is a command (R58, R59). -/
def decodeCmd (w : BitVec 32) : Instr := decodeOp (cmdOp w) (cmdIgnored w)

/-- Symbol F of phase CTRL (R92). -/
def decodeF (f : BitVec 1) : Instr := if f = 0#1 then .ctrlLit else .ctrlNolit

/-- Symbol S of phase LITSEL (R93). -/
def decodeS (s : BitVec 1) : Instr := if s = 0#1 then .litExt else .litOne

/-- Symbol Lc of phase LITCODE, by value (R94). -/
def decodeLc (t : BitVec 2) : Instr :=
  [Instr.litcodeCont, .litcodeAdd4, .litcodeAdd3, .litcodeAdd2].getD t.toNat .litcodeCont

/-- Symbol I of phase MIDX, by value (R97). -/
def decodeI (i : BitVec 4) : Instr :=
  ([.midx0, .midx1, .midx2, .midx3, .midx4, .midx5, .midx6, .midx7,
    .midx8, .midx9, .midx10, .midx11, .midx12, .midx13, .midx14, .midx15] : List Instr).getD i.toNat .midx0

/-- Symbol Mc of phase MLEN2, by value (R99). -/
def decodeMc (t : BitVec 2) : Instr :=
  [Instr.mlen2Ext, .mlen2L6, .mlen2L5, .mlen2L4].getD t.toNat .mlen2Ext

/-- Symbol N of phase MLENN, by value: t adds 16 - t (R100). -/
def decodeN (t : BitVec 4) : Instr :=
  ([.mlennCont, .mlennAdd15, .mlennAdd14, .mlennAdd13, .mlennAdd12, .mlennAdd11, .mlennAdd10, .mlennAdd9,
    .mlennAdd8, .mlennAdd7, .mlennAdd6, .mlennAdd5, .mlennAdd4, .mlennAdd3, .mlennAdd2, .mlennAdd1] : List Instr).getD t.toNat .mlennCont

/-- A symbol of width `w`, if the code gives one. -/
def symbolOf (w n v : Nat) : Except Reject (BitVec w) :=
  if n = w then if v < 2 ^ w then .ok (BitVec.ofNat w v) else .error .valueTooWide
  else .error .wrongWidth

/-- Symbol E of phase MDIST: 4 to 14 bits (R61, R98). -/
def decodeE (n v : Nat) : Except Reject Instr :=
  if 4 ≤ n ∧ n ≤ 14 then
    if v < 2 ^ n then .ok (.mdist (BitVec.ofNat 4 n) (BitVec.ofNat 14 v)) else .error .valueTooWide
  else .error .wrongWidth

/-- The row that a symbol selects in a phase (R70). -/
def decodeSym (p : Phase) (n v : Nat) : Except Reject Instr :=
  match p with
  | .ctrl => (symbolOf 1 n v).map decodeF
  | .litsel => (symbolOf 1 n v).map decodeS
  | .litcode => (symbolOf 2 n v).map decodeLc
  | .midx => (symbolOf 4 n v).map decodeI
  | .mdist => decodeE n v
  | .mlen2 => (symbolOf 2 n v).map decodeMc
  | .mlenn => (symbolOf 4 n v).map decodeN
  | .none | .litcopy | .endchk | .mcopy | .rawcopy | .imgclear | .fold => .error .noRow

/-- The row of a phase that selects it without a symbol (R70). -/
def decodeStep (p : Phase) : Except Reject Instr :=
  match p with
  | .litcopy => .ok .litcopy
  | .endchk => .ok .endchk
  | .mcopy => .ok .mcopy
  | .rawcopy => .ok .rawcopy
  | .imgclear => .ok .imgclear
  | .fold => .ok .foldStep
  | .none | .ctrl | .litsel | .litcode | .midx | .mdist | .mlen2 | .mlenn => .error .noRow

/-- The decoder: total, rejecting by name. -/
def decode : Code → Except Reject Instr
  | .cmd w => .ok (decodeCmd w)
  | .sym p n v => decodeSym p n v
  | .step p => decodeStep p

/-- The encoder, from the tables of R58 and R61. -/
def encode : Instr → Code
  | .decode g => .cmd (cmdWord 1#4 g)
  | .copyRaw g => .cmd (cmdWord 2#4 g)
  | .imgClear g => .cmd (cmdWord 3#4 g)
  | .fold g => .cmd (cmdWord 4#4 g)
  | .illegal0 g => .cmd (cmdWord 0#4 g)
  | .illegal5 g => .cmd (cmdWord 5#4 g)
  | .illegal67 b g => .cmd (cmdWord (3#3 ++ b) g)
  | .illegal8F l g => .cmd (cmdWord (1#1 ++ l) g)
  | .ctrlLit => .sym .ctrl 1 0
  | .ctrlNolit => .sym .ctrl 1 1
  | .litExt => .sym .litsel 1 0
  | .litOne => .sym .litsel 1 1
  | .litcodeCont => .sym .litcode 2 0
  | .litcodeAdd4 => .sym .litcode 2 1
  | .litcodeAdd3 => .sym .litcode 2 2
  | .litcodeAdd2 => .sym .litcode 2 3
  | .litcopy => .step .litcopy
  | .endchk => .step .endchk
  | .midx0 => .sym .midx 4 0
  | .midx1 => .sym .midx 4 1
  | .midx2 => .sym .midx 4 2
  | .midx3 => .sym .midx 4 3
  | .midx4 => .sym .midx 4 4
  | .midx5 => .sym .midx 4 5
  | .midx6 => .sym .midx 4 6
  | .midx7 => .sym .midx 4 7
  | .midx8 => .sym .midx 4 8
  | .midx9 => .sym .midx 4 9
  | .midx10 => .sym .midx 4 10
  | .midx11 => .sym .midx 4 11
  | .midx12 => .sym .midx 4 12
  | .midx13 => .sym .midx 4 13
  | .midx14 => .sym .midx 4 14
  | .midx15 => .sym .midx 4 15
  | .mdist n e => .sym .mdist n.toNat e.toNat
  | .mlen2Ext => .sym .mlen2 2 0
  | .mlen2L6 => .sym .mlen2 2 1
  | .mlen2L5 => .sym .mlen2 2 2
  | .mlen2L4 => .sym .mlen2 2 3
  | .mlennCont => .sym .mlenn 4 0
  | .mlennAdd1 => .sym .mlenn 4 15
  | .mlennAdd2 => .sym .mlenn 4 14
  | .mlennAdd3 => .sym .mlenn 4 13
  | .mlennAdd4 => .sym .mlenn 4 12
  | .mlennAdd5 => .sym .mlenn 4 11
  | .mlennAdd6 => .sym .mlenn 4 10
  | .mlennAdd7 => .sym .mlenn 4 9
  | .mlennAdd8 => .sym .mlenn 4 8
  | .mlennAdd9 => .sym .mlenn 4 7
  | .mlennAdd10 => .sym .mlenn 4 6
  | .mlennAdd11 => .sym .mlenn 4 5
  | .mlennAdd12 => .sym .mlenn 4 4
  | .mlennAdd13 => .sym .mlenn 4 3
  | .mlennAdd14 => .sym .mlenn 4 2
  | .mlennAdd15 => .sym .mlenn 4 1
  | .mcopy => .step .mcopy
  | .rawcopy => .step .rawcopy
  | .imgclear => .step .imgclear
  | .foldStep => .step .fold

/-- A row of opcode_table.json: the phase it applies in (`none` for a command word, R70), and the match
and mask that select it. -/
structure Row where
  mnemonic : String
  phase : Option Phase
  mtch : Nat
  mask : Nat
  deriving DecidableEq, Repr

/-- Each instruction's row. -/
def Instr.row : Instr → Row
  | .decode _ => ⟨"DECODE", none, 1, 15⟩
  | .copyRaw _ => ⟨"COPY_RAW", none, 2, 15⟩
  | .imgClear _ => ⟨"IMG_CLEAR", none, 3, 15⟩
  | .fold _ => ⟨"FOLD", none, 4, 15⟩
  | .illegal0 _ => ⟨"ILLEGAL.0", none, 0, 15⟩
  | .illegal5 _ => ⟨"ILLEGAL.5", none, 5, 15⟩
  | .illegal67 _ _ => ⟨"ILLEGAL.6-7", none, 6, 14⟩
  | .illegal8F _ _ => ⟨"ILLEGAL.8-F", none, 8, 8⟩
  | .ctrlLit => ⟨"CTRL.LIT", (some .ctrl), 0, 1⟩
  | .ctrlNolit => ⟨"CTRL.NOLIT", (some .ctrl), 1, 1⟩
  | .litExt => ⟨"LIT.EXT", (some .litsel), 0, 1⟩
  | .litOne => ⟨"LIT.ONE", (some .litsel), 1, 1⟩
  | .litcodeCont => ⟨"LITCODE.CONT", (some .litcode), 0, 3⟩
  | .litcodeAdd4 => ⟨"LITCODE.ADD4", (some .litcode), 1, 3⟩
  | .litcodeAdd3 => ⟨"LITCODE.ADD3", (some .litcode), 2, 3⟩
  | .litcodeAdd2 => ⟨"LITCODE.ADD2", (some .litcode), 3, 3⟩
  | .litcopy => ⟨"LITCOPY", (some .litcopy), 0, 0⟩
  | .endchk => ⟨"ENDCHK", (some .endchk), 0, 0⟩
  | .midx0 => ⟨"MIDX.0", (some .midx), 0, 15⟩
  | .midx1 => ⟨"MIDX.1", (some .midx), 1, 15⟩
  | .midx2 => ⟨"MIDX.2", (some .midx), 2, 15⟩
  | .midx3 => ⟨"MIDX.3", (some .midx), 3, 15⟩
  | .midx4 => ⟨"MIDX.4", (some .midx), 4, 15⟩
  | .midx5 => ⟨"MIDX.5", (some .midx), 5, 15⟩
  | .midx6 => ⟨"MIDX.6", (some .midx), 6, 15⟩
  | .midx7 => ⟨"MIDX.7", (some .midx), 7, 15⟩
  | .midx8 => ⟨"MIDX.8", (some .midx), 8, 15⟩
  | .midx9 => ⟨"MIDX.9", (some .midx), 9, 15⟩
  | .midx10 => ⟨"MIDX.10", (some .midx), 10, 15⟩
  | .midx11 => ⟨"MIDX.11", (some .midx), 11, 15⟩
  | .midx12 => ⟨"MIDX.12", (some .midx), 12, 15⟩
  | .midx13 => ⟨"MIDX.13", (some .midx), 13, 15⟩
  | .midx14 => ⟨"MIDX.14", (some .midx), 14, 15⟩
  | .midx15 => ⟨"MIDX.15", (some .midx), 15, 15⟩
  | .mdist _ _ => ⟨"MDIST", (some .mdist), 0, 0⟩
  | .mlen2Ext => ⟨"MLEN2.EXT", (some .mlen2), 0, 3⟩
  | .mlen2L6 => ⟨"MLEN2.L6", (some .mlen2), 1, 3⟩
  | .mlen2L5 => ⟨"MLEN2.L5", (some .mlen2), 2, 3⟩
  | .mlen2L4 => ⟨"MLEN2.L4", (some .mlen2), 3, 3⟩
  | .mlennCont => ⟨"MLENN.CONT", (some .mlenn), 0, 15⟩
  | .mlennAdd1 => ⟨"MLENN.ADD1", (some .mlenn), 15, 15⟩
  | .mlennAdd2 => ⟨"MLENN.ADD2", (some .mlenn), 14, 15⟩
  | .mlennAdd3 => ⟨"MLENN.ADD3", (some .mlenn), 13, 15⟩
  | .mlennAdd4 => ⟨"MLENN.ADD4", (some .mlenn), 12, 15⟩
  | .mlennAdd5 => ⟨"MLENN.ADD5", (some .mlenn), 11, 15⟩
  | .mlennAdd6 => ⟨"MLENN.ADD6", (some .mlenn), 10, 15⟩
  | .mlennAdd7 => ⟨"MLENN.ADD7", (some .mlenn), 9, 15⟩
  | .mlennAdd8 => ⟨"MLENN.ADD8", (some .mlenn), 8, 15⟩
  | .mlennAdd9 => ⟨"MLENN.ADD9", (some .mlenn), 7, 15⟩
  | .mlennAdd10 => ⟨"MLENN.ADD10", (some .mlenn), 6, 15⟩
  | .mlennAdd11 => ⟨"MLENN.ADD11", (some .mlenn), 5, 15⟩
  | .mlennAdd12 => ⟨"MLENN.ADD12", (some .mlenn), 4, 15⟩
  | .mlennAdd13 => ⟨"MLENN.ADD13", (some .mlenn), 3, 15⟩
  | .mlennAdd14 => ⟨"MLENN.ADD14", (some .mlenn), 2, 15⟩
  | .mlennAdd15 => ⟨"MLENN.ADD15", (some .mlenn), 1, 15⟩
  | .mcopy => ⟨"MCOPY", (some .mcopy), 0, 0⟩
  | .rawcopy => ⟨"RAWCOPY", (some .rawcopy), 0, 0⟩
  | .imgclear => ⟨"IMGCLEAR", (some .imgclear), 0, 0⟩
  | .foldStep => ⟨"FOLD.STEP", (some .fold), 0, 0⟩

/-- The opcode table, in its own order: the first part holds the command rows. -/
def commandRows : List Row :=
  ([.decode 0, .copyRaw 0, .imgClear 0, .fold 0, .illegal0 0, .illegal5 0, .illegal67 0 0,
    .illegal8F 0 0] : List Instr).map Instr.row

/-- The rows of the phases that produce literals (R92 to R96). -/
def literalRows : List Row :=
  ([.ctrlLit, .ctrlNolit, .litExt, .litOne, .litcodeCont, .litcodeAdd4, .litcodeAdd3, .litcodeAdd2,
    .litcopy, .endchk] : List Instr).map Instr.row

/-- The rows of phases MIDX and MDIST (R97, R98). -/
def distanceRows : List Row :=
  ([.midx0, .midx1, .midx2, .midx3, .midx4, .midx5, .midx6, .midx7,
    .midx8, .midx9, .midx10, .midx11, .midx12, .midx13, .midx14, .midx15, .mdist 4 0] : List Instr).map Instr.row

/-- The rows of phases MLEN2, MLENN and MCOPY (R99 to R101). -/
def lengthRows : List Row :=
  ([.mlen2Ext, .mlen2L6, .mlen2L5, .mlen2L4, .mlennCont, .mlennAdd1, .mlennAdd2, .mlennAdd3, .mlennAdd4, .mlennAdd5, .mlennAdd6, .mlennAdd7,
    .mlennAdd8, .mlennAdd9, .mlennAdd10, .mlennAdd11, .mlennAdd12, .mlennAdd13, .mlennAdd14, .mlennAdd15, .mcopy] : List Instr).map Instr.row

/-- The rows of the raw copy and the plane assembler (R90, R125, R127). -/
def imageRows : List Row :=
  ([.rawcopy, .imgclear, .foldStep] : List Instr).map Instr.row

/-- The whole opcode table. -/
def opcodeTable : List Row := commandRows ++ (literalRows ++ (distanceRows ++ (lengthRows ++ imageRows)))

/-- The phase and the value of a code: what R70 matches a row against. -/
def Code.phase : Code → Option Phase
  | .cmd _ => none
  | .sym p _ _ => some p
  | .step p => some p

@[inherit_doc Code.phase] def Code.value : Code → Nat
  | .cmd w => w.toNat
  | .sym _ _ v => v
  | .step _ => 0

/-- R70: a row of the phase is selected when (symbol & mask) = match. -/
def Row.matches (r : Row) (c : Code) : Bool := r.phase == c.phase && c.value &&& r.mask == r.mtch

/-- The phase in which a bare symbol value, given without its phase, is read (log entry 12): the first
phase of the table whose symbol is wide enough, so F for 0..1, Lc for 2..3 and I for 4..15. -/
def bareSymbol (w : Nat) : Code :=
  if w < 2 then .sym .ctrl 1 w else if w < 4 then .sym .litcode 2 w else .sym .midx 4 w

/-- The code that a row of `nbits` bits and value `w` stands for (log entry 12): 32 bits are a command
word, fewer are a symbol value. -/
def tableCode (nbits w : Nat) : Code :=
  if 32 ≤ nbits then .cmd (BitVec.ofNat 32 w) else bareSymbol w

/-- The instruction the decoder reads from a word numbered as opcode_table.json numbers it. -/
def decodeTableWord (nbits w : Nat) : Option Instr :=
  match decode (tableCode nbits w) with
  | .ok i => some i
  | .error _ => none

end Sys2Proof
end

