-- ==== Sys2Proof/Machine/Walker.lean ====
section
/-! DEFINITION. The container walker's reading of the file (R111 to R118) and the action lists of its
procedures (R119, R120, R123). Everything here is a function of the file; HostAgent performs the actions. -/

namespace Sys2Proof.Machine

/-! ### Reading the file (R111) -/

/-- F[i]; the walker checks the length before it reads. -/
def fileByte (f : List Byte) (i : Nat) : Byte := f.getD i 0

/-- A big-endian u16 at offset i (R45, R111). -/
def fileBE16 (f : List Byte) (i : Nat) : BitVec 16 := be16 (fileByte f i) (fileByte f (i + 1))

/-- A big-endian u32 at offset i (R45, R111). -/
def fileBE32 (f : List Byte) (i : Nat) : BitVec 32 :=
  be32 (fileByte f i) (fileByte f (i + 1)) (fileByte f (i + 2)) (fileByte f (i + 3))

/-- F[i .. i+n). -/
def fileSlice (f : List Byte) (i n : Nat) : List Byte := (f.drop i).take n

/-- The four bytes of a tag (R6). -/
def tagBytes (t : Tag) : List Byte :=
  [t.t0.setWidth 8, t.t1.setWidth 8, t.t2.setWidth 8, t.t3.setWidth 8]

/-- W, H and NBPC (R114). -/
def fileWidth (f : List Byte) : BitVec 16 := fileBE16 f 8
@[inherit_doc fileWidth] def fileHeight (f : List Byte) : BitVec 16 := fileBE16 f 10
@[inherit_doc fileWidth] def fileBpc (f : List Byte) : BitVec 8 := fileByte f 15

/-- NPAL = floor(L / 3) (R113). -/
def paletteCount (f : List Byte) : Nat := (fileBE32 f 20).toNat / 3

/-- The RGB triples, n of them from offset i (R115). -/
def paletteFrom (n i : Nat) (f : List Byte) : List (Byte × Byte × Byte) :=
  match n with
  | 0 => []
  | n + 1 => (fileByte f i, fileByte f (i + 1), fileByte f (i + 2)) :: paletteFrom n (i + 3) f

/-- The palette (R115). -/
def filePalette (f : List Byte) : List (Byte × Byte × Byte) := paletteFrom (paletteCount f) 24 f

/-- The header and palette checks: the error of the first that fails (R112, R113). -/
def headerError (c : Config) (f : List Byte) : Option ErrKind :=
  if f.length < 16 ∨ fileSlice f 0 4 ≠ tagBytes c.tagHdr then some .missingHeader
  else if f.length < 24 ∨ fileSlice f 16 4 ≠ tagBytes c.tagPal then some .missingPalette
  else if f.length < 24 + 3 * paletteCount f then some .missingPalette
  else none

/-- The first offset at or after `pos` where `tag` stands; `rest` is the file from `pos` on (R116). -/
def searchFrom (tag : List Byte) (pos : Nat) (rest : List Byte) : Option Nat :=
  match rest with
  | [] => none
  | b :: bs => if (b :: bs).take 4 = tag then some pos else searchFrom tag (pos + 1) bs

/-- search(s) (R116). -/
def searchPlane (c : Config) (f : List Byte) (s : Nat) : Option Nat :=
  searchFrom (tagBytes c.tagPlane) s (f.drop s)

/-- A plane chunk's command, payload and raw size (R117, R118). -/
structure PlaneJob where
  op : BitVec 32
  payload : List Byte
  rawSize : BitVec 16
  deriving DecidableEq, Repr

/-- The chunk at offset m: its job, or the cause of the host's error (R117, R118). -/
def planeJob (f : List Byte) (m : Nat) : Except Cause PlaneJob :=
  if f.length < m + 41 then .error .chunkPastEof
  else
    let p := (fileBE16 f (m + 37)).toNat
    if f.length < m + 41 + p then .error .chunkPastEof
    else
      let job := fun op => PlaneJob.mk op (fileSlice f (m + 41) p) (fileBE16 f (m + 39))
      if fileByte f (m + 36) = 0#8 then .ok (job 2#32)
      else if fileByte f (m + 36) = 1#8 then .ok (job 1#32)
      else .error .unknownType

/-! ### Action lists -/

/-- WRITE REG, v on unit u (R71). -/
def writeAct (u off : Nat) (v : BitVec 32) : HostAction := .regWrite u off 32 v

/-- IMG_CLEAR on unit u for the file's header (R120). -/
def clearActs (u : Nat) (f : List Byte) : List HostAction :=
  [writeAct u 0x0C ((fileWidth f).setWidth 32), writeAct u 0x10 ((fileHeight f).setWidth 32),
    writeAct u 0x14 ((fileBpc f).setWidth 32), writeAct u 0x00 3#32, .wait u, .stopIfFault u]

/-- HostJob up to its CMD write (R119). -/
def startJobActs (u : Nat) (j : PlaneJob) : List HostAction :=
  [.wait u, .pmWrite u 0 j.payload, writeAct u 0x04 (BitVec.ofNat 32 j.payload.length),
    writeAct u 0x08 (j.rawSize.setWidth 32), writeAct u 0x00 j.op]

/-- WRITE PLANE, j; CMD FOLD (R120). -/
def foldActs (u j : Nat) : List HostAction :=
  [writeAct u 0x18 (BitVec.ofNat 32 j), writeAct u 0x00 4#32]

/-- One plane of the serial procedure: decode, fold, and the search for the next (R120). -/
def planeActs (c : Config) (u m j : Nat) (job : PlaneJob) : List HostAction :=
  startJobActs u job ++ [.wait u, .stopIfFault u] ++ foldActs u j
    ++ [.wait u, .stopIfFault u, .findPlane u (m + c.planeSearchStep) (j + 1)]

/-- How the file goes on after a batch of planes (R123). -/
inductive BatchEnd where
  /-- Search further from an offset, with the next discovery index. -/
  | more (s j : Nat)
  /-- No further plane chunk. -/
  | last
  /-- The chunk of plane `j` is in error. -/
  | bad (j : Nat) (c : Cause)
  deriving DecidableEq, Repr

/-- Up to n planes from file offset s and discovery index j, the first for unit u (R123). -/
def gatherPlanes (n u s j : Nat) (c : Config) (f : List Byte) : List (Nat × Nat × PlaneJob) × BatchEnd :=
  match n with
  | 0 => ([], .more s j)
  | n + 1 =>
    match searchPlane c f s with
    | none => ([], .last)
    | some m =>
      match planeJob f m with
      | .error e => ([], .bad j e)
      | .ok job =>
        let r := gatherPlanes n (u + 1) (m + c.planeSearchStep) (j + 1) c f
        ((u, j, job) :: r.1, r.2)

/-- What follows a batch: stop if a plane failed; otherwise go on as the file does (R120, R123). -/
def batchTail (e : BatchEnd) : List HostAction :=
  match e with
  | .more s j => [.stopIfNoted, .batch s j]
  | .last => [.stopIfNoted, .returnOk]
  | .bad j c => [.noteFailure j c, .stopIfNoted]

/-- The actions of a batch: start every decode, wait for all, fold every plane whose decode succeeded,
wait for all, and go on (R123, log entry 20). -/
def batchActs (s j : Nat) (c : Config) (f : List Byte) : List HostAction :=
  let g := gatherPlanes c.nUnits 0 s j c f
  let waits := (g.1.map fun x => [HostAction.wait x.1, .noteIfFault x.1 x.2.1]).flatten
  (g.1.map fun x => startJobActs x.1 x.2.2).flatten ++ waits
    ++ (g.1.map fun x => HostAction.foldPlane x.1 x.2.1) ++ waits ++ batchTail g.2

/-- The noted failure with the lowest plane number (R123). -/
def lowestFailure (l : List Failure) : Option Failure :=
  match l with
  | [] => none
  | x :: rest =>
    match lowestFailure rest with
    | none => some x
    | some y => if x.plane ≤ y.plane then some x else some y

end Sys2Proof.Machine
end

