-- ==== Sys2Proof/Machine/HostAgent.lean ====
section
/-! DEFINITION. The host agent: what one action of the host program does (R23, R24, R52, R112 to R123,
R138, R147). A write of CMD is handed on as the instruction that it decodes to. -/

namespace Sys2Proof.Machine

/-! ### Parts of a host action -/

/-- Replace the host program. -/
def State.setTodo (s : State) (l : List HostAction) : State := { s with host := { s.host with todo := l } }

/-- Put actions in front of the host program. -/
def State.pushActs (s : State) (l : List HostAction) : State := s.setTodo (l ++ s.host.todo)

/-- The host program ends with a result (R120, R122). -/
def State.hostReturn (s : State) (r : HostResult) : State :=
  { s with host := { s.host with todo := [], result := some r } }

/-- A host read returns a value (R159). -/
def State.hostGets (s : State) (v : BitVec 32) : State := { s with host := { s.host with got := some v } }

/-- Replace unit k. -/
def State.putUnit (s : State) (k : Nat) (u : DecUnit) : State := { s with units := s.units.set k u }

/-- A draw of R52: a byte that no law constrains (log entry 6). -/
def State.draw (s : State) : Byte × State := (Config.freeByte s.draws, { s with draws := s.draws + 1 })

/-- An access to the window of R23 is aligned and 32 bits wide (R52). -/
def goodAccess (off width : Nat) : Bool := width == 32 && off % 4 == 0

/-- Go on with unit u, if there is one. -/
def withUnit (s : State) (u : Nat) (f : DecUnit → Fetched) : Fetched :=
  match s.units[u]? with
  | some d => f d
  | none => .out (.fault (.noSuchUnit u))

/-- Go on with an access to the window of unit u (R23, R52). -/
def withWindow (s : State) (u off width : Nat) (f : DecUnit → Fetched) : Fetched :=
  if goodAccess off width then
    if off < 64 then withUnit s u f else .out (.fault (.noSuchAddress .window off))
  else .out (.refused (.badRegisterAccess off width))

/-- Write bytes to a memory from address a up. -/
def writeBytes (m : Memory) (a : Nat) (bytes : List Byte) : Memory :=
  match bytes with
  | [] => m
  | b :: bs => writeBytes (m.write a b) (a + 1) bs

/-- PM(u)[a ..] = bytes (R52, R138): ignored while the unit is BUSY. -/
def hostPmWrite (s : State) (u a : Nat) (bytes : List Byte) : Fetched :=
  withUnit s u fun d =>
    if bytes ≠ [] ∧ s.cfg.pmSize < a + bytes.length then .out (.fault (.noSuchAddress .pm (a + bytes.length - 1)))
    else if d.state = .busy then .out (.next s)
    else .out (.next (s.putUnit u (d.setPm (writeBytes d.pm a bytes))))

/-- When OM(u)[i] is valid to the host (R52 item 3). -/
def omReadable (d : DecUnit) (i : Nat) : Bool := d.omValid && d.state != .busy && i < d.omLen.toNat

/-- When IM[i] is valid to the host (R52 item 4). -/
def imReadable (s : State) (i : Nat) : Bool :=
  s.imValid && (s.units.all fun d => !(d.state == .busy && (d.phase == .imgclear || d.phase == .fold)))
    && i < s.imgW.toNat * s.imgH.toNat

/-- The byte a host read returns: the written byte where it is valid, a draw otherwise (R52). -/
def hostByte (valid : Bool) (m : Memory) (i : Nat) (s : State) : Byte × State :=
  match valid, m.read i with
  | true, some b => (b, s)
  | _, _ => s.draw

/-- The host reads IM[k .. k+n) (R120). -/
def hostImage (n k : Nat) (s : State) : List Byte × State :=
  match n with
  | 0 => ([], s)
  | n + 1 =>
    let b := hostByte (imReadable s k) s.im k s
    let r := hostImage n (k + 1) b.2
    (b.1 :: r.1, r.2)

/-- Return Ok(W, H, IM[0 .. W*H), palette) (R120, R122). DESIGN CHOICE, unsafe in part: reading the whole image
is one action of the host, so that no unit moves between two of its bytes; R10 makes only a unit's steps
atomic, and R158 leaves open whether this read is one action or one per byte (log entry 25). -/
def hostReturnOk (s : State) : State :=
  let f := s.host.file
  let r := hostImage ((fileWidth f).toNat * (fileHeight f).toNat) 0 s
  r.2.hostReturn (.ok (fileWidth f) (fileHeight f) r.1 (filePalette f))

/-- The header and palette checks, then IMG_CLEAR on unit u and the actions that follow (R120). -/
def hostWalk (s : State) (u : Nat) (andThen : List HostAction) : State :=
  match headerError s.cfg s.host.file with
  | some k => s.hostReturn (.err k .none)
  | none => s.pushActs (clearActs u s.host.file ++ andThen)

/-- The loop head of R120. -/
def hostFindPlane (s : State) (u from_ j : Nat) : State :=
  match searchPlane s.cfg s.host.file from_ with
  | none => s.pushActs [.returnOk]
  | some m =>
    match planeJob s.host.file m with
    | .error e => s.hostReturn (.err .corruptStream e)
    | .ok job => s.pushActs (planeActs s.cfg u m j job)

/-- Forget the failures that an earlier run noted: a run of R123 reports only its own. -/
def State.clearNoted (s : State) : State := { s with host := { s.host with noted := [] } }

/-- Start the parallel procedure (R123). DESIGN CHOICE, safe for the block: IMG_CLEAR runs on unit 0 and the
first decode starts only once it has ended. R123 asks only that it end before any FOLD starts (log entry
20). -/
def hostWalkParallel (s : State) : State := hostWalk s.clearNoted 0 [.batch 0 0]

/-- Note a failure unless plane j has one already (R123). -/
def State.note (s : State) (x : Failure) : State :=
  if s.host.noted.any (fun y => y.plane == x.plane) then s
  else { s with host := { s.host with noted := s.host.noted ++ [x] } }

/-! ### One action -/

/-- What an action does, once it is taken off the program. -/
def hostAct (a : HostAction) (s : State) : Fetched :=
  match a with
  | .regWrite u off width v => withWindow s u off width fun d =>
      if off = 0 then .run (decodeCmd v) { s with cur := u } else .out (.next (s.putUnit u (writeReg d off v)))
  | .regRead u off width => withWindow s u off width fun d =>
      .out (.next (s.hostGets (readReg s.cfg s.imValid d off)))
  | .pmWrite u i bytes => hostPmWrite s u i bytes
  | .omRead u i => withUnit s u fun d =>
      let b := hostByte (omReadable d i) d.om i s
      .out (.next (b.2.hostGets (b.1.setWidth 32)))
  | .imRead i =>
      let b := hostByte (imReadable s i) s.im i s
      .out (.next (b.2.hostGets (b.1.setWidth 32)))
  | .omWrite u _ _ => withUnit s u fun _ => .out (.next s)
  | .imWrite _ _ => .out (.next s)
  | .wait u => withUnit s u fun _ => .out (.next s)
  | .reset => .out (.next { State.resetWith s.cfg with
      host := s.host, cur := s.cur, choices := s.choices, draws := s.draws })
  | .walk u => .out (.next (hostWalk s u [.findPlane u 0 0]))
  | .findPlane u from_ j => .out (.next (hostFindPlane s u from_ j))
  | .stopIfFault u => withUnit s u fun d =>
      .out (.next (if d.state = .fault then s.hostReturn (.err d.errKind d.errCause) else s))
  | .returnOk => .out (.next (hostReturnOk s))
  | .walkParallel => .out (.next (hostWalkParallel s))
  | .batch from_ j => .out (.next (s.pushActs (batchActs from_ j s.cfg s.host.file)))
  | .noteIfFault u j => withUnit s u fun d =>
      .out (.next (if d.state = .fault then s.note ⟨j, d.errKind, d.errCause⟩ else s))
  | .noteFailure j c => .out (.next (s.note ⟨j, c.kind, c⟩))
  | .foldPlane u j =>
      .out (.next (if s.host.noted.any (fun y => y.plane == j) then s else s.pushActs (foldActs u j)))
  | .stopIfNoted => .out (.next (match lowestFailure s.host.noted with
      | some x => s.hostReturn (.err x.kind x.cause)
      | none => s))

/-- Whether the host can perform an action now: WAIT(u) only once unit u is not BUSY (log entry 5). -/
def actReady (s : State) (a : HostAction) : Bool :=
  match a with
  | .wait u => match s.units[u]? with
    | some d => d.state != .busy
    | none => true
  | _ => true

/-- The host's step: its next action. -/
def hostFetch (s : State) : Fetched :=
  match s.host.todo with
  | [] => .out (.next s)
  | a :: rest => hostAct a (s.setTodo rest)

end Sys2Proof.Machine
end

