-- ==== Sys2Proof/Machine/Fetch.lean ====
section
/-! DEFINITION. Which agent moves next (R5, R158, I15, log entry 4), what a unit's PHASE fetches (R70), and
what a step therefore runs. -/

namespace Sys2Proof.Machine

/-! ### The choice of the agent -/

/-- An agent that can move (R5). -/
inductive Agent where
  | host
  | unit (k : Nat)
  deriving DecidableEq, Repr

/-- The units that can move, of a list whose first has number k: those that are BUSY (R5) and that R41 has
not stopped. -/
def busyFrom (stopped : List Stopped) (k : Nat) (l : List DecUnit) : List Agent :=
  match l with
  | [] => []
  | u :: rest =>
    if u.state = .busy ∧ isStopped stopped k = false then .unit k :: busyFrom stopped (k + 1) rest
    else busyFrom stopped (k + 1) rest

/-- The host, if its next action is ready. -/
def hostReady (s : State) : Bool :=
  match s.host.todo with
  | [] => false
  | a :: _ => actReady s a

/-- The agents that can move: the host first, then the units (R148, R158). -/
def enabled (s : State) : List Agent :=
  if hostReady s then .host :: busyFrom s.stopped 0 s.units else busyFrom s.stopped 0 s.units

/-- The next choice: the state's next fixed one, or a free value (I15, log entry 4). -/
def nextChoice (s : State) : Nat × State :=
  match s.choices with
  | n :: rest => (n, { s with choices := rest })
  | [] => (Config.freeChoice s.draws, { s with draws := s.draws + 1 })

/-- The agent that moves. Where only one can, there is no choice to make. -/
def pick (s : State) : Option (Agent × State) :=
  match enabled s with
  | [] => none
  | [a] => some (a, s)
  | a :: b :: rest =>
    let n := nextChoice s
    some ((a :: b :: rest).getD (n.1 % (rest.length + 2)) a, n.2)

/-! ### Fetching for a unit -/

/-- The code that unit k fetches: the symbol of its phase, read but not yet taken, or the phase alone
(R61, R70). -/
def fetchCode (k : Nat) (c : Config) (u : DecUnit) : Res Code :=
  match u.phase with
  | .none => .stop (.noStep k)
  | .ctrl => (read1 c u).map fun x => .sym .ctrl 1 x.1.toNat
  | .litsel => (read1 c u).map fun x => .sym .litsel 1 x.1.toNat
  | .litcode => (read2 c u).map fun x => .sym .litcode 2 x.1.toNat
  | .midx => (read4 c u).map fun x => .sym .midx 4 x.1.toNat
  | .mdist => (readX u.mbl.toNat c u).map fun x => .sym .mdist u.mbl.toNat x.1
  | .mlen2 => (read2 c u).map fun x => .sym .mlen2 2 x.1.toNat
  | .mlenn => (read4 c u).map fun x => .sym .mlenn 4 x.1.toNat
  | .litcopy => .ok (.step .litcopy)
  | .endchk => .ok (.step .endchk)
  | .mcopy => .ok (.step .mcopy)
  | .rawcopy => .ok (.step .rawcopy)
  | .imgclear => .ok (.step .imgclear)
  | .fold => .ok (.step .fold)

/-- What unit k runs: the instruction it fetches; or fault entry where the read of its symbol raises
(R74, R134), or the record of R41 where that read finds an unwritten byte. -/
def unitFetch (k : Nat) (s : State) : Fetched :=
  match s.units[k]? with
  | none => .out (.fault (.noSuchUnit k))
  | some u =>
    match fetchCode k s.cfg u with
    | .ok w =>
      match decode w with
      | .ok i => .run i { s with cur := k }
      | .error _ => .out (.fault (.noStep k))
    | .raise c pos => .out (.next ({ s with cur := k }.setUnit (u.enterFault c pos)))
    | .stop f => .out (recordStop { s with cur := k } (.fault f))
    | .refuse r => .out (.refused r)

/-! ### Fetching for the machine -/

/-- What the next step runs. With no agent to move the machine waits for its host (R148, I17). -/
def fetch (s : State) : Fetched :=
  if paramsValid s.cfg then
    match pick s with
    | none => .out (.next s)
    | some (.host, s1) => hostFetch s1
    | some (.unit k, s1) => unitFetch k s1
  else .out (.refused .badParameter)

/-! ### Placing an instruction where the next step fetches (log entry 12) -/

/-- Unit u BUSY in the phase of a symbol, with the symbol next in its cursor. -/
def placeSymbol (u : DecUnit) (w : Code) : DecUnit :=
  match w with
  | .sym .ctrl _ v => { u with state := .busy, phase := .ctrl, c1 := ⟨BitVec.ofNat 16 v, 1⟩ }
  | .sym .litcode _ v => { u with state := .busy, phase := .litcode, c2 := ⟨BitVec.ofNat 16 v, 2⟩ }
  | .sym .midx _ v => { u with state := .busy, phase := .midx, c4 := ⟨BitVec.ofNat 32 v, 4⟩ }
  | _ => u

/-- Make an agent the one that moves next, where there is a choice. -/
def State.favour (s : State) (a : Agent) : State :=
  match enabled s with
  | _ :: _ :: _ => { s with choices := (enabled s).idxOf a :: s.choices }
  | _ => s

/-- Let unit k move again. -/
def State.unstop (s : State) (k : Nat) : State := { s with stopped := s.stopped.filter fun x => x.unit != k }

/-- A table word in the place that the next step fetches from: a command word is the host's next write
of CMD, a symbol is the next one of the current unit's cursor. -/
def placeWord (s : State) (nbits w : Nat) : State :=
  match tableCode nbits w with
  | .cmd v => (s.pushActs [.regWrite s.cur 0 32 v]).favour .host
  | code =>
    match s.unit? with
    | some u => ((s.setUnit (placeSymbol u code)).unstop s.cur).favour (.unit s.cur)
    | none => s

end Sys2Proof.Machine
end

