-- ==== Sys2Proof/Machine/Step.lean ====
section
/-! DEFINITION. One step of the machine, and the placing of an instruction where it is fetched. -/

namespace Sys2Proof.Machine

/-- What a fetch leads to: the fetched instruction runs, and an Unwritten fault in it stops its unit (R41);
an outcome without one stands. -/
def runFetched (x : Fetched) : Out :=
  match x with
  | .run i t => recordStop t (exec i t)
  | .out o => o

/-- One atomic step of one agent (R10, R158): the fetched instruction, or what the host's action or a
unit's failing read leaves. -/
def step (s : State) : Host.Outcome State Fault Refusal := runFetched (fetch s)

/-- `s` with the instruction of a table word where the next step fetches (log entry 12). -/
def State.withFetchWord (s : State) (nbits w : Nat) : State := placeWord s nbits w

end Sys2Proof.Machine
end

