-- ==== Sys2Proof/Safety.lean ====
section
/-! DEFINITION. The terms claims are stated in: the invariants of the spec (R15, R19, R20, R29, R30, R39,
R132, R133), what a step leaves alone, the measure behind R105, and runs of one unit by itself. -/

namespace Sys2Proof.Machine

/-! ### Kinds of rows -/

/-- The widths of the symbols that each phase reads (R61). -/
def symbolWidth (p : Phase) (n : Nat) : Prop :=
  match p with
  | .ctrl | .litsel => n = 1
  | .litcode | .mlen2 => n = 2
  | .midx | .mlenn => n = 4
  | .mdist => 4 ≤ n ∧ n ≤ 14
  | .none | .litcopy | .endchk | .mcopy | .rawcopy | .imgclear | .fold => False

/-- The row is a command (R58). -/
def isCommand (i : Instr) : Prop :=
  match encode i with
  | .cmd _ => True
  | .sym _ _ _ | .step _ => False

/-- The row reads one symbol of a forward cursor (R61). -/
def isSymbolRow (i : Instr) : Prop :=
  match encode i with
  | .sym _ _ _ => True
  | .cmd _ | .step _ => False

/-! ### Invariants of one unit -/

/-- Every byte below n is written. -/
def writtenBelow (m : Memory) (n : Nat) : Prop := ∀ i, i < n → m.read i ≠ none

/-- The bit counts of R15: C1 and CX below 16, C2 even and below 16, C4 a multiple of 4 and below 32. -/
def cursorsOk (u : DecUnit) : Prop :=
  u.c1.rem < 16 ∧ (u.c2.rem < 16 ∧ u.c2.rem % 2 = 0) ∧ u.cx.rem < 16 ∧ (u.c4.rem < 32 ∧ u.c4.rem % 4 = 0)

/-- PM and OM are canonical and lie in their spaces (R37). -/
def memoriesOk (c : Config) (u : DecUnit) : Prop :=
  (u.pm.wf ∧ u.pm.within c.pmSize) ∧ (u.om.wf ∧ u.om.within c.omSize)

/-- STATUS, PHASE and ERR_POS agree: each cause has its kind (R133), a cause stands exactly in FAULT, a
BUSY unit has a phase, an IDLE or DONE unit has none (R21), the host's own causes never appear (R133), and
without a cause ERR_POS is 0 (R102), without a valid output OM_LEN is 0 (R29). -/
def statusOk (u : DecUnit) : Prop :=
  u.errKind = u.errCause.kind
    ∧ (u.state = .fault ↔ u.errCause ≠ .none)
    ∧ (u.state = .busy → u.phase ≠ .none)
    ∧ (u.state = .idle ∨ u.state = .done → u.phase = .none)
    ∧ (u.errCause ≠ .unknownType ∧ u.errCause ≠ .chunkPastEof)
    ∧ (u.errCause = .none → u.errPos = 0)
    ∧ (u.omValid = false → u.omLen = 0)

/-- The phases of a DECODE job (R91). -/
def decoding : Phase → Bool
  | .ctrl | .litsel | .litcode | .litcopy | .endchk | .midx | .mdist | .mlen2 | .mlenn | .mcopy => true
  | .none | .rawcopy | .imgclear | .fold => false

/-- max(INIT_OFF), of which R82 speaks. -/
def initHi (c : Config) : Nat := max (max c.initOff.c1 c.initOff.c2) (max c.initOff.cx c.initOff.c4)

/-- What holds between the steps of a DECODE job: R19 (in independent mode under the condition of R82), R20,
R39, and the ranges that its start step checked (R88). -/
def decodeJobOk (c : Config) (u : DecUnit) : Prop :=
  u.lastOp = 1#4 ∧ u.omValid = false
    ∧ (c.fwdMode = .shared ∨ initHi c ≤ u.srcLen.toNat → fwdHi c u ≤ u.tail) ∧ u.tail ≤ u.srcLen.toNat
    ∧ u.srcLen.toNat ≤ c.pmSize
    ∧ u.wp ≤ u.dstLen.toNat ∧ u.dstLen.toNat ≤ c.omSize ∧ writtenBelow u.om u.wp

/-- What holds of a BUSY unit, phase by phase: the job of R88 to R101, the ranges that the other start
steps checked (R89, R124, R126), and the working registers that the next step uses (R22). -/
def jobOk (c : Config) (u : DecUnit) : Prop :=
  u.state = .busy →
    (decoding u.phase = true → decodeJobOk c u)
      ∧ (u.phase = .rawcopy → u.lastOp = 2#4 ∧ u.omValid = false ∧ u.srcLen = u.dstLen
          ∧ u.srcLen.toNat ≤ c.pmSize ∧ u.dstLen.toNat ≤ c.omSize)
      ∧ (u.phase = .imgclear → u.lastOp = 3#4 ∧ u.width.toNat * u.height.toNat ≤ c.imSize ∧ u.bpc.toNat ≤ 8)
      ∧ (u.phase = .fold → u.lastOp = 4#4 ∧ u.omValid = true)
      ∧ (u.phase = .mdist → (u.mbl, u.mbase) = vlcLookup u.midx)
      ∧ (u.phase = .litcopy → 1 ≤ u.litcnt)
      ∧ (u.phase = .mlenn → 6 ≤ u.mlen)
      ∧ (u.phase = .mcopy → 2 ≤ u.mlen)

/-- A valid output is written whole and fits OM (R27, R29, R102). -/
def outputOk (c : Config) (u : DecUnit) : Prop :=
  u.omValid = true → u.omLen.toNat ≤ c.omSize ∧ writtenBelow u.om u.omLen.toNat

/-! ### Invariants of the machine -/

/-- There are N_UNITS units (R142). -/
def unitCountOk (s : State) : Prop := s.units.length = s.cfg.nUnits

/-- Every memory is canonical and lies in its space. -/
def allMemoriesOk (s : State) : Prop :=
  (s.im.wf ∧ s.im.within s.cfg.imSize) ∧ ∀ u ∈ s.units, memoriesOk s.cfg u

/-- R15 for every unit. -/
def allCursorsOk (s : State) : Prop := ∀ u ∈ s.units, cursorsOk u

/-- The STATUS fields of every unit agree. -/
def allStatusOk (s : State) : Prop := ∀ u ∈ s.units, statusOk u

/-- A unit that R41 has stopped is there, and stays BUSY (log entry 8). -/
def stopsOk (s : State) : Prop := ∀ x ∈ s.stopped, ∃ u, s.units[x.unit]? = some u ∧ u.state = .busy

/-- Every job in progress and every valid output is as its rules say. -/
def allJobsOk (s : State) : Prop := ∀ u ∈ s.units, jobOk s.cfg u ∧ outputOk s.cfg u

/-- The image that IMG_W and IMG_H describe fits IM and is written whole (R30, R40, R41). -/
def imageOk (s : State) : Prop :=
  s.imgW.toNat * s.imgH.toNat ≤ s.cfg.imSize ∧ writtenBelow s.im (s.imgW.toNat * s.imgH.toNat)

/-- Every pixel is below 2^IMG_BPC, and IMG_BPC is at most 8 (R124, R128). -/
def pixelsOk (s : State) : Prop :=
  s.imgBpc.toNat ≤ 8
    ∧ ∀ i b, i < s.imgW.toNat * s.imgH.toNat → s.im.read i = some b → b.toNat < 2 ^ s.imgBpc.toNat

/-- What the start step of a FOLD in progress has checked still holds (R126). -/
def foldReady (s : State) (u : DecUnit) : Prop :=
  s.imValid = true ∧ u.plane.toNat < s.imgBpc.toNat
    ∧ s.imgH.toNat * stride s.cfg s.imgW.toNat ≤ 8 * u.omLen.toNat

/-- R126's checks hold for every FOLD in progress. With one unit no other IMG_CLEAR can undo them (R154). -/
def foldsOk (s : State) : Prop := ∀ u ∈ s.units, u.state = .busy → u.phase = .fold → foldReady s u

/-! ### What a step leaves alone -/

/-- The parameters, the host agent, the units stopped by R41 and the model's own fields are the same. -/
def surroundingsSame (s t : State) : Prop :=
  t.cfg = s.cfg ∧ t.host = s.host ∧ t.cur = s.cur ∧ t.choices = s.choices ∧ t.draws = s.draws
    ∧ t.stopped = s.stopped

/-- The other units are the same. -/
def othersSame (s t : State) : Prop :=
  t.units.length = s.units.length ∧ ∀ k, k ≠ s.cur → t.units[k]? = s.units[k]?

/-- The registers that the host writes are the same. -/
def windowSame (u v : DecUnit) : Prop :=
  v.srcLen = u.srcLen ∧ v.dstLen = u.dstLen ∧ v.width = u.width ∧ v.height = u.height ∧ v.bpc = u.bpc
    ∧ v.plane = u.plane

/-- The shared image state but for the bytes of IM is the same (R30). -/
def geometrySame (s t : State) : Prop :=
  t.imgW = s.imgW ∧ t.imgH = s.imgH ∧ t.imgBpc = s.imgBpc ∧ t.imValid = s.imValid

/-- Only the forward cursors and their index differ: what a symbol read may change (R76 to R79). -/
def cursorsOnly (u v : DecUnit) : Prop :=
  v = { u with c1 := v.c1, c2 := v.c2, cx := v.cx, c4 := v.c4, fwd := v.fwd, off := v.off }

/-! ### Termination (R105) -/

/-- The forward bits a unit can still read: those pending in its cursors and those of the bytes before
TAIL, once in shared mode and once for each cursor in independent mode. -/
def forwardBits (c : Config) (u : DecUnit) : Nat :=
  u.c1.rem + u.c2.rem + u.cx.rem + u.c4.rem
    + 8 * (match c.fwdMode with
        | .shared => u.tail - u.fwd
        | .independent => (u.tail - u.off.c1) + (u.tail - u.off.c2) + (u.tail - u.off.cx) + (u.tail - u.off.c4))

/-- The measure that every step of a DECODE job lowers: two for each forward bit and output byte to come,
and one for an ENDCHK to come (R105). -/
def decodeMeasure (c : Config) (u : DecUnit) : Nat :=
  2 * (forwardBits c u + (u.dstLen.toNat - u.wp)) + (if u.phase = .endchk then 1 else 0)

/-- What bounds the counters of a DECODE job (R106): each LITCNT and MLEN increment is paid for by the forward
bits that its symbol takes, DIST comes from the table of R85, and each OFF[k] is INIT_OFF[k] until the first
refill of cursor k has moved it to at most TAIL (R17, R74). -/
def countersOk (c : Config) (u : DecUnit) : Prop :=
  u.state = .busy → decoding u.phase = true →
    forwardBits c u ≤ 32 * u.srcLen.toNat
      ∧ (u.phase = .litcode → 2 * u.litcnt + 3 * forwardBits c u ≤ 96 * u.srcLen.toNat)
      ∧ (u.phase = .litcopy → 2 * u.litcnt + 3 * forwardBits c u ≤ 96 * u.srcLen.toNat + 2)
      ∧ (u.phase = .mlenn ∨ u.phase = .mcopy →
          4 * u.mlen + 15 * forwardBits c u ≤ 480 * u.srcLen.toNat + 24)
      ∧ (u.phase = .mlen2 ∨ u.phase = .mlenn ∨ u.phase = .mcopy → u.dist ≤ 27295)
      ∧ (c.fwdMode = .independent →
          (u.off.c1 = c.initOff.c1 ∨ u.off.c1 ≤ u.srcLen.toNat)
            ∧ (u.off.c2 = c.initOff.c2 ∨ u.off.c2 ≤ u.srcLen.toNat)
            ∧ (u.off.cx = c.initOff.cx ∨ u.off.cx ≤ u.srcLen.toNat)
            ∧ (u.off.c4 = c.initOff.c4 ∨ u.off.c4 ≤ u.srcLen.toNat))

/-- R106's bounds for every unit. -/
def allCountersOk (s : State) : Prop := ∀ u ∈ s.units, countersOk s.cfg u

/-- Every internal counter and offset of a unit is below 2^32, whatever its STATE and PHASE (R7). -/
def belowWord (u : DecUnit) : Prop :=
  u.fwd < 2 ^ 32 ∧ (u.off.c1 < 2 ^ 32 ∧ u.off.c2 < 2 ^ 32 ∧ u.off.cx < 2 ^ 32 ∧ u.off.c4 < 2 ^ 32)
    ∧ u.tail < 2 ^ 32 ∧ u.wp < 2 ^ 32 ∧ u.litcnt < 2 ^ 32 ∧ u.dist < 2 ^ 32 ∧ u.mlen < 2 ^ 32

/-- R7's bound for every unit. -/
def allBelowWord (s : State) : Prop := ∀ u ∈ s.units, belowWord u

/-! ### Whose turn it is -/

/-- It is the host's turn in `s`, its next action is `a`, and `t` is `s` with the action taken off. -/
def hostTurn (s : State) (a : HostAction) (t : State) : Prop :=
  paramsValid s.cfg = true ∧ ∃ s1 rest, pick s = some (.host, s1) ∧ s1.host.todo = a :: rest
    ∧ t = { s1 with host := { s1.host with todo := rest } }

/-- It is the turn of unit k in `s`, and `t` is `s` with that unit as the one in hand. -/
def unitTurn (s : State) (k : Nat) (t : State) : Prop :=
  paramsValid s.cfg = true ∧ ∃ s1, pick s = some (.unit k, s1) ∧ t = { s1 with cur := k }

/-! ### What statements say a step leaves, spelled out -/

/-- `s` with `u` as the unit in hand. -/
def withCurrent (s : State) (u : DecUnit) : State := { s with units := s.units.set s.cur u }

/-- `s` with `u` as unit k. -/
def withUnitAt (s : State) (k : Nat) (u : DecUnit) : State := { s with units := s.units.set k u }

/-- A unit in FAULT with the kind, cause and position of a raise, and nothing else changed (R134). -/
def faultedWith (u : DecUnit) (k : ErrKind) (c : Cause) (pos : Nat) : DecUnit :=
  { u with state := .fault, errKind := k, errCause := c, errPos := BitVec.ofNat 32 pos }

/-- A unit after the assignments that open every start step, with PHASE at NONE (R21, R88). -/
def startedWith (u : DecUnit) (op : BitVec 4) : DecUnit :=
  { u with state := .busy, lastOp := op, errKind := .none, errCause := .none, errPos := 0, phase := .none }

/-- A unit after done() (R102). -/
def finishedWith (u : DecUnit) : DecUnit :=
  { u with
    state := .done
    phase := .none
    omValid := if u.lastOp = 1#4 ∨ u.lastOp = 2#4 then true else u.omValid
    omLen := if u.lastOp = 1#4 ∨ u.lastOp = 2#4 then u.dstLen else u.omLen }

/-- The forward byte index that cursor k refills from, moved to n (R16, R17, R74). -/
def forwardMoved (c : Config) (u : DecUnit) (k : CursorId) (n : Nat) : DecUnit :=
  if c.fwdMode = .shared then { u with fwd := n }
  else
    match k with
    | .c1 => { u with off := ⟨n, u.off.c2, u.off.cx, u.off.c4⟩ }
    | .c2 => { u with off := ⟨u.off.c1, n, u.off.cx, u.off.c4⟩ }
    | .cx => { u with off := ⟨u.off.c1, u.off.c2, n, u.off.c4⟩ }
    | .c4 => { u with off := ⟨u.off.c1, u.off.c2, u.off.cx, n⟩ }

/-- The forward byte index that cursor k refills from (R16, R17, R74). -/
def forwardAt (c : Config) (u : DecUnit) (k : CursorId) : Nat :=
  if c.fwdMode = .shared then u.fwd
  else
    match k with
    | .c1 => u.off.c1
    | .c2 => u.off.c2
    | .cx => u.off.cx
    | .c4 => u.off.c4

/-! ### The file, byte by byte -/

/-- A whole plane chunk: its offset, the command that runs it, its payload and its raw size (R117, R118). -/
structure Chunk where
  start : Nat
  op : BitVec 32
  payload : List Byte
  rawSize : Nat
  deriving DecidableEq, Repr

/-- The fields of the chunk at m: TYPE, P and R, the last two big-endian (R45, R117). -/
def chunkFields (f : List Byte) (m : Nat) (ty : Byte) (p r : Nat) : Prop :=
  ∃ p0 p1 r0 r1 : Byte, (f.drop (m + 36)).take 5 = [ty, p0, p1, r0, r1]
    ∧ p = 256 * p0.toNat + p1.toNat ∧ r = 256 * r0.toNat + r1.toNat

/-- The chunk stands whole in the file, with TYPE 0 for COPY_RAW or 1 for DECODE (R117, R118). -/
def chunkAt (f : List Byte) (x : Chunk) : Prop :=
  ∃ ty p, chunkFields f x.start ty p x.rawSize ∧ x.start + 41 + p ≤ f.length
    ∧ x.payload = (f.drop (x.start + 41)).take p ∧ (ty = 0 ∧ x.op = 2 ∨ ty = 1 ∧ x.op = 1)

/-- Why the chunk at m has no job: it runs past the end of the file, or its TYPE is neither 0 nor 1 (R117, R118). -/
def chunkError (f : List Byte) (m : Nat) (c : Cause) : Prop :=
  (c = .chunkPastEof ∧ (f.length < m + 41 ∨ ∃ ty p r, chunkFields f m ty p r ∧ f.length < m + 41 + p))
    ∨ (c = .unknownType ∧ ∃ ty p r, chunkFields f m ty p r ∧ m + 41 + p ≤ f.length ∧ ty ≠ 0 ∧ ty ≠ 1)

/-- The searches from `from_` find the chunks of `l` one after the other, and go on at `rest` (R116 to R118, R120). -/
def chunksFrom (c : Config) (f : List Byte) (from_ : Nat) (l : List Chunk) (rest : Nat) : Prop :=
  match l with
  | [] => rest = from_
  | x :: xs => searchPlane c f from_ = some x.start ∧ chunkAt f x
      ∧ chunksFrom c f (x.start + c.planeSearchStep) xs rest

/-! ### One unit by itself -/

/-- A step of the current unit alone; nothing once it is not BUSY or R41 has stopped it. -/
def soloStep (s : State) : Out :=
  match s.unit? with
  | none => .fault (.noSuchUnit s.cur)
  | some u =>
    if u.state = .busy ∧ isStopped s.stopped s.cur = false then runFetched (unitFetch s.cur s) else .next s

/-- n steps of the current unit alone. -/
def soloRun (n : Nat) (s : State) : Out :=
  match n with
  | 0 => .next s
  | n + 1 =>
    match soloStep s with
    | .next t => soloRun n t
    | .fault f => .fault f
    | .refused r => .refused r

/-- DECODE on the current unit and n steps of that unit alone. -/
def decodeRun (n : Nat) (s : State) : Out :=
  match exec (.decode 0) s with
  | .next t => soloRun n t
  | .fault f => .fault f
  | .refused r => .refused r

/-- The end of a job as R160 defines it: STATE, PHASE, the error fields, and the valid output. -/
def sameEnd (u v : DecUnit) : Prop :=
  v.state = u.state ∧ v.phase = u.phase ∧ v.errKind = u.errKind ∧ v.errCause = u.errCause
    ∧ v.errPos = u.errPos ∧ v.omValid = u.omValid ∧ v.omLen = u.omLen
    ∧ ∀ i, i < u.omLen.toNat → v.om.read i = u.om.read i

/-- What R41 has recorded of the unit in hand: the bytes whose reads stopped it. -/
def stopsOfUnit (s : State) : List (Space × Nat) :=
  (s.stopped.filter fun x => x.unit == s.cur).map fun x => (x.space, x.addr)

/-- Two runs of two units end alike: both at a state with the same end and the same record of R41, or both at
the same fault of the model. -/
def sameOutcome (a b : Out) : Prop :=
  match a, b with
  | .next s, .next t => ∃ u v, s.unit? = some u ∧ t.unit? = some v ∧ sameEnd u v
      ∧ stopsOfUnit t = stopsOfUnit s
  | .fault f, .fault g => f = g
  | _, _ => False

end Sys2Proof.Machine
end

