-- ==== Sys2Proof/Certificates/Slice0/Obligations.lean ====
section
/-! DEFINITION. The statements for the provers, each a closed proposition. Its docstring cites the rules of
spec/ that it formalises. A unit is written `s.units[s.cur]?` throughout: the unit that the instruction in
hand belongs to (log entry 11). -/

open Sys2Proof Sys2Proof.Machine

/-! ### Encoding -/

/-- O1. The decoder reads back every well-formed instruction from its encoding, with every operand at every
value that the encoding admits (R58, R61, R70). -/
def Obligations.DecodeEncodeIdentity : Prop :=
  ∀ i : Instr, i.WellFormed → decode (encode i) = .ok i

/-- O2. Every code that the decoder accepts is the one encoding of the instruction it reads, and that
instruction is well-formed (R58, R61, R70). -/
def Obligations.EncodeDecodeIdentity : Prop :=
  ∀ (w : Code) (i : Instr), decode w = .ok i → encode i = w ∧ i.WellFormed

/-- O3. Each code selects one row of the opcode table and no other (R70); every command word and every
symbol of a width that its phase reads has an instruction (R58, R61, R68). -/
def Obligations.RowSelection : Prop :=
  (∀ (w : Code) (i : Instr), decode w = .ok i →
      i.row ∈ opcodeTable ∧ i.row.matches w = true ∧ ∀ r ∈ opcodeTable, r.matches w = true → r = i.row)
    ∧ (∀ w : BitVec 32, ∃ i, decode (.cmd w) = .ok i)
    ∧ (∀ (p : Phase) (n v : Nat), symbolWidth p n → v < 2 ^ n → ∃ i, decode (.sym p n v) = .ok i)

/-- O4. Words written out from the tables of R58 and R61, one or more for each family, decode to the
instructions that they stand for. -/
def Obligations.WordsWrittenOut : Prop :=
  decode (.cmd 0x00000001#32) = .ok (.decode 0)
    ∧ decode (.cmd 0xABCDEF12#32) = .ok (.copyRaw 0xABCDEF1#28)
    ∧ decode (.cmd 0x00000003#32) = .ok (.imgClear 0)
    ∧ decode (.cmd 0x00000004#32) = .ok (.fold 0)
    ∧ decode (.cmd 0x00000000#32) = .ok (.illegal0 0)
    ∧ decode (.cmd 0x00000017#32) = .ok (.illegal67 1 1)
    ∧ decode (.cmd 0x0000000F#32) = .ok (.illegal8F 7 0)
    ∧ decode (.sym .ctrl 1 0) = .ok .ctrlLit
    ∧ decode (.sym .litsel 1 1) = .ok .litOne
    ∧ decode (.sym .litcode 2 1) = .ok .litcodeAdd4
    ∧ decode (.sym .midx 4 10) = .ok .midx10
    ∧ decode (.sym .mdist 5 2) = .ok (.mdist 5 2)
    ∧ decode (.sym .mlen2 2 3) = .ok .mlen2L4
    ∧ decode (.sym .mlenn 4 15) = .ok .mlennAdd1
    ∧ decode (.step .litcopy) = .ok .litcopy
    ∧ decode (.step .rawcopy) = .ok .rawcopy
    ∧ decode (.step .imgclear) = .ok .imgclear
    ∧ decode (.step .fold) = .ok .foldStep

/-- O5. Bits 31:4 of a command word have no effect (R58). -/
def Obligations.CommandBitsAboveOpIgnored : Prop :=
  ∀ (w w' : BitVec 32) (s : State), w.toNat % 16 = w'.toNat % 16 → exec (decodeCmd w) s = exec (decodeCmd w') s

/-! ### Cursors and the VLC table -/

/-- O6. A refill takes the next 2 or 4 bytes at FWD or OFF[k] in the cursor's byte order and moves that index
past them (R42, R43, R74, R75); it raises FWD_EXHAUST at WP where they would reach past TAIL; and where one of
those bytes, whichever it is, is unwritten, it stops on the first that is (R41). -/
def Obligations.RefillTakesNextBytes : Prop :=
  ∀ (c : Config) (u : DecUnit) (k : CursorId),
    (u.tail < forwardAt c u k + 2 → take16 c u k = .raise .fwdExhaust u.wp)
      ∧ (u.tail < forwardAt c u .c4 + 4 → take32 c u = .raise .fwdExhaust u.wp)
      ∧ (∀ b0 b1 : Byte, forwardAt c u k + 2 ≤ u.tail → u.tail ≤ c.pmSize →
          u.pm.read (forwardAt c u k) = some b0 → u.pm.read (forwardAt c u k + 1) = some b1 →
          ∃ w, take16 c u k = .ok (w, forwardMoved c u k (forwardAt c u k + 2))
            ∧ w.toNat = 256 * b0.toNat + b1.toNat)
      ∧ (∀ b0 b1 b2 b3 : Byte, forwardAt c u .c4 + 4 ≤ u.tail → u.tail ≤ c.pmSize →
          u.pm.read (forwardAt c u .c4) = some b0 → u.pm.read (forwardAt c u .c4 + 1) = some b1 →
          u.pm.read (forwardAt c u .c4 + 2) = some b2 → u.pm.read (forwardAt c u .c4 + 3) = some b3 →
          ∃ w, take32 c u = .ok (w, forwardMoved c u .c4 (forwardAt c u .c4 + 4))
            ∧ (c.lsbWordOrder = .le →
                w.toNat = b0.toNat + 2 ^ 8 * b1.toNat + 2 ^ 16 * b2.toNat + 2 ^ 24 * b3.toNat)
            ∧ (c.lsbWordOrder = .be →
                w.toNat = b3.toNat + 2 ^ 8 * b2.toNat + 2 ^ 16 * b1.toNat + 2 ^ 24 * b0.toNat))
      ∧ (∀ j, j < 2 → forwardAt c u k + 2 ≤ u.tail → u.tail ≤ c.pmSize →
          (∀ i, i < j → u.pm.read (forwardAt c u k + i) ≠ none) → u.pm.read (forwardAt c u k + j) = none →
          take16 c u k = .stop (.unwritten .pm (forwardAt c u k + j)))
      ∧ (∀ j, j < 4 → forwardAt c u .c4 + 4 ≤ u.tail → u.tail ≤ c.pmSize →
          (∀ i, i < j → u.pm.read (forwardAt c u .c4 + i) ≠ none) → u.pm.read (forwardAt c u .c4 + j) = none →
          take32 c u = .stop (.unwritten .pm (forwardAt c u .c4 + j)))

/-- O7. READ1 hands out C1's bits and READ2 C2's bit pairs from the most significant end; each refills in a
read that finds its cursor empty, and at no other time, and raises what the refill raises (R75 to R77). -/
def Obligations.MsbSymbolReads : Prop :=
  ∀ (c : Config) (u : DecUnit),
    (u.c1.rem ≠ 0 → read1 c u =
        .ok (BitVec.ofBool (u.c1.pend.getLsbD (u.c1.rem - 1)), { u with c1 := ⟨u.c1.pend, u.c1.rem - 1⟩ }))
      ∧ (∀ w v, u.c1.rem = 0 → take16 c u .c1 = .ok (w, v) → read1 c u =
          .ok (BitVec.ofBool (w.getLsbD 15), { v with c1 := ⟨w, 15⟩ }))
      ∧ (∀ d p, u.c1.rem = 0 → take16 c u .c1 = .raise d p → read1 c u = .raise d p)
      ∧ (2 ≤ u.c2.rem → read2 c u =
          .ok (BitVec.ofNat 2 (u.c2.pend.toNat / 2 ^ (u.c2.rem - 2)), { u with c2 := ⟨u.c2.pend, u.c2.rem - 2⟩ }))
      ∧ (∀ w v, u.c2.rem = 0 → take16 c u .c2 = .ok (w, v) → read2 c u =
          .ok (BitVec.ofNat 2 (w.toNat / 2 ^ 14), { v with c2 := ⟨w, 14⟩ }))
      ∧ (∀ d p, u.c2.rem = 0 → take16 c u .c2 = .raise d p → read2 c u = .raise d p)

/-- O8. READX(n) takes n bits from the top of CX's unread part; where fewer remain it takes them as the high
part, refills, and takes the rest from the top of the new word; a refill that raises ends it (R78). -/
def Obligations.ExtraBitsRead : Prop :=
  ∀ (n : Nat) (c : Config) (u : DecUnit), u.cx.rem ≤ 16 → n ≤ 16 →
    (n ≤ u.cx.rem → readX n c u =
        .ok (u.cx.pend.toNat / 2 ^ (u.cx.rem - n) % 2 ^ n, { u with cx := ⟨u.cx.pend, u.cx.rem - n⟩ }))
      ∧ (∀ w v, u.cx.rem < n → take16 c u .cx = .ok (w, v) → readX n c u =
          .ok (u.cx.pend.toNat % 2 ^ u.cx.rem * 2 ^ (n - u.cx.rem) + w.toNat / 2 ^ (16 - (n - u.cx.rem)),
            { v with cx := ⟨w, 16 - (n - u.cx.rem)⟩ }))
      ∧ (∀ d p, u.cx.rem < n → take16 c u .cx = .raise d p → readX n c u = .raise d p)

/-- O9. READ4 hands out C4's nibbles from the least significant end and shifts the word down; it refills when
empty and raises what the refill raises (R79). -/
def Obligations.NibbleRead : Prop :=
  ∀ (c : Config) (u : DecUnit),
    (u.c4.rem ≠ 0 → read4 c u =
        .ok (BitVec.ofNat 4 (u.c4.pend.toNat % 16), { u with c4 := ⟨u.c4.pend >>> 4, u.c4.rem - 4⟩ }))
      ∧ (∀ w v, u.c4.rem = 0 → take32 c u = .ok (w, v) → read4 c u =
          .ok (BitVec.ofNat 4 (w.toNat % 16), { v with c4 := ⟨w >>> 4, 28⟩ }))
      ∧ (∀ d p, u.c4.rem = 0 → take32 c u = .raise d p → read4 c u = .raise d p)

/-- O10. TAILBYTE lowers TAIL by one and returns the byte there; it raises TAIL_CROSS at WP where the tail would
fall below FwdHi (R18, R80). -/
def Obligations.TailByteRead : Prop :=
  ∀ (c : Config) (u : DecUnit) (hi : Nat),
    hi = (if c.fwdMode = .shared then u.fwd else max (max u.off.c1 u.off.c2) (max u.off.cx u.off.c4)) →
    (u.tail ≤ hi → tailByte c u = .raise .tailCross u.wp)
      ∧ (∀ b, hi < u.tail → u.tail ≤ c.pmSize → u.pm.read (u.tail - 1) = some b →
          tailByte c u = .ok (b, { u with tail := u.tail - 1 }))

/-- O11. The table-building algorithm on the sixteen seeds gives the sixteen entries (R83 to R85), a lookup
returns the entry (R86), and MBASE restarts at 0 at the start of each of the three bands and elsewhere begins
where the entry before it ends (R87). -/
def Obligations.VlcTableIsBuilt : Prop :=
  vlcSeeds = [4, 6, 8, 9, -4, 7, 9, 11, 13, 14, -5, 7, 9, 11, 13, 14]
    ∧ buildVlc 0 vlcSeeds =
        [(4, 0), (6, 16), (8, 80), (9, 336), (4, 0), (7, 16), (9, 144), (11, 656), (13, 2704), (14, 10896),
          (5, 0), (7, 32), (9, 160), (11, 672), (13, 2720), (14, 10912)]
    ∧ (∀ i : BitVec 4, (buildVlc 0 vlcSeeds)[i.toNat]? =
        some ((vlcLookup i).1.toNat, (vlcLookup i).2.toNat))
    ∧ (∀ i : BitVec 4, i = 0 ∨ i = 4 ∨ i = 10 → (vlcLookup i).2 = 0)
    ∧ (∀ i : BitVec 4, i ≠ 0 → i ≠ 4 → i ≠ 10 →
        (vlcLookup i).2.toNat = (vlcLookup (i - 1)).2.toNat + 2 ^ (vlcLookup (i - 1)).1.toNat)

/-- O12. No symbol read reads or writes the pending word or count of another cursor (R81). -/
def Obligations.ReadsLeaveOtherCursors : Prop :=
  ∀ (c : Config) (u : DecUnit) (a1 a2 ax : Cursor 16) (a4 : Cursor 32),
    read1 c { u with c2 := a2, cx := ax, c4 := a4 } =
        (read1 c u).map (fun x => (x.1, { x.2 with c2 := a2, cx := ax, c4 := a4 }))
      ∧ read2 c { u with c1 := a1, cx := ax, c4 := a4 } =
        (read2 c u).map (fun x => (x.1, { x.2 with c1 := a1, cx := ax, c4 := a4 }))
      ∧ (∀ n, readX n c { u with c1 := a1, c2 := a2, c4 := a4 } =
        (readX n c u).map (fun x => (x.1, { x.2 with c1 := a1, c2 := a2, c4 := a4 })))
      ∧ read4 c { u with c1 := a1, c2 := a2, cx := ax } =
        (read4 c u).map (fun x => (x.1, { x.2 with c1 := a1, c2 := a2, cx := ax }))

/-! ### The symbol rows -/

/-- O13. CTRL: F = 0 goes to LITSEL, F = 1 to ENDCHK; a read that raises ends the job in FAULT (R92). -/
def Obligations.CtrlSteps : Prop :=
  ∀ (s : State) (u : DecUnit), s.units[s.cur]? = some u → u.state = .busy → u.phase = .ctrl →
    (∀ v, read1 s.cfg u = .ok (0#1, v) → exec .ctrlLit s = .next (withCurrent s { v with phase := .litsel }))
      ∧ (∀ v, read1 s.cfg u = .ok (1#1, v) → exec .ctrlNolit s = .next (withCurrent s { v with phase := .endchk }))
      ∧ (∀ d p, read1 s.cfg u = .raise d p → ∀ i, i = .ctrlLit ∨ i = .ctrlNolit →
          exec i s = .next (withCurrent s (faultedWith u .corruptStream .fwdExhaust u.wp)))

/-- O14. LITSEL: S = 1 gives a run of one byte, S = 0 starts a length code at 0 (R93). -/
def Obligations.LitselSteps : Prop :=
  ∀ (s : State) (u : DecUnit), s.units[s.cur]? = some u → u.state = .busy → u.phase = .litsel →
    (∀ v, read1 s.cfg u = .ok (0#1, v) →
        exec .litExt s = .next (withCurrent s { v with litcnt := 0, phase := .litcode }))
      ∧ (∀ v, read1 s.cfg u = .ok (1#1, v) →
        exec .litOne s = .next (withCurrent s { v with litcnt := 1, phase := .litcopy }))
      ∧ (∀ d p, read1 s.cfg u = .raise d p → ∀ i, i = .litExt ∨ i = .litOne →
          exec i s = .next (withCurrent s (faultedWith u .corruptStream .fwdExhaust u.wp)))

/-- O15. LITCODE: Lc = 0 adds 3 and goes on, Lc = 1, 2, 3 adds 4, 3, 2 and stops (R94). -/
def Obligations.LitcodeSteps : Prop :=
  ∀ (s : State) (u : DecUnit), s.units[s.cur]? = some u → u.state = .busy → u.phase = .litcode →
    (∀ v, read2 s.cfg u = .ok (0#2, v) →
        exec .litcodeCont s = .next (withCurrent s { v with litcnt := u.litcnt + 3, phase := .litcode }))
      ∧ (∀ v i n, read2 s.cfg u = .ok (n, v) → (i, n) ∈ [(Instr.litcodeAdd4, 1#2), (.litcodeAdd3, 2), (.litcodeAdd2, 3)] →
        exec i s = .next (withCurrent s { v with litcnt := u.litcnt + (5 - n.toNat), phase := .litcopy }))
      ∧ (∀ d p, read2 s.cfg u = .raise d p →
          ∀ i ∈ [Instr.litcodeCont, .litcodeAdd4, .litcodeAdd3, .litcodeAdd2],
            exec i s = .next (withCurrent s (faultedWith u .corruptStream .fwdExhaust u.wp)))

/-- O16. MIDX: each of the sixteen indices leaves itself and its table entry in MIDX, MBL and MBASE (R85, R97). -/
def Obligations.MidxSteps : Prop :=
  ∀ (s : State) (u : DecUnit), s.units[s.cur]? = some u → u.state = .busy → u.phase = .midx →
    (∀ (v : DecUnit) (row : Instr × BitVec 4 × BitVec 4 × BitVec 16), read4 s.cfg u = .ok (row.2.1, v) →
        row ∈ [(Instr.midx0, 0#4, 4#4, 0#16), (.midx1, 1, 6, 16), (.midx2, 2, 8, 80), (.midx3, 3, 9, 336),
          (.midx4, 4, 4, 0), (.midx5, 5, 7, 16), (.midx6, 6, 9, 144), (.midx7, 7, 11, 656),
          (.midx8, 8, 13, 2704), (.midx9, 9, 14, 10896), (.midx10, 10, 5, 0), (.midx11, 11, 7, 32),
          (.midx12, 12, 9, 160), (.midx13, 13, 11, 672), (.midx14, 14, 13, 2720), (.midx15, 15, 14, 10912)] →
        exec row.1 s = .next (withCurrent s
          { v with midx := row.2.1, mbl := row.2.2.1, mbase := row.2.2.2, phase := .mdist }))
      ∧ (∀ d p, read4 s.cfg u = .raise d p →
          ∀ i ∈ [Instr.midx0, .midx1, .midx2, .midx3, .midx4, .midx5, .midx6, .midx7, .midx8, .midx9, .midx10,
            .midx11, .midx12, .midx13, .midx14, .midx15],
            exec i s = .next (withCurrent s (faultedWith u .corruptStream .fwdExhaust u.wp)))

/-- O17. MDIST: the extra bits e give DIST = MBASE + e; indices below 4 set MLEN to 2, indices 4 to 9 to 3, and
the others go on to MLEN2 (R98). -/
def Obligations.MdistStep : Prop :=
  ∀ (s : State) (u : DecUnit), s.units[s.cur]? = some u → u.state = .busy → u.phase = .mdist →
    (∀ v (e : BitVec 14), readX u.mbl.toNat s.cfg u = .ok (e.toNat, v) →
        exec (.mdist u.mbl e) s = .next (withCurrent s
          (if u.midx.toNat < 4 then { v with dist := u.mbase.toNat + e.toNat, mlen := 2, phase := .mcopy }
           else if u.midx.toNat < 10 then { v with dist := u.mbase.toNat + e.toNat, mlen := 3, phase := .mcopy }
           else { v with dist := u.mbase.toNat + e.toNat, phase := .mlen2 })))
      ∧ (∀ d p, readX u.mbl.toNat s.cfg u = .raise d p → ∀ n e,
          exec (.mdist n e) s = .next (withCurrent s (faultedWith u .corruptStream .fwdExhaust u.wp)))

/-- O18. MLEN2: Mc = 1, 2, 3 sets MLEN to 6, 5, 4; Mc = 0 starts a nibble code at 6 (R99). -/
def Obligations.Mlen2Steps : Prop :=
  ∀ (s : State) (u : DecUnit), s.units[s.cur]? = some u → u.state = .busy → u.phase = .mlen2 →
    (∀ v, read2 s.cfg u = .ok (0#2, v) →
        exec .mlen2Ext s = .next (withCurrent s { v with mlen := 6, phase := .mlenn }))
      ∧ (∀ v i n, read2 s.cfg u = .ok (n, v) → (i, n) ∈ [(Instr.mlen2L6, 1#2), (.mlen2L5, 2), (.mlen2L4, 3)] →
        exec i s = .next (withCurrent s { v with mlen := 3 + (4 - n.toNat), phase := .mcopy }))
      ∧ (∀ d p, read2 s.cfg u = .raise d p → ∀ i ∈ [Instr.mlen2Ext, .mlen2L6, .mlen2L5, .mlen2L4],
          exec i s = .next (withCurrent s (faultedWith u .corruptStream .fwdExhaust u.wp)))

/-- O19. MLENN: N = 0 adds 15 and goes on, a nibble t in 1..15 adds 16 - t and stops (R100). -/
def Obligations.MlennSteps : Prop :=
  ∀ (s : State) (u : DecUnit), s.units[s.cur]? = some u → u.state = .busy → u.phase = .mlenn →
    (∀ v, read4 s.cfg u = .ok (0#4, v) →
        exec .mlennCont s = .next (withCurrent s { v with mlen := u.mlen + 15, phase := .mlenn }))
      ∧ (∀ v i n k, read4 s.cfg u = .ok (n, v) →
          (i, n, k) ∈ [(Instr.mlennAdd1, 15#4, 1), (.mlennAdd2, 14, 2), (.mlennAdd3, 13, 3), (.mlennAdd4, 12, 4),
            (.mlennAdd5, 11, 5), (.mlennAdd6, 10, 6), (.mlennAdd7, 9, 7), (.mlennAdd8, 8, 8),
            (.mlennAdd9, 7, 9), (.mlennAdd10, 6, 10), (.mlennAdd11, 5, 11), (.mlennAdd12, 4, 12),
            (.mlennAdd13, 3, 13), (.mlennAdd14, 2, 14), (.mlennAdd15, 1, 15)] →
          exec i s = .next (withCurrent s { v with mlen := u.mlen + k, phase := .mcopy }))
      ∧ (∀ d p, read4 s.cfg u = .raise d p →
          ∀ i ∈ [Instr.mlennCont, .mlennAdd1, .mlennAdd2, .mlennAdd3, .mlennAdd4, .mlennAdd5, .mlennAdd6,
            .mlennAdd7, .mlennAdd8, .mlennAdd9, .mlennAdd10, .mlennAdd11, .mlennAdd12, .mlennAdd13, .mlennAdd14,
            .mlennAdd15],
            exec i s = .next (withCurrent s (faultedWith u .corruptStream .fwdExhaust u.wp)))

/-! ### The steps that move bytes -/

/-- O20. LITCOPY, when the run fits: the next LITCNT tail bytes stand in OM from WP up, in the reverse of their
order in PM; TAIL and WP move past them; nothing else changes (R95). -/
def Obligations.LitcopyStep : Prop :=
  ∀ (s : State) (u : DecUnit), s.units[s.cur]? = some u → u.state = .busy → u.phase = .litcopy →
    u.wp + u.litcnt ≤ u.dstLen.toNat → u.dstLen.toNat ≤ s.cfg.omSize → fwdHi s.cfg u + u.litcnt ≤ u.tail →
    u.tail ≤ s.cfg.pmSize → (∀ j, j < u.litcnt → u.pm.read (u.tail - 1 - j) ≠ none) →
    ∃ m, exec .litcopy s = .next (withCurrent s
        { u with tail := u.tail - u.litcnt, wp := u.wp + u.litcnt, om := m, phase := .endchk })
      ∧ (∀ j, j < u.litcnt → m.read (u.wp + j) = u.pm.read (u.tail - 1 - j))
      ∧ (∀ a, a < u.wp ∨ u.wp + u.litcnt ≤ a → m.read a = u.om.read a)

/-- O21. LITCOPY's faults, in their order: LIT_OVERRUN at WP before any byte; then TAIL_CROSS, at the position of
the first byte that would cross, with the bytes before it undone (R10, R95, R134, R137). -/
def Obligations.LitcopyFaults : Prop :=
  ∀ (s : State) (u : DecUnit), s.units[s.cur]? = some u → u.state = .busy → u.phase = .litcopy →
    (u.dstLen.toNat < u.wp + u.litcnt →
        exec .litcopy s = .next (withCurrent s (faultedWith u .corruptStream .litOverrun u.wp)))
      ∧ (u.wp + u.litcnt ≤ u.dstLen.toNat → u.dstLen.toNat ≤ s.cfg.omSize → 1 ≤ u.litcnt →
          u.tail < fwdHi s.cfg u + u.litcnt → u.tail ≤ s.cfg.pmSize →
          (∀ i, fwdHi s.cfg u ≤ i → i < u.tail → u.pm.read i ≠ none) →
          exec .litcopy s = .next (withCurrent s
            (faultedWith u .corruptStream .tailCross (u.wp + (u.tail - fwdHi s.cfg u)))))

/-- O22. ENDCHK: done() when the output is full, MIDX otherwise (R96, R102). -/
def Obligations.EndchkStep : Prop :=
  ∀ (s : State) (u : DecUnit), s.units[s.cur]? = some u → u.state = .busy → u.phase = .endchk →
    (u.wp = u.dstLen.toNat → exec .endchk s = .next (withCurrent s (finishedWith u)))
      ∧ (u.wp ≠ u.dstLen.toNat → exec .endchk s = .next (withCurrent s { u with phase := .midx }))

/-- O23. MCOPY, when its checks pass: byte j of the match is the byte DIST below it, so the DIST bytes before WP
repeat through the match, also where it overlaps its own output (R101, R156); nothing else changes. -/
def Obligations.McopyStep : Prop :=
  ∀ (s : State) (u : DecUnit), s.units[s.cur]? = some u → u.state = .busy → u.phase = .mcopy →
    1 ≤ u.dist → u.dist ≤ u.wp → u.wp + u.mlen ≤ u.dstLen.toNat → u.dstLen.toNat ≤ s.cfg.omSize →
    writtenBelow u.om u.wp →
    ∃ m, exec .mcopy s = .next (withCurrent s { u with wp := u.wp + u.mlen, om := m, phase := .ctrl })
      ∧ (∀ j, j < u.mlen → m.read (u.wp + j) = m.read (u.wp + j - u.dist))
      ∧ (∀ j, j < u.mlen → m.read (u.wp + j) = u.om.read (u.wp - u.dist + j % u.dist))
      ∧ (∀ a, a < u.wp ∨ u.wp + u.mlen ≤ a → m.read a = u.om.read a)

/-- O24. MCOPY's faults in their order: DIST_ZERO, DIST_BEFORE_START, MATCH_OVERRUN, each at WP and before any
byte is written (R101, R137). -/
def Obligations.McopyFaults : Prop :=
  ∀ (s : State) (u : DecUnit), s.units[s.cur]? = some u → u.state = .busy → u.phase = .mcopy →
    (u.dist = 0 → exec .mcopy s = .next (withCurrent s (faultedWith u .corruptStream .distZero u.wp)))
      ∧ (u.dist ≠ 0 → u.wp < u.dist →
          exec .mcopy s = .next (withCurrent s (faultedWith u .corruptStream .distBeforeStart u.wp)))
      ∧ (u.dist ≠ 0 → u.dist ≤ u.wp → u.dstLen.toNat < u.wp + u.mlen →
          exec .mcopy s = .next (withCurrent s (faultedWith u .corruptStream .matchOverrun u.wp)))

/-- O25. RAWCOPY copies PM[0 .. DST_LEN) to OM and completes (R90, R102). -/
def Obligations.RawcopyStep : Prop :=
  ∀ (s : State) (u : DecUnit), s.units[s.cur]? = some u → u.state = .busy → u.phase = .rawcopy →
    u.dstLen.toNat ≤ s.cfg.pmSize → u.dstLen.toNat ≤ s.cfg.omSize → writtenBelow u.pm u.dstLen.toNat →
    ∃ m, exec .rawcopy s = .next (withCurrent s (finishedWith { u with wp := u.dstLen.toNat, om := m }))
      ∧ (∀ i, i < u.dstLen.toNat → m.read i = u.pm.read i)
      ∧ (∀ i, u.dstLen.toNat ≤ i → m.read i = u.om.read i)

/-- O26. IMGCLEAR latches the geometry, zeroes WIDTH * HEIGHT bytes of IM, sets IM_VALID and completes (R125). -/
def Obligations.ImgclearStep : Prop :=
  ∀ (s : State) (u : DecUnit), s.units[s.cur]? = some u → u.state = .busy → u.phase = .imgclear →
    u.width.toNat * u.height.toNat ≤ s.cfg.imSize →
    ∃ m, exec .imgclear s = .next (withCurrent
        { s with im := m, imgW := u.width, imgH := u.height, imgBpc := u.bpc, imValid := true } (finishedWith u))
      ∧ (∀ i, i < u.width.toNat * u.height.toNat → m.read i = some 0)
      ∧ (∀ i, u.width.toNat * u.height.toNat ≤ i → m.read i = s.im.read i)

/-- O27. FOLD.STEP: pixel (x, y) takes bit 7 - (i mod 8) of OM[i div 8], with i = y * S + x and S the row stride,
ORed in at bit PLANE; the step completes; OM is unchanged (R44, R127). -/
def Obligations.FoldStepResult : Prop :=
  ∀ (s : State) (u : DecUnit) (W H S : Nat), s.units[s.cur]? = some u → u.state = .busy → u.phase = .fold →
    paramsValid s.cfg = true → W = s.imgW.toNat → H = s.imgH.toNat →
    S = (W + (s.cfg.rowAlign - 1)) / s.cfg.rowAlign * s.cfg.rowAlign →
    W * H ≤ s.cfg.imSize → writtenBelow s.im (W * H) →
    (∀ i, i < H * S → i / 8 < s.cfg.omSize ∧ u.om.read (i / 8) ≠ none) →
    ∃ m, exec .foldStep s = .next (withCurrent { s with im := m } (finishedWith u))
      ∧ (∀ x y, x < W → y < H → ∃ b p : Byte,
          u.om.read ((y * S + x) / 8) = some b ∧ s.im.read (y * W + x) = some p
            ∧ m.read (y * W + x) =
                some (p ||| (if b.getLsbD (7 - (y * S + x) % 8) then 1#8 <<< u.plane.toNat else 0#8)))
      ∧ (∀ a, W * H ≤ a → m.read a = s.im.read a)

/-! ### The commands -/

/-- O28. DECODE's start step: OM_VALID and OM_LEN clear, then SRC_RANGE and DST_RANGE in that order, then fresh
cursors, TAIL at SRC_LEN, WP at 0 and phase CTRL (R73, R88). -/
def Obligations.DecodeStart : Prop :=
  ∀ (g : BitVec 28) (s : State) (u : DecUnit), s.units[s.cur]? = some u → u.state ≠ .busy →
    exec (.decode g) s = .next (withCurrent s
      (if s.cfg.pmSize < u.srcLen.toNat then
        faultedWith { startedWith u 1 with omValid := false, omLen := 0 } .configError .srcRange u.srcLen.toNat
      else if s.cfg.omSize < u.dstLen.toNat then
        faultedWith { startedWith u 1 with omValid := false, omLen := 0 } .configError .dstRange u.dstLen.toNat
      else
        { startedWith u 1 with
          omValid := false
          omLen := 0
          c1 := ⟨0, 0⟩
          c2 := ⟨0, 0⟩
          cx := ⟨0, 0⟩
          c4 := ⟨0, 0⟩
          fwd := if s.cfg.fwdMode = .shared then 0 else u.fwd
          off := if s.cfg.fwdMode = .shared then u.off else s.cfg.initOff
          tail := u.srcLen.toNat
          wp := 0
          phase := .ctrl }))

/-- O29. COPY_RAW's start step: the two range checks, then RAW_SIZE_MISMATCH, then WP at 0 and phase RAWCOPY
(R89). -/
def Obligations.CopyRawStart : Prop :=
  ∀ (g : BitVec 28) (s : State) (u : DecUnit), s.units[s.cur]? = some u → u.state ≠ .busy →
    exec (.copyRaw g) s = .next (withCurrent s
      (if s.cfg.pmSize < u.srcLen.toNat then
        faultedWith { startedWith u 2 with omValid := false, omLen := 0 } .configError .srcRange u.srcLen.toNat
      else if s.cfg.omSize < u.dstLen.toNat then
        faultedWith { startedWith u 2 with omValid := false, omLen := 0 } .configError .dstRange u.dstLen.toNat
      else if u.srcLen ≠ u.dstLen then
        faultedWith { startedWith u 2 with omValid := false, omLen := 0 } .corruptStream .rawSizeMismatch
          u.srcLen.toNat
      else { startedWith u 2 with omValid := false, omLen := 0, wp := 0, phase := .rawcopy }))

/-- O30. IMG_CLEAR's start step: BPC_RANGE, then IMG_RANGE, each leaving the shared state alone, then IM_VALID
clear and phase IMGCLEAR (R124). -/
def Obligations.ImgClearStart : Prop :=
  ∀ (g : BitVec 28) (s : State) (u : DecUnit), s.units[s.cur]? = some u → u.state ≠ .busy →
    exec (.imgClear g) s =
      if 8 < u.bpc.toNat then
        .next (withCurrent s (faultedWith (startedWith u 3) .configError .bpcRange u.bpc.toNat))
      else if s.cfg.imSize < u.width.toNat * u.height.toNat then
        .next (withCurrent s
          (faultedWith (startedWith u 3) .configError .imgRange (u.width.toNat * u.height.toNat)))
      else .next (withCurrent { s with imValid := false } { startedWith u 3 with phase := .imgclear })

/-- O31. FOLD's start step: NO_IMAGE, PLANE_RANGE, NO_PLANE_DATA and PLANE_SHORT in that order, then phase FOLD,
with S = ceil(IMG_W / ROW_ALIGN) * ROW_ALIGN (R126). -/
def Obligations.FoldStart : Prop :=
  ∀ (g : BitVec 28) (s : State) (u : DecUnit), s.units[s.cur]? = some u → u.state ≠ .busy →
    exec (.fold g) s = .next (withCurrent s
      (if s.imValid = false then faultedWith (startedWith u 4) .configError .noImage 0
      else if s.imgBpc.toNat ≤ u.plane.toNat then
        faultedWith (startedWith u 4) .configError .planeRange u.plane.toNat
      else if u.omValid = false then faultedWith (startedWith u 4) .configError .noPlaneData 0
      else if 8 * u.omLen.toNat <
          s.imgH.toNat * ((s.imgW.toNat + (s.cfg.rowAlign - 1)) / s.cfg.rowAlign * s.cfg.rowAlign) then
        faultedWith (startedWith u 4) .corruptStream .planeShort u.omLen.toNat
      else { startedWith u 4 with phase := .fold }))

/-- O32. A reserved OP faults at once with BAD_OPCODE at OP, and changes nothing but STATUS, ERR_POS and PHASE
(R59, R135). -/
def Obligations.IllegalStart : Prop :=
  ∀ (g : BitVec 28) (s : State) (u : DecUnit), s.units[s.cur]? = some u → u.state ≠ .busy →
    exec (.illegal0 g) s = .next (withCurrent s (faultedWith (startedWith u 0) .illegalCommand .badOpcode 0))
      ∧ exec (.illegal5 g) s = .next (withCurrent s (faultedWith (startedWith u 5) .illegalCommand .badOpcode 5))
      ∧ (∀ b : BitVec 1, exec (.illegal67 b g) s = .next (withCurrent s
          (faultedWith (startedWith u (BitVec.ofNat 4 (6 + b.toNat))) .illegalCommand .badOpcode (6 + b.toNat))))
      ∧ (∀ l : BitVec 3, exec (.illegal8F l g) s = .next (withCurrent s
          (faultedWith (startedWith u (BitVec.ofNat 4 (8 + l.toNat))) .illegalCommand .badOpcode (8 + l.toNat))))

/-- O33. A command to a BUSY unit is ignored: no effect and no fault (R24, R138). -/
def Obligations.BusyIgnoresCommands : Prop :=
  ∀ (i : Instr) (s : State) (u : DecUnit), s.units[s.cur]? = some u → u.state = .busy → isCommand i →
    exec i s = .next s

/-! ### Steps of the machine -/

/-- O34. On the turn of unit k, the step is exec of the instruction that the unit fetches, with that unit in hand
(R70, R91); where that instruction, or the fetch itself, reads an unwritten byte, the step is undone, the byte is
recorded and unit k is stopped, with all else left to go on (R41, log entry 8); a fetch whose read raises enters
FAULT (R134); and the code fetched is the phase's symbol, from the cursor and of the width of R61. -/
def Obligations.StepRunsUnitInstruction : Prop :=
  (∀ (s t : State) (k : Nat) (u : DecUnit), unitTurn s k t → t.units[k]? = some u →
      (∀ w i, fetchCode k t.cfg u = .ok w → decode w = .ok i →
          (∀ m a, exec i t = .fault (.unwritten m a) →
              step s = .next { t with stopped := ⟨k, m, a⟩ :: t.stopped })
            ∧ ((∀ m a, exec i t ≠ .fault (.unwritten m a)) → step s = exec i t))
        ∧ (∀ m a, fetchCode k t.cfg u = .stop (.unwritten m a) →
            step s = .next { t with stopped := ⟨k, m, a⟩ :: t.stopped })
        ∧ (∀ d p, fetchCode k t.cfg u = .raise d p →
            step s = .next (withUnitAt t k (faultedWith u .corruptStream .fwdExhaust u.wp))))
    ∧ (∀ (k : Nat) (c : Config) (u : DecUnit),
        (u.phase = .ctrl ∨ u.phase = .litsel →
            fetchCode k c u = (read1 c u).map (fun x => .sym u.phase 1 x.1.toNat))
          ∧ (u.phase = .litcode ∨ u.phase = .mlen2 →
            fetchCode k c u = (read2 c u).map (fun x => .sym u.phase 2 x.1.toNat))
          ∧ (u.phase = .midx ∨ u.phase = .mlenn →
            fetchCode k c u = (read4 c u).map (fun x => .sym u.phase 4 x.1.toNat))
          ∧ (u.phase = .mdist →
            fetchCode k c u = (readX u.mbl.toNat c u).map (fun x => .sym .mdist u.mbl.toNat x.1))
          ∧ (u.phase ∈ [Phase.litcopy, .endchk, .mcopy, .rawcopy, .imgclear, .fold] →
            fetchCode k c u = .ok (.step u.phase)))

/-- O35. On the host's turn, a 32-bit write to CMD of unit k is exec of the instruction that the word decodes to
(R24, R58). -/
def Obligations.StepRunsCommand : Prop :=
  ∀ (s t : State) (k : Nat) (w : BitVec 32) (i : Instr) (d : DecUnit), hostTurn s (.regWrite k 0 32 w) t →
    t.units[k]? = some d → decode (.cmd w) = .ok i → step s = exec i { t with cur := k }

/-- O36. The machine refuses only a parameter out of range or a register access that is not an aligned 32-bit one
(R6, R52): a fetched row is always the row that its unit selects (R70). -/
def Obligations.StepRefusesOnlyBadInput : Prop :=
  ∀ (s : State) (r : Refusal), step s = .refused r →
    (r = .badParameter ∧ paramsValid s.cfg = false)
      ∨ ∃ off width, r = .badRegisterAccess off width ∧ ¬(width = 32 ∧ off % 4 = 0)

/-- O37. Only an agent that can move moves: the host if it has an action and is not waiting for a BUSY unit, or a
BUSY unit that R41 has not stopped (R5, R148, R158); where only one can, it is that one; where none can, the
machine stands still. -/
def Obligations.EnabledAgentsMove : Prop :=
  (∀ (s t : State) (a : Agent), pick s = some (a, t) →
      a ∈ enabled s ∧ t = { s with choices := t.choices, draws := t.draws })
    ∧ (∀ (s : State) (a : Agent), enabled s = [a] → pick s = some (a, s))
    ∧ (∀ s : State, enabled s = [] → paramsValid s.cfg = true → step s = .next s)
    ∧ (∀ (s : State) (k : Nat), .unit k ∈ enabled s ↔
        (∃ u, s.units[k]? = some u ∧ u.state = .busy) ∧ ∀ x ∈ s.stopped, x.unit ≠ k)
    ∧ (∀ s : State, .host ∈ enabled s ↔ ∃ a rest, s.host.todo = a :: rest
        ∧ ∀ k u, a = .wait k → s.units[k]? = some u → u.state ≠ .busy)

/-- O38. Reset: every register of every unit and of the shared image is 0, STATE is IDLE, PHASE is NONE, and PM, OM
and IM are unwritten (R36, R147); and the external reset puts a running machine into that state. That no unit is
stopped after reset, and that the external reset empties that record, is the model's choice (log entries 17 and 8). -/
def Obligations.ResetValues : Prop :=
  (∀ c : Config, (State.resetWith c).cfg = c ∧ (State.resetWith c).units.length = c.nUnits
      ∧ (State.resetWith c).imgW = 0 ∧ (State.resetWith c).imgH = 0 ∧ (State.resetWith c).imgBpc = 0
      ∧ (State.resetWith c).imValid = false ∧ (State.resetWith c).stopped = []
      ∧ (∀ a, (State.resetWith c).im.read a = none)
      ∧ ∀ u ∈ (State.resetWith c).units,
          u.c1 = ⟨0, 0⟩ ∧ u.c2 = ⟨0, 0⟩ ∧ u.cx = ⟨0, 0⟩ ∧ u.c4 = ⟨0, 0⟩ ∧ u.fwd = 0 ∧ u.off = ⟨0, 0, 0, 0⟩
            ∧ u.tail = 0 ∧ u.wp = 0 ∧ u.phase = .none ∧ u.litcnt = 0 ∧ u.midx = 0 ∧ u.mbl = 0 ∧ u.mbase = 0
            ∧ u.dist = 0 ∧ u.mlen = 0 ∧ u.srcLen = 0 ∧ u.dstLen = 0 ∧ u.width = 0 ∧ u.height = 0 ∧ u.bpc = 0
            ∧ u.plane = 0 ∧ u.errPos = 0 ∧ u.omLen = 0 ∧ u.state = .idle
            ∧ statusWord u (State.resetWith c).imValid = 0
            ∧ (∀ a, u.pm.read a = none) ∧ (∀ a, u.om.read a = none))
    ∧ State.reset = State.resetWith Config.default
    ∧ (∀ s t : State, hostTurn s .reset t → ∃ r, step s = .next r ∧ r.cfg = s.cfg
        ∧ r.units = (State.resetWith s.cfg).units ∧ r.im = [] ∧ r.imgW = 0 ∧ r.imgH = 0 ∧ r.imgBpc = 0
        ∧ r.imValid = false ∧ r.stopped = [])

/-! ### The host -/

/-- O39. A write of a register other than CMD: an RW register takes the bits of its used width, every other offset
ignores it, and a BUSY unit ignores it (R23, R138). -/
def Obligations.RegisterWrites : Prop :=
  ∀ (s t : State) (k off : Nat) (v : BitVec 32) (d : DecUnit), hostTurn s (.regWrite k off 32 v) t →
    t.units[k]? = some d → off % 4 = 0 → off ≠ 0 → off < 64 →
    step s = .next (withUnitAt t k
      (if d.state = .busy then d
      else if off = 0x04 then { d with srcLen := v }
      else if off = 0x08 then { d with dstLen := v }
      else if off = 0x0C then { d with width := BitVec.ofNat 16 v.toNat }
      else if off = 0x10 then { d with height := BitVec.ofNat 16 v.toNat }
      else if off = 0x14 then { d with bpc := BitVec.ofNat 8 v.toNat }
      else if off = 0x18 then { d with plane := BitVec.ofNat 8 v.toNat }
      else d))

/-- O40. A register read returns the value of R23's table, at any time and without effect on the block (R23, R27,
R28, R50): CMD and the reserved offsets read 0, STATUS is the sum of its fields, and the codes of STATE (R27), of
PHASE (R21), of ERR_KIND (R132) and of ERR_CAUSE (R133) are those of their tables. -/
def Obligations.RegisterReads : Prop :=
  ∀ (s t : State) (k off : Nat) (d : DecUnit), hostTurn s (.regRead k off 32) t → t.units[k]? = some d →
    off % 4 = 0 → off < 64 →
    ∃ v : BitVec 32, step s = .next { t with host := { t.host with got := some v } }
      ∧ (off ∈ [0x00, 0x38, 0x3C] → v = 0) ∧ (off = 0x04 → v = d.srcLen) ∧ (off = 0x08 → v = d.dstLen)
      ∧ (off = 0x0C → v.toNat = d.width.toNat) ∧ (off = 0x10 → v.toNat = d.height.toNat)
      ∧ (off = 0x14 → v.toNat = d.bpc.toNat) ∧ (off = 0x18 → v.toNat = d.plane.toNat)
      ∧ (∀ state kind cause : Nat,
          (d.state, state) ∈ [(UnitState.idle, 0), (.busy, 1), (.done, 2), (.fault, 3)] →
          (d.errKind, kind) ∈ [(ErrKind.none, 0), (.missingHeader, 1), (.missingPalette, 2), (.corruptStream, 3),
            (.illegalCommand, 4), (.configError, 5)] →
          (d.errCause, cause) ∈ [(Cause.none, 0x00), (.fwdExhaust, 0x01), (.tailCross, 0x02), (.litOverrun, 0x03),
            (.distBeforeStart, 0x04), (.distZero, 0x05), (.matchOverrun, 0x06), (.rawSizeMismatch, 0x07),
            (.planeShort, 0x08), (.unknownType, 0x09), (.chunkPastEof, 0x0A), (.badOpcode, 0x10), (.srcRange, 0x11),
            (.dstRange, 0x12), (.imgRange, 0x13), (.bpcRange, 0x14), (.planeRange, 0x15), (.noPlaneData, 0x16),
            (.noImage, 0x17)] →
          off = 0x1C → v.toNat = state + 2 ^ 2 * d.omValid.toNat + 2 ^ 3 * t.imValid.toNat
            + 2 ^ 4 * d.lastOp.toNat + 2 ^ 8 * kind + 2 ^ 16 * cause)
      ∧ (off = 0x20 → v = d.errPos) ∧ (off = 0x24 → v.toNat = d.wp % 2 ^ 32)
      ∧ (off = 0x28 → v.toNat = fwdHi t.cfg d % 2 ^ 32) ∧ (off = 0x2C → v.toNat = d.tail % 2 ^ 32)
      ∧ (∀ phase : Nat,
          (d.phase, phase) ∈ [(Phase.none, 0), (.ctrl, 1), (.litsel, 2), (.litcode, 3), (.litcopy, 4), (.endchk, 5),
            (.midx, 6), (.mdist, 7), (.mlen2, 8), (.mlenn, 9), (.mcopy, 10), (.rawcopy, 11), (.imgclear, 12),
            (.fold, 13)] →
          off = 0x30 → v.toNat = phase)
      ∧ (off = 0x34 → v = d.omLen)

/-- O41. A register access that is not an aligned 32-bit one is refused (R52, R159). -/
def Obligations.BadAccessesRefused : Prop :=
  ∀ (s t : State) (k off width : Nat) (v : BitVec 32), ¬(width = 32 ∧ off % 4 = 0) →
    hostTurn s (.regWrite k off width v) t ∨ hostTurn s (.regRead k off width) t →
    step s = .refused (.badRegisterAccess off width)

/-- O42. A PM fill defines exactly its bytes, unless the unit is BUSY, which ignores it (R52, R138). -/
def Obligations.HostPmWrites : Prop :=
  ∀ (s t : State) (k a : Nat) (bytes : List Byte) (d : DecUnit), hostTurn s (.pmWrite k a bytes) t →
    t.units[k]? = some d → a + bytes.length ≤ t.cfg.pmSize →
    (d.state = .busy → step s = .next t)
      ∧ (d.state ≠ .busy → ∃ m, step s = .next (withUnitAt t k { d with pm := m })
          ∧ ∀ i, m.read i = if a ≤ i ∧ i < a + bytes.length then bytes[i - a]? else d.pm.read i)

/-- O43. A host read of OM or IM returns the byte that the block wrote where R52 makes it valid, and a draw
otherwise; writes to OM and IM are ignored (R52). -/
def Obligations.HostMemoryAccesses : Prop :=
  (∀ (s t : State) (k i : Nat) (d : DecUnit), hostTurn s (.omRead k i) t → t.units[k]? = some d →
      (∀ b : Byte, d.omValid = true → d.state ≠ .busy → i < d.omLen.toNat → d.om.read i = some b →
          step s = .next { t with host := { t.host with got := some (BitVec.ofNat 32 b.toNat) } })
        ∧ (d.omValid = false ∨ d.state = .busy ∨ d.omLen.toNat ≤ i →
          step s = .next { t with
            host := { t.host with got := some (BitVec.ofNat 32 (Config.freeByte t.draws).toNat) }
            draws := t.draws + 1 }))
    ∧ (∀ (s t : State) (i : Nat), hostTurn s (.imRead i) t →
      (∀ b : Byte, t.imValid = true → (∀ u ∈ t.units, u.state = .busy → u.phase ≠ .imgclear ∧ u.phase ≠ .fold) →
          i < t.imgW.toNat * t.imgH.toNat → t.im.read i = some b →
          step s = .next { t with host := { t.host with got := some (BitVec.ofNat 32 b.toNat) } })
        ∧ (t.imValid = false ∨ (∃ u ∈ t.units, u.state = .busy ∧ (u.phase = .imgclear ∨ u.phase = .fold))
            ∨ t.imgW.toNat * t.imgH.toNat ≤ i →
          step s = .next { t with
            host := { t.host with got := some (BitVec.ofNat 32 (Config.freeByte t.draws).toNat) }
            draws := t.draws + 1 }))
    ∧ (∀ (s t : State) (k i : Nat) (b : Byte) (d : DecUnit), hostTurn s (.omWrite k i b) t → t.units[k]? = some d →
        step s = .next t)
    ∧ (∀ (s t : State) (i : Nat) (b : Byte), hostTurn s (.imWrite i b) t → step s = .next t)

/-- O44. Both whole-file procedures, the serial one on unit k and the parallel one, open with the header check, then
the palette check, then IMG_CLEAR for the header's width, height and bitplane count, all big-endian (R45, R112 to
R114, R120, R123). The serial one goes on with the plane loop from offset 0 and index 0 (R120); the parallel one
forgets the failures noted before and goes on with the batches (R123), its IMG_CLEAR on unit 0 and waited for before
the first decode (log entry 20, the model's choice). After each job the host returns Err(ERR_KIND) where the unit is in
FAULT, and goes on otherwise (R120, R122). -/
def Obligations.WalkStart : Prop :=
  (∀ (s t : State) (a next : HostAction) (k : Nat) (noted : List Failure) (f : List Byte), hostTurn s a t →
      (a = .walk k ∧ next = .findPlane k 0 0 ∧ noted = t.host.noted)
        ∨ (a = .walkParallel ∧ k = 0 ∧ next = .batch 0 0 ∧ noted = []) →
      f = t.host.file →
      (f.length < 16 ∨ f.take 4 ≠ tagBytes t.cfg.tagHdr →
          step s = .next { t with host := { t.host with
            noted := noted, todo := [], result := some (.err .missingHeader .none) } })
        ∧ (16 ≤ f.length → f.take 4 = tagBytes t.cfg.tagHdr →
            f.length < 24 ∨ (f.drop 16).take 4 ≠ tagBytes t.cfg.tagPal →
            step s = .next { t with host := { t.host with
              noted := noted, todo := [], result := some (.err .missingPalette .none) } })
        ∧ (∀ (b : Byte) (w0 w1 h0 h1 l0 l1 l2 l3 : Byte) (n : Nat), f.take 4 = tagBytes t.cfg.tagHdr →
            (f.drop 16).take 8 = tagBytes t.cfg.tagPal ++ [l0, l1, l2, l3] → (f.drop 8).take 4 = [w0, w1, h0, h1] →
            f[15]? = some b →
            n = (2 ^ 24 * l0.toNat + 2 ^ 16 * l1.toNat + 2 ^ 8 * l2.toNat + l3.toNat) / 3 →
            (f.length < 24 + 3 * n →
                step s = .next { t with host := { t.host with
                  noted := noted, todo := [], result := some (.err .missingPalette .none) } })
              ∧ (24 + 3 * n ≤ f.length →
                step s = .next { t with host := { t.host with
                  noted := noted
                  todo := [.regWrite k 0x0C 32 (BitVec.ofNat 32 (256 * w0.toNat + w1.toNat)),
                    .regWrite k 0x10 32 (BitVec.ofNat 32 (256 * h0.toNat + h1.toNat)),
                    .regWrite k 0x14 32 (BitVec.ofNat 32 b.toNat), .regWrite k 0x00 32 3#32, .wait k,
                    .stopIfFault k, next] ++ t.host.todo } })))
    ∧ (∀ (s t : State) (k : Nat) (d : DecUnit), hostTurn s (.stopIfFault k) t → t.units[k]? = some d →
      (d.state = .fault → step s = .next { t with host := { t.host with
          todo := [], result := some (.err d.errKind d.errCause) } })
        ∧ (d.state ≠ .fault → step s = .next t))

/-- O45. search(s) returns the least m at or after s where the whole plane tag stands in the file, or none when
there is no such m (R116). -/
def Obligations.SearchFindsLeast : Prop :=
  ∀ (c : Config) (f : List Byte) (s : Nat),
    (∀ m, searchPlane c f s = some m ↔
        s ≤ m ∧ m + 4 ≤ f.length ∧ (f.drop m).take 4 = tagBytes c.tagPlane
          ∧ ∀ n, s ≤ n → n < m → (f.drop n).take 4 ≠ tagBytes c.tagPlane)
      ∧ (searchPlane c f s = none ↔
        ∀ n, s ≤ n → n + 4 ≤ f.length → (f.drop n).take 4 ≠ tagBytes c.tagPlane)

/-- O46. The plane loop at offset `from_` and index j: no further chunk ends it; a chunk past the end of the file
or of an unknown type is CorruptStream; a chunk of type 0 or 1, its sizes big-endian, is loaded into PM and run as
COPY_RAW or DECODE with its sizes, folded as plane j, and the search goes on behind it (R45, R117 to R121). The end is
Ok(W, H, pixels, palette) (R114, R115, R122), a pixel being IM's byte where R52 makes it valid and a draw otherwise;
that a byte which R52 makes valid but no write has defined is a draw too is log entry 22 (DEDUCED, the model's choice),
and the form of a draw log entry 6 (the model's choice).
The parallel procedure runs the next chunks, at most one a unit, notes each failing plane, folds the others, and returns
the error of the lowest-numbered failing plane (R123); that it works in such batches is log entry 20 (the model's
choice), and that the readout is one action log entry 25. -/
def Obligations.PlaneLoop : Prop :=
  (∀ (s t : State) (k from_ j : Nat) (f : List Byte), hostTurn s (.findPlane k from_ j) t → f = t.host.file →
      (searchPlane t.cfg f from_ = none →
          step s = .next { t with host := { t.host with todo := .returnOk :: t.host.todo } })
        ∧ (∀ m c, searchPlane t.cfg f from_ = some m → chunkError f m c →
          step s = .next { t with host := { t.host with todo := [], result := some (.err .corruptStream c) } })
        ∧ (∀ x : Chunk, searchPlane t.cfg f from_ = some x.start → chunkAt f x →
          step s = .next { t with host := { t.host with
            todo := [.wait k, .pmWrite k 0 x.payload, .regWrite k 0x04 32 (BitVec.ofNat 32 x.payload.length),
              .regWrite k 0x08 32 (BitVec.ofNat 32 x.rawSize), .regWrite k 0x00 32 x.op,
              .wait k, .stopIfFault k, .regWrite k 0x18 32 (BitVec.ofNat 32 j), .regWrite k 0x00 32 4,
              .wait k, .stopIfFault k, .findPlane k (x.start + t.cfg.planeSearchStep) (j + 1)]
              ++ t.host.todo } }))
    ∧ (∀ (s t : State) (f : List Byte) (w0 w1 h0 h1 l0 l1 l2 l3 : Byte) (n W H : Nat), hostTurn s .returnOk t →
      f = t.host.file → (f.drop 8).take 4 = [w0, w1, h0, h1] → (f.drop 20).take 4 = [l0, l1, l2, l3] →
      W = 256 * w0.toNat + w1.toNat → H = 256 * h0.toNat + h1.toNat →
      n = (2 ^ 24 * l0.toNat + 2 ^ 16 * l1.toNat + 2 ^ 8 * l2.toNat + l3.toNat) / 3 →
      ∃ px pal draws, step s = .next { t with
          host := { t.host with todo := [], result := some (.ok (BitVec.ofNat 16 W) (BitVec.ofNat 16 H) px pal) }
          draws := draws }
        ∧ px.length = W * H ∧ pal.length = n
        ∧ (∀ (i : Nat) (b : Byte), i < W * H → t.imValid = true →
            (∀ u ∈ t.units, u.state = .busy → u.phase ≠ .imgclear ∧ u.phase ≠ .fold) →
            i < t.imgW.toNat * t.imgH.toNat → t.im.read i = some b → px[i]? = some b)
        ∧ (∀ i, i < W * H → t.imValid = false
              ∨ (∃ u ∈ t.units, u.state = .busy ∧ (u.phase = .imgclear ∨ u.phase = .fold))
              ∨ t.imgW.toNat * t.imgH.toNat ≤ i ∨ t.im.read i = none → ∃ d, px[i]? = some (Config.freeByte d))
        ∧ (∀ i (r g b : Byte), i < n → (f.drop (24 + 3 * i)).take 3 = [r, g, b] → pal[i]? = some (r, g, b)))
    ∧ (∀ (s t : State) (from_ j rest : Nat) (f : List Byte) (l : List Chunk) (ends : List HostAction),
      hostTurn s (.batch from_ j) t → f = t.host.file → chunksFrom t.cfg f from_ l rest →
      (l.length = t.cfg.nUnits ∧ ends = [.stopIfNoted, .batch rest (j + l.length)])
        ∨ (l.length < t.cfg.nUnits ∧ searchPlane t.cfg f rest = none ∧ ends = [.stopIfNoted, .returnOk])
        ∨ (l.length < t.cfg.nUnits ∧ ∃ m c, searchPlane t.cfg f rest = some m ∧ chunkError f m c
            ∧ ends = [.noteFailure (j + l.length) c, .stopIfNoted]) →
      ∃ starts waits folds,
        starts = (l.mapIdx fun k x => [HostAction.wait k, .pmWrite k 0 x.payload,
          .regWrite k 0x04 32 (BitVec.ofNat 32 x.payload.length), .regWrite k 0x08 32 (BitVec.ofNat 32 x.rawSize),
          .regWrite k 0x00 32 x.op]).flatten
        ∧ waits = (l.mapIdx fun k _ => [HostAction.wait k, .noteIfFault k (j + k)]).flatten
        ∧ folds = (l.mapIdx fun k _ => HostAction.foldPlane k (j + k))
        ∧ step s = .next { t with host := { t.host with
            todo := starts ++ waits ++ folds ++ waits ++ ends ++ t.host.todo } })
    ∧ (∀ (s t : State) (k j : Nat) (d : DecUnit), hostTurn s (.noteIfFault k j) t → t.units[k]? = some d →
      (d.state ≠ .fault ∨ (∃ x ∈ t.host.noted, x.plane = j) → step s = .next t)
        ∧ (d.state = .fault → (∀ x ∈ t.host.noted, x.plane ≠ j) → step s = .next { t with host := { t.host with
            noted := t.host.noted ++ [⟨j, d.errKind, d.errCause⟩] } }))
    ∧ (∀ (s t : State) (j : Nat) (c : Cause), hostTurn s (.noteFailure j c) t → c = .unknownType ∨ c = .chunkPastEof →
      ((∃ x ∈ t.host.noted, x.plane = j) → step s = .next t)
        ∧ ((∀ x ∈ t.host.noted, x.plane ≠ j) → step s = .next { t with host := { t.host with
            noted := t.host.noted ++ [⟨j, .corruptStream, c⟩] } }))
    ∧ (∀ (s t : State) (k j : Nat), hostTurn s (.foldPlane k j) t →
      ((∃ x ∈ t.host.noted, x.plane = j) → step s = .next t)
        ∧ ((∀ x ∈ t.host.noted, x.plane ≠ j) → step s = .next { t with host := { t.host with
            todo := [.regWrite k 0x18 32 (BitVec.ofNat 32 j), .regWrite k 0x00 32 4] ++ t.host.todo } }))
    ∧ (∀ s t : State, hostTurn s .stopIfNoted t →
      (t.host.noted = [] → step s = .next t)
        ∧ (t.host.noted ≠ [] → ∃ x ∈ t.host.noted, (∀ y ∈ t.host.noted, x.plane ≤ y.plane)
            ∧ step s = .next { t with host := { t.host with todo := [], result := some (.err x.kind x.cause) } }))

/-! ### What every instruction leaves alone -/

/-- O47. The frame of every instruction that answers a next state. The parameters, the host, the other units, the
RW registers and PM never change. The image geometry changes only at IMGCLEAR, IM_VALID only there and at
IMG_CLEAR, IM only in the bytes that IMGCLEAR and FOLD.STEP store to, OM only in the bytes that LITCOPY, MCOPY and
RAWCOPY store to. A symbol row leaves WP, TAIL, LAST_OP, OM_VALID and OM_LEN; the other phase steps leave the
forward cursors and the working registers; a command other than DECODE leaves the cursors, TAIL and the working
registers (R10, R29, R37 to R40, R134). That the working registers and cursors stay so also at a job's end is the
model's choice, which I13 leaves open (log entry 24, DEDUCED). -/
def Obligations.InstructionFrame : Prop :=
  ∀ (i : Instr) (s t : State) (u : DecUnit), exec i s = .next t → s.units[s.cur]? = some u →
    ∃ v, t.units[s.cur]? = some v ∧ surroundingsSame s t ∧ othersSame s t ∧ windowSame u v
      ∧ (∀ a, v.pm.read a = u.pm.read a)
      ∧ (i ≠ .imgclear → t.imgW = s.imgW ∧ t.imgH = s.imgH ∧ t.imgBpc = s.imgBpc)
      ∧ (i ≠ .imgclear → (∀ g, i ≠ .imgClear g) → t.imValid = s.imValid)
      ∧ (i ≠ .imgclear → i ≠ .foldStep → ∀ a, t.im.read a = s.im.read a)
      ∧ (i = .imgclear → ∀ a, u.width.toNat * u.height.toNat ≤ a → t.im.read a = s.im.read a)
      ∧ (i = .foldStep → ∀ a, s.imgW.toNat * s.imgH.toNat ≤ a → t.im.read a = s.im.read a)
      ∧ (i ≠ .litcopy → i ≠ .mcopy → i ≠ .rawcopy → ∀ a, v.om.read a = u.om.read a)
      ∧ (i = .litcopy → ∀ a, a < u.wp ∨ u.wp + u.litcnt ≤ a → v.om.read a = u.om.read a)
      ∧ (i = .mcopy → ∀ a, a < u.wp ∨ u.wp + u.mlen ≤ a → v.om.read a = u.om.read a)
      ∧ (i = .rawcopy → ∀ a, u.dstLen.toNat ≤ a → v.om.read a = u.om.read a)
      ∧ (isSymbolRow i → v.wp = u.wp ∧ v.tail = u.tail ∧ v.lastOp = u.lastOp ∧ v.omValid = u.omValid
          ∧ v.omLen = u.omLen)
      ∧ (¬isSymbolRow i → (∀ g, i ≠ .decode g) → v.c1 = u.c1 ∧ v.c2 = u.c2 ∧ v.cx = u.cx ∧ v.c4 = u.c4
          ∧ v.fwd = u.fwd ∧ v.off = u.off)
      ∧ (¬isSymbolRow i → v.litcnt = u.litcnt ∧ v.midx = u.midx ∧ v.mbl = u.mbl ∧ v.mbase = u.mbase
          ∧ v.dist = u.dist ∧ v.mlen = u.mlen)
      ∧ (isCommand i → (∀ g, i ≠ .decode g) → v.tail = u.tail)

/-- O48. During a DECODE job no step moves WP down, TAIL up or FwdHi down, and no step changes a byte of OM below
WP (R18 to R20, R39, R82). -/
def Obligations.JobProgressIsMonotone : Prop :=
  ∀ (i : Instr) (s t : State) (u v : DecUnit), exec i s = .next t → s.units[s.cur]? = some u →
    t.units[s.cur]? = some v → u.state = .busy → decoding u.phase = true →
    u.wp ≤ v.wp ∧ v.tail ≤ u.tail ∧ fwdHi s.cfg u ≤ fwdHi s.cfg v ∧ ∀ a, a < u.wp → v.om.read a = u.om.read a

/-! ### Invariants that every step keeps -/

/-- O49. Every step keeps the number of units (R142), and keeps PM, OM and IM in their canonical form and inside
their spaces (R37). -/
def Obligations.MemoriesStayCanonical : Prop :=
  ∀ s t : State, unitCountOk s → allMemoriesOk s → step s = .next t → unitCountOk t ∧ allMemoriesOk t

/-- O50. Every step keeps the bit counts of every cursor in the ranges of R15. -/
def Obligations.CursorCountsStayInRange : Prop :=
  ∀ s t : State, allCursorsOk s → step s = .next t → allCursorsOk t

/-- O51. Every step keeps STATE, PHASE, ERR_KIND, ERR_CAUSE, ERR_POS, OM_VALID and OM_LEN in agreement (R21, R27,
R29, R102, R132 to R134). A unit that R41 has stopped is BUSY, and until a reset every step leaves it stopped and as
it is (log entry 8, the model's choice). -/
def Obligations.StatusStaysConsistent : Prop :=
  ∀ s t : State, step s = .next t →
    (allStatusOk s → allStatusOk t)
      ∧ (stopsOk s → stopsOk t
          ∧ (t.stopped = [] ∨ ∀ x ∈ s.stopped, x ∈ t.stopped ∧ t.units[x.unit]? = s.units[x.unit]?))

/-- O52. Every step keeps what the rules say of every job in progress (R19, R20, R22, R39 and the checks of the start
steps; FwdHi <= TAIL in shared mode, and in independent mode where max(INIT_OFF) <= SRC_LEN, R82), and that a valid
output is written whole (R29, R104). -/
def Obligations.JobsStayInRange : Prop :=
  ∀ s t : State, allJobsOk s → step s = .next t → allJobsOk t

/-- O53. Every step keeps the counters bounded by the forward bits already taken, and keeps every internal counter and
offset of every unit (FWD, OFF[0..3], TAIL, WP, LITCNT, DIST, MLEN) below 2^32, whatever its STATE and PHASE (R7). In a
DECODE job the bounds are R106's: LITCNT <= 48 * SRC_LEN + 4, MLEN <= 6 + 120 * SRC_LEN, DIST <= 27295, WP <= DST_LEN <=
OM_SIZE, TAIL <= SRC_LEN, FwdHi <= TAIL under R82's condition, and in independent mode each OFF[k] is INIT_OFF[k] or at
most SRC_LEN. -/
def Obligations.CountersStayBounded : Prop :=
  (∀ s t : State, allCursorsOk s → allJobsOk s → allCountersOk s → step s = .next t →
      allCountersOk t ∧ (allBelowWord s → allBelowWord t))
    ∧ (∀ (c : Config) (u : DecUnit), paramsValid c = true → jobOk c u → countersOk c u → u.state = .busy →
        decoding u.phase = true →
        (u.phase = .litcode ∨ u.phase = .litcopy →
            u.litcnt ≤ 48 * u.srcLen.toNat + 4 ∧ u.litcnt < 2 ^ 32)
          ∧ (u.phase = .mlenn ∨ u.phase = .mcopy → u.mlen ≤ 6 + 120 * u.srcLen.toNat ∧ u.mlen < 2 ^ 32)
          ∧ (u.phase = .mlen2 ∨ u.phase = .mlenn ∨ u.phase = .mcopy → u.dist ≤ 27295)
          ∧ u.wp ≤ u.dstLen.toNat ∧ u.dstLen.toNat ≤ c.omSize ∧ u.wp < 2 ^ 32
          ∧ u.tail ≤ u.srcLen.toNat ∧ u.tail < 2 ^ 32
          ∧ (c.fwdMode = .shared → u.fwd ≤ u.tail ∧ u.fwd < 2 ^ 32)
          ∧ (c.fwdMode = .independent → ∀ x ∈ [(u.off.c1, c.initOff.c1), (u.off.c2, c.initOff.c2),
              (u.off.cx, c.initOff.cx), (u.off.c4, c.initOff.c4)],
              (x.1 = x.2 ∨ x.1 ≤ u.srcLen.toNat) ∧ x.1 < 2 ^ 32
                ∧ (max (max c.initOff.c1 c.initOff.c2) (max c.initOff.cx c.initOff.c4) ≤ u.srcLen.toNat →
                    x.1 ≤ u.tail)))

/-- O54. Every step keeps the image that IMG_W and IMG_H describe inside IM and written whole (R30, R40, R41). -/
def Obligations.ImageStaysWritten : Prop :=
  ∀ s t : State, allJobsOk s → imageOk s → step s = .next t → imageOk t

/-- O55. In a machine of one unit, every step keeps every pixel below 2^IMG_BPC, and keeps what R126 checked of a
FOLD in progress (R128). With more units an IMG_CLEAR may race with a FOLD (R154). -/
def Obligations.PixelsStayInRange : Prop :=
  ∀ s t : State, s.cfg.nUnits = 1 → unitCountOk s → allJobsOk s → pixelsOk s → foldsOk s →
    step s = .next t → pixelsOk t ∧ foldsOk t

/-- O56. Every invariant holds after reset, for all parameters. -/
def Obligations.InvariantsHoldAtReset : Prop :=
  ∀ c : Config, unitCountOk (State.resetWith c) ∧ allMemoriesOk (State.resetWith c)
    ∧ allCursorsOk (State.resetWith c) ∧ allStatusOk (State.resetWith c) ∧ allJobsOk (State.resetWith c)
    ∧ allCountersOk (State.resetWith c) ∧ allBelowWord (State.resetWith c) ∧ stopsOk (State.resetWith c)
    ∧ imageOk (State.resetWith c) ∧ pixelsOk (State.resetWith c)
    ∧ foldsOk (State.resetWith c)

/-! ### Whole jobs -/

/-- O57. A unit's turn answers a next state, and stops the unit (R41) only on a PM byte below SRC_LEN that the host did
not write: the block never reads an unwritten byte of OM or IM and never leaves a memory's range (R37, R39, R40,
R41). A FOLD needs its checks to hold still, which a racing IMG_CLEAR could undo (R154). That the stop undoes the step
and leaves all but the record as it was is the model's choice (log entry 8). -/
def Obligations.BlockReadsOnlyWrittenOutput : Prop :=
  ∀ (s t : State) (k : Nat) (u : DecUnit), unitTurn s k t → t.units[k]? = some u → u.state = .busy →
    statusOk u → jobOk t.cfg u → outputOk t.cfg u → imageOk t → (u.phase = .fold → foldReady t u) →
    ∃ r, step s = .next r
      ∧ (r.stopped = t.stopped
        ∨ ∃ i, i < u.srcLen.toNat ∧ u.pm.read i = none ∧ r = { t with stopped := ⟨k, .pm, i⟩ :: t.stopped })

/-- O58. By the unit's own steps alone (decodeRun; log entry 19, the model's choice: no rule makes a unit move within
any number of the machine's steps), a DECODE job from a clean entry (R150) ends after at most 2 * (32 * SRC_LEN +
DST_LEN) + 2 steps, the start step among them (R105), either in DONE with WP = DST_LEN and OM[0 .. DST_LEN) written and
valid (R102, R104), or in FAULT. -/
def Obligations.DecodeJobEnds : Prop :=
  ∀ (s : State) (u : DecUnit), s.units[s.cur]? = some u → u.state ≠ .busy → stopsOk s →
    u.srcLen.toNat ≤ s.cfg.pmSize → u.dstLen.toNat ≤ s.cfg.omSize → writtenBelow u.pm u.srcLen.toNat →
    ∃ n t v, n + 1 ≤ 2 * (32 * u.srcLen.toNat + u.dstLen.toNat) + 2 ∧ decodeRun n s = .next t
      ∧ t.units[s.cur]? = some v ∧ t.stopped = s.stopped
      ∧ (v.state = .done ∧ v.wp = u.dstLen.toNat ∧ v.omValid = true ∧ v.omLen = u.dstLen
            ∧ writtenBelow v.om u.dstLen.toNat
          ∨ v.state = .fault ∧ v.omValid = false ∧ v.omLen = 0)

/-- O59. Given the parameters, the outcome of a DECODE job, run by the unit's own steps alone (decodeRun; log entry 19,
the model's choice), depends on SRC_LEN, DST_LEN and PM[0 .. SRC_LEN) alone: two states that agree on them run alike,
whatever else they hold, and stop on the same unwritten byte if they stop (R41, R103, R160). -/
def Obligations.DecodeOutcomeIsDetermined : Prop :=
  ∀ (s s' : State) (u u' : DecUnit) (n : Nat), s.units[s.cur]? = some u → s'.units[s'.cur]? = some u' →
    u.state ≠ .busy → u'.state ≠ .busy → stopsOk s → stopsOk s' → s'.cfg = s.cfg → u'.srcLen = u.srcLen →
    u'.dstLen = u.dstLen → (∀ i, i < u.srcLen.toNat → u'.pm.read i = u.pm.read i) →
    sameOutcome (decodeRun n s) (decodeRun n s')

/-- O60. Two FOLD steps of different units leave the same machine in either order (R130), and a second FOLD step of
the same plane leaves the image as it is (R131). -/
def Obligations.FoldsCommuteAndRepeat : Prop :=
  (∀ (s t1 t2 : State) (a b : Nat), a ≠ b → s.im.wf → exec .foldStep { s with cur := a } = .next t1 →
      exec .foldStep { t1 with cur := b } = .next t2 →
      ∃ r1 r2, exec .foldStep { s with cur := b } = .next r1 ∧ exec .foldStep { r1 with cur := a } = .next r2
        ∧ r2 = { t2 with cur := a })
    ∧ (∀ (s t : State) (u : DecUnit), s.im.wf → s.units[s.cur]? = some u → exec .foldStep s = .next t →
      exec .foldStep (withCurrent t u) = .next t)
end

