-- ==== Sys2Proof/Laws/Encoding.lean ====
section
/-! SUPPORT. The fields of a command word (R58), and that the decoder reads a symbol of its width. -/

namespace Sys2Proof

@[simp] theorem cmdOp_cmdWord (op : BitVec 4) (g : BitVec 28) : cmdOp (cmdWord op g) = op := by
  unfold cmdOp cmdWord
  ext i hi
  simp only [BitVec.getElem_extractLsb', BitVec.getLsbD_append]
  simp only [Nat.zero_add, hi, ite_true, BitVec.getLsbD_eq_getElem hi]

@[simp] theorem cmdIgnored_cmdWord (op : BitVec 4) (g : BitVec 28) : cmdIgnored (cmdWord op g) = g := by
  unfold cmdIgnored cmdWord
  ext i hi
  simp only [BitVec.getElem_extractLsb', BitVec.getLsbD_append]
  simp [show ¬4 + i < 4 by omega, BitVec.getLsbD_eq_getElem hi]

theorem cmdWord_eta (w : BitVec 32) : cmdWord (cmdOp w) (cmdIgnored w) = w := by
  unfold cmdOp cmdIgnored cmdWord
  refine BitVec.eq_of_getLsbD_eq fun i hi => ?_
  rw [BitVec.getLsbD_append, BitVec.getLsbD_extractLsb', BitVec.getLsbD_extractLsb']
  by_cases h : i < 4
  · simp [h]
  · simp [h, show i - 4 < 28 by omega, show 4 + (i - 4) = i by omega]

theorem decodeCmd_cmdWord (op : BitVec 4) (g : BitVec 28) : decodeCmd (cmdWord op g) = decodeOp op g := by
  simp [decodeCmd]

theorem cmdOp_toNat (w : BitVec 32) : (cmdOp w).toNat = w.toNat % 16 := by
  simp [cmdOp]

theorem symbolOf_eq_ok {w n v : Nat} {b : BitVec w} :
    symbolOf w n v = .ok b ↔ n = w ∧ v < 2 ^ w ∧ b = BitVec.ofNat w v := by
  unfold symbolOf
  by_cases h : n = w
  · by_cases hv : v < 2 ^ w <;> simp [h, hv, eq_comm]
  · simp [h]

theorem decodeE_eq_ok {n v : Nat} {i : Instr} :
    decodeE n v = .ok i ↔
      4 ≤ n ∧ n ≤ 14 ∧ v < 2 ^ n ∧ i = .mdist (BitVec.ofNat 4 n) (BitVec.ofNat 14 v) := by
  unfold decodeE
  by_cases h : 4 ≤ n ∧ n ≤ 14
  · by_cases hv : v < 2 ^ n <;> simp [h, hv, eq_comm]
  · simp only [h, if_false, reduceCtorEq, false_iff]
    tauto

/-- A symbol row's instruction, for each shape of row: the symbol's value selects it. -/
theorem Except.map_eq_ok {ε α β : Type} {x : Except ε α} {f : α → β} {b : β} :
    x.map f = .ok b ↔ ∃ a, x = .ok a ∧ f a = b := by
  cases x <;> simp [Except.map]

end Sys2Proof
end

