-- ==== Sys2Proof/Laws/Memory.lean ====
section
/-! SUPPORT. What the byte memories do: read after write, the canonical form, and what every loop over a
memory keeps. -/

namespace Sys2Proof.Machine

/-! ### One byte -/

@[simp] theorem Memory.read_nil (a : Nat) : Memory.read [] a = none := rfl

theorem Memory.read_write_same (m : Memory) (a : Nat) (v : Byte) : (m.write a v).read a = some v := by
  induction m with
  | nil => simp [Memory.write, Memory.read]
  | cons x rest ih =>
    obtain ⟨b, w⟩ := x
    unfold Memory.write
    split
    · simp [Memory.read]
    · split
      · simp [Memory.read]
      · rename_i h1 h2
        simp [Memory.read, h2, ih]

theorem Memory.read_write_other (m : Memory) (a b : Nat) (v : Byte) (h : b ≠ a) :
    (m.write a v).read b = m.read b := by
  induction m with
  | nil => simp [Memory.write, Memory.read, h]
  | cons x rest ih =>
    obtain ⟨d, w⟩ := x
    unfold Memory.write
    split
    · simp [Memory.read, h]
    · split
      · rename_i h1 h2
        subst h2
        simp [Memory.read, h]
      · simp [Memory.read, ih]

theorem Memory.read_write (m : Memory) (a b : Nat) (v : Byte) :
    (m.write a v).read b = if b = a then some v else m.read b := by
  split
  · rename_i h
    rw [h, Memory.read_write_same]
  · rename_i h
    exact Memory.read_write_other m a b v h

theorem Memory.mem_write {m : Memory} {a : Nat} {v : Byte} {x : Host.Cell} (h : x ∈ m.write a v) :
    x = (a, v) ∨ x ∈ m := by
  induction m with
  | nil => simpa [Memory.write] using h
  | cons y rest ih =>
    obtain ⟨b, w⟩ := y
    unfold Memory.write at h
    split at h
    · simpa using h
    · split at h
      · rcases List.mem_cons.mp h with h | h
        · exact .inl h
        · exact .inr (List.mem_cons_of_mem _ h)
      · rcases List.mem_cons.mp h with h | h
        · exact .inr (h ▸ List.mem_cons_self)
        · exact (ih h).imp id (List.mem_cons_of_mem _)

/-- Writing keeps the canonical form. -/
theorem Memory.write_wf {m : Memory} (h : m.wf) (a : Nat) (v : Byte) : (m.write a v).wf := by
  induction m with
  | nil => simp [Memory.write, Memory.wf]
  | cons y rest ih =>
    obtain ⟨b, w⟩ := y
    have hb := List.pairwise_cons.mp h
    unfold Memory.write
    split
    · rename_i hab
      refine List.pairwise_cons.mpr ⟨fun x hx => ?_, h⟩
      rcases List.mem_cons.mp hx with rfl | hx
      · exact hab
      · exact Nat.lt_trans hab (hb.1 x hx)
    · split
      · rename_i hab
        subst hab
        exact List.pairwise_cons.mpr hb
      · rename_i h1 h2
        refine List.pairwise_cons.mpr ⟨fun x hx => ?_, ih hb.2⟩
        rcases Memory.mem_write hx with rfl | hx
        · show b < a
          omega
        · exact hb.1 x hx

/-- Writing inside a space keeps the memory inside it. -/
theorem Memory.write_within {n : Nat} {m : Memory} (h : m.within n) {a : Nat} (ha : a < n) (v : Byte) :
    (m.write a v).within n := fun _ hx =>
  (Memory.mem_write hx).elim (fun e => e ▸ ha) (h _)

theorem Memory.read_eq_none_of_lt {m : Memory} {a : Nat} (h : ∀ x ∈ m, a < x.1) : m.read a = none := by
  induction m with
  | nil => rfl
  | cons y rest ih =>
    obtain ⟨b, w⟩ := y
    have : a ≠ b := Nat.ne_of_lt (h (b, w) List.mem_cons_self)
    simp only [Memory.read, this, if_false]
    exact ih fun x hx => h x (List.mem_cons_of_mem _ hx)

/-- Canonical memories with the same bytes are equal. -/
theorem Memory.ext_of_read {m n : Memory} (hm : m.wf) (hn : n.wf) (h : ∀ a, m.read a = n.read a) : m = n := by
  induction m generalizing n with
  | nil =>
    cases n with
    | nil => rfl
    | cons y rest => simpa [Memory.read] using h y.1
  | cons x xs ih =>
    cases n with
    | nil => simpa [Memory.read] using h x.1
    | cons y ys =>
      have hx := List.pairwise_cons.mp hm
      have hy := List.pairwise_cons.mp hn
      have hxy : x.1 = y.1 := by
        rcases Nat.lt_trichotomy x.1 y.1 with hlt | he | hlt
        · have h1 := h x.1
          rw [Memory.read_eq_none_of_lt (m := y :: ys) (fun z hz => by
            rcases List.mem_cons.mp hz with rfl | hz
            · exact hlt
            · exact Nat.lt_trans hlt (hy.1 z hz))] at h1
          simp [Memory.read] at h1
        · exact he
        · have h1 := h y.1
          rw [Memory.read_eq_none_of_lt (m := x :: xs) (fun z hz => by
            rcases List.mem_cons.mp hz with rfl | hz
            · exact hlt
            · exact Nat.lt_trans hlt (hx.1 z hz))] at h1
          simp [Memory.read] at h1
      have hv : x.2 = y.2 := by
        have h1 := h x.1
        simpa [Memory.read, hxy] using h1
      have hrest : xs = ys := by
        refine ih hx.2 hy.2 fun a => ?_
        by_cases ha : a = x.1
        · rw [Memory.read_eq_none_of_lt (m := xs) (fun z hz => ha ▸ hx.1 z hz),
            Memory.read_eq_none_of_lt (m := ys) (fun z hz => by rw [ha, hxy]; exact hy.1 z hz)]
        · have h1 := h a
          simpa [Memory.read, ha, hxy ▸ ha] using h1
      rw [Prod.ext hxy hv, hrest]

/-! ### Block reads and writes -/

theorem readByte_eq_ok {sp : Space} {n : Nat} {m : Memory} {a : Nat} {v : Byte} :
    readByte sp n m a = .ok v ↔ a < n ∧ m.read a = some v := by
  unfold readByte
  split
  · cases m.read a <;> simp_all
  · simp_all

theorem writeByte_eq_ok {sp : Space} {n : Nat} {m m' : Memory} {a : Nat} {v : Byte} :
    writeByte sp n m a v = .ok m' ↔ a < n ∧ m' = m.write a v := by
  unfold writeByte
  split <;> simp_all [eq_comm]

theorem readByte_ne_raise {sp : Space} {n : Nat} {m : Memory} {a : Nat} {c : Cause} {p : Nat} :
    readByte sp n m a ≠ .raise c p := by
  unfold readByte
  split
  · cases m.read a <;> simp
  · simp

theorem writeByte_ne_raise {sp : Space} {n : Nat} {m : Memory} {a : Nat} {v : Byte} {c : Cause} {p : Nat} :
    writeByte sp n m a v ≠ .raise c p := by
  unfold writeByte
  split <;> simp

theorem readByte_ne_refuse {sp : Space} {n : Nat} {m : Memory} {a : Nat} {r : Refusal} :
    readByte sp n m a ≠ .refuse r := by
  unfold readByte
  split
  · cases m.read a <;> simp
  · simp

theorem writeByte_ne_refuse {sp : Space} {n : Nat} {m : Memory} {a : Nat} {v : Byte} {r : Refusal} :
    writeByte sp n m a v ≠ .refuse r := by
  unfold writeByte
  split <;> simp

/-- A block read stops on an unwritten byte or outside its space (R37, R41). -/
theorem readByte_eq_stop {sp : Space} {n : Nat} {m : Memory} {a : Nat} {f : Fault} :
    readByte sp n m a = .stop f ↔
      (a < n ∧ m.read a = none ∧ f = .unwritten sp a) ∨ (n ≤ a ∧ f = .noSuchAddress sp a) := by
  unfold readByte
  by_cases h : a < n
  · cases hr : m.read a <;> simp [h, eq_comm, Nat.not_le.mpr h]
  · simp [h, eq_comm, Nat.le_of_not_lt h]

/-- A block write stops outside its space only (R37). -/
theorem writeByte_eq_stop {sp : Space} {n : Nat} {m : Memory} {a : Nat} {v : Byte} {f : Fault} :
    writeByte sp n m a v = .stop f ↔ n ≤ a ∧ f = .noSuchAddress sp a := by
  unfold writeByte
  by_cases h : a < n
  · simp [h, Nat.not_le.mpr h]
  · simp [h, eq_comm, Nat.le_of_not_lt h]

/-! ### The host's PM fill -/

theorem writeBytes_wf (bytes : List Byte) {m : Memory} (h : m.wf) (a : Nat) : (writeBytes m a bytes).wf := by
  induction bytes generalizing m a with
  | nil => exact h
  | cons b bs ih => exact ih (Memory.write_wf h a b) (a + 1)

theorem writeBytes_within (bytes : List Byte) {n : Nat} {m : Memory} (h : m.within n) (a : Nat)
    (ha : bytes ≠ [] → a + bytes.length ≤ n) : (writeBytes m a bytes).within n := by
  induction bytes generalizing m a with
  | nil => exact h
  | cons b bs ih =>
    have h1 : a + (bs.length + 1) ≤ n := by simpa using ha (by simp)
    exact ih (Memory.write_within h (by omega) b) (a + 1) (fun _ => by omega)

/-- After PM[a ..] = bytes, the filled addresses hold the bytes and the others are as before. -/
theorem read_writeBytes (bytes : List Byte) (m : Memory) (a i : Nat) :
    (writeBytes m a bytes).read i =
      if a ≤ i ∧ i < a + bytes.length then bytes[i - a]? else m.read i := by
  induction bytes generalizing m a with
  | nil => simp [writeBytes]
  | cons b bs ih =>
    rw [writeBytes, ih, Memory.read_write]
    by_cases h1 : a + 1 ≤ i ∧ i < a + 1 + bs.length
    · have h2 : a ≤ i ∧ i < a + (b :: bs).length := by simp; omega
      have h3 : i - a = (i - (a + 1)) + 1 := by omega
      rw [if_pos h1, if_pos h2, h3, List.getElem?_cons_succ]
    · rw [if_neg h1]
      by_cases h4 : i = a
      · subst h4
        simp
      · have h2 : ¬(a ≤ i ∧ i < a + (b :: bs).length) := by simp; omega
        rw [if_neg h4, if_neg h2]

end Sys2Proof.Machine
end

