-- ==== Sys2Proof/Laws/State.lean ====
section
/-! SUPPORT. One lemma per field and update of a unit and of the state, each true by rfl, so that no later
proof unfolds an update. -/

namespace Sys2Proof.Machine

/-! ### setC1 -/

@[simp] theorem DecUnit.setC1_c1 (u : DecUnit) (x : Cursor 16) : (u.setC1 x).c1 = x := rfl
@[simp] theorem DecUnit.setC1_c2 (u : DecUnit) (x : Cursor 16) : (u.setC1 x).c2 = u.c2 := rfl
@[simp] theorem DecUnit.setC1_cx (u : DecUnit) (x : Cursor 16) : (u.setC1 x).cx = u.cx := rfl
@[simp] theorem DecUnit.setC1_c4 (u : DecUnit) (x : Cursor 16) : (u.setC1 x).c4 = u.c4 := rfl
@[simp] theorem DecUnit.setC1_fwd (u : DecUnit) (x : Cursor 16) : (u.setC1 x).fwd = u.fwd := rfl
@[simp] theorem DecUnit.setC1_off (u : DecUnit) (x : Cursor 16) : (u.setC1 x).off = u.off := rfl
@[simp] theorem DecUnit.setC1_tail (u : DecUnit) (x : Cursor 16) : (u.setC1 x).tail = u.tail := rfl
@[simp] theorem DecUnit.setC1_wp (u : DecUnit) (x : Cursor 16) : (u.setC1 x).wp = u.wp := rfl
@[simp] theorem DecUnit.setC1_phase (u : DecUnit) (x : Cursor 16) : (u.setC1 x).phase = u.phase := rfl
@[simp] theorem DecUnit.setC1_litcnt (u : DecUnit) (x : Cursor 16) : (u.setC1 x).litcnt = u.litcnt := rfl
@[simp] theorem DecUnit.setC1_midx (u : DecUnit) (x : Cursor 16) : (u.setC1 x).midx = u.midx := rfl
@[simp] theorem DecUnit.setC1_mbl (u : DecUnit) (x : Cursor 16) : (u.setC1 x).mbl = u.mbl := rfl
@[simp] theorem DecUnit.setC1_mbase (u : DecUnit) (x : Cursor 16) : (u.setC1 x).mbase = u.mbase := rfl
@[simp] theorem DecUnit.setC1_dist (u : DecUnit) (x : Cursor 16) : (u.setC1 x).dist = u.dist := rfl
@[simp] theorem DecUnit.setC1_mlen (u : DecUnit) (x : Cursor 16) : (u.setC1 x).mlen = u.mlen := rfl
@[simp] theorem DecUnit.setC1_srcLen (u : DecUnit) (x : Cursor 16) : (u.setC1 x).srcLen = u.srcLen := rfl
@[simp] theorem DecUnit.setC1_dstLen (u : DecUnit) (x : Cursor 16) : (u.setC1 x).dstLen = u.dstLen := rfl
@[simp] theorem DecUnit.setC1_width (u : DecUnit) (x : Cursor 16) : (u.setC1 x).width = u.width := rfl
@[simp] theorem DecUnit.setC1_height (u : DecUnit) (x : Cursor 16) : (u.setC1 x).height = u.height := rfl
@[simp] theorem DecUnit.setC1_bpc (u : DecUnit) (x : Cursor 16) : (u.setC1 x).bpc = u.bpc := rfl
@[simp] theorem DecUnit.setC1_plane (u : DecUnit) (x : Cursor 16) : (u.setC1 x).plane = u.plane := rfl
@[simp] theorem DecUnit.setC1_state (u : DecUnit) (x : Cursor 16) : (u.setC1 x).state = u.state := rfl
@[simp] theorem DecUnit.setC1_omValid (u : DecUnit) (x : Cursor 16) : (u.setC1 x).omValid = u.omValid := rfl
@[simp] theorem DecUnit.setC1_lastOp (u : DecUnit) (x : Cursor 16) : (u.setC1 x).lastOp = u.lastOp := rfl
@[simp] theorem DecUnit.setC1_errKind (u : DecUnit) (x : Cursor 16) : (u.setC1 x).errKind = u.errKind := rfl
@[simp] theorem DecUnit.setC1_errCause (u : DecUnit) (x : Cursor 16) : (u.setC1 x).errCause = u.errCause := rfl
@[simp] theorem DecUnit.setC1_errPos (u : DecUnit) (x : Cursor 16) : (u.setC1 x).errPos = u.errPos := rfl
@[simp] theorem DecUnit.setC1_omLen (u : DecUnit) (x : Cursor 16) : (u.setC1 x).omLen = u.omLen := rfl
@[simp] theorem DecUnit.setC1_pm (u : DecUnit) (x : Cursor 16) : (u.setC1 x).pm = u.pm := rfl
@[simp] theorem DecUnit.setC1_om (u : DecUnit) (x : Cursor 16) : (u.setC1 x).om = u.om := rfl

/-! ### setC2 -/

@[simp] theorem DecUnit.setC2_c1 (u : DecUnit) (x : Cursor 16) : (u.setC2 x).c1 = u.c1 := rfl
@[simp] theorem DecUnit.setC2_c2 (u : DecUnit) (x : Cursor 16) : (u.setC2 x).c2 = x := rfl
@[simp] theorem DecUnit.setC2_cx (u : DecUnit) (x : Cursor 16) : (u.setC2 x).cx = u.cx := rfl
@[simp] theorem DecUnit.setC2_c4 (u : DecUnit) (x : Cursor 16) : (u.setC2 x).c4 = u.c4 := rfl
@[simp] theorem DecUnit.setC2_fwd (u : DecUnit) (x : Cursor 16) : (u.setC2 x).fwd = u.fwd := rfl
@[simp] theorem DecUnit.setC2_off (u : DecUnit) (x : Cursor 16) : (u.setC2 x).off = u.off := rfl
@[simp] theorem DecUnit.setC2_tail (u : DecUnit) (x : Cursor 16) : (u.setC2 x).tail = u.tail := rfl
@[simp] theorem DecUnit.setC2_wp (u : DecUnit) (x : Cursor 16) : (u.setC2 x).wp = u.wp := rfl
@[simp] theorem DecUnit.setC2_phase (u : DecUnit) (x : Cursor 16) : (u.setC2 x).phase = u.phase := rfl
@[simp] theorem DecUnit.setC2_litcnt (u : DecUnit) (x : Cursor 16) : (u.setC2 x).litcnt = u.litcnt := rfl
@[simp] theorem DecUnit.setC2_midx (u : DecUnit) (x : Cursor 16) : (u.setC2 x).midx = u.midx := rfl
@[simp] theorem DecUnit.setC2_mbl (u : DecUnit) (x : Cursor 16) : (u.setC2 x).mbl = u.mbl := rfl
@[simp] theorem DecUnit.setC2_mbase (u : DecUnit) (x : Cursor 16) : (u.setC2 x).mbase = u.mbase := rfl
@[simp] theorem DecUnit.setC2_dist (u : DecUnit) (x : Cursor 16) : (u.setC2 x).dist = u.dist := rfl
@[simp] theorem DecUnit.setC2_mlen (u : DecUnit) (x : Cursor 16) : (u.setC2 x).mlen = u.mlen := rfl
@[simp] theorem DecUnit.setC2_srcLen (u : DecUnit) (x : Cursor 16) : (u.setC2 x).srcLen = u.srcLen := rfl
@[simp] theorem DecUnit.setC2_dstLen (u : DecUnit) (x : Cursor 16) : (u.setC2 x).dstLen = u.dstLen := rfl
@[simp] theorem DecUnit.setC2_width (u : DecUnit) (x : Cursor 16) : (u.setC2 x).width = u.width := rfl
@[simp] theorem DecUnit.setC2_height (u : DecUnit) (x : Cursor 16) : (u.setC2 x).height = u.height := rfl
@[simp] theorem DecUnit.setC2_bpc (u : DecUnit) (x : Cursor 16) : (u.setC2 x).bpc = u.bpc := rfl
@[simp] theorem DecUnit.setC2_plane (u : DecUnit) (x : Cursor 16) : (u.setC2 x).plane = u.plane := rfl
@[simp] theorem DecUnit.setC2_state (u : DecUnit) (x : Cursor 16) : (u.setC2 x).state = u.state := rfl
@[simp] theorem DecUnit.setC2_omValid (u : DecUnit) (x : Cursor 16) : (u.setC2 x).omValid = u.omValid := rfl
@[simp] theorem DecUnit.setC2_lastOp (u : DecUnit) (x : Cursor 16) : (u.setC2 x).lastOp = u.lastOp := rfl
@[simp] theorem DecUnit.setC2_errKind (u : DecUnit) (x : Cursor 16) : (u.setC2 x).errKind = u.errKind := rfl
@[simp] theorem DecUnit.setC2_errCause (u : DecUnit) (x : Cursor 16) : (u.setC2 x).errCause = u.errCause := rfl
@[simp] theorem DecUnit.setC2_errPos (u : DecUnit) (x : Cursor 16) : (u.setC2 x).errPos = u.errPos := rfl
@[simp] theorem DecUnit.setC2_omLen (u : DecUnit) (x : Cursor 16) : (u.setC2 x).omLen = u.omLen := rfl
@[simp] theorem DecUnit.setC2_pm (u : DecUnit) (x : Cursor 16) : (u.setC2 x).pm = u.pm := rfl
@[simp] theorem DecUnit.setC2_om (u : DecUnit) (x : Cursor 16) : (u.setC2 x).om = u.om := rfl

/-! ### setCX -/

@[simp] theorem DecUnit.setCX_c1 (u : DecUnit) (x : Cursor 16) : (u.setCX x).c1 = u.c1 := rfl
@[simp] theorem DecUnit.setCX_c2 (u : DecUnit) (x : Cursor 16) : (u.setCX x).c2 = u.c2 := rfl
@[simp] theorem DecUnit.setCX_cx (u : DecUnit) (x : Cursor 16) : (u.setCX x).cx = x := rfl
@[simp] theorem DecUnit.setCX_c4 (u : DecUnit) (x : Cursor 16) : (u.setCX x).c4 = u.c4 := rfl
@[simp] theorem DecUnit.setCX_fwd (u : DecUnit) (x : Cursor 16) : (u.setCX x).fwd = u.fwd := rfl
@[simp] theorem DecUnit.setCX_off (u : DecUnit) (x : Cursor 16) : (u.setCX x).off = u.off := rfl
@[simp] theorem DecUnit.setCX_tail (u : DecUnit) (x : Cursor 16) : (u.setCX x).tail = u.tail := rfl
@[simp] theorem DecUnit.setCX_wp (u : DecUnit) (x : Cursor 16) : (u.setCX x).wp = u.wp := rfl
@[simp] theorem DecUnit.setCX_phase (u : DecUnit) (x : Cursor 16) : (u.setCX x).phase = u.phase := rfl
@[simp] theorem DecUnit.setCX_litcnt (u : DecUnit) (x : Cursor 16) : (u.setCX x).litcnt = u.litcnt := rfl
@[simp] theorem DecUnit.setCX_midx (u : DecUnit) (x : Cursor 16) : (u.setCX x).midx = u.midx := rfl
@[simp] theorem DecUnit.setCX_mbl (u : DecUnit) (x : Cursor 16) : (u.setCX x).mbl = u.mbl := rfl
@[simp] theorem DecUnit.setCX_mbase (u : DecUnit) (x : Cursor 16) : (u.setCX x).mbase = u.mbase := rfl
@[simp] theorem DecUnit.setCX_dist (u : DecUnit) (x : Cursor 16) : (u.setCX x).dist = u.dist := rfl
@[simp] theorem DecUnit.setCX_mlen (u : DecUnit) (x : Cursor 16) : (u.setCX x).mlen = u.mlen := rfl
@[simp] theorem DecUnit.setCX_srcLen (u : DecUnit) (x : Cursor 16) : (u.setCX x).srcLen = u.srcLen := rfl
@[simp] theorem DecUnit.setCX_dstLen (u : DecUnit) (x : Cursor 16) : (u.setCX x).dstLen = u.dstLen := rfl
@[simp] theorem DecUnit.setCX_width (u : DecUnit) (x : Cursor 16) : (u.setCX x).width = u.width := rfl
@[simp] theorem DecUnit.setCX_height (u : DecUnit) (x : Cursor 16) : (u.setCX x).height = u.height := rfl
@[simp] theorem DecUnit.setCX_bpc (u : DecUnit) (x : Cursor 16) : (u.setCX x).bpc = u.bpc := rfl
@[simp] theorem DecUnit.setCX_plane (u : DecUnit) (x : Cursor 16) : (u.setCX x).plane = u.plane := rfl
@[simp] theorem DecUnit.setCX_state (u : DecUnit) (x : Cursor 16) : (u.setCX x).state = u.state := rfl
@[simp] theorem DecUnit.setCX_omValid (u : DecUnit) (x : Cursor 16) : (u.setCX x).omValid = u.omValid := rfl
@[simp] theorem DecUnit.setCX_lastOp (u : DecUnit) (x : Cursor 16) : (u.setCX x).lastOp = u.lastOp := rfl
@[simp] theorem DecUnit.setCX_errKind (u : DecUnit) (x : Cursor 16) : (u.setCX x).errKind = u.errKind := rfl
@[simp] theorem DecUnit.setCX_errCause (u : DecUnit) (x : Cursor 16) : (u.setCX x).errCause = u.errCause := rfl
@[simp] theorem DecUnit.setCX_errPos (u : DecUnit) (x : Cursor 16) : (u.setCX x).errPos = u.errPos := rfl
@[simp] theorem DecUnit.setCX_omLen (u : DecUnit) (x : Cursor 16) : (u.setCX x).omLen = u.omLen := rfl
@[simp] theorem DecUnit.setCX_pm (u : DecUnit) (x : Cursor 16) : (u.setCX x).pm = u.pm := rfl
@[simp] theorem DecUnit.setCX_om (u : DecUnit) (x : Cursor 16) : (u.setCX x).om = u.om := rfl

/-! ### setC4 -/

@[simp] theorem DecUnit.setC4_c1 (u : DecUnit) (x : Cursor 32) : (u.setC4 x).c1 = u.c1 := rfl
@[simp] theorem DecUnit.setC4_c2 (u : DecUnit) (x : Cursor 32) : (u.setC4 x).c2 = u.c2 := rfl
@[simp] theorem DecUnit.setC4_cx (u : DecUnit) (x : Cursor 32) : (u.setC4 x).cx = u.cx := rfl
@[simp] theorem DecUnit.setC4_c4 (u : DecUnit) (x : Cursor 32) : (u.setC4 x).c4 = x := rfl
@[simp] theorem DecUnit.setC4_fwd (u : DecUnit) (x : Cursor 32) : (u.setC4 x).fwd = u.fwd := rfl
@[simp] theorem DecUnit.setC4_off (u : DecUnit) (x : Cursor 32) : (u.setC4 x).off = u.off := rfl
@[simp] theorem DecUnit.setC4_tail (u : DecUnit) (x : Cursor 32) : (u.setC4 x).tail = u.tail := rfl
@[simp] theorem DecUnit.setC4_wp (u : DecUnit) (x : Cursor 32) : (u.setC4 x).wp = u.wp := rfl
@[simp] theorem DecUnit.setC4_phase (u : DecUnit) (x : Cursor 32) : (u.setC4 x).phase = u.phase := rfl
@[simp] theorem DecUnit.setC4_litcnt (u : DecUnit) (x : Cursor 32) : (u.setC4 x).litcnt = u.litcnt := rfl
@[simp] theorem DecUnit.setC4_midx (u : DecUnit) (x : Cursor 32) : (u.setC4 x).midx = u.midx := rfl
@[simp] theorem DecUnit.setC4_mbl (u : DecUnit) (x : Cursor 32) : (u.setC4 x).mbl = u.mbl := rfl
@[simp] theorem DecUnit.setC4_mbase (u : DecUnit) (x : Cursor 32) : (u.setC4 x).mbase = u.mbase := rfl
@[simp] theorem DecUnit.setC4_dist (u : DecUnit) (x : Cursor 32) : (u.setC4 x).dist = u.dist := rfl
@[simp] theorem DecUnit.setC4_mlen (u : DecUnit) (x : Cursor 32) : (u.setC4 x).mlen = u.mlen := rfl
@[simp] theorem DecUnit.setC4_srcLen (u : DecUnit) (x : Cursor 32) : (u.setC4 x).srcLen = u.srcLen := rfl
@[simp] theorem DecUnit.setC4_dstLen (u : DecUnit) (x : Cursor 32) : (u.setC4 x).dstLen = u.dstLen := rfl
@[simp] theorem DecUnit.setC4_width (u : DecUnit) (x : Cursor 32) : (u.setC4 x).width = u.width := rfl
@[simp] theorem DecUnit.setC4_height (u : DecUnit) (x : Cursor 32) : (u.setC4 x).height = u.height := rfl
@[simp] theorem DecUnit.setC4_bpc (u : DecUnit) (x : Cursor 32) : (u.setC4 x).bpc = u.bpc := rfl
@[simp] theorem DecUnit.setC4_plane (u : DecUnit) (x : Cursor 32) : (u.setC4 x).plane = u.plane := rfl
@[simp] theorem DecUnit.setC4_state (u : DecUnit) (x : Cursor 32) : (u.setC4 x).state = u.state := rfl
@[simp] theorem DecUnit.setC4_omValid (u : DecUnit) (x : Cursor 32) : (u.setC4 x).omValid = u.omValid := rfl
@[simp] theorem DecUnit.setC4_lastOp (u : DecUnit) (x : Cursor 32) : (u.setC4 x).lastOp = u.lastOp := rfl
@[simp] theorem DecUnit.setC4_errKind (u : DecUnit) (x : Cursor 32) : (u.setC4 x).errKind = u.errKind := rfl
@[simp] theorem DecUnit.setC4_errCause (u : DecUnit) (x : Cursor 32) : (u.setC4 x).errCause = u.errCause := rfl
@[simp] theorem DecUnit.setC4_errPos (u : DecUnit) (x : Cursor 32) : (u.setC4 x).errPos = u.errPos := rfl
@[simp] theorem DecUnit.setC4_omLen (u : DecUnit) (x : Cursor 32) : (u.setC4 x).omLen = u.omLen := rfl
@[simp] theorem DecUnit.setC4_pm (u : DecUnit) (x : Cursor 32) : (u.setC4 x).pm = u.pm := rfl
@[simp] theorem DecUnit.setC4_om (u : DecUnit) (x : Cursor 32) : (u.setC4 x).om = u.om := rfl

/-! ### setFwd -/

@[simp] theorem DecUnit.setFwd_c1 (u : DecUnit) (x : Nat) : (u.setFwd x).c1 = u.c1 := rfl
@[simp] theorem DecUnit.setFwd_c2 (u : DecUnit) (x : Nat) : (u.setFwd x).c2 = u.c2 := rfl
@[simp] theorem DecUnit.setFwd_cx (u : DecUnit) (x : Nat) : (u.setFwd x).cx = u.cx := rfl
@[simp] theorem DecUnit.setFwd_c4 (u : DecUnit) (x : Nat) : (u.setFwd x).c4 = u.c4 := rfl
@[simp] theorem DecUnit.setFwd_fwd (u : DecUnit) (x : Nat) : (u.setFwd x).fwd = x := rfl
@[simp] theorem DecUnit.setFwd_off (u : DecUnit) (x : Nat) : (u.setFwd x).off = u.off := rfl
@[simp] theorem DecUnit.setFwd_tail (u : DecUnit) (x : Nat) : (u.setFwd x).tail = u.tail := rfl
@[simp] theorem DecUnit.setFwd_wp (u : DecUnit) (x : Nat) : (u.setFwd x).wp = u.wp := rfl
@[simp] theorem DecUnit.setFwd_phase (u : DecUnit) (x : Nat) : (u.setFwd x).phase = u.phase := rfl
@[simp] theorem DecUnit.setFwd_litcnt (u : DecUnit) (x : Nat) : (u.setFwd x).litcnt = u.litcnt := rfl
@[simp] theorem DecUnit.setFwd_midx (u : DecUnit) (x : Nat) : (u.setFwd x).midx = u.midx := rfl
@[simp] theorem DecUnit.setFwd_mbl (u : DecUnit) (x : Nat) : (u.setFwd x).mbl = u.mbl := rfl
@[simp] theorem DecUnit.setFwd_mbase (u : DecUnit) (x : Nat) : (u.setFwd x).mbase = u.mbase := rfl
@[simp] theorem DecUnit.setFwd_dist (u : DecUnit) (x : Nat) : (u.setFwd x).dist = u.dist := rfl
@[simp] theorem DecUnit.setFwd_mlen (u : DecUnit) (x : Nat) : (u.setFwd x).mlen = u.mlen := rfl
@[simp] theorem DecUnit.setFwd_srcLen (u : DecUnit) (x : Nat) : (u.setFwd x).srcLen = u.srcLen := rfl
@[simp] theorem DecUnit.setFwd_dstLen (u : DecUnit) (x : Nat) : (u.setFwd x).dstLen = u.dstLen := rfl
@[simp] theorem DecUnit.setFwd_width (u : DecUnit) (x : Nat) : (u.setFwd x).width = u.width := rfl
@[simp] theorem DecUnit.setFwd_height (u : DecUnit) (x : Nat) : (u.setFwd x).height = u.height := rfl
@[simp] theorem DecUnit.setFwd_bpc (u : DecUnit) (x : Nat) : (u.setFwd x).bpc = u.bpc := rfl
@[simp] theorem DecUnit.setFwd_plane (u : DecUnit) (x : Nat) : (u.setFwd x).plane = u.plane := rfl
@[simp] theorem DecUnit.setFwd_state (u : DecUnit) (x : Nat) : (u.setFwd x).state = u.state := rfl
@[simp] theorem DecUnit.setFwd_omValid (u : DecUnit) (x : Nat) : (u.setFwd x).omValid = u.omValid := rfl
@[simp] theorem DecUnit.setFwd_lastOp (u : DecUnit) (x : Nat) : (u.setFwd x).lastOp = u.lastOp := rfl
@[simp] theorem DecUnit.setFwd_errKind (u : DecUnit) (x : Nat) : (u.setFwd x).errKind = u.errKind := rfl
@[simp] theorem DecUnit.setFwd_errCause (u : DecUnit) (x : Nat) : (u.setFwd x).errCause = u.errCause := rfl
@[simp] theorem DecUnit.setFwd_errPos (u : DecUnit) (x : Nat) : (u.setFwd x).errPos = u.errPos := rfl
@[simp] theorem DecUnit.setFwd_omLen (u : DecUnit) (x : Nat) : (u.setFwd x).omLen = u.omLen := rfl
@[simp] theorem DecUnit.setFwd_pm (u : DecUnit) (x : Nat) : (u.setFwd x).pm = u.pm := rfl
@[simp] theorem DecUnit.setFwd_om (u : DecUnit) (x : Nat) : (u.setFwd x).om = u.om := rfl

/-! ### setOff -/

@[simp] theorem DecUnit.setOff_c1 (u : DecUnit) (x : Offsets) : (u.setOff x).c1 = u.c1 := rfl
@[simp] theorem DecUnit.setOff_c2 (u : DecUnit) (x : Offsets) : (u.setOff x).c2 = u.c2 := rfl
@[simp] theorem DecUnit.setOff_cx (u : DecUnit) (x : Offsets) : (u.setOff x).cx = u.cx := rfl
@[simp] theorem DecUnit.setOff_c4 (u : DecUnit) (x : Offsets) : (u.setOff x).c4 = u.c4 := rfl
@[simp] theorem DecUnit.setOff_fwd (u : DecUnit) (x : Offsets) : (u.setOff x).fwd = u.fwd := rfl
@[simp] theorem DecUnit.setOff_off (u : DecUnit) (x : Offsets) : (u.setOff x).off = x := rfl
@[simp] theorem DecUnit.setOff_tail (u : DecUnit) (x : Offsets) : (u.setOff x).tail = u.tail := rfl
@[simp] theorem DecUnit.setOff_wp (u : DecUnit) (x : Offsets) : (u.setOff x).wp = u.wp := rfl
@[simp] theorem DecUnit.setOff_phase (u : DecUnit) (x : Offsets) : (u.setOff x).phase = u.phase := rfl
@[simp] theorem DecUnit.setOff_litcnt (u : DecUnit) (x : Offsets) : (u.setOff x).litcnt = u.litcnt := rfl
@[simp] theorem DecUnit.setOff_midx (u : DecUnit) (x : Offsets) : (u.setOff x).midx = u.midx := rfl
@[simp] theorem DecUnit.setOff_mbl (u : DecUnit) (x : Offsets) : (u.setOff x).mbl = u.mbl := rfl
@[simp] theorem DecUnit.setOff_mbase (u : DecUnit) (x : Offsets) : (u.setOff x).mbase = u.mbase := rfl
@[simp] theorem DecUnit.setOff_dist (u : DecUnit) (x : Offsets) : (u.setOff x).dist = u.dist := rfl
@[simp] theorem DecUnit.setOff_mlen (u : DecUnit) (x : Offsets) : (u.setOff x).mlen = u.mlen := rfl
@[simp] theorem DecUnit.setOff_srcLen (u : DecUnit) (x : Offsets) : (u.setOff x).srcLen = u.srcLen := rfl
@[simp] theorem DecUnit.setOff_dstLen (u : DecUnit) (x : Offsets) : (u.setOff x).dstLen = u.dstLen := rfl
@[simp] theorem DecUnit.setOff_width (u : DecUnit) (x : Offsets) : (u.setOff x).width = u.width := rfl
@[simp] theorem DecUnit.setOff_height (u : DecUnit) (x : Offsets) : (u.setOff x).height = u.height := rfl
@[simp] theorem DecUnit.setOff_bpc (u : DecUnit) (x : Offsets) : (u.setOff x).bpc = u.bpc := rfl
@[simp] theorem DecUnit.setOff_plane (u : DecUnit) (x : Offsets) : (u.setOff x).plane = u.plane := rfl
@[simp] theorem DecUnit.setOff_state (u : DecUnit) (x : Offsets) : (u.setOff x).state = u.state := rfl
@[simp] theorem DecUnit.setOff_omValid (u : DecUnit) (x : Offsets) : (u.setOff x).omValid = u.omValid := rfl
@[simp] theorem DecUnit.setOff_lastOp (u : DecUnit) (x : Offsets) : (u.setOff x).lastOp = u.lastOp := rfl
@[simp] theorem DecUnit.setOff_errKind (u : DecUnit) (x : Offsets) : (u.setOff x).errKind = u.errKind := rfl
@[simp] theorem DecUnit.setOff_errCause (u : DecUnit) (x : Offsets) : (u.setOff x).errCause = u.errCause := rfl
@[simp] theorem DecUnit.setOff_errPos (u : DecUnit) (x : Offsets) : (u.setOff x).errPos = u.errPos := rfl
@[simp] theorem DecUnit.setOff_omLen (u : DecUnit) (x : Offsets) : (u.setOff x).omLen = u.omLen := rfl
@[simp] theorem DecUnit.setOff_pm (u : DecUnit) (x : Offsets) : (u.setOff x).pm = u.pm := rfl
@[simp] theorem DecUnit.setOff_om (u : DecUnit) (x : Offsets) : (u.setOff x).om = u.om := rfl

/-! ### setTail -/

@[simp] theorem DecUnit.setTail_c1 (u : DecUnit) (x : Nat) : (u.setTail x).c1 = u.c1 := rfl
@[simp] theorem DecUnit.setTail_c2 (u : DecUnit) (x : Nat) : (u.setTail x).c2 = u.c2 := rfl
@[simp] theorem DecUnit.setTail_cx (u : DecUnit) (x : Nat) : (u.setTail x).cx = u.cx := rfl
@[simp] theorem DecUnit.setTail_c4 (u : DecUnit) (x : Nat) : (u.setTail x).c4 = u.c4 := rfl
@[simp] theorem DecUnit.setTail_fwd (u : DecUnit) (x : Nat) : (u.setTail x).fwd = u.fwd := rfl
@[simp] theorem DecUnit.setTail_off (u : DecUnit) (x : Nat) : (u.setTail x).off = u.off := rfl
@[simp] theorem DecUnit.setTail_tail (u : DecUnit) (x : Nat) : (u.setTail x).tail = x := rfl
@[simp] theorem DecUnit.setTail_wp (u : DecUnit) (x : Nat) : (u.setTail x).wp = u.wp := rfl
@[simp] theorem DecUnit.setTail_phase (u : DecUnit) (x : Nat) : (u.setTail x).phase = u.phase := rfl
@[simp] theorem DecUnit.setTail_litcnt (u : DecUnit) (x : Nat) : (u.setTail x).litcnt = u.litcnt := rfl
@[simp] theorem DecUnit.setTail_midx (u : DecUnit) (x : Nat) : (u.setTail x).midx = u.midx := rfl
@[simp] theorem DecUnit.setTail_mbl (u : DecUnit) (x : Nat) : (u.setTail x).mbl = u.mbl := rfl
@[simp] theorem DecUnit.setTail_mbase (u : DecUnit) (x : Nat) : (u.setTail x).mbase = u.mbase := rfl
@[simp] theorem DecUnit.setTail_dist (u : DecUnit) (x : Nat) : (u.setTail x).dist = u.dist := rfl
@[simp] theorem DecUnit.setTail_mlen (u : DecUnit) (x : Nat) : (u.setTail x).mlen = u.mlen := rfl
@[simp] theorem DecUnit.setTail_srcLen (u : DecUnit) (x : Nat) : (u.setTail x).srcLen = u.srcLen := rfl
@[simp] theorem DecUnit.setTail_dstLen (u : DecUnit) (x : Nat) : (u.setTail x).dstLen = u.dstLen := rfl
@[simp] theorem DecUnit.setTail_width (u : DecUnit) (x : Nat) : (u.setTail x).width = u.width := rfl
@[simp] theorem DecUnit.setTail_height (u : DecUnit) (x : Nat) : (u.setTail x).height = u.height := rfl
@[simp] theorem DecUnit.setTail_bpc (u : DecUnit) (x : Nat) : (u.setTail x).bpc = u.bpc := rfl
@[simp] theorem DecUnit.setTail_plane (u : DecUnit) (x : Nat) : (u.setTail x).plane = u.plane := rfl
@[simp] theorem DecUnit.setTail_state (u : DecUnit) (x : Nat) : (u.setTail x).state = u.state := rfl
@[simp] theorem DecUnit.setTail_omValid (u : DecUnit) (x : Nat) : (u.setTail x).omValid = u.omValid := rfl
@[simp] theorem DecUnit.setTail_lastOp (u : DecUnit) (x : Nat) : (u.setTail x).lastOp = u.lastOp := rfl
@[simp] theorem DecUnit.setTail_errKind (u : DecUnit) (x : Nat) : (u.setTail x).errKind = u.errKind := rfl
@[simp] theorem DecUnit.setTail_errCause (u : DecUnit) (x : Nat) : (u.setTail x).errCause = u.errCause := rfl
@[simp] theorem DecUnit.setTail_errPos (u : DecUnit) (x : Nat) : (u.setTail x).errPos = u.errPos := rfl
@[simp] theorem DecUnit.setTail_omLen (u : DecUnit) (x : Nat) : (u.setTail x).omLen = u.omLen := rfl
@[simp] theorem DecUnit.setTail_pm (u : DecUnit) (x : Nat) : (u.setTail x).pm = u.pm := rfl
@[simp] theorem DecUnit.setTail_om (u : DecUnit) (x : Nat) : (u.setTail x).om = u.om := rfl

/-! ### setWp -/

@[simp] theorem DecUnit.setWp_c1 (u : DecUnit) (x : Nat) : (u.setWp x).c1 = u.c1 := rfl
@[simp] theorem DecUnit.setWp_c2 (u : DecUnit) (x : Nat) : (u.setWp x).c2 = u.c2 := rfl
@[simp] theorem DecUnit.setWp_cx (u : DecUnit) (x : Nat) : (u.setWp x).cx = u.cx := rfl
@[simp] theorem DecUnit.setWp_c4 (u : DecUnit) (x : Nat) : (u.setWp x).c4 = u.c4 := rfl
@[simp] theorem DecUnit.setWp_fwd (u : DecUnit) (x : Nat) : (u.setWp x).fwd = u.fwd := rfl
@[simp] theorem DecUnit.setWp_off (u : DecUnit) (x : Nat) : (u.setWp x).off = u.off := rfl
@[simp] theorem DecUnit.setWp_tail (u : DecUnit) (x : Nat) : (u.setWp x).tail = u.tail := rfl
@[simp] theorem DecUnit.setWp_wp (u : DecUnit) (x : Nat) : (u.setWp x).wp = x := rfl
@[simp] theorem DecUnit.setWp_phase (u : DecUnit) (x : Nat) : (u.setWp x).phase = u.phase := rfl
@[simp] theorem DecUnit.setWp_litcnt (u : DecUnit) (x : Nat) : (u.setWp x).litcnt = u.litcnt := rfl
@[simp] theorem DecUnit.setWp_midx (u : DecUnit) (x : Nat) : (u.setWp x).midx = u.midx := rfl
@[simp] theorem DecUnit.setWp_mbl (u : DecUnit) (x : Nat) : (u.setWp x).mbl = u.mbl := rfl
@[simp] theorem DecUnit.setWp_mbase (u : DecUnit) (x : Nat) : (u.setWp x).mbase = u.mbase := rfl
@[simp] theorem DecUnit.setWp_dist (u : DecUnit) (x : Nat) : (u.setWp x).dist = u.dist := rfl
@[simp] theorem DecUnit.setWp_mlen (u : DecUnit) (x : Nat) : (u.setWp x).mlen = u.mlen := rfl
@[simp] theorem DecUnit.setWp_srcLen (u : DecUnit) (x : Nat) : (u.setWp x).srcLen = u.srcLen := rfl
@[simp] theorem DecUnit.setWp_dstLen (u : DecUnit) (x : Nat) : (u.setWp x).dstLen = u.dstLen := rfl
@[simp] theorem DecUnit.setWp_width (u : DecUnit) (x : Nat) : (u.setWp x).width = u.width := rfl
@[simp] theorem DecUnit.setWp_height (u : DecUnit) (x : Nat) : (u.setWp x).height = u.height := rfl
@[simp] theorem DecUnit.setWp_bpc (u : DecUnit) (x : Nat) : (u.setWp x).bpc = u.bpc := rfl
@[simp] theorem DecUnit.setWp_plane (u : DecUnit) (x : Nat) : (u.setWp x).plane = u.plane := rfl
@[simp] theorem DecUnit.setWp_state (u : DecUnit) (x : Nat) : (u.setWp x).state = u.state := rfl
@[simp] theorem DecUnit.setWp_omValid (u : DecUnit) (x : Nat) : (u.setWp x).omValid = u.omValid := rfl
@[simp] theorem DecUnit.setWp_lastOp (u : DecUnit) (x : Nat) : (u.setWp x).lastOp = u.lastOp := rfl
@[simp] theorem DecUnit.setWp_errKind (u : DecUnit) (x : Nat) : (u.setWp x).errKind = u.errKind := rfl
@[simp] theorem DecUnit.setWp_errCause (u : DecUnit) (x : Nat) : (u.setWp x).errCause = u.errCause := rfl
@[simp] theorem DecUnit.setWp_errPos (u : DecUnit) (x : Nat) : (u.setWp x).errPos = u.errPos := rfl
@[simp] theorem DecUnit.setWp_omLen (u : DecUnit) (x : Nat) : (u.setWp x).omLen = u.omLen := rfl
@[simp] theorem DecUnit.setWp_pm (u : DecUnit) (x : Nat) : (u.setWp x).pm = u.pm := rfl
@[simp] theorem DecUnit.setWp_om (u : DecUnit) (x : Nat) : (u.setWp x).om = u.om := rfl

/-! ### setLitcnt -/

@[simp] theorem DecUnit.setLitcnt_c1 (u : DecUnit) (x : Nat) : (u.setLitcnt x).c1 = u.c1 := rfl
@[simp] theorem DecUnit.setLitcnt_c2 (u : DecUnit) (x : Nat) : (u.setLitcnt x).c2 = u.c2 := rfl
@[simp] theorem DecUnit.setLitcnt_cx (u : DecUnit) (x : Nat) : (u.setLitcnt x).cx = u.cx := rfl
@[simp] theorem DecUnit.setLitcnt_c4 (u : DecUnit) (x : Nat) : (u.setLitcnt x).c4 = u.c4 := rfl
@[simp] theorem DecUnit.setLitcnt_fwd (u : DecUnit) (x : Nat) : (u.setLitcnt x).fwd = u.fwd := rfl
@[simp] theorem DecUnit.setLitcnt_off (u : DecUnit) (x : Nat) : (u.setLitcnt x).off = u.off := rfl
@[simp] theorem DecUnit.setLitcnt_tail (u : DecUnit) (x : Nat) : (u.setLitcnt x).tail = u.tail := rfl
@[simp] theorem DecUnit.setLitcnt_wp (u : DecUnit) (x : Nat) : (u.setLitcnt x).wp = u.wp := rfl
@[simp] theorem DecUnit.setLitcnt_phase (u : DecUnit) (x : Nat) : (u.setLitcnt x).phase = u.phase := rfl
@[simp] theorem DecUnit.setLitcnt_litcnt (u : DecUnit) (x : Nat) : (u.setLitcnt x).litcnt = x := rfl
@[simp] theorem DecUnit.setLitcnt_midx (u : DecUnit) (x : Nat) : (u.setLitcnt x).midx = u.midx := rfl
@[simp] theorem DecUnit.setLitcnt_mbl (u : DecUnit) (x : Nat) : (u.setLitcnt x).mbl = u.mbl := rfl
@[simp] theorem DecUnit.setLitcnt_mbase (u : DecUnit) (x : Nat) : (u.setLitcnt x).mbase = u.mbase := rfl
@[simp] theorem DecUnit.setLitcnt_dist (u : DecUnit) (x : Nat) : (u.setLitcnt x).dist = u.dist := rfl
@[simp] theorem DecUnit.setLitcnt_mlen (u : DecUnit) (x : Nat) : (u.setLitcnt x).mlen = u.mlen := rfl
@[simp] theorem DecUnit.setLitcnt_srcLen (u : DecUnit) (x : Nat) : (u.setLitcnt x).srcLen = u.srcLen := rfl
@[simp] theorem DecUnit.setLitcnt_dstLen (u : DecUnit) (x : Nat) : (u.setLitcnt x).dstLen = u.dstLen := rfl
@[simp] theorem DecUnit.setLitcnt_width (u : DecUnit) (x : Nat) : (u.setLitcnt x).width = u.width := rfl
@[simp] theorem DecUnit.setLitcnt_height (u : DecUnit) (x : Nat) : (u.setLitcnt x).height = u.height := rfl
@[simp] theorem DecUnit.setLitcnt_bpc (u : DecUnit) (x : Nat) : (u.setLitcnt x).bpc = u.bpc := rfl
@[simp] theorem DecUnit.setLitcnt_plane (u : DecUnit) (x : Nat) : (u.setLitcnt x).plane = u.plane := rfl
@[simp] theorem DecUnit.setLitcnt_state (u : DecUnit) (x : Nat) : (u.setLitcnt x).state = u.state := rfl
@[simp] theorem DecUnit.setLitcnt_omValid (u : DecUnit) (x : Nat) : (u.setLitcnt x).omValid = u.omValid := rfl
@[simp] theorem DecUnit.setLitcnt_lastOp (u : DecUnit) (x : Nat) : (u.setLitcnt x).lastOp = u.lastOp := rfl
@[simp] theorem DecUnit.setLitcnt_errKind (u : DecUnit) (x : Nat) : (u.setLitcnt x).errKind = u.errKind := rfl
@[simp] theorem DecUnit.setLitcnt_errCause (u : DecUnit) (x : Nat) : (u.setLitcnt x).errCause = u.errCause := rfl
@[simp] theorem DecUnit.setLitcnt_errPos (u : DecUnit) (x : Nat) : (u.setLitcnt x).errPos = u.errPos := rfl
@[simp] theorem DecUnit.setLitcnt_omLen (u : DecUnit) (x : Nat) : (u.setLitcnt x).omLen = u.omLen := rfl
@[simp] theorem DecUnit.setLitcnt_pm (u : DecUnit) (x : Nat) : (u.setLitcnt x).pm = u.pm := rfl
@[simp] theorem DecUnit.setLitcnt_om (u : DecUnit) (x : Nat) : (u.setLitcnt x).om = u.om := rfl

/-! ### setDist -/

@[simp] theorem DecUnit.setDist_c1 (u : DecUnit) (x : Nat) : (u.setDist x).c1 = u.c1 := rfl
@[simp] theorem DecUnit.setDist_c2 (u : DecUnit) (x : Nat) : (u.setDist x).c2 = u.c2 := rfl
@[simp] theorem DecUnit.setDist_cx (u : DecUnit) (x : Nat) : (u.setDist x).cx = u.cx := rfl
@[simp] theorem DecUnit.setDist_c4 (u : DecUnit) (x : Nat) : (u.setDist x).c4 = u.c4 := rfl
@[simp] theorem DecUnit.setDist_fwd (u : DecUnit) (x : Nat) : (u.setDist x).fwd = u.fwd := rfl
@[simp] theorem DecUnit.setDist_off (u : DecUnit) (x : Nat) : (u.setDist x).off = u.off := rfl
@[simp] theorem DecUnit.setDist_tail (u : DecUnit) (x : Nat) : (u.setDist x).tail = u.tail := rfl
@[simp] theorem DecUnit.setDist_wp (u : DecUnit) (x : Nat) : (u.setDist x).wp = u.wp := rfl
@[simp] theorem DecUnit.setDist_phase (u : DecUnit) (x : Nat) : (u.setDist x).phase = u.phase := rfl
@[simp] theorem DecUnit.setDist_litcnt (u : DecUnit) (x : Nat) : (u.setDist x).litcnt = u.litcnt := rfl
@[simp] theorem DecUnit.setDist_midx (u : DecUnit) (x : Nat) : (u.setDist x).midx = u.midx := rfl
@[simp] theorem DecUnit.setDist_mbl (u : DecUnit) (x : Nat) : (u.setDist x).mbl = u.mbl := rfl
@[simp] theorem DecUnit.setDist_mbase (u : DecUnit) (x : Nat) : (u.setDist x).mbase = u.mbase := rfl
@[simp] theorem DecUnit.setDist_dist (u : DecUnit) (x : Nat) : (u.setDist x).dist = x := rfl
@[simp] theorem DecUnit.setDist_mlen (u : DecUnit) (x : Nat) : (u.setDist x).mlen = u.mlen := rfl
@[simp] theorem DecUnit.setDist_srcLen (u : DecUnit) (x : Nat) : (u.setDist x).srcLen = u.srcLen := rfl
@[simp] theorem DecUnit.setDist_dstLen (u : DecUnit) (x : Nat) : (u.setDist x).dstLen = u.dstLen := rfl
@[simp] theorem DecUnit.setDist_width (u : DecUnit) (x : Nat) : (u.setDist x).width = u.width := rfl
@[simp] theorem DecUnit.setDist_height (u : DecUnit) (x : Nat) : (u.setDist x).height = u.height := rfl
@[simp] theorem DecUnit.setDist_bpc (u : DecUnit) (x : Nat) : (u.setDist x).bpc = u.bpc := rfl
@[simp] theorem DecUnit.setDist_plane (u : DecUnit) (x : Nat) : (u.setDist x).plane = u.plane := rfl
@[simp] theorem DecUnit.setDist_state (u : DecUnit) (x : Nat) : (u.setDist x).state = u.state := rfl
@[simp] theorem DecUnit.setDist_omValid (u : DecUnit) (x : Nat) : (u.setDist x).omValid = u.omValid := rfl
@[simp] theorem DecUnit.setDist_lastOp (u : DecUnit) (x : Nat) : (u.setDist x).lastOp = u.lastOp := rfl
@[simp] theorem DecUnit.setDist_errKind (u : DecUnit) (x : Nat) : (u.setDist x).errKind = u.errKind := rfl
@[simp] theorem DecUnit.setDist_errCause (u : DecUnit) (x : Nat) : (u.setDist x).errCause = u.errCause := rfl
@[simp] theorem DecUnit.setDist_errPos (u : DecUnit) (x : Nat) : (u.setDist x).errPos = u.errPos := rfl
@[simp] theorem DecUnit.setDist_omLen (u : DecUnit) (x : Nat) : (u.setDist x).omLen = u.omLen := rfl
@[simp] theorem DecUnit.setDist_pm (u : DecUnit) (x : Nat) : (u.setDist x).pm = u.pm := rfl
@[simp] theorem DecUnit.setDist_om (u : DecUnit) (x : Nat) : (u.setDist x).om = u.om := rfl

/-! ### setMlen -/

@[simp] theorem DecUnit.setMlen_c1 (u : DecUnit) (x : Nat) : (u.setMlen x).c1 = u.c1 := rfl
@[simp] theorem DecUnit.setMlen_c2 (u : DecUnit) (x : Nat) : (u.setMlen x).c2 = u.c2 := rfl
@[simp] theorem DecUnit.setMlen_cx (u : DecUnit) (x : Nat) : (u.setMlen x).cx = u.cx := rfl
@[simp] theorem DecUnit.setMlen_c4 (u : DecUnit) (x : Nat) : (u.setMlen x).c4 = u.c4 := rfl
@[simp] theorem DecUnit.setMlen_fwd (u : DecUnit) (x : Nat) : (u.setMlen x).fwd = u.fwd := rfl
@[simp] theorem DecUnit.setMlen_off (u : DecUnit) (x : Nat) : (u.setMlen x).off = u.off := rfl
@[simp] theorem DecUnit.setMlen_tail (u : DecUnit) (x : Nat) : (u.setMlen x).tail = u.tail := rfl
@[simp] theorem DecUnit.setMlen_wp (u : DecUnit) (x : Nat) : (u.setMlen x).wp = u.wp := rfl
@[simp] theorem DecUnit.setMlen_phase (u : DecUnit) (x : Nat) : (u.setMlen x).phase = u.phase := rfl
@[simp] theorem DecUnit.setMlen_litcnt (u : DecUnit) (x : Nat) : (u.setMlen x).litcnt = u.litcnt := rfl
@[simp] theorem DecUnit.setMlen_midx (u : DecUnit) (x : Nat) : (u.setMlen x).midx = u.midx := rfl
@[simp] theorem DecUnit.setMlen_mbl (u : DecUnit) (x : Nat) : (u.setMlen x).mbl = u.mbl := rfl
@[simp] theorem DecUnit.setMlen_mbase (u : DecUnit) (x : Nat) : (u.setMlen x).mbase = u.mbase := rfl
@[simp] theorem DecUnit.setMlen_dist (u : DecUnit) (x : Nat) : (u.setMlen x).dist = u.dist := rfl
@[simp] theorem DecUnit.setMlen_mlen (u : DecUnit) (x : Nat) : (u.setMlen x).mlen = x := rfl
@[simp] theorem DecUnit.setMlen_srcLen (u : DecUnit) (x : Nat) : (u.setMlen x).srcLen = u.srcLen := rfl
@[simp] theorem DecUnit.setMlen_dstLen (u : DecUnit) (x : Nat) : (u.setMlen x).dstLen = u.dstLen := rfl
@[simp] theorem DecUnit.setMlen_width (u : DecUnit) (x : Nat) : (u.setMlen x).width = u.width := rfl
@[simp] theorem DecUnit.setMlen_height (u : DecUnit) (x : Nat) : (u.setMlen x).height = u.height := rfl
@[simp] theorem DecUnit.setMlen_bpc (u : DecUnit) (x : Nat) : (u.setMlen x).bpc = u.bpc := rfl
@[simp] theorem DecUnit.setMlen_plane (u : DecUnit) (x : Nat) : (u.setMlen x).plane = u.plane := rfl
@[simp] theorem DecUnit.setMlen_state (u : DecUnit) (x : Nat) : (u.setMlen x).state = u.state := rfl
@[simp] theorem DecUnit.setMlen_omValid (u : DecUnit) (x : Nat) : (u.setMlen x).omValid = u.omValid := rfl
@[simp] theorem DecUnit.setMlen_lastOp (u : DecUnit) (x : Nat) : (u.setMlen x).lastOp = u.lastOp := rfl
@[simp] theorem DecUnit.setMlen_errKind (u : DecUnit) (x : Nat) : (u.setMlen x).errKind = u.errKind := rfl
@[simp] theorem DecUnit.setMlen_errCause (u : DecUnit) (x : Nat) : (u.setMlen x).errCause = u.errCause := rfl
@[simp] theorem DecUnit.setMlen_errPos (u : DecUnit) (x : Nat) : (u.setMlen x).errPos = u.errPos := rfl
@[simp] theorem DecUnit.setMlen_omLen (u : DecUnit) (x : Nat) : (u.setMlen x).omLen = u.omLen := rfl
@[simp] theorem DecUnit.setMlen_pm (u : DecUnit) (x : Nat) : (u.setMlen x).pm = u.pm := rfl
@[simp] theorem DecUnit.setMlen_om (u : DecUnit) (x : Nat) : (u.setMlen x).om = u.om := rfl

/-! ### setPm -/

@[simp] theorem DecUnit.setPm_c1 (u : DecUnit) (x : Memory) : (u.setPm x).c1 = u.c1 := rfl
@[simp] theorem DecUnit.setPm_c2 (u : DecUnit) (x : Memory) : (u.setPm x).c2 = u.c2 := rfl
@[simp] theorem DecUnit.setPm_cx (u : DecUnit) (x : Memory) : (u.setPm x).cx = u.cx := rfl
@[simp] theorem DecUnit.setPm_c4 (u : DecUnit) (x : Memory) : (u.setPm x).c4 = u.c4 := rfl
@[simp] theorem DecUnit.setPm_fwd (u : DecUnit) (x : Memory) : (u.setPm x).fwd = u.fwd := rfl
@[simp] theorem DecUnit.setPm_off (u : DecUnit) (x : Memory) : (u.setPm x).off = u.off := rfl
@[simp] theorem DecUnit.setPm_tail (u : DecUnit) (x : Memory) : (u.setPm x).tail = u.tail := rfl
@[simp] theorem DecUnit.setPm_wp (u : DecUnit) (x : Memory) : (u.setPm x).wp = u.wp := rfl
@[simp] theorem DecUnit.setPm_phase (u : DecUnit) (x : Memory) : (u.setPm x).phase = u.phase := rfl
@[simp] theorem DecUnit.setPm_litcnt (u : DecUnit) (x : Memory) : (u.setPm x).litcnt = u.litcnt := rfl
@[simp] theorem DecUnit.setPm_midx (u : DecUnit) (x : Memory) : (u.setPm x).midx = u.midx := rfl
@[simp] theorem DecUnit.setPm_mbl (u : DecUnit) (x : Memory) : (u.setPm x).mbl = u.mbl := rfl
@[simp] theorem DecUnit.setPm_mbase (u : DecUnit) (x : Memory) : (u.setPm x).mbase = u.mbase := rfl
@[simp] theorem DecUnit.setPm_dist (u : DecUnit) (x : Memory) : (u.setPm x).dist = u.dist := rfl
@[simp] theorem DecUnit.setPm_mlen (u : DecUnit) (x : Memory) : (u.setPm x).mlen = u.mlen := rfl
@[simp] theorem DecUnit.setPm_srcLen (u : DecUnit) (x : Memory) : (u.setPm x).srcLen = u.srcLen := rfl
@[simp] theorem DecUnit.setPm_dstLen (u : DecUnit) (x : Memory) : (u.setPm x).dstLen = u.dstLen := rfl
@[simp] theorem DecUnit.setPm_width (u : DecUnit) (x : Memory) : (u.setPm x).width = u.width := rfl
@[simp] theorem DecUnit.setPm_height (u : DecUnit) (x : Memory) : (u.setPm x).height = u.height := rfl
@[simp] theorem DecUnit.setPm_bpc (u : DecUnit) (x : Memory) : (u.setPm x).bpc = u.bpc := rfl
@[simp] theorem DecUnit.setPm_plane (u : DecUnit) (x : Memory) : (u.setPm x).plane = u.plane := rfl
@[simp] theorem DecUnit.setPm_state (u : DecUnit) (x : Memory) : (u.setPm x).state = u.state := rfl
@[simp] theorem DecUnit.setPm_omValid (u : DecUnit) (x : Memory) : (u.setPm x).omValid = u.omValid := rfl
@[simp] theorem DecUnit.setPm_lastOp (u : DecUnit) (x : Memory) : (u.setPm x).lastOp = u.lastOp := rfl
@[simp] theorem DecUnit.setPm_errKind (u : DecUnit) (x : Memory) : (u.setPm x).errKind = u.errKind := rfl
@[simp] theorem DecUnit.setPm_errCause (u : DecUnit) (x : Memory) : (u.setPm x).errCause = u.errCause := rfl
@[simp] theorem DecUnit.setPm_errPos (u : DecUnit) (x : Memory) : (u.setPm x).errPos = u.errPos := rfl
@[simp] theorem DecUnit.setPm_omLen (u : DecUnit) (x : Memory) : (u.setPm x).omLen = u.omLen := rfl
@[simp] theorem DecUnit.setPm_pm (u : DecUnit) (x : Memory) : (u.setPm x).pm = x := rfl
@[simp] theorem DecUnit.setPm_om (u : DecUnit) (x : Memory) : (u.setPm x).om = u.om := rfl

/-! ### setOm -/

@[simp] theorem DecUnit.setOm_c1 (u : DecUnit) (x : Memory) : (u.setOm x).c1 = u.c1 := rfl
@[simp] theorem DecUnit.setOm_c2 (u : DecUnit) (x : Memory) : (u.setOm x).c2 = u.c2 := rfl
@[simp] theorem DecUnit.setOm_cx (u : DecUnit) (x : Memory) : (u.setOm x).cx = u.cx := rfl
@[simp] theorem DecUnit.setOm_c4 (u : DecUnit) (x : Memory) : (u.setOm x).c4 = u.c4 := rfl
@[simp] theorem DecUnit.setOm_fwd (u : DecUnit) (x : Memory) : (u.setOm x).fwd = u.fwd := rfl
@[simp] theorem DecUnit.setOm_off (u : DecUnit) (x : Memory) : (u.setOm x).off = u.off := rfl
@[simp] theorem DecUnit.setOm_tail (u : DecUnit) (x : Memory) : (u.setOm x).tail = u.tail := rfl
@[simp] theorem DecUnit.setOm_wp (u : DecUnit) (x : Memory) : (u.setOm x).wp = u.wp := rfl
@[simp] theorem DecUnit.setOm_phase (u : DecUnit) (x : Memory) : (u.setOm x).phase = u.phase := rfl
@[simp] theorem DecUnit.setOm_litcnt (u : DecUnit) (x : Memory) : (u.setOm x).litcnt = u.litcnt := rfl
@[simp] theorem DecUnit.setOm_midx (u : DecUnit) (x : Memory) : (u.setOm x).midx = u.midx := rfl
@[simp] theorem DecUnit.setOm_mbl (u : DecUnit) (x : Memory) : (u.setOm x).mbl = u.mbl := rfl
@[simp] theorem DecUnit.setOm_mbase (u : DecUnit) (x : Memory) : (u.setOm x).mbase = u.mbase := rfl
@[simp] theorem DecUnit.setOm_dist (u : DecUnit) (x : Memory) : (u.setOm x).dist = u.dist := rfl
@[simp] theorem DecUnit.setOm_mlen (u : DecUnit) (x : Memory) : (u.setOm x).mlen = u.mlen := rfl
@[simp] theorem DecUnit.setOm_srcLen (u : DecUnit) (x : Memory) : (u.setOm x).srcLen = u.srcLen := rfl
@[simp] theorem DecUnit.setOm_dstLen (u : DecUnit) (x : Memory) : (u.setOm x).dstLen = u.dstLen := rfl
@[simp] theorem DecUnit.setOm_width (u : DecUnit) (x : Memory) : (u.setOm x).width = u.width := rfl
@[simp] theorem DecUnit.setOm_height (u : DecUnit) (x : Memory) : (u.setOm x).height = u.height := rfl
@[simp] theorem DecUnit.setOm_bpc (u : DecUnit) (x : Memory) : (u.setOm x).bpc = u.bpc := rfl
@[simp] theorem DecUnit.setOm_plane (u : DecUnit) (x : Memory) : (u.setOm x).plane = u.plane := rfl
@[simp] theorem DecUnit.setOm_state (u : DecUnit) (x : Memory) : (u.setOm x).state = u.state := rfl
@[simp] theorem DecUnit.setOm_omValid (u : DecUnit) (x : Memory) : (u.setOm x).omValid = u.omValid := rfl
@[simp] theorem DecUnit.setOm_lastOp (u : DecUnit) (x : Memory) : (u.setOm x).lastOp = u.lastOp := rfl
@[simp] theorem DecUnit.setOm_errKind (u : DecUnit) (x : Memory) : (u.setOm x).errKind = u.errKind := rfl
@[simp] theorem DecUnit.setOm_errCause (u : DecUnit) (x : Memory) : (u.setOm x).errCause = u.errCause := rfl
@[simp] theorem DecUnit.setOm_errPos (u : DecUnit) (x : Memory) : (u.setOm x).errPos = u.errPos := rfl
@[simp] theorem DecUnit.setOm_omLen (u : DecUnit) (x : Memory) : (u.setOm x).omLen = u.omLen := rfl
@[simp] theorem DecUnit.setOm_pm (u : DecUnit) (x : Memory) : (u.setOm x).pm = u.pm := rfl
@[simp] theorem DecUnit.setOm_om (u : DecUnit) (x : Memory) : (u.setOm x).om = x := rfl

/-! ### setIndex -/

@[simp] theorem DecUnit.setIndex_c1 (u : DecUnit) (i b : BitVec 4) (m : BitVec 16) :
    (u.setIndex i b m).c1 = u.c1 := rfl
@[simp] theorem DecUnit.setIndex_c2 (u : DecUnit) (i b : BitVec 4) (m : BitVec 16) :
    (u.setIndex i b m).c2 = u.c2 := rfl
@[simp] theorem DecUnit.setIndex_cx (u : DecUnit) (i b : BitVec 4) (m : BitVec 16) :
    (u.setIndex i b m).cx = u.cx := rfl
@[simp] theorem DecUnit.setIndex_c4 (u : DecUnit) (i b : BitVec 4) (m : BitVec 16) :
    (u.setIndex i b m).c4 = u.c4 := rfl
@[simp] theorem DecUnit.setIndex_fwd (u : DecUnit) (i b : BitVec 4) (m : BitVec 16) :
    (u.setIndex i b m).fwd = u.fwd := rfl
@[simp] theorem DecUnit.setIndex_off (u : DecUnit) (i b : BitVec 4) (m : BitVec 16) :
    (u.setIndex i b m).off = u.off := rfl
@[simp] theorem DecUnit.setIndex_tail (u : DecUnit) (i b : BitVec 4) (m : BitVec 16) :
    (u.setIndex i b m).tail = u.tail := rfl
@[simp] theorem DecUnit.setIndex_wp (u : DecUnit) (i b : BitVec 4) (m : BitVec 16) :
    (u.setIndex i b m).wp = u.wp := rfl
@[simp] theorem DecUnit.setIndex_phase (u : DecUnit) (i b : BitVec 4) (m : BitVec 16) :
    (u.setIndex i b m).phase = u.phase := rfl
@[simp] theorem DecUnit.setIndex_litcnt (u : DecUnit) (i b : BitVec 4) (m : BitVec 16) :
    (u.setIndex i b m).litcnt = u.litcnt := rfl
@[simp] theorem DecUnit.setIndex_midx (u : DecUnit) (i b : BitVec 4) (m : BitVec 16) :
    (u.setIndex i b m).midx = i := rfl
@[simp] theorem DecUnit.setIndex_mbl (u : DecUnit) (i b : BitVec 4) (m : BitVec 16) :
    (u.setIndex i b m).mbl = b := rfl
@[simp] theorem DecUnit.setIndex_mbase (u : DecUnit) (i b : BitVec 4) (m : BitVec 16) :
    (u.setIndex i b m).mbase = m := rfl
@[simp] theorem DecUnit.setIndex_dist (u : DecUnit) (i b : BitVec 4) (m : BitVec 16) :
    (u.setIndex i b m).dist = u.dist := rfl
@[simp] theorem DecUnit.setIndex_mlen (u : DecUnit) (i b : BitVec 4) (m : BitVec 16) :
    (u.setIndex i b m).mlen = u.mlen := rfl
@[simp] theorem DecUnit.setIndex_srcLen (u : DecUnit) (i b : BitVec 4) (m : BitVec 16) :
    (u.setIndex i b m).srcLen = u.srcLen := rfl
@[simp] theorem DecUnit.setIndex_dstLen (u : DecUnit) (i b : BitVec 4) (m : BitVec 16) :
    (u.setIndex i b m).dstLen = u.dstLen := rfl
@[simp] theorem DecUnit.setIndex_width (u : DecUnit) (i b : BitVec 4) (m : BitVec 16) :
    (u.setIndex i b m).width = u.width := rfl
@[simp] theorem DecUnit.setIndex_height (u : DecUnit) (i b : BitVec 4) (m : BitVec 16) :
    (u.setIndex i b m).height = u.height := rfl
@[simp] theorem DecUnit.setIndex_bpc (u : DecUnit) (i b : BitVec 4) (m : BitVec 16) :
    (u.setIndex i b m).bpc = u.bpc := rfl
@[simp] theorem DecUnit.setIndex_plane (u : DecUnit) (i b : BitVec 4) (m : BitVec 16) :
    (u.setIndex i b m).plane = u.plane := rfl
@[simp] theorem DecUnit.setIndex_state (u : DecUnit) (i b : BitVec 4) (m : BitVec 16) :
    (u.setIndex i b m).state = u.state := rfl
@[simp] theorem DecUnit.setIndex_omValid (u : DecUnit) (i b : BitVec 4) (m : BitVec 16) :
    (u.setIndex i b m).omValid = u.omValid := rfl
@[simp] theorem DecUnit.setIndex_lastOp (u : DecUnit) (i b : BitVec 4) (m : BitVec 16) :
    (u.setIndex i b m).lastOp = u.lastOp := rfl
@[simp] theorem DecUnit.setIndex_errKind (u : DecUnit) (i b : BitVec 4) (m : BitVec 16) :
    (u.setIndex i b m).errKind = u.errKind := rfl
@[simp] theorem DecUnit.setIndex_errCause (u : DecUnit) (i b : BitVec 4) (m : BitVec 16) :
    (u.setIndex i b m).errCause = u.errCause := rfl
@[simp] theorem DecUnit.setIndex_errPos (u : DecUnit) (i b : BitVec 4) (m : BitVec 16) :
    (u.setIndex i b m).errPos = u.errPos := rfl
@[simp] theorem DecUnit.setIndex_omLen (u : DecUnit) (i b : BitVec 4) (m : BitVec 16) :
    (u.setIndex i b m).omLen = u.omLen := rfl
@[simp] theorem DecUnit.setIndex_pm (u : DecUnit) (i b : BitVec 4) (m : BitVec 16) :
    (u.setIndex i b m).pm = u.pm := rfl
@[simp] theorem DecUnit.setIndex_om (u : DecUnit) (i b : BitVec 4) (m : BitVec 16) :
    (u.setIndex i b m).om = u.om := rfl

/-! ### goto -/

@[simp] theorem DecUnit.goto_c1 (u : DecUnit) (p : Phase) : (u.goto p).c1 = u.c1 := rfl
@[simp] theorem DecUnit.goto_c2 (u : DecUnit) (p : Phase) : (u.goto p).c2 = u.c2 := rfl
@[simp] theorem DecUnit.goto_cx (u : DecUnit) (p : Phase) : (u.goto p).cx = u.cx := rfl
@[simp] theorem DecUnit.goto_c4 (u : DecUnit) (p : Phase) : (u.goto p).c4 = u.c4 := rfl
@[simp] theorem DecUnit.goto_fwd (u : DecUnit) (p : Phase) : (u.goto p).fwd = u.fwd := rfl
@[simp] theorem DecUnit.goto_off (u : DecUnit) (p : Phase) : (u.goto p).off = u.off := rfl
@[simp] theorem DecUnit.goto_tail (u : DecUnit) (p : Phase) : (u.goto p).tail = u.tail := rfl
@[simp] theorem DecUnit.goto_wp (u : DecUnit) (p : Phase) : (u.goto p).wp = u.wp := rfl
@[simp] theorem DecUnit.goto_phase (u : DecUnit) (p : Phase) : (u.goto p).phase = p := rfl
@[simp] theorem DecUnit.goto_litcnt (u : DecUnit) (p : Phase) : (u.goto p).litcnt = u.litcnt := rfl
@[simp] theorem DecUnit.goto_midx (u : DecUnit) (p : Phase) : (u.goto p).midx = u.midx := rfl
@[simp] theorem DecUnit.goto_mbl (u : DecUnit) (p : Phase) : (u.goto p).mbl = u.mbl := rfl
@[simp] theorem DecUnit.goto_mbase (u : DecUnit) (p : Phase) : (u.goto p).mbase = u.mbase := rfl
@[simp] theorem DecUnit.goto_dist (u : DecUnit) (p : Phase) : (u.goto p).dist = u.dist := rfl
@[simp] theorem DecUnit.goto_mlen (u : DecUnit) (p : Phase) : (u.goto p).mlen = u.mlen := rfl
@[simp] theorem DecUnit.goto_srcLen (u : DecUnit) (p : Phase) : (u.goto p).srcLen = u.srcLen := rfl
@[simp] theorem DecUnit.goto_dstLen (u : DecUnit) (p : Phase) : (u.goto p).dstLen = u.dstLen := rfl
@[simp] theorem DecUnit.goto_width (u : DecUnit) (p : Phase) : (u.goto p).width = u.width := rfl
@[simp] theorem DecUnit.goto_height (u : DecUnit) (p : Phase) : (u.goto p).height = u.height := rfl
@[simp] theorem DecUnit.goto_bpc (u : DecUnit) (p : Phase) : (u.goto p).bpc = u.bpc := rfl
@[simp] theorem DecUnit.goto_plane (u : DecUnit) (p : Phase) : (u.goto p).plane = u.plane := rfl
@[simp] theorem DecUnit.goto_state (u : DecUnit) (p : Phase) : (u.goto p).state = u.state := rfl
@[simp] theorem DecUnit.goto_omValid (u : DecUnit) (p : Phase) : (u.goto p).omValid = u.omValid := rfl
@[simp] theorem DecUnit.goto_lastOp (u : DecUnit) (p : Phase) : (u.goto p).lastOp = u.lastOp := rfl
@[simp] theorem DecUnit.goto_errKind (u : DecUnit) (p : Phase) : (u.goto p).errKind = u.errKind := rfl
@[simp] theorem DecUnit.goto_errCause (u : DecUnit) (p : Phase) : (u.goto p).errCause = u.errCause := rfl
@[simp] theorem DecUnit.goto_errPos (u : DecUnit) (p : Phase) : (u.goto p).errPos = u.errPos := rfl
@[simp] theorem DecUnit.goto_omLen (u : DecUnit) (p : Phase) : (u.goto p).omLen = u.omLen := rfl
@[simp] theorem DecUnit.goto_pm (u : DecUnit) (p : Phase) : (u.goto p).pm = u.pm := rfl
@[simp] theorem DecUnit.goto_om (u : DecUnit) (p : Phase) : (u.goto p).om = u.om := rfl

/-! ### startJob -/

@[simp] theorem DecUnit.startJob_c1 (u : DecUnit) (op : BitVec 4) : (u.startJob op).c1 = u.c1 := rfl
@[simp] theorem DecUnit.startJob_c2 (u : DecUnit) (op : BitVec 4) : (u.startJob op).c2 = u.c2 := rfl
@[simp] theorem DecUnit.startJob_cx (u : DecUnit) (op : BitVec 4) : (u.startJob op).cx = u.cx := rfl
@[simp] theorem DecUnit.startJob_c4 (u : DecUnit) (op : BitVec 4) : (u.startJob op).c4 = u.c4 := rfl
@[simp] theorem DecUnit.startJob_fwd (u : DecUnit) (op : BitVec 4) : (u.startJob op).fwd = u.fwd := rfl
@[simp] theorem DecUnit.startJob_off (u : DecUnit) (op : BitVec 4) : (u.startJob op).off = u.off := rfl
@[simp] theorem DecUnit.startJob_tail (u : DecUnit) (op : BitVec 4) : (u.startJob op).tail = u.tail := rfl
@[simp] theorem DecUnit.startJob_wp (u : DecUnit) (op : BitVec 4) : (u.startJob op).wp = u.wp := rfl
@[simp] theorem DecUnit.startJob_phase (u : DecUnit) (op : BitVec 4) : (u.startJob op).phase = u.phase := rfl
@[simp] theorem DecUnit.startJob_litcnt (u : DecUnit) (op : BitVec 4) : (u.startJob op).litcnt = u.litcnt := rfl
@[simp] theorem DecUnit.startJob_midx (u : DecUnit) (op : BitVec 4) : (u.startJob op).midx = u.midx := rfl
@[simp] theorem DecUnit.startJob_mbl (u : DecUnit) (op : BitVec 4) : (u.startJob op).mbl = u.mbl := rfl
@[simp] theorem DecUnit.startJob_mbase (u : DecUnit) (op : BitVec 4) : (u.startJob op).mbase = u.mbase := rfl
@[simp] theorem DecUnit.startJob_dist (u : DecUnit) (op : BitVec 4) : (u.startJob op).dist = u.dist := rfl
@[simp] theorem DecUnit.startJob_mlen (u : DecUnit) (op : BitVec 4) : (u.startJob op).mlen = u.mlen := rfl
@[simp] theorem DecUnit.startJob_srcLen (u : DecUnit) (op : BitVec 4) : (u.startJob op).srcLen = u.srcLen := rfl
@[simp] theorem DecUnit.startJob_dstLen (u : DecUnit) (op : BitVec 4) : (u.startJob op).dstLen = u.dstLen := rfl
@[simp] theorem DecUnit.startJob_width (u : DecUnit) (op : BitVec 4) : (u.startJob op).width = u.width := rfl
@[simp] theorem DecUnit.startJob_height (u : DecUnit) (op : BitVec 4) : (u.startJob op).height = u.height := rfl
@[simp] theorem DecUnit.startJob_bpc (u : DecUnit) (op : BitVec 4) : (u.startJob op).bpc = u.bpc := rfl
@[simp] theorem DecUnit.startJob_plane (u : DecUnit) (op : BitVec 4) : (u.startJob op).plane = u.plane := rfl
@[simp] theorem DecUnit.startJob_state (u : DecUnit) (op : BitVec 4) : (u.startJob op).state = .busy := rfl
@[simp] theorem DecUnit.startJob_omValid (u : DecUnit) (op : BitVec 4) : (u.startJob op).omValid = u.omValid := rfl
@[simp] theorem DecUnit.startJob_lastOp (u : DecUnit) (op : BitVec 4) : (u.startJob op).lastOp = op := rfl
@[simp] theorem DecUnit.startJob_errKind (u : DecUnit) (op : BitVec 4) : (u.startJob op).errKind = .none := rfl
@[simp] theorem DecUnit.startJob_errCause (u : DecUnit) (op : BitVec 4) : (u.startJob op).errCause = .none := rfl
@[simp] theorem DecUnit.startJob_errPos (u : DecUnit) (op : BitVec 4) : (u.startJob op).errPos = 0 := rfl
@[simp] theorem DecUnit.startJob_omLen (u : DecUnit) (op : BitVec 4) : (u.startJob op).omLen = u.omLen := rfl
@[simp] theorem DecUnit.startJob_pm (u : DecUnit) (op : BitVec 4) : (u.startJob op).pm = u.pm := rfl
@[simp] theorem DecUnit.startJob_om (u : DecUnit) (op : BitVec 4) : (u.startJob op).om = u.om := rfl

/-! ### enterFault -/

@[simp] theorem DecUnit.enterFault_c1 (u : DecUnit) (c : Cause) (pos : Nat) : (u.enterFault c pos).c1 = u.c1 := rfl
@[simp] theorem DecUnit.enterFault_c2 (u : DecUnit) (c : Cause) (pos : Nat) : (u.enterFault c pos).c2 = u.c2 := rfl
@[simp] theorem DecUnit.enterFault_cx (u : DecUnit) (c : Cause) (pos : Nat) : (u.enterFault c pos).cx = u.cx := rfl
@[simp] theorem DecUnit.enterFault_c4 (u : DecUnit) (c : Cause) (pos : Nat) : (u.enterFault c pos).c4 = u.c4 := rfl
@[simp] theorem DecUnit.enterFault_fwd (u : DecUnit) (c : Cause) (pos : Nat) : (u.enterFault c pos).fwd = u.fwd := rfl
@[simp] theorem DecUnit.enterFault_off (u : DecUnit) (c : Cause) (pos : Nat) : (u.enterFault c pos).off = u.off := rfl
@[simp] theorem DecUnit.enterFault_tail (u : DecUnit) (c : Cause) (pos : Nat) : (u.enterFault c pos).tail = u.tail := rfl
@[simp] theorem DecUnit.enterFault_wp (u : DecUnit) (c : Cause) (pos : Nat) : (u.enterFault c pos).wp = u.wp := rfl
@[simp] theorem DecUnit.enterFault_phase (u : DecUnit) (c : Cause) (pos : Nat) : (u.enterFault c pos).phase = u.phase := rfl
@[simp] theorem DecUnit.enterFault_litcnt (u : DecUnit) (c : Cause) (pos : Nat) : (u.enterFault c pos).litcnt = u.litcnt := rfl
@[simp] theorem DecUnit.enterFault_midx (u : DecUnit) (c : Cause) (pos : Nat) : (u.enterFault c pos).midx = u.midx := rfl
@[simp] theorem DecUnit.enterFault_mbl (u : DecUnit) (c : Cause) (pos : Nat) : (u.enterFault c pos).mbl = u.mbl := rfl
@[simp] theorem DecUnit.enterFault_mbase (u : DecUnit) (c : Cause) (pos : Nat) : (u.enterFault c pos).mbase = u.mbase := rfl
@[simp] theorem DecUnit.enterFault_dist (u : DecUnit) (c : Cause) (pos : Nat) : (u.enterFault c pos).dist = u.dist := rfl
@[simp] theorem DecUnit.enterFault_mlen (u : DecUnit) (c : Cause) (pos : Nat) : (u.enterFault c pos).mlen = u.mlen := rfl
@[simp] theorem DecUnit.enterFault_srcLen (u : DecUnit) (c : Cause) (pos : Nat) : (u.enterFault c pos).srcLen = u.srcLen := rfl
@[simp] theorem DecUnit.enterFault_dstLen (u : DecUnit) (c : Cause) (pos : Nat) : (u.enterFault c pos).dstLen = u.dstLen := rfl
@[simp] theorem DecUnit.enterFault_width (u : DecUnit) (c : Cause) (pos : Nat) : (u.enterFault c pos).width = u.width := rfl
@[simp] theorem DecUnit.enterFault_height (u : DecUnit) (c : Cause) (pos : Nat) : (u.enterFault c pos).height = u.height := rfl
@[simp] theorem DecUnit.enterFault_bpc (u : DecUnit) (c : Cause) (pos : Nat) : (u.enterFault c pos).bpc = u.bpc := rfl
@[simp] theorem DecUnit.enterFault_plane (u : DecUnit) (c : Cause) (pos : Nat) : (u.enterFault c pos).plane = u.plane := rfl
@[simp] theorem DecUnit.enterFault_state (u : DecUnit) (c : Cause) (pos : Nat) : (u.enterFault c pos).state = .fault := rfl
@[simp] theorem DecUnit.enterFault_omValid (u : DecUnit) (c : Cause) (pos : Nat) : (u.enterFault c pos).omValid = u.omValid := rfl
@[simp] theorem DecUnit.enterFault_lastOp (u : DecUnit) (c : Cause) (pos : Nat) : (u.enterFault c pos).lastOp = u.lastOp := rfl
@[simp] theorem DecUnit.enterFault_errKind (u : DecUnit) (c : Cause) (pos : Nat) : (u.enterFault c pos).errKind = c.kind := rfl
@[simp] theorem DecUnit.enterFault_errCause (u : DecUnit) (c : Cause) (pos : Nat) : (u.enterFault c pos).errCause = c := rfl
@[simp] theorem DecUnit.enterFault_errPos (u : DecUnit) (c : Cause) (pos : Nat) : (u.enterFault c pos).errPos = BitVec.ofNat 32 pos := rfl
@[simp] theorem DecUnit.enterFault_omLen (u : DecUnit) (c : Cause) (pos : Nat) : (u.enterFault c pos).omLen = u.omLen := rfl
@[simp] theorem DecUnit.enterFault_pm (u : DecUnit) (c : Cause) (pos : Nat) : (u.enterFault c pos).pm = u.pm := rfl
@[simp] theorem DecUnit.enterFault_om (u : DecUnit) (c : Cause) (pos : Nat) : (u.enterFault c pos).om = u.om := rfl

/-! ### clearOutput -/

@[simp] theorem clearOutput_c1 (u : DecUnit) : (clearOutput u).c1 = u.c1 := rfl
@[simp] theorem clearOutput_c2 (u : DecUnit) : (clearOutput u).c2 = u.c2 := rfl
@[simp] theorem clearOutput_cx (u : DecUnit) : (clearOutput u).cx = u.cx := rfl
@[simp] theorem clearOutput_c4 (u : DecUnit) : (clearOutput u).c4 = u.c4 := rfl
@[simp] theorem clearOutput_fwd (u : DecUnit) : (clearOutput u).fwd = u.fwd := rfl
@[simp] theorem clearOutput_off (u : DecUnit) : (clearOutput u).off = u.off := rfl
@[simp] theorem clearOutput_tail (u : DecUnit) : (clearOutput u).tail = u.tail := rfl
@[simp] theorem clearOutput_wp (u : DecUnit) : (clearOutput u).wp = u.wp := rfl
@[simp] theorem clearOutput_phase (u : DecUnit) : (clearOutput u).phase = u.phase := rfl
@[simp] theorem clearOutput_litcnt (u : DecUnit) : (clearOutput u).litcnt = u.litcnt := rfl
@[simp] theorem clearOutput_midx (u : DecUnit) : (clearOutput u).midx = u.midx := rfl
@[simp] theorem clearOutput_mbl (u : DecUnit) : (clearOutput u).mbl = u.mbl := rfl
@[simp] theorem clearOutput_mbase (u : DecUnit) : (clearOutput u).mbase = u.mbase := rfl
@[simp] theorem clearOutput_dist (u : DecUnit) : (clearOutput u).dist = u.dist := rfl
@[simp] theorem clearOutput_mlen (u : DecUnit) : (clearOutput u).mlen = u.mlen := rfl
@[simp] theorem clearOutput_srcLen (u : DecUnit) : (clearOutput u).srcLen = u.srcLen := rfl
@[simp] theorem clearOutput_dstLen (u : DecUnit) : (clearOutput u).dstLen = u.dstLen := rfl
@[simp] theorem clearOutput_width (u : DecUnit) : (clearOutput u).width = u.width := rfl
@[simp] theorem clearOutput_height (u : DecUnit) : (clearOutput u).height = u.height := rfl
@[simp] theorem clearOutput_bpc (u : DecUnit) : (clearOutput u).bpc = u.bpc := rfl
@[simp] theorem clearOutput_plane (u : DecUnit) : (clearOutput u).plane = u.plane := rfl
@[simp] theorem clearOutput_state (u : DecUnit) : (clearOutput u).state = u.state := rfl
@[simp] theorem clearOutput_omValid (u : DecUnit) : (clearOutput u).omValid = false := rfl
@[simp] theorem clearOutput_lastOp (u : DecUnit) : (clearOutput u).lastOp = u.lastOp := rfl
@[simp] theorem clearOutput_errKind (u : DecUnit) : (clearOutput u).errKind = u.errKind := rfl
@[simp] theorem clearOutput_errCause (u : DecUnit) : (clearOutput u).errCause = u.errCause := rfl
@[simp] theorem clearOutput_errPos (u : DecUnit) : (clearOutput u).errPos = u.errPos := rfl
@[simp] theorem clearOutput_omLen (u : DecUnit) : (clearOutput u).omLen = 0 := rfl
@[simp] theorem clearOutput_pm (u : DecUnit) : (clearOutput u).pm = u.pm := rfl
@[simp] theorem clearOutput_om (u : DecUnit) : (clearOutput u).om = u.om := rfl

/-! ### finish: DONE, and for DECODE and COPY_RAW a valid output (R102) -/

@[simp] theorem DecUnit.finish_c1 (u : DecUnit) : u.finish.c1 = u.c1 := by
  unfold DecUnit.finish; split <;> rfl
@[simp] theorem DecUnit.finish_c2 (u : DecUnit) : u.finish.c2 = u.c2 := by
  unfold DecUnit.finish; split <;> rfl
@[simp] theorem DecUnit.finish_cx (u : DecUnit) : u.finish.cx = u.cx := by
  unfold DecUnit.finish; split <;> rfl
@[simp] theorem DecUnit.finish_c4 (u : DecUnit) : u.finish.c4 = u.c4 := by
  unfold DecUnit.finish; split <;> rfl
@[simp] theorem DecUnit.finish_fwd (u : DecUnit) : u.finish.fwd = u.fwd := by
  unfold DecUnit.finish; split <;> rfl
@[simp] theorem DecUnit.finish_off (u : DecUnit) : u.finish.off = u.off := by
  unfold DecUnit.finish; split <;> rfl
@[simp] theorem DecUnit.finish_tail (u : DecUnit) : u.finish.tail = u.tail := by
  unfold DecUnit.finish; split <;> rfl
@[simp] theorem DecUnit.finish_wp (u : DecUnit) : u.finish.wp = u.wp := by
  unfold DecUnit.finish; split <;> rfl
@[simp] theorem DecUnit.finish_phase (u : DecUnit) : u.finish.phase = .none := by
  unfold DecUnit.finish; split <;> rfl
@[simp] theorem DecUnit.finish_litcnt (u : DecUnit) : u.finish.litcnt = u.litcnt := by
  unfold DecUnit.finish; split <;> rfl
@[simp] theorem DecUnit.finish_midx (u : DecUnit) : u.finish.midx = u.midx := by
  unfold DecUnit.finish; split <;> rfl
@[simp] theorem DecUnit.finish_mbl (u : DecUnit) : u.finish.mbl = u.mbl := by
  unfold DecUnit.finish; split <;> rfl
@[simp] theorem DecUnit.finish_mbase (u : DecUnit) : u.finish.mbase = u.mbase := by
  unfold DecUnit.finish; split <;> rfl
@[simp] theorem DecUnit.finish_dist (u : DecUnit) : u.finish.dist = u.dist := by
  unfold DecUnit.finish; split <;> rfl
@[simp] theorem DecUnit.finish_mlen (u : DecUnit) : u.finish.mlen = u.mlen := by
  unfold DecUnit.finish; split <;> rfl
@[simp] theorem DecUnit.finish_srcLen (u : DecUnit) : u.finish.srcLen = u.srcLen := by
  unfold DecUnit.finish; split <;> rfl
@[simp] theorem DecUnit.finish_dstLen (u : DecUnit) : u.finish.dstLen = u.dstLen := by
  unfold DecUnit.finish; split <;> rfl
@[simp] theorem DecUnit.finish_width (u : DecUnit) : u.finish.width = u.width := by
  unfold DecUnit.finish; split <;> rfl
@[simp] theorem DecUnit.finish_height (u : DecUnit) : u.finish.height = u.height := by
  unfold DecUnit.finish; split <;> rfl
@[simp] theorem DecUnit.finish_bpc (u : DecUnit) : u.finish.bpc = u.bpc := by
  unfold DecUnit.finish; split <;> rfl
@[simp] theorem DecUnit.finish_plane (u : DecUnit) : u.finish.plane = u.plane := by
  unfold DecUnit.finish; split <;> rfl
@[simp] theorem DecUnit.finish_state (u : DecUnit) : u.finish.state = .done := by
  unfold DecUnit.finish; split <;> rfl
@[simp] theorem DecUnit.finish_omValid (u : DecUnit) : u.finish.omValid = (if u.lastOp = 1#4 ∨ u.lastOp = 2#4 then true else u.omValid) := by
  unfold DecUnit.finish; split <;> rfl
@[simp] theorem DecUnit.finish_lastOp (u : DecUnit) : u.finish.lastOp = u.lastOp := by
  unfold DecUnit.finish; split <;> rfl
@[simp] theorem DecUnit.finish_errKind (u : DecUnit) : u.finish.errKind = u.errKind := by
  unfold DecUnit.finish; split <;> rfl
@[simp] theorem DecUnit.finish_errCause (u : DecUnit) : u.finish.errCause = u.errCause := by
  unfold DecUnit.finish; split <;> rfl
@[simp] theorem DecUnit.finish_errPos (u : DecUnit) : u.finish.errPos = u.errPos := by
  unfold DecUnit.finish; split <;> rfl
@[simp] theorem DecUnit.finish_omLen (u : DecUnit) : u.finish.omLen = (if u.lastOp = 1#4 ∨ u.lastOp = 2#4 then u.dstLen else u.omLen) := by
  unfold DecUnit.finish; split <;> rfl
@[simp] theorem DecUnit.finish_pm (u : DecUnit) : u.finish.pm = u.pm := by
  unfold DecUnit.finish; split <;> rfl
@[simp] theorem DecUnit.finish_om (u : DecUnit) : u.finish.om = u.om := by
  unfold DecUnit.finish; split <;> rfl

/-! ### Updates of the state -/

@[simp] theorem State.setUnit_cfg (s : State) (u : DecUnit) : (s.setUnit u).cfg = s.cfg := rfl
@[simp] theorem State.setUnit_units (s : State) (u : DecUnit) : (s.setUnit u).units = s.units.set s.cur u := rfl
@[simp] theorem State.setUnit_im (s : State) (u : DecUnit) : (s.setUnit u).im = s.im := rfl
@[simp] theorem State.setUnit_imgW (s : State) (u : DecUnit) : (s.setUnit u).imgW = s.imgW := rfl
@[simp] theorem State.setUnit_imgH (s : State) (u : DecUnit) : (s.setUnit u).imgH = s.imgH := rfl
@[simp] theorem State.setUnit_imgBpc (s : State) (u : DecUnit) : (s.setUnit u).imgBpc = s.imgBpc := rfl
@[simp] theorem State.setUnit_imValid (s : State) (u : DecUnit) : (s.setUnit u).imValid = s.imValid := rfl
@[simp] theorem State.setUnit_host (s : State) (u : DecUnit) : (s.setUnit u).host = s.host := rfl
@[simp] theorem State.setUnit_cur (s : State) (u : DecUnit) : (s.setUnit u).cur = s.cur := rfl
@[simp] theorem State.setUnit_choices (s : State) (u : DecUnit) : (s.setUnit u).choices = s.choices := rfl
@[simp] theorem State.setUnit_draws (s : State) (u : DecUnit) : (s.setUnit u).draws = s.draws := rfl
@[simp] theorem State.setUnit_stopped (s : State) (u : DecUnit) : (s.setUnit u).stopped = s.stopped := rfl

@[simp] theorem State.putUnit_cfg (s : State) (k : Nat) (u : DecUnit) : (s.putUnit k u).cfg = s.cfg := rfl
@[simp] theorem State.putUnit_units (s : State) (k : Nat) (u : DecUnit) : (s.putUnit k u).units = s.units.set k u := rfl
@[simp] theorem State.putUnit_im (s : State) (k : Nat) (u : DecUnit) : (s.putUnit k u).im = s.im := rfl
@[simp] theorem State.putUnit_imgW (s : State) (k : Nat) (u : DecUnit) : (s.putUnit k u).imgW = s.imgW := rfl
@[simp] theorem State.putUnit_imgH (s : State) (k : Nat) (u : DecUnit) : (s.putUnit k u).imgH = s.imgH := rfl
@[simp] theorem State.putUnit_imgBpc (s : State) (k : Nat) (u : DecUnit) : (s.putUnit k u).imgBpc = s.imgBpc := rfl
@[simp] theorem State.putUnit_imValid (s : State) (k : Nat) (u : DecUnit) : (s.putUnit k u).imValid = s.imValid := rfl
@[simp] theorem State.putUnit_host (s : State) (k : Nat) (u : DecUnit) : (s.putUnit k u).host = s.host := rfl
@[simp] theorem State.putUnit_cur (s : State) (k : Nat) (u : DecUnit) : (s.putUnit k u).cur = s.cur := rfl
@[simp] theorem State.putUnit_choices (s : State) (k : Nat) (u : DecUnit) : (s.putUnit k u).choices = s.choices := rfl
@[simp] theorem State.putUnit_draws (s : State) (k : Nat) (u : DecUnit) : (s.putUnit k u).draws = s.draws := rfl
@[simp] theorem State.putUnit_stopped (s : State) (k : Nat) (u : DecUnit) : (s.putUnit k u).stopped = s.stopped := rfl

@[simp] theorem State.setTodo_cfg (s : State) (l : List HostAction) : (s.setTodo l).cfg = s.cfg := rfl
@[simp] theorem State.setTodo_units (s : State) (l : List HostAction) : (s.setTodo l).units = s.units := rfl
@[simp] theorem State.setTodo_im (s : State) (l : List HostAction) : (s.setTodo l).im = s.im := rfl
@[simp] theorem State.setTodo_imgW (s : State) (l : List HostAction) : (s.setTodo l).imgW = s.imgW := rfl
@[simp] theorem State.setTodo_imgH (s : State) (l : List HostAction) : (s.setTodo l).imgH = s.imgH := rfl
@[simp] theorem State.setTodo_imgBpc (s : State) (l : List HostAction) : (s.setTodo l).imgBpc = s.imgBpc := rfl
@[simp] theorem State.setTodo_imValid (s : State) (l : List HostAction) : (s.setTodo l).imValid = s.imValid := rfl
@[simp] theorem State.setTodo_host (s : State) (l : List HostAction) : (s.setTodo l).host = { s.host with todo := l } := rfl
@[simp] theorem State.setTodo_cur (s : State) (l : List HostAction) : (s.setTodo l).cur = s.cur := rfl
@[simp] theorem State.setTodo_choices (s : State) (l : List HostAction) : (s.setTodo l).choices = s.choices := rfl
@[simp] theorem State.setTodo_draws (s : State) (l : List HostAction) : (s.setTodo l).draws = s.draws := rfl
@[simp] theorem State.setTodo_stopped (s : State) (l : List HostAction) : (s.setTodo l).stopped = s.stopped := rfl

@[simp] theorem State.pushActs_cfg (s : State) (l : List HostAction) : (s.pushActs l).cfg = s.cfg := rfl
@[simp] theorem State.pushActs_units (s : State) (l : List HostAction) : (s.pushActs l).units = s.units := rfl
@[simp] theorem State.pushActs_im (s : State) (l : List HostAction) : (s.pushActs l).im = s.im := rfl
@[simp] theorem State.pushActs_imgW (s : State) (l : List HostAction) : (s.pushActs l).imgW = s.imgW := rfl
@[simp] theorem State.pushActs_imgH (s : State) (l : List HostAction) : (s.pushActs l).imgH = s.imgH := rfl
@[simp] theorem State.pushActs_imgBpc (s : State) (l : List HostAction) : (s.pushActs l).imgBpc = s.imgBpc := rfl
@[simp] theorem State.pushActs_imValid (s : State) (l : List HostAction) : (s.pushActs l).imValid = s.imValid := rfl
@[simp] theorem State.pushActs_host (s : State) (l : List HostAction) : (s.pushActs l).host = { s.host with todo := l ++ s.host.todo } := rfl
@[simp] theorem State.pushActs_cur (s : State) (l : List HostAction) : (s.pushActs l).cur = s.cur := rfl
@[simp] theorem State.pushActs_choices (s : State) (l : List HostAction) : (s.pushActs l).choices = s.choices := rfl
@[simp] theorem State.pushActs_draws (s : State) (l : List HostAction) : (s.pushActs l).draws = s.draws := rfl
@[simp] theorem State.pushActs_stopped (s : State) (l : List HostAction) : (s.pushActs l).stopped = s.stopped := rfl

@[simp] theorem State.hostGets_cfg (s : State) (v : BitVec 32) : (s.hostGets v).cfg = s.cfg := rfl
@[simp] theorem State.hostGets_units (s : State) (v : BitVec 32) : (s.hostGets v).units = s.units := rfl
@[simp] theorem State.hostGets_im (s : State) (v : BitVec 32) : (s.hostGets v).im = s.im := rfl
@[simp] theorem State.hostGets_imgW (s : State) (v : BitVec 32) : (s.hostGets v).imgW = s.imgW := rfl
@[simp] theorem State.hostGets_imgH (s : State) (v : BitVec 32) : (s.hostGets v).imgH = s.imgH := rfl
@[simp] theorem State.hostGets_imgBpc (s : State) (v : BitVec 32) : (s.hostGets v).imgBpc = s.imgBpc := rfl
@[simp] theorem State.hostGets_imValid (s : State) (v : BitVec 32) : (s.hostGets v).imValid = s.imValid := rfl
@[simp] theorem State.hostGets_host (s : State) (v : BitVec 32) : (s.hostGets v).host = { s.host with got := some v } := rfl
@[simp] theorem State.hostGets_cur (s : State) (v : BitVec 32) : (s.hostGets v).cur = s.cur := rfl
@[simp] theorem State.hostGets_choices (s : State) (v : BitVec 32) : (s.hostGets v).choices = s.choices := rfl
@[simp] theorem State.hostGets_draws (s : State) (v : BitVec 32) : (s.hostGets v).draws = s.draws := rfl
@[simp] theorem State.hostGets_stopped (s : State) (v : BitVec 32) : (s.hostGets v).stopped = s.stopped := rfl

@[simp] theorem State.hostReturn_cfg (s : State) (r : HostResult) : (s.hostReturn r).cfg = s.cfg := rfl
@[simp] theorem State.hostReturn_units (s : State) (r : HostResult) : (s.hostReturn r).units = s.units := rfl
@[simp] theorem State.hostReturn_im (s : State) (r : HostResult) : (s.hostReturn r).im = s.im := rfl
@[simp] theorem State.hostReturn_imgW (s : State) (r : HostResult) : (s.hostReturn r).imgW = s.imgW := rfl
@[simp] theorem State.hostReturn_imgH (s : State) (r : HostResult) : (s.hostReturn r).imgH = s.imgH := rfl
@[simp] theorem State.hostReturn_imgBpc (s : State) (r : HostResult) : (s.hostReturn r).imgBpc = s.imgBpc := rfl
@[simp] theorem State.hostReturn_imValid (s : State) (r : HostResult) : (s.hostReturn r).imValid = s.imValid := rfl
@[simp] theorem State.hostReturn_host (s : State) (r : HostResult) : (s.hostReturn r).host = { s.host with todo := [], result := some r } := rfl
@[simp] theorem State.hostReturn_cur (s : State) (r : HostResult) : (s.hostReturn r).cur = s.cur := rfl
@[simp] theorem State.hostReturn_choices (s : State) (r : HostResult) : (s.hostReturn r).choices = s.choices := rfl
@[simp] theorem State.hostReturn_draws (s : State) (r : HostResult) : (s.hostReturn r).draws = s.draws := rfl
@[simp] theorem State.hostReturn_stopped (s : State) (r : HostResult) : (s.hostReturn r).stopped = s.stopped := rfl

@[simp] theorem State.draw_snd_cfg (s : State) : s.draw.2.cfg = s.cfg := rfl
@[simp] theorem State.draw_snd_units (s : State) : s.draw.2.units = s.units := rfl
@[simp] theorem State.draw_snd_im (s : State) : s.draw.2.im = s.im := rfl
@[simp] theorem State.draw_snd_imgW (s : State) : s.draw.2.imgW = s.imgW := rfl
@[simp] theorem State.draw_snd_imgH (s : State) : s.draw.2.imgH = s.imgH := rfl
@[simp] theorem State.draw_snd_imgBpc (s : State) : s.draw.2.imgBpc = s.imgBpc := rfl
@[simp] theorem State.draw_snd_imValid (s : State) : s.draw.2.imValid = s.imValid := rfl
@[simp] theorem State.draw_snd_host (s : State) : s.draw.2.host = s.host := rfl
@[simp] theorem State.draw_snd_cur (s : State) : s.draw.2.cur = s.cur := rfl
@[simp] theorem State.draw_snd_choices (s : State) : s.draw.2.choices = s.choices := rfl
@[simp] theorem State.draw_snd_draws (s : State) : s.draw.2.draws = s.draws + 1 := rfl
@[simp] theorem State.draw_snd_stopped (s : State) : s.draw.2.stopped = s.stopped := rfl

@[simp] theorem State.stopUnit_cfg (s : State) (m : Space) (a : Nat) : (s.stopUnit m a).cfg = s.cfg := rfl
@[simp] theorem State.stopUnit_units (s : State) (m : Space) (a : Nat) : (s.stopUnit m a).units = s.units := rfl
@[simp] theorem State.stopUnit_im (s : State) (m : Space) (a : Nat) : (s.stopUnit m a).im = s.im := rfl
@[simp] theorem State.stopUnit_imgW (s : State) (m : Space) (a : Nat) : (s.stopUnit m a).imgW = s.imgW := rfl
@[simp] theorem State.stopUnit_imgH (s : State) (m : Space) (a : Nat) : (s.stopUnit m a).imgH = s.imgH := rfl
@[simp] theorem State.stopUnit_imgBpc (s : State) (m : Space) (a : Nat) : (s.stopUnit m a).imgBpc = s.imgBpc := rfl
@[simp] theorem State.stopUnit_imValid (s : State) (m : Space) (a : Nat) : (s.stopUnit m a).imValid = s.imValid := rfl
@[simp] theorem State.stopUnit_host (s : State) (m : Space) (a : Nat) : (s.stopUnit m a).host = s.host := rfl
@[simp] theorem State.stopUnit_cur (s : State) (m : Space) (a : Nat) : (s.stopUnit m a).cur = s.cur := rfl
@[simp] theorem State.stopUnit_choices (s : State) (m : Space) (a : Nat) : (s.stopUnit m a).choices = s.choices := rfl
@[simp] theorem State.stopUnit_draws (s : State) (m : Space) (a : Nat) : (s.stopUnit m a).draws = s.draws := rfl
@[simp] theorem State.stopUnit_stopped (s : State) (m : Space) (a : Nat) :
    (s.stopUnit m a).stopped = ⟨s.cur, m, a⟩ :: s.stopped := rfl

@[simp] theorem State.unstop_cfg (s : State) (k : Nat) : (s.unstop k).cfg = s.cfg := rfl
@[simp] theorem State.unstop_units (s : State) (k : Nat) : (s.unstop k).units = s.units := rfl
@[simp] theorem State.unstop_im (s : State) (k : Nat) : (s.unstop k).im = s.im := rfl
@[simp] theorem State.unstop_imgW (s : State) (k : Nat) : (s.unstop k).imgW = s.imgW := rfl
@[simp] theorem State.unstop_imgH (s : State) (k : Nat) : (s.unstop k).imgH = s.imgH := rfl
@[simp] theorem State.unstop_imgBpc (s : State) (k : Nat) : (s.unstop k).imgBpc = s.imgBpc := rfl
@[simp] theorem State.unstop_imValid (s : State) (k : Nat) : (s.unstop k).imValid = s.imValid := rfl
@[simp] theorem State.unstop_host (s : State) (k : Nat) : (s.unstop k).host = s.host := rfl
@[simp] theorem State.unstop_cur (s : State) (k : Nat) : (s.unstop k).cur = s.cur := rfl
@[simp] theorem State.unstop_choices (s : State) (k : Nat) : (s.unstop k).choices = s.choices := rfl
@[simp] theorem State.unstop_draws (s : State) (k : Nat) : (s.unstop k).draws = s.draws := rfl
@[simp] theorem State.unstop_stopped (s : State) (k : Nat) :
    (s.unstop k).stopped = s.stopped.filter fun x => x.unit != k := rfl

@[simp] theorem State.clearNoted_cfg (s : State) : s.clearNoted.cfg = s.cfg := rfl
@[simp] theorem State.clearNoted_units (s : State) : s.clearNoted.units = s.units := rfl
@[simp] theorem State.clearNoted_im (s : State) : s.clearNoted.im = s.im := rfl
@[simp] theorem State.clearNoted_imgW (s : State) : s.clearNoted.imgW = s.imgW := rfl
@[simp] theorem State.clearNoted_imgH (s : State) : s.clearNoted.imgH = s.imgH := rfl
@[simp] theorem State.clearNoted_imgBpc (s : State) : s.clearNoted.imgBpc = s.imgBpc := rfl
@[simp] theorem State.clearNoted_imValid (s : State) : s.clearNoted.imValid = s.imValid := rfl
@[simp] theorem State.clearNoted_host (s : State) : s.clearNoted.host = { s.host with noted := [] } := rfl
@[simp] theorem State.clearNoted_cur (s : State) : s.clearNoted.cur = s.cur := rfl
@[simp] theorem State.clearNoted_choices (s : State) : s.clearNoted.choices = s.choices := rfl
@[simp] theorem State.clearNoted_draws (s : State) : s.clearNoted.draws = s.draws := rfl
@[simp] theorem State.clearNoted_stopped (s : State) : s.clearNoted.stopped = s.stopped := rfl

/-! ### Reading a unit back -/

@[simp] theorem State.setUnit_unit? (s : State) (u v : DecUnit) (h : s.unit? = some u) :
    (s.setUnit v).unit? = some v := by
  have hlt : s.cur < s.units.length := (List.getElem?_eq_some_iff.mp h).1
  simp [State.unit?, hlt]

theorem State.setUnit_other (s : State) (v : DecUnit) (k : Nat) (h : k ≠ s.cur) :
    (s.setUnit v).units[k]? = s.units[k]? := by
  simp [List.getElem?_set_ne (Ne.symm h)]

theorem State.setUnit_setUnit (s : State) (u v : DecUnit) : (s.setUnit u).setUnit v = s.setUnit v := by
  simp [State.setUnit]

theorem State.unit?_lt {s : State} {u : DecUnit} (h : s.unit? = some u) : s.cur < s.units.length :=
  (List.getElem?_eq_some_iff.mp h).1

theorem State.unit?_mem {s : State} {u : DecUnit} (h : s.unit? = some u) : u ∈ s.units :=
  List.mem_of_getElem? h

end Sys2Proof.Machine
end

