-- ==== Sys2Proof/Laws/Ops.lean ====
section
/-! SUPPORT. What the shapes of a step can do, said once: sequencing, and the inversion and the success of
a command's start step, a phase step, a unit's own step and a symbol row. -/

namespace Sys2Proof.Machine

/-! ### Sequencing -/

section
variable {α β : Type} {x : Res α} {f : α → Res β} {g : α → β}

@[simp] theorem Res.bind_ok (a : α) (f : α → Res β) : (Res.ok a).bind f = f a := rfl
@[simp] theorem Res.bind_raise (c : Cause) (p : Nat) (f : α → Res β) :
    (Res.raise c p : Res α).bind f = .raise c p := rfl
@[simp] theorem Res.bind_stop (e : Fault) (f : α → Res β) : (Res.stop e : Res α).bind f = .stop e := rfl
@[simp] theorem Res.bind_refuse (r : Refusal) (f : α → Res β) : (Res.refuse r : Res α).bind f = .refuse r := rfl
@[simp] theorem Res.map_ok (a : α) : (Res.ok a).map g = .ok (g a) := rfl
@[simp] theorem Res.map_raise (c : Cause) (p : Nat) : (Res.raise c p : Res α).map g = .raise c p := rfl
@[simp] theorem Res.map_stop (e : Fault) : (Res.stop e : Res α).map g = .stop e := rfl
@[simp] theorem Res.map_refuse (r : Refusal) : (Res.refuse r : Res α).map g = .refuse r := rfl

theorem Res.bind_eq_ok {b : β} : x.bind f = .ok b ↔ ∃ a, x = .ok a ∧ f a = .ok b := by
  cases x <;> simp [Res.bind]

theorem Res.map_eq_ok {b : β} : x.map g = .ok b ↔ ∃ a, x = .ok a ∧ g a = b := by
  cases x <;> simp [Res.map]

theorem Res.bind_eq_raise {c : Cause} {p : Nat} :
    x.bind f = .raise c p ↔ x = .raise c p ∨ ∃ a, x = .ok a ∧ f a = .raise c p := by
  cases x <;> simp [Res.bind]

theorem Res.map_eq_raise {c : Cause} {p : Nat} : x.map g = .raise c p ↔ x = .raise c p := by
  cases x <;> simp [Res.map]

theorem Res.bind_eq_stop {e : Fault} :
    x.bind f = .stop e ↔ x = .stop e ∨ ∃ a, x = .ok a ∧ f a = .stop e := by
  cases x <;> simp [Res.bind]

theorem Res.map_eq_stop {e : Fault} : x.map g = .stop e ↔ x = .stop e := by
  cases x <;> simp [Res.map]

theorem Res.bind_eq_refuse {r : Refusal} :
    x.bind f = .refuse r ↔ x = .refuse r ∨ ∃ a, x = .ok a ∧ f a = .refuse r := by
  cases x <;> simp [Res.bind]

theorem Res.map_eq_refuse {r : Refusal} : x.map g = .refuse r ↔ x = .refuse r := by
  cases x <;> simp [Res.map]

theorem Res.map_map {γ : Type} (h : β → γ) : (x.map g).map h = x.map (fun a => h (g a)) := by
  cases x <;> rfl

end

/-! ### Ending a step -/

theorem settle_next {s t : State} {u : DecUnit} {r : Res State} :
    settle s u r = .next t ↔
      r = .ok t ∨ ∃ c pos, r = .raise c pos ∧ t = s.setUnit (u.enterFault c pos) := by
  cases r <;> simp [settle, eq_comm]

theorem settle_fault {s : State} {u : DecUnit} {r : Res State} {f : Fault} :
    settle s u r = .fault f ↔ r = .stop f := by
  cases r <;> simp [settle]

theorem settle_refused {s : State} {u : DecUnit} {r : Res State} {e : Refusal} :
    settle s u r = .refused e ↔ r = .refuse e := by
  cases r <;> simp [settle]

/-! ### A command's start step -/

section
variable {s t : State} {op : BitVec 4} {prep : DecUnit → DecUnit} {body : State → DecUnit → Res State} {u : DecUnit}

theorem commandStep_busy (h : s.unit? = some u) (hb : u.state = .busy) :
    commandStep s op prep body = .next s := by
  simp [commandStep, h, hb]

theorem commandStep_start (h : s.unit? = some u) (hb : u.state ≠ .busy) :
    commandStep s op prep body =
      settle s ((prep (u.startJob op)).goto .none) (body s (prep (u.startJob op))) := by
  simp [commandStep, h, hb]

/-- Everything a start step can do when it answers a next state. -/
theorem commandStep_cases (h : commandStep s op prep body = .next t) :
    ∃ u, s.unit? = some u ∧
      ((u.state = .busy ∧ t = s) ∨
        (u.state ≠ .busy ∧
          (body s (prep (u.startJob op)) = .ok t ∨
            ∃ c pos, body s (prep (u.startJob op)) = .raise c pos ∧
              t = s.setUnit (((prep (u.startJob op)).goto .none).enterFault c pos)))) := by
  unfold commandStep at h
  split at h
  · cases h
  · rename_i u hu
    refine ⟨u, hu, ?_⟩
    split at h
    · rename_i hb
      exact .inl ⟨hb, (Host.Outcome.next.inj h).symm⟩
    · rename_i hb
      exact .inr ⟨hb, settle_next.mp h⟩

/-! ### Phase steps -/

variable {p : Phase}

theorem phaseStep_run (h : s.unit? = some u) (hb : u.state = .busy) (hp : u.phase = p) :
    phaseStep s p body = settle s u (body s u) := by
  simp [phaseStep, h, hb, hp]

theorem phaseStep_elsewhere (h : s.unit? = some u) (hn : ¬(u.state = .busy ∧ u.phase = p)) :
    phaseStep s p body = .refused (.rowNotSelected p) := by
  simp only [phaseStep, h]
  exact if_neg hn

/-- Everything a phase step can do when it answers a next state. -/
theorem phaseStep_cases (h : phaseStep s p body = .next t) :
    ∃ u, s.unit? = some u ∧ u.state = .busy ∧ u.phase = p ∧
      (body s u = .ok t ∨ ∃ c pos, body s u = .raise c pos ∧ t = s.setUnit (u.enterFault c pos)) := by
  unfold phaseStep at h
  split at h
  · cases h
  · rename_i u hu
    split at h
    · rename_i hb
      exact ⟨u, hu, hb.1, hb.2, settle_next.mp h⟩
    · cases h

variable {own : Config → DecUnit → Res DecUnit}

/-- Everything a unit's own step can do when it answers a next state. -/
theorem unitStep_cases (h : unitStep s p own = .next t) :
    ∃ u v, s.unit? = some u ∧ u.state = .busy ∧ u.phase = p ∧ t = s.setUnit v ∧
      (own s.cfg u = .ok v ∨ ∃ c pos, own s.cfg u = .raise c pos ∧ v = u.enterFault c pos) := by
  obtain ⟨u, hu, hb, hp, hr | ⟨c, pos, hr, rfl⟩⟩ := phaseStep_cases h
  · obtain ⟨v, hv, rfl⟩ := Res.map_eq_ok.mp hr
    exact ⟨u, v, hu, hb, hp, rfl, .inl hv⟩
  · exact ⟨u, _, hu, hb, hp, rfl, .inr ⟨c, pos, Res.map_eq_raise.mp hr, rfl⟩⟩

theorem unitStep_ok {v : DecUnit} (h : s.unit? = some u) (hb : u.state = .busy) (hp : u.phase = p)
    (ho : own s.cfg u = .ok v) : unitStep s p own = .next (s.setUnit v) := by
  rw [unitStep, phaseStep_run h hb hp, ho]
  rfl

theorem unitStep_raise {c : Cause} {pos : Nat} (h : s.unit? = some u) (hb : u.state = .busy)
    (hp : u.phase = p) (ho : own s.cfg u = .raise c pos) :
    unitStep s p own = .next (s.setUnit (u.enterFault c pos)) := by
  rw [unitStep, phaseStep_run h hb hp, ho]
  rfl

theorem unitStep_stop {f : Fault} (h : s.unit? = some u) (hb : u.state = .busy) (hp : u.phase = p)
    (ho : own s.cfg u = .stop f) : unitStep s p own = .fault f := by
  rw [unitStep, phaseStep_run h hb hp, ho]
  rfl

/-! ### Symbol rows -/

variable {w : Nat} {rd : Config → DecUnit → Res (BitVec w × DecUnit)} {v : BitVec w} {act : DecUnit → DecUnit}

theorem symbolStep_ok {x : DecUnit} (h : s.unit? = some u) (hb : u.state = .busy) (hp : u.phase = p)
    (hr : rd s.cfg u = .ok (v, x)) : symbolStep s p rd v act = .next (s.setUnit (act x)) :=
  unitStep_ok h hb hp (by simp [hr])

theorem symbolStep_raise {c : Cause} {pos : Nat} (h : s.unit? = some u) (hb : u.state = .busy)
    (hp : u.phase = p) (hr : rd s.cfg u = .raise c pos) :
    symbolStep s p rd v act = .next (s.setUnit (u.enterFault c pos)) :=
  unitStep_raise h hb hp (by simp [hr])

/-- Everything a symbol row can do when it answers a next state. -/
theorem symbolStep_cases (h : symbolStep s p rd v act = .next t) :
    ∃ u, s.unit? = some u ∧ u.state = .busy ∧ u.phase = p ∧
      ((∃ x, rd s.cfg u = .ok (v, x) ∧ t = s.setUnit (act x)) ∨
        ∃ c pos, rd s.cfg u = .raise c pos ∧ t = s.setUnit (u.enterFault c pos)) := by
  obtain ⟨u, y, hu, hb, hp, rfl, hr | ⟨c, pos, hr, rfl⟩⟩ := unitStep_cases h
  · obtain ⟨x, hx, ha⟩ := Res.bind_eq_ok.mp hr
    split at ha
    · rename_i hv
      cases ha
      exact ⟨u, hu, hb, hp, .inl ⟨x.2, by rw [hx, ← hv], rfl⟩⟩
    · cases ha
  · rcases Res.bind_eq_raise.mp hr with hr | ⟨x, -, ha⟩
    · exact ⟨u, hu, hb, hp, .inr ⟨c, pos, hr, rfl⟩⟩
    · split at ha <;> cases ha

end

/-! ### Checks of a start step -/

theorem refuseIf_eq_ok {bad : Prop} [Decidable bad] {c : Cause} {pos : Nat} {rest : Res State} {t : State} :
    refuseIf bad c pos rest = .ok t ↔ ¬bad ∧ rest = .ok t := by
  unfold refuseIf
  split <;> simp_all

theorem refuseIf_eq_raise {bad : Prop} [Decidable bad] {c d : Cause} {p q : Nat} {rest : Res State} :
    refuseIf bad c p rest = .raise d q ↔ (bad ∧ c = d ∧ p = q) ∨ (¬bad ∧ rest = .raise d q) := by
  unfold refuseIf
  split <;> simp_all

/-- The operation gives a value or raises: it neither stops the model nor is refused. -/
def Res.runs {α : Type} (x : Res α) : Prop := (∃ a, x = .ok a) ∨ ∃ c p, x = .raise c p

theorem refuseIf_runs {bad : Prop} [Decidable bad] {c : Cause} {p : Nat} {rest : Res State} (h : rest.runs) :
    (refuseIf bad c p rest).runs := by
  unfold refuseIf
  split
  · exact .inr ⟨c, p, rfl⟩
  · exact h

/-- A start step whose checks run answers a next state (R10, R138). -/
theorem commandStep_runs {s : State} {u : DecUnit} {op : BitVec 4} {prep : DecUnit → DecUnit}
    {body : State → DecUnit → Res State} (h : s.unit? = some u) (hr : (body s (prep (u.startJob op))).runs) :
    ∃ t, commandStep s op prep body = .next t := by
  by_cases hb : u.state = .busy
  · exact ⟨s, commandStep_busy h hb⟩
  · rw [commandStep_start h hb]
    rcases hr with ⟨t, ht⟩ | ⟨c, p, ht⟩ <;> rw [ht]
    · exact ⟨t, rfl⟩
    · exact ⟨_, rfl⟩

end Sys2Proof.Machine
end

