-- ==== Sys2Proof/Laws/Operands.lean ====
section
/-! SUPPORT. What the cursor reads do (R74 to R80): which fields they touch, what they cost in forward
bits, which invariants they keep, and when they cannot stop the model. -/

namespace Sys2Proof.Machine

/-! ### The forward index -/

theorem setForward_cursorsOnly (c : Config) (u : DecUnit) (k : CursorId) (n : Nat) :
    cursorsOnly u (setForward c u k n) := by
  unfold cursorsOnly setForward
  cases c.fwdMode <;> rfl

theorem cursorsOnly_refl (u : DecUnit) : cursorsOnly u u := rfl

theorem cursorsOnly_trans {u v w : DecUnit} (h : cursorsOnly u v) (g : cursorsOnly v w) : cursorsOnly u w := by
  unfold cursorsOnly at *
  rw [h] at g
  exact g

@[simp] theorem setForward_rems (c : Config) (u : DecUnit) (k : CursorId) (n : Nat) :
    (setForward c u k n).c1 = u.c1 ∧ (setForward c u k n).c2 = u.c2 ∧ (setForward c u k n).cx = u.cx
      ∧ (setForward c u k n).c4 = u.c4 := by
  unfold setForward
  cases c.fwdMode <;> simp

/-- A refill of w bytes takes 8 * w bits from those still ahead of TAIL. -/
theorem forwardBits_setForward (c : Config) (u : DecUnit) (k : CursorId) (w : Nat)
    (h : forwardPos c u k + w ≤ u.tail) :
    forwardBits c (setForward c u k (forwardPos c u k + w)) + 8 * w = forwardBits c u := by
  unfold forwardBits setForward forwardPos at *
  cases hm : c.fwdMode with
  | shared =>
    rw [hm] at h
    simp only [DecUnit.setFwd_c1, DecUnit.setFwd_c2, DecUnit.setFwd_cx, DecUnit.setFwd_c4, DecUnit.setFwd_tail,
      DecUnit.setFwd_fwd] at h ⊢
    omega
  | independent =>
    rw [hm] at h
    simp only [DecUnit.setOff_c1, DecUnit.setOff_c2, DecUnit.setOff_cx, DecUnit.setOff_c4, DecUnit.setOff_tail,
      DecUnit.setOff_off]
    cases k <;> dsimp only [offGet, offPut] at h ⊢ <;> omega

/-- Each forward byte index of `v` is as in `u`, or at most u's TAIL. -/
def forwardKept (u v : DecUnit) : Prop :=
  (v.fwd = u.fwd ∨ v.fwd ≤ u.tail) ∧ (v.off.c1 = u.off.c1 ∨ v.off.c1 ≤ u.tail)
    ∧ (v.off.c2 = u.off.c2 ∨ v.off.c2 ≤ u.tail) ∧ (v.off.cx = u.off.cx ∨ v.off.cx ≤ u.tail)
    ∧ (v.off.c4 = u.off.c4 ∨ v.off.c4 ≤ u.tail)

theorem forwardKept_refl (u : DecUnit) : forwardKept u u := ⟨.inl rfl, .inl rfl, .inl rfl, .inl rfl, .inl rfl⟩

theorem forwardKept_trans {u v w : DecUnit} (ht : v.tail = u.tail) (h : forwardKept u v) (g : forwardKept v w) :
    forwardKept u w := by
  unfold forwardKept at *
  omega

/-- FwdHi stays at most TAIL (R19, R82). -/
theorem forwardKept_fwdHi {c : Config} {u v : DecUnit} (h : forwardKept u v) (hu : fwdHi c u ≤ u.tail) :
    fwdHi c v ≤ u.tail := by
  unfold forwardKept fwdHi at *
  cases hm : c.fwdMode <;> simp only [hm] at hu ⊢ <;> omega

theorem setForward_kept (c : Config) (u : DecUnit) (k : CursorId) (n : Nat) (h : n ≤ u.tail) :
    forwardKept u (setForward c u k n) := by
  unfold setForward
  cases c.fwdMode with
  | shared => exact ⟨.inr h, .inl rfl, .inl rfl, .inl rfl, .inl rfl⟩
  | independent =>
    cases k with
    | c1 => exact ⟨.inl rfl, .inr h, .inl rfl, .inl rfl, .inl rfl⟩
    | c2 => exact ⟨.inl rfl, .inl rfl, .inr h, .inl rfl, .inl rfl⟩
    | cx => exact ⟨.inl rfl, .inl rfl, .inl rfl, .inr h, .inl rfl⟩
    | c4 => exact ⟨.inl rfl, .inl rfl, .inl rfl, .inl rfl, .inr h⟩

/-! ### Refills -/

theorem forwardTake_eq_ok {c : Config} {u : DecUnit} {k : CursorId} {w : Nat} {x : Nat × DecUnit} :
    forwardTake c u k w = .ok x ↔
      forwardPos c u k + w ≤ u.tail ∧ x = (forwardPos c u k, setForward c u k (forwardPos c u k + w)) := by
  unfold forwardTake
  by_cases h : u.tail < forwardPos c u k + w
  · simp [h]
  · simp [h, Nat.le_of_not_lt h, eq_comm]

theorem take16_eq_ok {c : Config} {u v : DecUnit} {k : CursorId} {w : BitVec 16} :
    take16 c u k = .ok (w, v) ↔
      forwardPos c u k + 2 ≤ u.tail ∧ v = setForward c u k (forwardPos c u k + 2) ∧
        ∃ b0 b1, pmRead c u (forwardPos c u k) = .ok b0 ∧ pmRead c u (forwardPos c u k + 1) = .ok b1 ∧
          w = be16 b0 b1 := by
  simp only [take16, Res.bind_eq_ok, forwardTake_eq_ok]
  constructor
  · rintro ⟨_, ⟨h, rfl⟩, b0, h0, b1, h1, he⟩
    cases he
    exact ⟨h, rfl, b0, b1, h0, h1, rfl⟩
  · rintro ⟨h, rfl, b0, b1, h0, h1, rfl⟩
    exact ⟨_, ⟨h, rfl⟩, b0, h0, b1, h1, rfl⟩

/-- C4's refill word in the machine's word order (R43). -/
def word32 (c : Config) (b0 b1 b2 b3 : Byte) : BitVec 32 :=
  match c.lsbWordOrder with
  | .le => le32 b0 b1 b2 b3
  | .be => be32 b0 b1 b2 b3

theorem take32_eq_ok {c : Config} {u v : DecUnit} {w : BitVec 32} :
    take32 c u = .ok (w, v) ↔
      forwardPos c u .c4 + 4 ≤ u.tail ∧ v = setForward c u .c4 (forwardPos c u .c4 + 4) ∧
        ∃ b0 b1 b2 b3, pmRead c u (forwardPos c u .c4) = .ok b0 ∧ pmRead c u (forwardPos c u .c4 + 1) = .ok b1 ∧
          pmRead c u (forwardPos c u .c4 + 2) = .ok b2 ∧ pmRead c u (forwardPos c u .c4 + 3) = .ok b3 ∧
          w = word32 c b0 b1 b2 b3 := by
  simp only [take32, Res.bind_eq_ok, forwardTake_eq_ok]
  constructor
  · rintro ⟨_, ⟨h, rfl⟩, b0, h0, b1, h1, b2, h2, b3, h3, he⟩
    cases he
    exact ⟨h, rfl, b0, b1, b2, b3, h0, h1, h2, h3, rfl⟩
  · rintro ⟨h, rfl, b0, b1, b2, b3, h0, h1, h2, h3, rfl⟩
    exact ⟨_, ⟨h, rfl⟩, b0, h0, b1, h1, b2, h2, b3, h3, rfl⟩

theorem pmRead_ne_raise {c : Config} {u : DecUnit} {i : Nat} {d : Cause} {p : Nat} :
    pmRead c u i ≠ .raise d p := readByte_ne_raise

/-- A refill of an MSB cursor raises only FWD_EXHAUST, at WP (R74). -/
theorem take16_eq_raise {c : Config} {u : DecUnit} {k : CursorId} {d : Cause} {p : Nat} :
    take16 c u k = .raise d p ↔ u.tail < forwardPos c u k + 2 ∧ d = .fwdExhaust ∧ p = u.wp := by
  unfold take16 forwardTake
  by_cases h : u.tail < forwardPos c u k + 2
  · simp [h, eq_comm]
  · simp [h, Res.bind_eq_raise, pmRead_ne_raise]

/-- A refill of C4 raises only FWD_EXHAUST, at WP (R74). -/
theorem take32_eq_raise {c : Config} {u : DecUnit} {d : Cause} {p : Nat} :
    take32 c u = .raise d p ↔ u.tail < forwardPos c u .c4 + 4 ∧ d = .fwdExhaust ∧ p = u.wp := by
  unfold take32 forwardTake
  by_cases h : u.tail < forwardPos c u .c4 + 4
  · simp [h, eq_comm]
  · simp [h, Res.bind_eq_raise, pmRead_ne_raise]

/-! ### When the reads cannot stop the model -/

/-- PM below TAIL is written and TAIL lies in PM: a read below TAIL has a value. -/
def pmReady (c : Config) (u : DecUnit) : Prop := u.tail ≤ c.pmSize ∧ writtenBelow u.pm u.tail

theorem pmRead_ready {c : Config} {u : DecUnit} (h : pmReady c u) {i : Nat} (hi : i < u.tail) :
    ∃ b, pmRead c u i = .ok b := by
  have hw := h.2 i hi
  cases hr : u.pm.read i with
  | none => exact absurd hr hw
  | some b => exact ⟨b, readByte_eq_ok.mpr ⟨Nat.lt_of_lt_of_le hi h.1, hr⟩⟩

theorem take16_ready {c : Config} {u : DecUnit} (h : pmReady c u) (k : CursorId) :
    (∃ x, take16 c u k = .ok x) ∨ take16 c u k = .raise .fwdExhaust u.wp := by
  by_cases hp : u.tail < forwardPos c u k + 2
  · exact .inr (take16_eq_raise.mpr ⟨hp, rfl, rfl⟩)
  · obtain ⟨b0, h0⟩ := pmRead_ready h (i := forwardPos c u k) (by omega)
    obtain ⟨b1, h1⟩ := pmRead_ready h (i := forwardPos c u k + 1) (by omega)
    exact .inl ⟨_, take16_eq_ok.mpr ⟨by omega, rfl, b0, b1, h0, h1, rfl⟩⟩

theorem take32_ready {c : Config} {u : DecUnit} (h : pmReady c u) :
    (∃ x, take32 c u = .ok x) ∨ take32 c u = .raise .fwdExhaust u.wp := by
  by_cases hp : u.tail < forwardPos c u .c4 + 4
  · exact .inr (take32_eq_raise.mpr ⟨hp, rfl, rfl⟩)
  · obtain ⟨b0, h0⟩ := pmRead_ready h (i := forwardPos c u .c4) (by omega)
    obtain ⟨b1, h1⟩ := pmRead_ready h (i := forwardPos c u .c4 + 1) (by omega)
    obtain ⟨b2, h2⟩ := pmRead_ready h (i := forwardPos c u .c4 + 2) (by omega)
    obtain ⟨b3, h3⟩ := pmRead_ready h (i := forwardPos c u .c4 + 3) (by omega)
    exact .inl ⟨_, take32_eq_ok.mpr ⟨by omega, rfl, b0, b1, b2, b3, h0, h1, h2, h3, rfl⟩⟩

/-! ### What a read leaves -/

theorem cursorsOnly_tail {u v : DecUnit} (h : cursorsOnly u v) : v.tail = u.tail := by
  rw [h]

/-- What every symbol read keeps: the fields outside the forward cursors, R15, and each forward index but for a
move to at most TAIL (R17, R19, R82). -/
def readKeeps (u v : DecUnit) : Prop := cursorsOnly u v ∧ (cursorsOk u → cursorsOk v) ∧ forwardKept u v

theorem readKeeps_refl (u : DecUnit) : readKeeps u u := ⟨cursorsOnly_refl u, id, forwardKept_refl u⟩

theorem readKeeps_trans {u v w : DecUnit} (h : readKeeps u v) (g : readKeeps v w) : readKeeps u w :=
  ⟨cursorsOnly_trans h.1 g.1, g.2.1 ∘ h.2.1, forwardKept_trans (cursorsOnly_tail h.1) h.2.2 g.2.2⟩

/-- An MSB cursor's read of one or more bits, after its refill if it had none (R76 to R78). -/
theorem readyC1_ok {c : Config} {u v : DecUnit} (h : readyC1 c u = .ok v) :
    (u.c1.rem ≠ 0 ∧ v = u) ∨ (u.c1.rem = 0 ∧ ∃ w x, take16 c u .c1 = .ok (w, x) ∧ v = x.setC1 ⟨w, 16⟩) := by
  unfold readyC1 at h
  split at h
  · rename_i hr
    obtain ⟨t, ht, rfl⟩ := Res.map_eq_ok.mp h
    exact .inr ⟨hr, t.1, t.2, ht, rfl⟩
  · rename_i hr
    exact .inl ⟨hr, (Res.ok.inj h).symm⟩

@[inherit_doc readyC1_ok] theorem readyC2_ok {c : Config} {u v : DecUnit} (h : readyC2 c u = .ok v) :
    (u.c2.rem ≠ 0 ∧ v = u) ∨ (u.c2.rem = 0 ∧ ∃ w x, take16 c u .c2 = .ok (w, x) ∧ v = x.setC2 ⟨w, 16⟩) := by
  unfold readyC2 at h
  split at h
  · rename_i hr
    obtain ⟨t, ht, rfl⟩ := Res.map_eq_ok.mp h
    exact .inr ⟨hr, t.1, t.2, ht, rfl⟩
  · rename_i hr
    exact .inl ⟨hr, (Res.ok.inj h).symm⟩

@[inherit_doc readyC1_ok] theorem readyCX_ok {c : Config} {u v : DecUnit} (h : readyCX c u = .ok v) :
    (u.cx.rem ≠ 0 ∧ v = u) ∨ (u.cx.rem = 0 ∧ ∃ w x, take16 c u .cx = .ok (w, x) ∧ v = x.setCX ⟨w, 16⟩) := by
  unfold readyCX at h
  split at h
  · rename_i hr
    obtain ⟨t, ht, rfl⟩ := Res.map_eq_ok.mp h
    exact .inr ⟨hr, t.1, t.2, ht, rfl⟩
  · rename_i hr
    exact .inl ⟨hr, (Res.ok.inj h).symm⟩

/-- C4's read, after its refill if it had none (R79). -/
theorem readyC4_ok {c : Config} {u v : DecUnit} (h : readyC4 c u = .ok v) :
    (u.c4.rem ≠ 0 ∧ v = u) ∨ (u.c4.rem = 0 ∧ ∃ w x, take32 c u = .ok (w, x) ∧ v = x.setC4 ⟨w, 32⟩) := by
  unfold readyC4 at h
  split at h
  · rename_i hr
    obtain ⟨t, ht, rfl⟩ := Res.map_eq_ok.mp h
    exact .inr ⟨hr, t.1, t.2, ht, rfl⟩
  · rename_i hr
    exact .inl ⟨hr, (Res.ok.inj h).symm⟩

theorem forwardBits_setC1 (c : Config) (u : DecUnit) (x : Cursor 16) :
    forwardBits c (u.setC1 x) + u.c1.rem = forwardBits c u + x.rem := by
  simp only [forwardBits, DecUnit.setC1_c1, DecUnit.setC1_c2, DecUnit.setC1_cx, DecUnit.setC1_c4,
    DecUnit.setC1_fwd, DecUnit.setC1_off, DecUnit.setC1_tail]
  omega

theorem forwardBits_setC2 (c : Config) (u : DecUnit) (x : Cursor 16) :
    forwardBits c (u.setC2 x) + u.c2.rem = forwardBits c u + x.rem := by
  simp only [forwardBits, DecUnit.setC2_c1, DecUnit.setC2_c2, DecUnit.setC2_cx, DecUnit.setC2_c4,
    DecUnit.setC2_fwd, DecUnit.setC2_off, DecUnit.setC2_tail]
  omega

theorem forwardBits_setCX (c : Config) (u : DecUnit) (x : Cursor 16) :
    forwardBits c (u.setCX x) + u.cx.rem = forwardBits c u + x.rem := by
  simp only [forwardBits, DecUnit.setCX_c1, DecUnit.setCX_c2, DecUnit.setCX_cx, DecUnit.setCX_c4,
    DecUnit.setCX_fwd, DecUnit.setCX_off, DecUnit.setCX_tail]
  omega

theorem forwardBits_setC4 (c : Config) (u : DecUnit) (x : Cursor 32) :
    forwardBits c (u.setC4 x) + u.c4.rem = forwardBits c u + x.rem := by
  simp only [forwardBits, DecUnit.setC4_c1, DecUnit.setC4_c2, DecUnit.setC4_cx, DecUnit.setC4_c4,
    DecUnit.setC4_fwd, DecUnit.setC4_off, DecUnit.setC4_tail]
  omega

theorem cursorsOnly_setC1 {u v : DecUnit} (h : cursorsOnly u v) (x : Cursor 16) : cursorsOnly u (v.setC1 x) := by
  unfold cursorsOnly DecUnit.setC1 at *
  rw [h]

theorem cursorsOnly_setC2 {u v : DecUnit} (h : cursorsOnly u v) (x : Cursor 16) : cursorsOnly u (v.setC2 x) := by
  unfold cursorsOnly DecUnit.setC2 at *
  rw [h]

theorem cursorsOnly_setCX {u v : DecUnit} (h : cursorsOnly u v) (x : Cursor 16) : cursorsOnly u (v.setCX x) := by
  unfold cursorsOnly DecUnit.setCX at *
  rw [h]

theorem cursorsOnly_setC4 {u v : DecUnit} (h : cursorsOnly u v) (x : Cursor 32) : cursorsOnly u (v.setC4 x) := by
  unfold cursorsOnly DecUnit.setC4 at *
  rw [h]

/-- What a refill does to a unit before the word is put into its cursor. -/
theorem take16_ok {c : Config} {u v : DecUnit} {k : CursorId} {w : BitVec 16} (h : take16 c u k = .ok (w, v)) :
    cursorsOnly u v ∧ (v.c1 = u.c1 ∧ v.c2 = u.c2 ∧ v.cx = u.cx ∧ v.c4 = u.c4)
      ∧ forwardBits c v + 16 = forwardBits c u ∧ forwardKept u v := by
  obtain ⟨hp, rfl, -⟩ := take16_eq_ok.mp h
  exact ⟨setForward_cursorsOnly c u k _, setForward_rems c u k _, forwardBits_setForward c u k 2 hp,
    setForward_kept c u k _ hp⟩

@[inherit_doc take16_ok] theorem take32_ok {c : Config} {u v : DecUnit} {w : BitVec 32}
    (h : take32 c u = .ok (w, v)) :
    cursorsOnly u v ∧ (v.c1 = u.c1 ∧ v.c2 = u.c2 ∧ v.cx = u.cx ∧ v.c4 = u.c4)
      ∧ forwardBits c v + 32 = forwardBits c u ∧ forwardKept u v := by
  obtain ⟨hp, rfl, -⟩ := take32_eq_ok.mp h
  exact ⟨setForward_cursorsOnly c u .c4 _, setForward_rems c u .c4 _, forwardBits_setForward c u .c4 4 hp,
    setForward_kept c u .c4 _ hp⟩

theorem read1_ok {c : Config} {u v : DecUnit} {b : BitVec 1} (h : read1 c u = .ok (b, v)) :
    readKeeps u v ∧ forwardBits c v < forwardBits c u := by
  obtain ⟨x, hx, he⟩ := Res.map_eq_ok.mp h
  cases he
  rcases readyC1_ok hx with ⟨hr, rfl⟩ | ⟨hr, w, y, hy, rfl⟩
  · have hf := forwardBits_setC1 c x ⟨x.c1.pend, x.c1.rem - 1⟩
    refine ⟨⟨cursorsOnly_setC1 (cursorsOnly_refl x) _, fun hc => ?_, forwardKept_refl x⟩, by dsimp only at hf; omega⟩
    simp only [cursorsOk, DecUnit.setC1_c1, DecUnit.setC1_c2, DecUnit.setC1_cx, DecUnit.setC1_c4] at *
    omega
  · obtain ⟨ho, ⟨e1, e2, e3, e4⟩, hf, hs⟩ := take16_ok hy
    have hg := forwardBits_setC1 c y ⟨w, 15⟩
    rw [e1, hr] at hg
    refine ⟨⟨cursorsOnly_setC1 (cursorsOnly_setC1 ho _) _, fun hc => ?_, hs⟩, ?_⟩
    · simp only [cursorsOk, DecUnit.setC1_c1, DecUnit.setC1_c2, DecUnit.setC1_cx, DecUnit.setC1_c4, e2, e3, e4] at *
      omega
    · change forwardBits c (y.setC1 ⟨w, 15⟩) < _
      dsimp only at hg
      omega

theorem read2_ok {c : Config} {u v : DecUnit} {b : BitVec 2} (h : read2 c u = .ok (b, v)) :
    readKeeps u v ∧ forwardBits c v < forwardBits c u := by
  obtain ⟨x, hx, he⟩ := Res.map_eq_ok.mp h
  cases he
  rcases readyC2_ok hx with ⟨hr, rfl⟩ | ⟨hr, w, y, hy, rfl⟩
  · have hf := forwardBits_setC2 c x ⟨x.c2.pend, x.c2.rem - 2⟩
    refine ⟨⟨cursorsOnly_setC2 (cursorsOnly_refl x) _, fun hc => ?_, forwardKept_refl x⟩, by dsimp only at hf; omega⟩
    simp only [cursorsOk, DecUnit.setC2_c1, DecUnit.setC2_c2, DecUnit.setC2_cx, DecUnit.setC2_c4] at *
    omega
  · obtain ⟨ho, ⟨e1, e2, e3, e4⟩, hf, hs⟩ := take16_ok hy
    have hg := forwardBits_setC2 c y ⟨w, 14⟩
    rw [e2, hr] at hg
    refine ⟨⟨cursorsOnly_setC2 (cursorsOnly_setC2 ho _) _, fun hc => ?_, hs⟩, ?_⟩
    · simp only [cursorsOk, DecUnit.setC2_c1, DecUnit.setC2_c2, DecUnit.setC2_cx, DecUnit.setC2_c4, e1, e3, e4, and_true] at *
      omega
    · change forwardBits c (y.setC2 ⟨w, 14⟩) < _
      dsimp only at hg
      omega

theorem readXBit_ok {c : Config} {u v : DecUnit} {b : BitVec 1} (h : readXBit c u = .ok (b, v)) :
    readKeeps u v ∧ forwardBits c v < forwardBits c u := by
  obtain ⟨x, hx, he⟩ := Res.map_eq_ok.mp h
  cases he
  rcases readyCX_ok hx with ⟨hr, rfl⟩ | ⟨hr, w, y, hy, rfl⟩
  · have hf := forwardBits_setCX c x ⟨x.cx.pend, x.cx.rem - 1⟩
    refine ⟨⟨cursorsOnly_setCX (cursorsOnly_refl x) _, fun hc => ?_, forwardKept_refl x⟩, by dsimp only at hf; omega⟩
    simp only [cursorsOk, DecUnit.setCX_c1, DecUnit.setCX_c2, DecUnit.setCX_cx, DecUnit.setCX_c4] at *
    omega
  · obtain ⟨ho, ⟨e1, e2, e3, e4⟩, hf, hs⟩ := take16_ok hy
    have hg := forwardBits_setCX c y ⟨w, 15⟩
    rw [e3, hr] at hg
    refine ⟨⟨cursorsOnly_setCX (cursorsOnly_setCX ho _) _, fun hc => ?_, hs⟩, ?_⟩
    · simp only [cursorsOk, DecUnit.setCX_c1, DecUnit.setCX_c2, DecUnit.setCX_cx, DecUnit.setCX_c4, e1, e2, e4] at *
      omega
    · change forwardBits c (y.setCX ⟨w, 15⟩) < _
      dsimp only at hg
      omega

theorem read4_ok {c : Config} {u v : DecUnit} {b : BitVec 4} (h : read4 c u = .ok (b, v)) :
    readKeeps u v ∧ forwardBits c v < forwardBits c u := by
  obtain ⟨x, hx, he⟩ := Res.map_eq_ok.mp h
  cases he
  rcases readyC4_ok hx with ⟨hr, rfl⟩ | ⟨hr, w, y, hy, rfl⟩
  · have hf := forwardBits_setC4 c x ⟨x.c4.pend >>> 4, x.c4.rem - 4⟩
    refine ⟨⟨cursorsOnly_setC4 (cursorsOnly_refl x) _, fun hc => ?_, forwardKept_refl x⟩, by dsimp only at hf; omega⟩
    simp only [cursorsOk, DecUnit.setC4_c1, DecUnit.setC4_c2, DecUnit.setC4_cx, DecUnit.setC4_c4] at *
    omega
  · obtain ⟨ho, ⟨e1, e2, e3, e4⟩, hf, hs⟩ := take32_ok hy
    have hg := forwardBits_setC4 c y ⟨w >>> 4, 28⟩
    rw [e4, hr] at hg
    refine ⟨⟨cursorsOnly_setC4 (cursorsOnly_setC4 ho _) _, fun hc => ?_, hs⟩, ?_⟩
    · simp only [cursorsOk, DecUnit.setC4_c1, DecUnit.setC4_c2, DecUnit.setC4_cx, DecUnit.setC4_c4, e1, e2, e3, and_true] at *
      omega
    · change forwardBits c (y.setC4 ⟨w >>> 4, 28⟩) < _
      dsimp only at hg
      omega

theorem readXFrom_ok {n : Nat} : ∀ {r e : Nat} {c : Config} {u v : DecUnit},
    readXFrom n r c u = .ok (e, v) → readKeeps u v ∧ forwardBits c v + n ≤ forwardBits c u := by
  induction n with
  | zero =>
    intro r e c u v h
    cases h
    exact ⟨readKeeps_refl u, Nat.le_refl _⟩
  | succ n ih =>
    intro r e c u v h
    obtain ⟨x, hx, h⟩ := Res.bind_eq_ok.mp h
    have h1 := readXBit_ok (b := x.1) (v := x.2) hx
    have h2 := ih h
    exact ⟨readKeeps_trans h1.1 h2.1, by omega⟩

theorem readX_ok {n e : Nat} {c : Config} {u v : DecUnit} (h : readX n c u = .ok (e, v)) :
    readKeeps u v ∧ forwardBits c v + n ≤ forwardBits c u := readXFrom_ok h

/-! ### What a read raises, and when it cannot stop -/

theorem read1_ready {c : Config} {u : DecUnit} (h : pmReady c u) :
    (∃ x, read1 c u = .ok x) ∨ read1 c u = .raise .fwdExhaust u.wp := by
  unfold read1 readyC1
  by_cases hr : u.c1.rem = 0
  · rcases take16_ready h .c1 with ⟨x, hx⟩ | hx <;> simp [hr, hx]
  · simp [hr]

theorem read2_ready {c : Config} {u : DecUnit} (h : pmReady c u) :
    (∃ x, read2 c u = .ok x) ∨ read2 c u = .raise .fwdExhaust u.wp := by
  unfold read2 readyC2
  by_cases hr : u.c2.rem = 0
  · rcases take16_ready h .c2 with ⟨x, hx⟩ | hx <;> simp [hr, hx]
  · simp [hr]

theorem read4_ready {c : Config} {u : DecUnit} (h : pmReady c u) :
    (∃ x, read4 c u = .ok x) ∨ read4 c u = .raise .fwdExhaust u.wp := by
  unfold read4 readyC4
  by_cases hr : u.c4.rem = 0
  · rcases take32_ready h with ⟨x, hx⟩ | hx <;> simp [hr, hx]
  · simp [hr]

theorem readXBit_ready {c : Config} {u : DecUnit} (h : pmReady c u) :
    (∃ x, readXBit c u = .ok x) ∨ readXBit c u = .raise .fwdExhaust u.wp := by
  unfold readXBit readyCX
  by_cases hr : u.cx.rem = 0
  · rcases take16_ready h .cx with ⟨x, hx⟩ | hx <;> simp [hr, hx]
  · simp [hr]

theorem pmReady_of_cursorsOnly {c : Config} {u v : DecUnit} (h : cursorsOnly u v) (g : pmReady c u) :
    pmReady c v := by
  rw [h]
  exact g

theorem cursorsOnly_wp {u v : DecUnit} (h : cursorsOnly u v) : v.wp = u.wp := by
  rw [h]

theorem readXFrom_ready {n : Nat} : ∀ {r : Nat} {c : Config} {u : DecUnit}, pmReady c u →
    (∃ x, readXFrom n r c u = .ok x) ∨ readXFrom n r c u = .raise .fwdExhaust u.wp := by
  induction n with
  | zero => exact fun _ => .inl ⟨_, rfl⟩
  | succ n ih =>
    intro r c u h
    rcases readXBit_ready h with ⟨x, hx⟩ | hx
    · have hk := (readXBit_ok (b := x.1) (v := x.2) hx).1.1
      have := ih (r := 2 * r + x.1.toNat) (pmReady_of_cursorsOnly hk h)
      rw [cursorsOnly_wp hk] at this
      simpa [readXFrom, hx] using this
    · simp [readXFrom, hx]

theorem readX_ready {n : Nat} {c : Config} {u : DecUnit} (h : pmReady c u) :
    (∃ x, readX n c u = .ok x) ∨ readX n c u = .raise .fwdExhaust u.wp := readXFrom_ready h

/-- TAILBYTE takes the byte below TAIL (R80). -/
theorem tailByte_eq_ok {c : Config} {u v : DecUnit} {b : Byte} :
    tailByte c u = .ok (b, v) ↔
      fwdHi c u < u.tail ∧ pmRead c u (u.tail - 1) = .ok b ∧ v = u.setTail (u.tail - 1) := by
  unfold tailByte
  by_cases h : u.tail ≤ fwdHi c u
  · simp [h, Nat.not_lt.mpr h]
  · simp only [h, if_false, Res.map_eq_ok, Nat.lt_of_not_le h, true_and]
    constructor
    · rintro ⟨a, ha, he⟩
      cases he
      exact ⟨ha, rfl⟩
    · rintro ⟨ha, rfl⟩
      exact ⟨b, ha, rfl⟩

theorem tailByte_eq_raise {c : Config} {u : DecUnit} {d : Cause} {p : Nat} :
    tailByte c u = .raise d p ↔ u.tail ≤ fwdHi c u ∧ d = .tailCross ∧ p = u.wp := by
  unfold tailByte
  by_cases h : u.tail ≤ fwdHi c u
  · simp [h, eq_comm]
  · simp [h, Res.map_eq_raise, pmRead_ne_raise]

/-! ### A read is never refused, and where it stops -/

theorem pmRead_ne_refuse {c : Config} {u : DecUnit} {i : Nat} {r : Refusal} : pmRead c u i ≠ .refuse r :=
  readByte_ne_refuse

theorem take16_ne_refuse {c : Config} {u : DecUnit} {k : CursorId} {r : Refusal} : take16 c u k ≠ .refuse r := by
  unfold take16 forwardTake
  by_cases h : u.tail < forwardPos c u k + 2 <;> simp [h, Res.bind_eq_refuse, pmRead_ne_refuse]

theorem take32_ne_refuse {c : Config} {u : DecUnit} {r : Refusal} : take32 c u ≠ .refuse r := by
  unfold take32 forwardTake
  by_cases h : u.tail < forwardPos c u .c4 + 4 <;> simp [h, Res.bind_eq_refuse, pmRead_ne_refuse]

theorem read1_ne_refuse {c : Config} {u : DecUnit} {r : Refusal} : read1 c u ≠ .refuse r := by
  unfold read1 readyC1
  by_cases h : u.c1.rem = 0 <;> simp [h, Res.map_eq_refuse, take16_ne_refuse]

theorem read2_ne_refuse {c : Config} {u : DecUnit} {r : Refusal} : read2 c u ≠ .refuse r := by
  unfold read2 readyC2
  by_cases h : u.c2.rem = 0 <;> simp [h, Res.map_eq_refuse, take16_ne_refuse]

theorem readXBit_ne_refuse {c : Config} {u : DecUnit} {r : Refusal} : readXBit c u ≠ .refuse r := by
  unfold readXBit readyCX
  by_cases h : u.cx.rem = 0 <;> simp [h, Res.map_eq_refuse, take16_ne_refuse]

theorem read4_ne_refuse {c : Config} {u : DecUnit} {r : Refusal} : read4 c u ≠ .refuse r := by
  unfold read4 readyC4
  by_cases h : u.c4.rem = 0 <;> simp [h, Res.map_eq_refuse, take32_ne_refuse]

theorem readXFrom_ne_refuse {n : Nat} : ∀ {e : Nat} {c : Config} {u : DecUnit} {r : Refusal},
    readXFrom n e c u ≠ .refuse r := by
  induction n with
  | zero => exact fun h => nomatch h
  | succ n ih =>
    intro e c u r h
    rcases Res.bind_eq_refuse.mp h with h | ⟨x, -, h⟩
    · exact readXBit_ne_refuse h
    · exact ih h

theorem readX_ne_refuse {n : Nat} {c : Config} {u : DecUnit} {r : Refusal} : readX n c u ≠ .refuse r :=
  readXFrom_ne_refuse

theorem tailByte_ne_refuse {c : Config} {u : DecUnit} {r : Refusal} : tailByte c u ≠ .refuse r := by
  unfold tailByte
  by_cases h : u.tail ≤ fwdHi c u <;> simp [h, Res.map_eq_refuse, pmRead_ne_refuse]

/-- A PM read below TAIL stops only on an unwritten byte (R41). -/
theorem pmRead_stop {c : Config} {u : DecUnit} {i : Nat} {f : Fault} (h : pmRead c u i = .stop f)
    (ht : u.tail ≤ c.pmSize) (hi : i < u.tail) : ∃ j, f = .unwritten .pm j ∧ j < u.tail ∧ u.pm.read j = none := by
  rcases readByte_eq_stop.mp h with ⟨-, hr, rfl⟩ | ⟨hn, -⟩
  · exact ⟨i, rfl, hi, hr⟩
  · omega

@[inherit_doc pmRead_stop] theorem take16_stop {c : Config} {u : DecUnit} {k : CursorId} {f : Fault}
    (h : take16 c u k = .stop f) (ht : u.tail ≤ c.pmSize) :
    ∃ j, f = .unwritten .pm j ∧ j < u.tail ∧ u.pm.read j = none := by
  unfold take16 forwardTake at h
  by_cases hp : u.tail < forwardPos c u k + 2
  · simp [hp] at h
  · simp only [hp, if_false, Res.bind_ok, Res.bind_eq_stop] at h
    rcases h with h | ⟨_, -, h | ⟨_, -, h⟩⟩
    · exact pmRead_stop h ht (by omega)
    · exact pmRead_stop h ht (by omega)
    · cases h

@[inherit_doc pmRead_stop] theorem take32_stop {c : Config} {u : DecUnit} {f : Fault}
    (h : take32 c u = .stop f) (ht : u.tail ≤ c.pmSize) :
    ∃ j, f = .unwritten .pm j ∧ j < u.tail ∧ u.pm.read j = none := by
  unfold take32 forwardTake at h
  by_cases hp : u.tail < forwardPos c u .c4 + 4
  · simp [hp] at h
  · simp only [hp, if_false, Res.bind_ok, Res.bind_eq_stop] at h
    rcases h with h | ⟨_, -, h | ⟨_, -, h | ⟨_, -, h | ⟨_, -, h⟩⟩⟩⟩
    · exact pmRead_stop h ht (by omega)
    · exact pmRead_stop h ht (by omega)
    · exact pmRead_stop h ht (by omega)
    · exact pmRead_stop h ht (by omega)
    · cases h

@[inherit_doc pmRead_stop] theorem read1_stop {c : Config} {u : DecUnit} {f : Fault}
    (h : read1 c u = .stop f) (ht : u.tail ≤ c.pmSize) :
    ∃ j, f = .unwritten .pm j ∧ j < u.tail ∧ u.pm.read j = none := by
  unfold read1 readyC1 at h
  by_cases hr : u.c1.rem = 0
  · simp only [hr, if_true, Res.map_eq_stop] at h
    exact take16_stop h ht
  · simp [hr] at h

@[inherit_doc pmRead_stop] theorem read2_stop {c : Config} {u : DecUnit} {f : Fault}
    (h : read2 c u = .stop f) (ht : u.tail ≤ c.pmSize) :
    ∃ j, f = .unwritten .pm j ∧ j < u.tail ∧ u.pm.read j = none := by
  unfold read2 readyC2 at h
  by_cases hr : u.c2.rem = 0
  · simp only [hr, if_true, Res.map_eq_stop] at h
    exact take16_stop h ht
  · simp [hr] at h

@[inherit_doc pmRead_stop] theorem readXBit_stop {c : Config} {u : DecUnit} {f : Fault}
    (h : readXBit c u = .stop f) (ht : u.tail ≤ c.pmSize) :
    ∃ j, f = .unwritten .pm j ∧ j < u.tail ∧ u.pm.read j = none := by
  unfold readXBit readyCX at h
  by_cases hr : u.cx.rem = 0
  · simp only [hr, if_true, Res.map_eq_stop] at h
    exact take16_stop h ht
  · simp [hr] at h

@[inherit_doc pmRead_stop] theorem read4_stop {c : Config} {u : DecUnit} {f : Fault}
    (h : read4 c u = .stop f) (ht : u.tail ≤ c.pmSize) :
    ∃ j, f = .unwritten .pm j ∧ j < u.tail ∧ u.pm.read j = none := by
  unfold read4 readyC4 at h
  by_cases hr : u.c4.rem = 0
  · simp only [hr, if_true, Res.map_eq_stop] at h
    exact take32_stop h ht
  · simp [hr] at h

@[inherit_doc pmRead_stop] theorem readXFrom_stop {n : Nat} : ∀ {e : Nat} {c : Config} {u : DecUnit} {f : Fault},
    readXFrom n e c u = .stop f → u.tail ≤ c.pmSize →
      ∃ j, f = .unwritten .pm j ∧ j < u.tail ∧ u.pm.read j = none := by
  induction n with
  | zero => exact fun h => nomatch h
  | succ n ih =>
    intro e c u f h ht
    rcases Res.bind_eq_stop.mp h with h | ⟨x, hx, h⟩
    · exact readXBit_stop h ht
    · have hk := (readXBit_ok (b := x.1) (v := x.2) hx).1.1
      have he : x.2.tail = u.tail := cursorsOnly_tail hk
      have hm : x.2.pm = u.pm := by rw [hk]
      obtain ⟨j, hj⟩ := ih h (by omega)
      exact ⟨j, hj.1, by omega, hm ▸ hj.2.2⟩

@[inherit_doc pmRead_stop] theorem readX_stop {n : Nat} {c : Config} {u : DecUnit} {f : Fault}
    (h : readX n c u = .stop f) (ht : u.tail ≤ c.pmSize) :
    ∃ j, f = .unwritten .pm j ∧ j < u.tail ∧ u.pm.read j = none := readXFrom_stop h ht

/-- Every read raises FWD_EXHAUST at WP and nothing else (R74, R137). -/
theorem read1_raise {c : Config} {u : DecUnit} {d : Cause} {p : Nat} (h : read1 c u = .raise d p) :
    d = .fwdExhaust ∧ p = u.wp := by
  unfold read1 readyC1 at h
  by_cases hr : u.c1.rem = 0
  · simp only [hr, if_true, Res.map_eq_raise] at h
    exact (take16_eq_raise.mp h).2
  · simp [hr] at h

@[inherit_doc read1_raise] theorem read2_raise {c : Config} {u : DecUnit} {d : Cause} {p : Nat}
    (h : read2 c u = .raise d p) : d = .fwdExhaust ∧ p = u.wp := by
  unfold read2 readyC2 at h
  by_cases hr : u.c2.rem = 0
  · simp only [hr, if_true, Res.map_eq_raise] at h
    exact (take16_eq_raise.mp h).2
  · simp [hr] at h

@[inherit_doc read1_raise] theorem readXBit_raise {c : Config} {u : DecUnit} {d : Cause} {p : Nat}
    (h : readXBit c u = .raise d p) : d = .fwdExhaust ∧ p = u.wp := by
  unfold readXBit readyCX at h
  by_cases hr : u.cx.rem = 0
  · simp only [hr, if_true, Res.map_eq_raise] at h
    exact (take16_eq_raise.mp h).2
  · simp [hr] at h

@[inherit_doc read1_raise] theorem read4_raise {c : Config} {u : DecUnit} {d : Cause} {p : Nat}
    (h : read4 c u = .raise d p) : d = .fwdExhaust ∧ p = u.wp := by
  unfold read4 readyC4 at h
  by_cases hr : u.c4.rem = 0
  · simp only [hr, if_true, Res.map_eq_raise] at h
    exact (take32_eq_raise.mp h).2
  · simp [hr] at h

@[inherit_doc read1_raise] theorem readXFrom_raise {n : Nat} : ∀ {e : Nat} {c : Config} {u : DecUnit} {d : Cause}
    {p : Nat}, readXFrom n e c u = .raise d p → d = .fwdExhaust ∧ p = u.wp := by
  induction n with
  | zero => exact fun h => nomatch h
  | succ n ih =>
    intro e c u d p h
    rcases Res.bind_eq_raise.mp h with h | ⟨x, hx, h⟩
    · exact readXBit_raise h
    · have := ih h
      rwa [cursorsOnly_wp (readXBit_ok (b := x.1) (v := x.2) hx).1.1] at this

@[inherit_doc read1_raise] theorem readX_raise {n : Nat} {c : Config} {u : DecUnit} {d : Cause} {p : Nat}
    (h : readX n c u = .raise d p) : d = .fwdExhaust ∧ p = u.wp := readXFrom_raise h

end Sys2Proof.Machine
end

