-- ==== Sys2Proof/Laws/Loops.lean ====
section
/-! SUPPORT. What the loops of the copying steps do (R90, R95, R101, R125, R127): for each loop one lemma
that says everything it leaves when it ends, one that says when it ends, and what it raises and stops on. -/

namespace Sys2Proof.Machine

/-! ### The literal copy (R95) -/

@[simp] theorem fwdHi_setTail (c : Config) (u : DecUnit) (n : Nat) : fwdHi c (u.setTail n) = fwdHi c u := rfl
@[simp] theorem fwdHi_setWp (c : Config) (u : DecUnit) (n : Nat) : fwdHi c (u.setWp n) = fwdHi c u := rfl
@[simp] theorem fwdHi_setOm (c : Config) (u : DecUnit) (m : Memory) : fwdHi c (u.setOm m) = fwdHi c u := rfl

/-- One byte written to OM (R9). -/
theorem omWrite_eq_ok {c : Config} {u v : DecUnit} {i : Nat} {b : Byte} :
    omWrite c u i b = .ok v ↔ i < c.omSize ∧ v = u.setOm (u.om.write i b) := by
  unfold omWrite
  rw [Res.map_eq_ok]
  constructor
  · rintro ⟨m, hm, rfl⟩
    obtain ⟨h, rfl⟩ := writeByte_eq_ok.mp hm
    exact ⟨h, rfl⟩
  · rintro ⟨h, rfl⟩
    exact ⟨_, writeByte_eq_ok.mpr ⟨h, rfl⟩, rfl⟩

theorem omWrite_ne_raise {c : Config} {u : DecUnit} {i : Nat} {b : Byte} {d : Cause} {p : Nat} :
    omWrite c u i b ≠ .raise d p := fun h => writeByte_ne_raise (Res.map_eq_raise.mp h)

theorem omRead_ne_raise {c : Config} {u : DecUnit} {i : Nat} {d : Cause} {p : Nat} :
    omRead c u i ≠ .raise d p := readByte_ne_raise

/-- One turn of the literal copy. -/
def literalTurn (u : DecUnit) (b : Byte) : DecUnit :=
  ((u.setTail (u.tail - 1)).setOm (u.om.write u.wp b)).setWp (u.wp + 1)

theorem copyLiterals_succ_ok {n : Nat} {c : Config} {u v : DecUnit} :
    copyLiterals (n + 1) c u = .ok v ↔
      ∃ b, fwdHi c u < u.tail ∧ pmRead c u (u.tail - 1) = .ok b ∧ u.wp < c.omSize
        ∧ copyLiterals n c (literalTurn u b) = .ok v := by
  simp only [copyLiterals, Res.bind_eq_ok]
  constructor
  · rintro ⟨⟨b, x⟩, hx, y, hy, h⟩
    obtain ⟨h1, h2, rfl⟩ := tailByte_eq_ok.mp hx
    obtain ⟨h3, rfl⟩ := omWrite_eq_ok.mp hy
    exact ⟨b, h1, h2, h3, h⟩
  · rintro ⟨b, h1, h2, h3, h⟩
    exact ⟨(b, u.setTail (u.tail - 1)), tailByte_eq_ok.mpr ⟨h1, h2, rfl⟩, _, omWrite_eq_ok.mpr ⟨h3, rfl⟩, h⟩

/-- Everything a finished literal copy has done. -/
theorem copyLiterals_ok {n : Nat} : ∀ {c : Config} {u v : DecUnit}, copyLiterals n c u = .ok v →
    v = { u with tail := u.tail - n, wp := u.wp + n, om := v.om } ∧ (1 ≤ n → fwdHi c u + n ≤ u.tail)
      ∧ (1 ≤ n → u.wp + n ≤ c.omSize)
      ∧ (∀ j, j < n → v.om.read (u.wp + j) = u.pm.read (u.tail - 1 - j))
      ∧ (∀ j, j < n → u.pm.read (u.tail - 1 - j) ≠ none)
      ∧ (∀ a, a < u.wp ∨ u.wp + n ≤ a → v.om.read a = u.om.read a)
      ∧ (u.om.wf → v.om.wf) ∧ (u.om.within c.omSize → v.om.within c.omSize) := by
  induction n with
  | zero =>
    intro c u v h
    cases h
    refine ⟨rfl, ?_, ?_, ?_, ?_, fun _ _ => rfl, id, id⟩ <;> intros <;> omega
  | succ n ih =>
    intro c u v h
    obtain ⟨b, h1, h2, h3, h⟩ := copyLiterals_succ_ok.mp h
    obtain ⟨hb1, hb2⟩ := readByte_eq_ok.mp h2
    obtain ⟨e1, e2, e3, e4, e5, e6, e7, e8⟩ := ih h
    simp only [literalTurn, fwdHi_setWp, fwdHi_setOm, fwdHi_setTail, DecUnit.setWp_tail, DecUnit.setOm_tail,
      DecUnit.setTail_tail, DecUnit.setWp_wp, DecUnit.setWp_pm, DecUnit.setOm_pm, DecUnit.setTail_pm,
      DecUnit.setWp_om, DecUnit.setOm_om] at e1 e2 e3 e4 e5 e6 e7 e8
    refine ⟨?_, fun _ => ?_, fun _ => ?_, fun j hj => ?_, fun j hj => ?_, fun a ha => ?_, fun hw => ?_, fun hw => ?_⟩
    · rw [e1, Nat.sub_sub, Nat.add_assoc, Nat.add_comm 1 n]
      rfl
    · by_cases hn : n = 0
      · omega
      · have := e2 (by omega)
        omega
    · by_cases hn : n = 0
      · omega
      · have := e3 (by omega)
        omega
    · cases j with
      | zero =>
        rw [Nat.add_zero, e6 u.wp (by omega), Memory.read_write_same, Nat.sub_zero, hb2]
      | succ j =>
        have := e4 j (by omega)
        rw [show u.wp + (j + 1) = u.wp + 1 + j by omega, this]
        congr 1
        omega
    · cases j with
      | zero => simp [hb2]
      | succ j =>
        have := e5 j (by omega)
        rwa [show u.tail - 1 - (j + 1) = u.tail - 1 - 1 - j by omega]
    · rw [e6 a (by omega), Memory.read_write_other _ _ _ _ (by omega)]
    · exact e7 (Memory.write_wf hw _ _)
    · exact e8 (Memory.write_within hw h3 _)

/-- When a literal copy ends: enough tail bytes, all written, and room in OM. -/
theorem copyLiterals_run {n : Nat} : ∀ {c : Config} {u : DecUnit}, fwdHi c u + n ≤ u.tail → u.tail ≤ c.pmSize →
    (∀ j, j < n → u.pm.read (u.tail - 1 - j) ≠ none) → u.wp + n ≤ c.omSize → ∃ v, copyLiterals n c u = .ok v := by
  induction n with
  | zero => exact fun _ _ _ _ => ⟨_, rfl⟩
  | succ n ih =>
    intro c u h1 h2 h3 h4
    obtain ⟨b, hb⟩ := Option.ne_none_iff_exists'.mp (h3 0 (by omega))
    obtain ⟨v, hv⟩ := ih (c := c) (u := literalTurn u b)
      (by simp only [literalTurn, fwdHi_setWp, fwdHi_setOm, fwdHi_setTail]; show _ ≤ u.tail - 1; omega)
      (by show u.tail - 1 ≤ _; omega)
      (fun j hj => by
        have := h3 (j + 1) (by omega)
        show u.pm.read (u.tail - 1 - 1 - j) ≠ none
        rwa [show u.tail - 1 - 1 - j = u.tail - 1 - (j + 1) by omega])
      (by show u.wp + 1 + n ≤ _; omega)
    exact ⟨v, copyLiterals_succ_ok.mpr ⟨b, by omega, readByte_eq_ok.mpr ⟨by omega, hb⟩, by omega, hv⟩⟩

theorem copyLiterals_succ_raise {n : Nat} {c : Config} {u : DecUnit} {d : Cause} {p : Nat} :
    copyLiterals (n + 1) c u = .raise d p ↔
      (u.tail ≤ fwdHi c u ∧ d = .tailCross ∧ p = u.wp) ∨
        ∃ b, fwdHi c u < u.tail ∧ pmRead c u (u.tail - 1) = .ok b ∧ u.wp < c.omSize
          ∧ copyLiterals n c (literalTurn u b) = .raise d p := by
  simp only [copyLiterals, Res.bind_eq_raise, tailByte_eq_raise]
  constructor
  · rintro (h | ⟨⟨b, x⟩, hx, h | ⟨y, hy, h⟩⟩)
    · exact .inl h
    · exact absurd h omWrite_ne_raise
    · obtain ⟨h1, h2, rfl⟩ := tailByte_eq_ok.mp hx
      obtain ⟨h3, rfl⟩ := omWrite_eq_ok.mp hy
      exact .inr ⟨b, h1, h2, h3, h⟩
  · rintro (h | ⟨b, h1, h2, h3, h⟩)
    · exact .inl h
    · exact .inr ⟨(b, u.setTail (u.tail - 1)), tailByte_eq_ok.mpr ⟨h1, h2, rfl⟩,
        .inr ⟨_, omWrite_eq_ok.mpr ⟨h3, rfl⟩, h⟩⟩

/-- A literal copy raises only TAIL_CROSS, at the position of the first byte that would cross (R95). -/
theorem copyLiterals_raise {n : Nat} : ∀ {c : Config} {u : DecUnit} {d : Cause} {p : Nat},
    copyLiterals n c u = .raise d p →
      d = .tailCross ∧ p = u.wp + (u.tail - fwdHi c u) ∧ u.tail < fwdHi c u + n := by
  induction n with
  | zero => exact fun h => nomatch h
  | succ n ih =>
    intro c u d p h
    rcases copyLiterals_succ_raise.mp h with ⟨h, rfl, rfl⟩ | ⟨b, h1, -, -, h⟩
    · exact ⟨rfl, by omega, by omega⟩
    · obtain ⟨rfl, hp, ht⟩ := ih h
      simp only [literalTurn, fwdHi_setWp, fwdHi_setOm, fwdHi_setTail, DecUnit.setWp_tail, DecUnit.setOm_tail,
        DecUnit.setTail_tail, DecUnit.setWp_wp] at hp ht
      exact ⟨rfl, by omega, by omega⟩

/-- When a literal copy raises: too few tail bytes above the forward region, those there are written. -/
theorem copyLiterals_cross {n : Nat} : ∀ {c : Config} {u : DecUnit}, 1 ≤ n → u.tail < fwdHi c u + n →
    u.tail ≤ c.pmSize → (∀ i, fwdHi c u ≤ i → i < u.tail → u.pm.read i ≠ none) → u.wp + n ≤ c.omSize →
      copyLiterals n c u = .raise .tailCross (u.wp + (u.tail - fwdHi c u)) := by
  induction n with
  | zero => exact fun h => absurd h (by omega)
  | succ n ih =>
    intro c u _ h1 h2 h3 h4
    refine copyLiterals_succ_raise.mpr ?_
    by_cases ht : u.tail ≤ fwdHi c u
    · exact .inl ⟨ht, rfl, by omega⟩
    · obtain ⟨b, hb⟩ := Option.ne_none_iff_exists'.mp (h3 (u.tail - 1) (by omega) (by omega))
      refine .inr ⟨b, by omega, readByte_eq_ok.mpr ⟨by omega, hb⟩, by omega, ?_⟩
      have := ih (c := c) (u := literalTurn u b) (by omega)
        (by simp only [literalTurn, fwdHi_setWp, fwdHi_setOm, fwdHi_setTail]; show u.tail - 1 < _; omega)
        (by show u.tail - 1 ≤ _; omega)
        (fun i hi hj => h3 i hi (by have : i < u.tail - 1 := hj; omega))
        (by show u.wp + 1 + n ≤ _; omega)
      rw [this]
      show Res.raise _ (u.wp + 1 + (u.tail - 1 - fwdHi c u)) = _
      congr 1
      omega

/-- A literal copy stops only on an unwritten PM byte below TAIL or on an address outside PM or OM. -/
theorem copyLiterals_stop {n : Nat} : ∀ {c : Config} {u : DecUnit} {f : Fault}, copyLiterals n c u = .stop f →
    u.tail ≤ c.pmSize → u.wp + n ≤ c.omSize → ∃ i, f = .unwritten .pm i ∧ i < u.tail ∧ u.pm.read i = none := by
  induction n with
  | zero => exact fun h => nomatch h
  | succ n ih =>
    intro c u f h hp ho
    simp only [copyLiterals, Res.bind_eq_stop] at h
    rcases h with h | ⟨⟨b, x⟩, hx, h | ⟨y, hy, h⟩⟩
    · unfold tailByte at h
      split at h
      · cases h
      · rename_i ht
        have h := Res.map_eq_stop.mp h
        unfold pmRead readByte at h
        rw [if_pos (by omega)] at h
        split at h
        · cases h
        · rename_i hr
          cases h
          exact ⟨_, rfl, by omega, hr⟩
    · obtain ⟨h1, h2, rfl⟩ := tailByte_eq_ok.mp hx
      have h := Res.map_eq_stop.mp h
      unfold writeByte at h
      rw [if_pos (by show u.wp < _; omega)] at h
      cases h
    · obtain ⟨h1, h2, rfl⟩ := tailByte_eq_ok.mp hx
      obtain ⟨h3, rfl⟩ := omWrite_eq_ok.mp hy
      obtain ⟨i, rfl, hi, hr⟩ := ih h (by show u.tail - 1 ≤ _; omega) (by show u.wp + 1 + n ≤ _; omega)
      exact ⟨i, rfl, by have : i < u.tail - 1 := hi; omega, hr⟩

theorem omWrite_ne_refuse {c : Config} {u : DecUnit} {i : Nat} {b : Byte} {r : Refusal} :
    omWrite c u i b ≠ .refuse r := fun h => writeByte_ne_refuse (Res.map_eq_refuse.mp h)

theorem omRead_ne_refuse {c : Config} {u : DecUnit} {i : Nat} {r : Refusal} : omRead c u i ≠ .refuse r :=
  readByte_ne_refuse

theorem copyLiterals_ne_refuse {n : Nat} : ∀ {c : Config} {u : DecUnit} {r : Refusal},
    copyLiterals n c u ≠ .refuse r := by
  induction n with
  | zero => exact fun h => nomatch h
  | succ n ih =>
    intro c u r h
    simp only [copyLiterals, Res.bind_eq_refuse] at h
    rcases h with h | ⟨_, _, h | ⟨_, _, h⟩⟩
    · exact tailByte_ne_refuse h
    · exact omWrite_ne_refuse h
    · exact ih h

/-! ### The match copy (R101) -/

/-- One turn of the match copy. -/
def matchTurn (u : DecUnit) (b : Byte) : DecUnit := (u.setOm (u.om.write u.wp b)).setWp (u.wp + 1)

theorem copyMatch_succ_ok {n : Nat} {c : Config} {u v : DecUnit} :
    copyMatch (n + 1) c u = .ok v ↔
      ∃ b, omRead c u (u.wp - u.dist) = .ok b ∧ u.wp < c.omSize ∧ copyMatch n c (matchTurn u b) = .ok v := by
  simp only [copyMatch, Res.bind_eq_ok]
  constructor
  · rintro ⟨b, hb, y, hy, h⟩
    obtain ⟨h3, rfl⟩ := omWrite_eq_ok.mp hy
    exact ⟨b, hb, h3, h⟩
  · rintro ⟨b, hb, h3, h⟩
    exact ⟨b, hb, _, omWrite_eq_ok.mpr ⟨h3, rfl⟩, h⟩

/-- Everything a finished match copy has done, for a distance in 1..WP: each byte is the one DIST below it,
which this copy may have written (R101, R156). -/
theorem copyMatch_ok {n : Nat} : ∀ {c : Config} {u v : DecUnit}, copyMatch n c u = .ok v →
    1 ≤ u.dist → u.dist ≤ u.wp →
      v = { u with wp := u.wp + n, om := v.om } ∧ (1 ≤ n → u.wp + n ≤ c.omSize)
      ∧ (∀ j, j < n → v.om.read (u.wp + j) = v.om.read (u.wp + j - u.dist))
      ∧ (∀ j, j < n → v.om.read (u.wp + j) ≠ none)
      ∧ (∀ a, a < u.wp ∨ u.wp + n ≤ a → v.om.read a = u.om.read a)
      ∧ (u.om.wf → v.om.wf) ∧ (u.om.within c.omSize → v.om.within c.omSize) := by
  induction n with
  | zero =>
    intro c u v h hd hw
    cases h
    refine ⟨rfl, ?_, ?_, ?_, fun _ _ => rfl, id, id⟩ <;> intros <;> omega
  | succ n ih =>
    intro c u v h hd hw
    obtain ⟨b, h2, h3, h⟩ := copyMatch_succ_ok.mp h
    obtain ⟨hb1, hb2⟩ := readByte_eq_ok.mp h2
    obtain ⟨e1, e2, e3, e4, e5, e6, e7⟩ := ih h hd (by show u.dist ≤ u.wp + 1; omega)
    simp only [matchTurn, DecUnit.setWp_wp, DecUnit.setWp_dist, DecUnit.setOm_dist, DecUnit.setWp_om,
      DecUnit.setOm_om] at e1 e2 e3 e4 e5 e6 e7
    refine ⟨?_, fun _ => ?_, fun j hj => ?_, fun j hj => ?_, fun a ha => ?_, fun hw => ?_, fun hw => ?_⟩
    · rw [e1, Nat.add_assoc, Nat.add_comm 1 n]
      rfl
    · by_cases hn : n = 0
      · omega
      · have := e2 (by omega)
        omega
    · cases j with
      | zero =>
        rw [Nat.add_zero, e5 u.wp (by omega), Memory.read_write_same, e5 (u.wp - u.dist) (by omega),
          Memory.read_write_other _ _ _ _ (by omega), hb2]
      | succ j =>
        have := e3 j (by omega)
        rw [show u.wp + (j + 1) = u.wp + 1 + j by omega, this]
    · cases j with
      | zero =>
        rw [Nat.add_zero, e5 u.wp (by omega), Memory.read_write_same]
        simp
      | succ j =>
        have := e4 j (by omega)
        rwa [show u.wp + (j + 1) = u.wp + 1 + j by omega]
    · rw [e5 a (by omega), Memory.read_write_other _ _ _ _ (by omega)]
    · exact e6 (Memory.write_wf hw _ _)
    · exact e7 (Memory.write_within hw h3 _)

/-- When a match copy ends: the bytes below WP are written, and there is room in OM. -/
theorem copyMatch_run {n : Nat} : ∀ {c : Config} {u : DecUnit}, 1 ≤ u.dist → u.dist ≤ u.wp →
    writtenBelow u.om u.wp → u.wp + n ≤ c.omSize → ∃ v, copyMatch n c u = .ok v := by
  induction n with
  | zero => exact fun _ _ _ _ => ⟨_, rfl⟩
  | succ n ih =>
    intro c u h1 h2 h3 h4
    obtain ⟨b, hb⟩ := Option.ne_none_iff_exists'.mp (h3 (u.wp - u.dist) (by omega))
    obtain ⟨v, hv⟩ := ih (c := c) (u := matchTurn u b) h1
      (by show u.dist ≤ u.wp + 1; omega)
      (fun i hi => by
        have hi : i < u.wp + 1 := hi
        show (u.om.write u.wp b).read i ≠ none
        by_cases he : i = u.wp
        · rw [he, Memory.read_write_same]
          simp
        · rw [Memory.read_write_other _ _ _ _ he]
          exact h3 i (by omega))
      (by show u.wp + 1 + n ≤ _; omega)
    exact ⟨v, copyMatch_succ_ok.mpr ⟨b, readByte_eq_ok.mpr ⟨by omega, hb⟩, by omega, hv⟩⟩

theorem copyMatch_ne_raise {n : Nat} : ∀ {c : Config} {u : DecUnit} {d : Cause} {p : Nat},
    copyMatch n c u ≠ .raise d p := by
  induction n with
  | zero => exact fun h => nomatch h
  | succ n ih =>
    intro c u d p h
    simp only [copyMatch, Res.bind_eq_raise] at h
    rcases h with h | ⟨_, _, h | ⟨_, _, h⟩⟩
    · exact omRead_ne_raise h
    · exact omWrite_ne_raise h
    · exact ih h

theorem copyMatch_ne_refuse {n : Nat} : ∀ {c : Config} {u : DecUnit} {r : Refusal}, copyMatch n c u ≠ .refuse r := by
  induction n with
  | zero => exact fun h => nomatch h
  | succ n ih =>
    intro c u r h
    simp only [copyMatch, Res.bind_eq_refuse] at h
    rcases h with h | ⟨_, _, h | ⟨_, _, h⟩⟩
    · exact omRead_ne_refuse h
    · exact omWrite_ne_refuse h
    · exact ih h

/-! ### The raw copy (R90) -/

theorem copyRawFrom_succ_ok {n i : Nat} {c : Config} {u v : DecUnit} :
    copyRawFrom (n + 1) i c u = .ok v ↔
      ∃ b, pmRead c u i = .ok b ∧ i < c.omSize ∧ copyRawFrom n (i + 1) c (u.setOm (u.om.write i b)) = .ok v := by
  simp only [copyRawFrom, Res.bind_eq_ok]
  constructor
  · rintro ⟨b, hb, y, hy, h⟩
    obtain ⟨h3, rfl⟩ := omWrite_eq_ok.mp hy
    exact ⟨b, hb, h3, h⟩
  · rintro ⟨b, hb, h3, h⟩
    exact ⟨b, hb, _, omWrite_eq_ok.mpr ⟨h3, rfl⟩, h⟩

/-- Everything a finished raw copy has done. -/
theorem copyRawFrom_ok {n : Nat} : ∀ {i : Nat} {c : Config} {u v : DecUnit}, copyRawFrom n i c u = .ok v →
    v = { u with om := v.om } ∧ (1 ≤ n → i + n ≤ c.omSize)
      ∧ (∀ j, i ≤ j → j < i + n → v.om.read j = u.pm.read j ∧ u.pm.read j ≠ none)
      ∧ (∀ a, a < i ∨ i + n ≤ a → v.om.read a = u.om.read a)
      ∧ (u.om.wf → v.om.wf) ∧ (u.om.within c.omSize → v.om.within c.omSize) := by
  induction n with
  | zero =>
    intro i c u v h
    cases h
    refine ⟨rfl, ?_, ?_, fun _ _ => rfl, id, id⟩ <;> intros <;> omega
  | succ n ih =>
    intro i c u v h
    obtain ⟨b, h2, h3, h⟩ := copyRawFrom_succ_ok.mp h
    obtain ⟨hb1, hb2⟩ := readByte_eq_ok.mp h2
    obtain ⟨e1, e2, e3, e4, e5, e6⟩ := ih h
    simp only [DecUnit.setOm_om, DecUnit.setOm_pm] at e1 e2 e3 e4 e5 e6
    refine ⟨?_, fun _ => ?_, fun j hj hk => ?_, fun a ha => ?_, fun hw => ?_, fun hw => ?_⟩
    · rw [e1]
      rfl
    · by_cases hn : n = 0
      · omega
      · have := e2 (by omega)
        omega
    · by_cases he : j = i
      · subst he
        rw [e4 j (by omega), Memory.read_write_same, hb2]
        simp
      · exact e3 j (by omega) (by omega)
    · rw [e4 a (by omega), Memory.read_write_other _ _ _ _ (by omega)]
    · exact e5 (Memory.write_wf hw _ _)
    · exact e6 (Memory.write_within hw h3 _)

/-- When a raw copy ends: its PM bytes are written, and there is room in OM. -/
theorem copyRawFrom_run {n : Nat} : ∀ {i : Nat} {c : Config} {u : DecUnit}, i + n ≤ c.pmSize → i + n ≤ c.omSize →
    writtenBelow u.pm (i + n) → ∃ v, copyRawFrom n i c u = .ok v := by
  induction n with
  | zero => exact fun _ _ _ => ⟨_, rfl⟩
  | succ n ih =>
    intro i c u h1 h2 h3
    obtain ⟨b, hb⟩ := Option.ne_none_iff_exists'.mp (h3 i (by omega))
    obtain ⟨v, hv⟩ := ih (i := i + 1) (c := c) (u := u.setOm (u.om.write i b)) (by omega) (by omega)
      (fun j hj => h3 j (by omega))
    exact ⟨v, copyRawFrom_succ_ok.mpr ⟨b, readByte_eq_ok.mpr ⟨by omega, hb⟩, by omega, hv⟩⟩

theorem copyRawFrom_ne_raise {n : Nat} : ∀ {i : Nat} {c : Config} {u : DecUnit} {d : Cause} {p : Nat},
    copyRawFrom n i c u ≠ .raise d p := by
  induction n with
  | zero => exact fun h => nomatch h
  | succ n ih =>
    intro i c u d p h
    simp only [copyRawFrom, Res.bind_eq_raise] at h
    rcases h with h | ⟨_, _, h | ⟨_, _, h⟩⟩
    · exact pmRead_ne_raise h
    · exact omWrite_ne_raise h
    · exact ih h

theorem copyRawFrom_ne_refuse {n : Nat} : ∀ {i : Nat} {c : Config} {u : DecUnit} {r : Refusal},
    copyRawFrom n i c u ≠ .refuse r := by
  induction n with
  | zero => exact fun h => nomatch h
  | succ n ih =>
    intro i c u r h
    simp only [copyRawFrom, Res.bind_eq_refuse] at h
    rcases h with h | ⟨_, _, h | ⟨_, _, h⟩⟩
    · exact pmRead_ne_refuse h
    · exact omWrite_ne_refuse h
    · exact ih h

/-- A raw copy inside PM and OM stops only on an unwritten PM byte (R41). -/
theorem copyRawFrom_stop {n : Nat} : ∀ {i : Nat} {c : Config} {u : DecUnit} {f : Fault},
    copyRawFrom n i c u = .stop f → i + n ≤ c.pmSize → i + n ≤ c.omSize →
      ∃ j, f = .unwritten .pm j ∧ j < i + n ∧ u.pm.read j = none := by
  induction n with
  | zero => exact fun h => nomatch h
  | succ n ih =>
    intro i c u f h hp ho
    simp only [copyRawFrom, Res.bind_eq_stop] at h
    rcases h with h | ⟨b, _, h | ⟨y, hy, h⟩⟩
    · rcases readByte_eq_stop.mp h with ⟨-, hr, rfl⟩ | ⟨hn, -⟩
      · exact ⟨i, rfl, by omega, hr⟩
      · omega
    · have := (writeByte_eq_stop.mp (Res.map_eq_stop.mp h)).1
      omega
    · obtain ⟨h3, rfl⟩ := omWrite_eq_ok.mp hy
      obtain ⟨j, hj⟩ := ih h (by omega) (by omega)
      exact ⟨j, hj.1, by omega, hj.2.2⟩

/-! ### The image clear (R125) -/

theorem clearFrom_ok {n : Nat} : ∀ {i : Nat} {c : Config} {im m : Memory}, clearFrom n i c im = .ok m →
    (1 ≤ n → i + n ≤ c.imSize) ∧ (∀ j, i ≤ j → j < i + n → m.read j = some 0)
      ∧ (∀ a, a < i ∨ i + n ≤ a → m.read a = im.read a)
      ∧ (im.wf → m.wf) ∧ (im.within c.imSize → m.within c.imSize) := by
  induction n with
  | zero =>
    intro i c im m h
    cases h
    refine ⟨?_, ?_, fun _ _ => rfl, id, id⟩ <;> intros <;> omega
  | succ n ih =>
    intro i c im m h
    obtain ⟨w, hw, h⟩ := Res.bind_eq_ok.mp h
    obtain ⟨h3, rfl⟩ := writeByte_eq_ok.mp hw
    obtain ⟨e2, e3, e4, e5, e6⟩ := ih h
    refine ⟨fun _ => ?_, fun j hj hk => ?_, fun a ha => ?_, fun hw => ?_, fun hw => ?_⟩
    · by_cases hn : n = 0
      · omega
      · have := e2 (by omega)
        omega
    · by_cases he : j = i
      · subst he
        rw [e4 j (by omega), Memory.read_write_same]
      · exact e3 j (by omega) (by omega)
    · rw [e4 a (by omega), Memory.read_write_other _ _ _ _ (by omega)]
    · exact e5 (Memory.write_wf hw _ _)
    · exact e6 (Memory.write_within hw h3 _)

theorem clearFrom_run {n : Nat} : ∀ {i : Nat} {c : Config} {im : Memory}, i + n ≤ c.imSize →
    ∃ m, clearFrom n i c im = .ok m := by
  induction n with
  | zero => exact fun _ => ⟨_, rfl⟩
  | succ n ih =>
    intro i c im h
    obtain ⟨m, hm⟩ := ih (i := i + 1) (c := c) (im := im.write i 0) (by omega)
    exact ⟨m, Res.bind_eq_ok.mpr ⟨_, writeByte_eq_ok.mpr ⟨by omega, rfl⟩, hm⟩⟩

theorem clearFrom_ne_raise {n : Nat} : ∀ {i : Nat} {c : Config} {im : Memory} {d : Cause} {p : Nat},
    clearFrom n i c im ≠ .raise d p := by
  induction n with
  | zero => exact fun h => nomatch h
  | succ n ih =>
    intro i c im d p h
    rcases Res.bind_eq_raise.mp h with h | ⟨_, _, h⟩
    · exact writeByte_ne_raise h
    · exact ih h

theorem clearFrom_ne_refuse {n : Nat} : ∀ {i : Nat} {c : Config} {im : Memory} {r : Refusal},
    clearFrom n i c im ≠ .refuse r := by
  induction n with
  | zero => exact fun h => nomatch h
  | succ n ih =>
    intro i c im r h
    rcases Res.bind_eq_refuse.mp h with h | ⟨_, _, h⟩
    · exact writeByte_ne_refuse h
    · exact ih h

theorem clearFrom_ne_stop {n : Nat} {i : Nat} {c : Config} {im : Memory} {f : Fault} (h : i + n ≤ c.imSize) :
    clearFrom n i c im ≠ .stop f := by
  obtain ⟨m, hm⟩ := clearFrom_run (im := im) h
  rw [hm]
  simp

/-! ### The fold (R127) -/

/-- The index in OM of the plane bit of pixel k (R127). -/
def planeIndex (c : Config) (w k : Nat) : Nat := k / w * stride c w + k % w

theorem planeBit_eq_ok {c : Config} {w k : Nat} {om : Memory} {b : BitVec 1} :
    planeBit c w om k = .ok b ↔
      ∃ v, planeIndex c w k / 8 < c.omSize ∧ om.read (planeIndex c w k / 8) = some v
        ∧ b = v.extractLsb' (7 - planeIndex c w k % 8) 1 := by
  unfold planeBit planeIndex
  rw [Res.map_eq_ok]
  constructor
  · rintro ⟨v, hv, rfl⟩
    obtain ⟨h1, h2⟩ := readByte_eq_ok.mp hv
    exact ⟨v, h1, h2, rfl⟩
  · rintro ⟨v, h1, h2, rfl⟩
    exact ⟨v, readByte_eq_ok.mpr ⟨h1, h2⟩, rfl⟩

/-- The byte that a fold leaves for a pixel byte v and a plane bit b (R127). -/
def foldedByte (v : Byte) (b : BitVec 1) (plane : Nat) : Byte := v ||| (b.setWidth 8) <<< plane

theorem foldFrom_succ_ok {n k : Nat} {c : Config} {w plane : Nat} {om im m : Memory} :
    foldFrom (n + 1) k c w plane om im = .ok m ↔
      ∃ b v, planeBit c w om k = .ok b ∧ k < c.imSize ∧ im.read k = some v
        ∧ foldFrom n (k + 1) c w plane om (im.write k (foldedByte v b plane)) = .ok m := by
  simp only [foldFrom, Res.bind_eq_ok, readByte_eq_ok, writeByte_eq_ok, foldedByte]
  constructor
  · rintro ⟨b, hb, v, ⟨hk, hv⟩, _, ⟨-, rfl⟩, h⟩
    exact ⟨b, v, hb, hk, hv, h⟩
  · rintro ⟨b, v, hb, hk, hv, h⟩
    exact ⟨b, hb, v, ⟨hk, hv⟩, _, ⟨hk, rfl⟩, h⟩

/-- Everything a finished fold has done. -/
theorem foldFrom_ok {n : Nat} : ∀ {k : Nat} {c : Config} {w plane : Nat} {om im m : Memory},
    foldFrom n k c w plane om im = .ok m →
      (1 ≤ n → k + n ≤ c.imSize)
      ∧ (∀ j, k ≤ j → j < k + n → ∃ b v, planeBit c w om j = .ok b ∧ im.read j = some v
          ∧ m.read j = some (foldedByte v b plane))
      ∧ (∀ a, a < k ∨ k + n ≤ a → m.read a = im.read a)
      ∧ (im.wf → m.wf) ∧ (im.within c.imSize → m.within c.imSize) := by
  induction n with
  | zero =>
    intro k c w plane om im m h
    cases h
    refine ⟨?_, ?_, fun _ _ => rfl, id, id⟩ <;> intros <;> omega
  | succ n ih =>
    intro k c w plane om im m h
    obtain ⟨b, v, hb, h3, hv, h⟩ := foldFrom_succ_ok.mp h
    obtain ⟨e2, e3, e4, e5, e6⟩ := ih h
    refine ⟨fun _ => ?_, fun j hj hk => ?_, fun a ha => ?_, fun hw => ?_, fun hw => ?_⟩
    · by_cases hn : n = 0
      · omega
      · have := e2 (by omega)
        omega
    · by_cases he : j = k
      · subst he
        exact ⟨b, v, hb, hv, by rw [e4 j (by omega), Memory.read_write_same]⟩
      · obtain ⟨b', v', h1, h2, h4⟩ := e3 j (by omega) (by omega)
        rw [Memory.read_write_other _ _ _ _ he] at h2
        exact ⟨b', v', h1, h2, h4⟩
    · rw [e4 a (by omega), Memory.read_write_other _ _ _ _ (by omega)]
    · exact e5 (Memory.write_wf hw _ _)
    · exact e6 (Memory.write_within hw h3 _)

/-- When a fold ends: every pixel has its byte and its plane bit. -/
theorem foldFrom_run {n : Nat} : ∀ {k : Nat} {c : Config} {w plane : Nat} {om im : Memory}, k + n ≤ c.imSize →
    (∀ j, k ≤ j → j < k + n → im.read j ≠ none) → (∀ j, k ≤ j → j < k + n → ∃ b, planeBit c w om j = .ok b) →
      ∃ m, foldFrom n k c w plane om im = .ok m := by
  induction n with
  | zero => exact fun _ _ _ => ⟨_, rfl⟩
  | succ n ih =>
    intro k c w plane om im h1 h2 h3
    obtain ⟨b, hb⟩ := h3 k (by omega) (by omega)
    obtain ⟨v, hv⟩ := Option.ne_none_iff_exists'.mp (h2 k (by omega) (by omega))
    obtain ⟨m, hm⟩ := ih (k := k + 1) (c := c) (w := w) (plane := plane) (om := om)
      (im := im.write k (foldedByte v b plane)) (by omega)
      (fun j hj hk => by
        rw [Memory.read_write_other _ _ _ _ (by omega)]
        exact h2 j (by omega) (by omega))
      (fun j hj hk => h3 j (by omega) (by omega))
    exact ⟨m, foldFrom_succ_ok.mpr ⟨b, v, hb, by omega, hv, hm⟩⟩

theorem foldFrom_ne_raise {n : Nat} : ∀ {k : Nat} {c : Config} {w plane : Nat} {om im : Memory} {d : Cause}
    {p : Nat}, foldFrom n k c w plane om im ≠ .raise d p := by
  induction n with
  | zero => exact fun h => nomatch h
  | succ n ih =>
    intro k c w plane om im d p h
    simp only [foldFrom, planeBit, Res.bind_eq_raise, Res.map_eq_raise] at h
    rcases h with h | ⟨_, _, h | ⟨_, _, h | ⟨_, _, h⟩⟩⟩
    · exact readByte_ne_raise h
    · exact readByte_ne_raise h
    · exact writeByte_ne_raise h
    · exact ih h

theorem foldFrom_ne_refuse {n : Nat} : ∀ {k : Nat} {c : Config} {w plane : Nat} {om im : Memory} {r : Refusal},
    foldFrom n k c w plane om im ≠ .refuse r := by
  induction n with
  | zero => exact fun h => nomatch h
  | succ n ih =>
    intro k c w plane om im r h
    simp only [foldFrom, planeBit, Res.bind_eq_refuse, Res.map_eq_refuse] at h
    rcases h with h | ⟨_, _, h | ⟨_, _, h | ⟨_, _, h⟩⟩⟩
    · exact readByte_ne_refuse h
    · exact readByte_ne_refuse h
    · exact writeByte_ne_refuse h
    · exact ih h

end Sys2Proof.Machine
end

