-- ==== Sys2Proof/Laws/Exec.lean ====
section
/-! SUPPORT. The shape of each instruction's meaning: which of the shapes of a step it is (a command's start step,
a symbol row, a unit's own step, a phase step over the image) and with what body, true by definition. With the
`_cases` lemmas of Laws/Ops.lean they say what exec can do with each instruction. -/

namespace Sys2Proof.Machine

theorem illegalStep_eq (op : BitVec 4) (s : State) : illegalStep op s =
    commandStep s op id fun _ _ => .raise .badOpcode op.toNat := rfl

theorem exec_decode (g : BitVec 28) (s : State) : exec (.decode g) s =
    commandStep s 1#4 clearOutput fun s u =>
      checkRanges s.cfg u (.ok (s.setUnit (((cursorInit s.cfg u).setWp 0).goto .ctrl))) := rfl

theorem exec_copyRaw (g : BitVec 28) (s : State) : exec (.copyRaw g) s =
    commandStep s 2#4 clearOutput fun s u =>
      checkRanges s.cfg u
        (refuseIf (u.srcLen ≠ u.dstLen) .rawSizeMismatch u.srcLen.toNat
          (.ok (s.setUnit ((u.setWp 0).goto .rawcopy)))) := rfl

theorem exec_imgClear (g : BitVec 28) (s : State) : exec (.imgClear g) s =
    commandStep s 3#4 id fun s u =>
      refuseIf (8 < u.bpc.toNat) .bpcRange u.bpc.toNat
        (refuseIf (s.cfg.imSize < u.width.toNat * u.height.toNat) .imgRange (u.width.toNat * u.height.toNat)
          (.ok ({ s with imValid := false }.setUnit (u.goto .imgclear)))) := rfl

theorem exec_fold (g : BitVec 28) (s : State) : exec (.fold g) s =
    commandStep s 4#4 id fun s u =>
      refuseIf (s.imValid = false) .noImage 0
        (refuseIf (s.imgBpc.toNat ≤ u.plane.toNat) .planeRange u.plane.toNat
          (refuseIf (u.omValid = false) .noPlaneData 0
            (refuseIf (8 * u.omLen.toNat < s.imgH.toNat * stride s.cfg s.imgW.toNat) .planeShort u.omLen.toNat
              (.ok (s.setUnit (u.goto .fold)))))) := rfl

theorem exec_illegal0 (g : BitVec 28) (s : State) : exec (.illegal0 g) s =
    illegalStep 0#4 s := rfl

theorem exec_illegal5 (g : BitVec 28) (s : State) : exec (.illegal5 g) s =
    illegalStep 5#4 s := rfl

theorem exec_illegal67 (b : BitVec 1) (g : BitVec 28) (s : State) : exec (.illegal67 b g) s =
    illegalStep (3#3 ++ b) s := rfl

theorem exec_illegal8F (l : BitVec 3) (g : BitVec 28) (s : State) : exec (.illegal8F l g) s =
    illegalStep (1#1 ++ l) s := rfl

theorem exec_ctrlLit (s : State) : exec .ctrlLit s =
    symbolStep s .ctrl read1 0#1 fun u => u.goto .litsel := rfl

theorem exec_ctrlNolit (s : State) : exec .ctrlNolit s =
    symbolStep s .ctrl read1 1#1 fun u => u.goto .endchk := rfl

theorem exec_litExt (s : State) : exec .litExt s =
    symbolStep s .litsel read1 0#1 fun u => (u.setLitcnt 0).goto .litcode := rfl

theorem exec_litOne (s : State) : exec .litOne s =
    symbolStep s .litsel read1 1#1 fun u => (u.setLitcnt 1).goto .litcopy := rfl

theorem exec_litcodeCont (s : State) : exec .litcodeCont s =
    symbolStep s .litcode read2 0#2 fun u => (u.setLitcnt (u.litcnt + 3)).goto .litcode := rfl

theorem exec_litcodeAdd4 (s : State) : exec .litcodeAdd4 s =
    symbolStep s .litcode read2 1#2 fun u => (u.setLitcnt (u.litcnt + 4)).goto .litcopy := rfl

theorem exec_litcodeAdd3 (s : State) : exec .litcodeAdd3 s =
    symbolStep s .litcode read2 2#2 fun u => (u.setLitcnt (u.litcnt + 3)).goto .litcopy := rfl

theorem exec_litcodeAdd2 (s : State) : exec .litcodeAdd2 s =
    symbolStep s .litcode read2 3#2 fun u => (u.setLitcnt (u.litcnt + 2)).goto .litcopy := rfl

theorem exec_litcopy (s : State) : exec .litcopy s =
    unitStep s .litcopy literalBody := rfl

theorem exec_endchk (s : State) : exec .endchk s =
    unitStep s .endchk fun _ u => .ok (if u.wp = u.dstLen.toNat then u.finish else u.goto .midx) := rfl

theorem exec_midx0 (s : State) : exec .midx0 s =
    symbolStep s .midx read4 0#4 fun u => (u.setIndex 0 4 0).goto .mdist := rfl

theorem exec_midx1 (s : State) : exec .midx1 s =
    symbolStep s .midx read4 1#4 fun u => (u.setIndex 1 6 16).goto .mdist := rfl

theorem exec_midx2 (s : State) : exec .midx2 s =
    symbolStep s .midx read4 2#4 fun u => (u.setIndex 2 8 80).goto .mdist := rfl

theorem exec_midx3 (s : State) : exec .midx3 s =
    symbolStep s .midx read4 3#4 fun u => (u.setIndex 3 9 336).goto .mdist := rfl

theorem exec_midx4 (s : State) : exec .midx4 s =
    symbolStep s .midx read4 4#4 fun u => (u.setIndex 4 4 0).goto .mdist := rfl

theorem exec_midx5 (s : State) : exec .midx5 s =
    symbolStep s .midx read4 5#4 fun u => (u.setIndex 5 7 16).goto .mdist := rfl

theorem exec_midx6 (s : State) : exec .midx6 s =
    symbolStep s .midx read4 6#4 fun u => (u.setIndex 6 9 144).goto .mdist := rfl

theorem exec_midx7 (s : State) : exec .midx7 s =
    symbolStep s .midx read4 7#4 fun u => (u.setIndex 7 11 656).goto .mdist := rfl

theorem exec_midx8 (s : State) : exec .midx8 s =
    symbolStep s .midx read4 8#4 fun u => (u.setIndex 8 13 2704).goto .mdist := rfl

theorem exec_midx9 (s : State) : exec .midx9 s =
    symbolStep s .midx read4 9#4 fun u => (u.setIndex 9 14 10896).goto .mdist := rfl

theorem exec_midx10 (s : State) : exec .midx10 s =
    symbolStep s .midx read4 10#4 fun u => (u.setIndex 10 5 0).goto .mdist := rfl

theorem exec_midx11 (s : State) : exec .midx11 s =
    symbolStep s .midx read4 11#4 fun u => (u.setIndex 11 7 32).goto .mdist := rfl

theorem exec_midx12 (s : State) : exec .midx12 s =
    symbolStep s .midx read4 12#4 fun u => (u.setIndex 12 9 160).goto .mdist := rfl

theorem exec_midx13 (s : State) : exec .midx13 s =
    symbolStep s .midx read4 13#4 fun u => (u.setIndex 13 11 672).goto .mdist := rfl

theorem exec_midx14 (s : State) : exec .midx14 s =
    symbolStep s .midx read4 14#4 fun u => (u.setIndex 14 13 2720).goto .mdist := rfl

theorem exec_midx15 (s : State) : exec .midx15 s =
    symbolStep s .midx read4 15#4 fun u => (u.setIndex 15 14 10912).goto .mdist := rfl

theorem exec_mdist (n : BitVec 4) (e : BitVec 14) (s : State) : exec (.mdist n e) s =
    unitStep s .mdist fun c u => (readX u.mbl.toNat c u).bind fun x =>
      if u.mbl = n ∧ x.1 = e.toNat then .ok (setDistance x.1 x.2) else .refuse (.rowNotSelected .mdist) := rfl

theorem exec_mlen2Ext (s : State) : exec .mlen2Ext s =
    symbolStep s .mlen2 read2 0#2 fun u => (u.setMlen 6).goto .mlenn := rfl

theorem exec_mlen2L6 (s : State) : exec .mlen2L6 s =
    symbolStep s .mlen2 read2 1#2 fun u => (u.setMlen 6).goto .mcopy := rfl

theorem exec_mlen2L5 (s : State) : exec .mlen2L5 s =
    symbolStep s .mlen2 read2 2#2 fun u => (u.setMlen 5).goto .mcopy := rfl

theorem exec_mlen2L4 (s : State) : exec .mlen2L4 s =
    symbolStep s .mlen2 read2 3#2 fun u => (u.setMlen 4).goto .mcopy := rfl

theorem exec_mlennCont (s : State) : exec .mlennCont s =
    symbolStep s .mlenn read4 0#4 fun u => (u.setMlen (u.mlen + 15)).goto .mlenn := rfl

theorem exec_mlennAdd1 (s : State) : exec .mlennAdd1 s =
    symbolStep s .mlenn read4 15#4 fun u => (u.setMlen (u.mlen + 1)).goto .mcopy := rfl

theorem exec_mlennAdd2 (s : State) : exec .mlennAdd2 s =
    symbolStep s .mlenn read4 14#4 fun u => (u.setMlen (u.mlen + 2)).goto .mcopy := rfl

theorem exec_mlennAdd3 (s : State) : exec .mlennAdd3 s =
    symbolStep s .mlenn read4 13#4 fun u => (u.setMlen (u.mlen + 3)).goto .mcopy := rfl

theorem exec_mlennAdd4 (s : State) : exec .mlennAdd4 s =
    symbolStep s .mlenn read4 12#4 fun u => (u.setMlen (u.mlen + 4)).goto .mcopy := rfl

theorem exec_mlennAdd5 (s : State) : exec .mlennAdd5 s =
    symbolStep s .mlenn read4 11#4 fun u => (u.setMlen (u.mlen + 5)).goto .mcopy := rfl

theorem exec_mlennAdd6 (s : State) : exec .mlennAdd6 s =
    symbolStep s .mlenn read4 10#4 fun u => (u.setMlen (u.mlen + 6)).goto .mcopy := rfl

theorem exec_mlennAdd7 (s : State) : exec .mlennAdd7 s =
    symbolStep s .mlenn read4 9#4 fun u => (u.setMlen (u.mlen + 7)).goto .mcopy := rfl

theorem exec_mlennAdd8 (s : State) : exec .mlennAdd8 s =
    symbolStep s .mlenn read4 8#4 fun u => (u.setMlen (u.mlen + 8)).goto .mcopy := rfl

theorem exec_mlennAdd9 (s : State) : exec .mlennAdd9 s =
    symbolStep s .mlenn read4 7#4 fun u => (u.setMlen (u.mlen + 9)).goto .mcopy := rfl

theorem exec_mlennAdd10 (s : State) : exec .mlennAdd10 s =
    symbolStep s .mlenn read4 6#4 fun u => (u.setMlen (u.mlen + 10)).goto .mcopy := rfl

theorem exec_mlennAdd11 (s : State) : exec .mlennAdd11 s =
    symbolStep s .mlenn read4 5#4 fun u => (u.setMlen (u.mlen + 11)).goto .mcopy := rfl

theorem exec_mlennAdd12 (s : State) : exec .mlennAdd12 s =
    symbolStep s .mlenn read4 4#4 fun u => (u.setMlen (u.mlen + 12)).goto .mcopy := rfl

theorem exec_mlennAdd13 (s : State) : exec .mlennAdd13 s =
    symbolStep s .mlenn read4 3#4 fun u => (u.setMlen (u.mlen + 13)).goto .mcopy := rfl

theorem exec_mlennAdd14 (s : State) : exec .mlennAdd14 s =
    symbolStep s .mlenn read4 2#4 fun u => (u.setMlen (u.mlen + 14)).goto .mcopy := rfl

theorem exec_mlennAdd15 (s : State) : exec .mlennAdd15 s =
    symbolStep s .mlenn read4 1#4 fun u => (u.setMlen (u.mlen + 15)).goto .mcopy := rfl

theorem exec_mcopy (s : State) : exec .mcopy s =
    unitStep s .mcopy matchBody := rfl

theorem exec_rawcopy (s : State) : exec .rawcopy s =
    unitStep s .rawcopy fun c u =>
      (copyRawFrom u.dstLen.toNat 0 c u).map fun v => (v.setWp v.dstLen.toNat).finish := rfl

theorem exec_imgclear (s : State) : exec .imgclear s =
    phaseStep s .imgclear fun s u =>
      (clearFrom (u.width.toNat * u.height.toNat) 0 s.cfg s.im).map fun m =>
        { s with im := m, imgW := u.width, imgH := u.height, imgBpc := u.bpc, imValid := true }.setUnit u.finish := rfl

theorem exec_foldStep (s : State) : exec .foldStep s =
    phaseStep s .fold fun s u =>
      (foldFrom (s.imgW.toNat * s.imgH.toNat) 0 s.cfg s.imgW.toNat u.plane.toNat u.om s.im).map fun m =>
        { s with im := m }.setUnit u.finish := rfl

end Sys2Proof.Machine
end

