-- ==== Sys2Proof/Laws/Graft.lean ====
section
/-! SUPPORT. What the reads and copies of a DECODE job depend on (R103, R160). `graft c d u` is unit u with every
field that a job does not read replaced by that of unit d; reading and grafting commute where PM agrees below
TAIL. -/

namespace Sys2Proof.Machine

/-- Unit u with d's memories, geometry registers and working registers, and d's copy of the forward index that
FWD_MODE does not use. -/
def graft (c : Config) (d u : DecUnit) : DecUnit :=
  { u with
    pm := d.pm, om := d.om, width := d.width, height := d.height, bpc := d.bpc, plane := d.plane
    litcnt := d.litcnt, midx := d.midx, mbl := d.mbl, mbase := d.mbase, dist := d.dist, mlen := d.mlen
    fwd := if c.fwdMode = .shared then u.fwd else d.fwd
    off := if c.fwdMode = .shared then d.off else u.off }

/-- The PM bytes that a job can still read are the same. -/
def pmAgrees (d u : DecUnit) : Prop := ∀ i, i < u.tail → d.pm.read i = u.pm.read i

section
variable {c : Config} {d u : DecUnit}

@[simp] theorem graft_c1 : (graft c d u).c1 = u.c1 := rfl
@[simp] theorem graft_c2 : (graft c d u).c2 = u.c2 := rfl
@[simp] theorem graft_cx : (graft c d u).cx = u.cx := rfl
@[simp] theorem graft_c4 : (graft c d u).c4 = u.c4 := rfl
@[simp] theorem graft_tail : (graft c d u).tail = u.tail := rfl
@[simp] theorem graft_wp : (graft c d u).wp = u.wp := rfl

theorem forwardPos_graft (k : CursorId) : forwardPos c (graft c d u) k = forwardPos c u k := by
  unfold forwardPos graft
  cases c.fwdMode <;> rfl

theorem setForward_graft (k : CursorId) (n : Nat) : setForward c (graft c d u) k n = graft c d (setForward c u k n) := by
  unfold setForward graft
  cases c.fwdMode <;> rfl

theorem fwdHi_graft : fwdHi c (graft c d u) = fwdHi c u := by
  unfold fwdHi graft
  cases c.fwdMode <;> rfl

theorem pmRead_graft (h : pmAgrees d u) {i : Nat} (hi : i < u.tail) : pmRead c (graft c d u) i = pmRead c u i := by
  unfold pmRead readByte
  rw [show (graft c d u).pm.read i = u.pm.read i from h i hi]

/-- A value with its unit, the unit grafted. -/
def graftRes {α : Type} (c : Config) (d : DecUnit) (x : α × DecUnit) : α × DecUnit := (x.1, graft c d x.2)

theorem take16_graft (h : pmAgrees d u) (k : CursorId) :
    take16 c (graft c d u) k = (take16 c u k).map (graftRes c d) := by
  unfold take16 forwardTake
  simp only [forwardPos_graft, setForward_graft, graft_tail, graft_wp]
  by_cases ht : u.tail < forwardPos c u k + 2
  · simp [ht]
  · simp only [ht, if_false, Res.bind_ok]
    rw [pmRead_graft h (by omega), pmRead_graft h (by omega)]
    cases pmRead c u (forwardPos c u k) <;> try rfl
    cases pmRead c u (forwardPos c u k + 1) <;> rfl

theorem take32_graft (h : pmAgrees d u) : take32 c (graft c d u) = (take32 c u).map (graftRes c d) := by
  unfold take32 forwardTake
  simp only [forwardPos_graft, setForward_graft, graft_tail, graft_wp]
  by_cases ht : u.tail < forwardPos c u .c4 + 4
  · simp [ht]
  · simp only [ht, if_false, Res.bind_ok]
    rw [pmRead_graft h (by omega), pmRead_graft h (by omega), pmRead_graft h (by omega), pmRead_graft h (by omega)]
    cases pmRead c u (forwardPos c u .c4) <;> try rfl
    cases pmRead c u (forwardPos c u .c4 + 1) <;> try rfl
    cases pmRead c u (forwardPos c u .c4 + 2) <;> try rfl
    cases pmRead c u (forwardPos c u .c4 + 3) <;> rfl

theorem read1_graft (h : pmAgrees d u) : read1 c (graft c d u) = (read1 c u).map (graftRes c d) := by
  unfold read1 readyC1
  rw [take16_graft h]
  simp only [graft_c1]
  by_cases hr : u.c1.rem = 0
  · simp only [hr, if_true]
    cases take16 c u .c1 <;> rfl
  · simp only [hr, if_false]
    rfl

theorem read2_graft (h : pmAgrees d u) : read2 c (graft c d u) = (read2 c u).map (graftRes c d) := by
  unfold read2 readyC2
  rw [take16_graft h]
  simp only [graft_c2]
  by_cases hr : u.c2.rem = 0
  · simp only [hr, if_true]
    cases take16 c u .c2 <;> rfl
  · simp only [hr, if_false]
    rfl

theorem read4_graft (h : pmAgrees d u) : read4 c (graft c d u) = (read4 c u).map (graftRes c d) := by
  unfold read4 readyC4
  rw [take32_graft h]
  simp only [graft_c4]
  by_cases hr : u.c4.rem = 0
  · simp only [hr, if_true]
    cases take32 c u <;> rfl
  · simp only [hr, if_false]
    rfl

theorem readXBit_graft (h : pmAgrees d u) : readXBit c (graft c d u) = (readXBit c u).map (graftRes c d) := by
  unfold readXBit readyCX
  rw [take16_graft h]
  simp only [graft_cx]
  by_cases hr : u.cx.rem = 0
  · simp only [hr, if_true]
    cases take16 c u .cx <;> rfl
  · simp only [hr, if_false]
    rfl

theorem pmAgrees_cursorsOnly {v : DecUnit} (h : pmAgrees d u) (hv : cursorsOnly u v) : pmAgrees d v := by
  unfold pmAgrees at *
  rw [hv]
  exact h

theorem readXFrom_graft {n : Nat} : ∀ {r : Nat} {u : DecUnit}, pmAgrees d u →
    readXFrom n r c (graft c d u) = (readXFrom n r c u).map (graftRes c d) := by
  induction n with
  | zero => exact fun _ => rfl
  | succ n ih =>
    intro r u h
    unfold readXFrom
    rw [readXBit_graft h]
    cases hx : readXBit c u with
    | ok x => exact ih (pmAgrees_cursorsOnly h (readXBit_ok (b := x.1) (v := x.2) hx).1.1)
    | raise e p => rfl
    | stop f => rfl
    | refuse e => rfl

theorem readX_graft {n : Nat} (h : pmAgrees d u) : readX n c (graft c d u) = (readX n c u).map (graftRes c d) :=
  readXFrom_graft h

end

/-- Two outcomes of a copy, on a unit and on a unit with d grafted on: both finish and differ by what was grafted
and by OM, or both raise alike, or both stop alike. -/
def copiesAlike (c : Config) (d : DecUnit) (x y : Res DecUnit) : Prop :=
  (∃ v m, x = .ok v ∧ y = .ok (graft c { d with om := m } v)) ∨ (∃ e p, x = .raise e p ∧ y = .raise e p)
    ∨ ∃ f, x = .stop f ∧ y = .stop f

theorem copyLiterals_graft {n : Nat} : ∀ {c : Config} {d u : DecUnit}, pmAgrees d u →
    copiesAlike c d (copyLiterals n c u) (copyLiterals n c (graft c d u)) := by
  induction n with
  | zero => exact fun {c d u} _ => .inl ⟨u, d.om, rfl, rfl⟩
  | succ n ih =>
    intro c d u h
    unfold copyLiterals tailByte
    simp only [fwdHi_graft, graft_tail, graft_wp]
    by_cases ht : u.tail ≤ fwdHi c u
    · simp only [ht, if_true]
      exact .inr (.inl ⟨_, _, rfl, rfl⟩)
    · simp only [ht, if_false]
      rw [pmRead_graft h (by omega)]
      cases hp : pmRead c u (u.tail - 1) with
      | raise e p => exact absurd hp pmRead_ne_raise
      | refuse e => exact absurd hp pmRead_ne_refuse
      | stop f => exact .inr (.inr ⟨f, rfl, rfl⟩)
      | ok b =>
        by_cases hw : u.wp < c.omSize
        · have key := ih (c := c) (d := { d with om := d.om.write u.wp b })
            (u := ((u.setTail (u.tail - 1)).setOm (u.om.write u.wp b)).setWp (u.wp + 1))
            (fun i hi => h i (by change i < u.tail - 1 at hi; omega))
          have h1 : ((u.setTail (u.tail - 1)).setOm (u.om.write u.wp b)).setWp (u.wp + 1) = literalTurn u b := rfl
          simp only [Res.map_ok, Res.bind_ok, omWrite, writeByte]
          change copiesAlike c d
            (((if u.wp < c.omSize then Res.ok (u.om.write u.wp b) else _).map _).bind _)
            (((if u.wp < c.omSize then Res.ok (d.om.write u.wp b) else _).map _).bind _)
          simp only [hw, if_true, Res.map_ok, Res.bind_ok]
          rcases key with ⟨v, m, k1, k2⟩ | ⟨e, p, k1, k2⟩ | ⟨f, k1, k2⟩
          · exact .inl ⟨v, m, k1, k2⟩
          · exact .inr (.inl ⟨e, p, k1, k2⟩)
          · exact .inr (.inr ⟨f, k1, k2⟩)
        · simp only [Res.map_ok, Res.bind_ok, omWrite, writeByte]
          change copiesAlike c d
            (((if u.wp < c.omSize then Res.ok (u.om.write u.wp b) else _).map _).bind _)
            (((if u.wp < c.omSize then Res.ok (d.om.write u.wp b) else _).map _).bind _)
          simp only [hw, if_false]
          exact .inr (.inr ⟨_, rfl, rfl⟩)

end Sys2Proof.Machine
end

