-- ==== Sys2Proof/Laws/PerInstr.lean ====
section
/-! SUPPORT. The family Encoding, one lemma for each constructor of Instr: the instruction's row stands in the
opcode table, and the encoding that the encoder gives selects that row (R58, R61, R70). -/

namespace Sys2Proof.Laws.Encoding

/-- The row of a well-formed instruction is one of the table's, and its encoding selects it (R70). -/
def Statement (i : Instr) : Prop := i.WellFormed → i.row ∈ opcodeTable ∧ i.row.matches (encode i) = true

/-- A command word's value is its OP field and 16 times the rest (R58). -/
theorem cmdWord_toNat (op : BitVec 4) (g : BitVec 28) : (cmdWord op g).toNat = 16 * g.toNat + op.toNat := by
  have h : op.toNat < 2 ^ 4 := op.isLt
  rw [cmdWord, BitVec.toNat_append, Nat.shiftLeft_eq, Nat.mul_comm, ← Nat.two_pow_add_eq_or_of_lt h]

/-- A mask inside the OP field sees that field alone (R58). -/
theorem cmdWord_mask (op : BitVec 4) (g : BitVec 28) (m : Nat) (h : m = 15 &&& m) :
    (cmdWord op g).toNat &&& m = op.toNat &&& m := by
  have h16 : (cmdWord op g).toNat &&& 15 = op.toNat := by
    rw [show (15 : Nat) = 2 ^ 4 - 1 from rfl, Nat.and_two_pow_sub_one_eq_mod, cmdWord_toNat]
    have : op.toNat < 16 := op.isLt
    omega
  rw [h, ← Nat.and_assoc, h16, ← Nat.and_assoc]
  congr 1
  rw [show (15 : Nat) = 2 ^ 4 - 1 from rfl, Nat.and_two_pow_sub_one_eq_mod]
  exact (Nat.mod_eq_of_lt op.isLt).symm

/-- A command selects the row whose mask and match fit its OP field. -/
theorem command_matches (name : String) (mtch mask : Nat) (op : BitVec 4) (g : BitVec 28) (hm : mask = 15 &&& mask)
    (h : op.toNat &&& mask = mtch) : (Row.mk name none mtch mask).matches (.cmd (cmdWord op g)) = true := by
  simp [Row.matches, Code.phase, Code.value, cmdWord_mask op g mask hm, h]

/-- Every instruction's row is one of the table's (R70). -/
theorem row_mem (i : Instr) : i.row ∈ opcodeTable := by
  cases i <;> simp only [Instr.row] <;> decide

/-- OP 6 and 7 share their three high bits (R59). -/
theorem op67 : ∀ b : BitVec 1, (3#3 ++ b).toNat &&& 14 = 6 := by decide

/-- OP 8 to 15 share their high bit (R59). -/
theorem op8F : ∀ l : BitVec 3, (1#1 ++ l).toNat &&& 8 = 8 := by decide

theorem decode (ignored : BitVec 28) : Statement (.decode ignored) :=
  fun _ => ⟨row_mem _, command_matches _ _ _ _ _ rfl rfl⟩

theorem copyRaw (ignored : BitVec 28) : Statement (.copyRaw ignored) :=
  fun _ => ⟨row_mem _, command_matches _ _ _ _ _ rfl rfl⟩

theorem imgClear (ignored : BitVec 28) : Statement (.imgClear ignored) :=
  fun _ => ⟨row_mem _, command_matches _ _ _ _ _ rfl rfl⟩

theorem fold (ignored : BitVec 28) : Statement (.fold ignored) :=
  fun _ => ⟨row_mem _, command_matches _ _ _ _ _ rfl rfl⟩

theorem illegal0 (ignored : BitVec 28) : Statement (.illegal0 ignored) :=
  fun _ => ⟨row_mem _, command_matches _ _ _ _ _ rfl rfl⟩

theorem illegal5 (ignored : BitVec 28) : Statement (.illegal5 ignored) :=
  fun _ => ⟨row_mem _, command_matches _ _ _ _ _ rfl rfl⟩

theorem illegal67 (op0 : BitVec 1) (ignored : BitVec 28) : Statement (.illegal67 op0 ignored) :=
  fun _ => ⟨row_mem _, command_matches _ _ _ _ _ rfl (op67 op0)⟩

theorem illegal8F (op20 : BitVec 3) (ignored : BitVec 28) : Statement (.illegal8F op20 ignored) :=
  fun _ => ⟨row_mem _, command_matches _ _ _ _ _ rfl (op8F op20)⟩

theorem ctrlLit : Statement .ctrlLit :=
  fun _ => ⟨row_mem _, rfl⟩

theorem ctrlNolit : Statement .ctrlNolit :=
  fun _ => ⟨row_mem _, rfl⟩

theorem litExt : Statement .litExt :=
  fun _ => ⟨row_mem _, rfl⟩

theorem litOne : Statement .litOne :=
  fun _ => ⟨row_mem _, rfl⟩

theorem litcodeCont : Statement .litcodeCont :=
  fun _ => ⟨row_mem _, rfl⟩

theorem litcodeAdd4 : Statement .litcodeAdd4 :=
  fun _ => ⟨row_mem _, rfl⟩

theorem litcodeAdd3 : Statement .litcodeAdd3 :=
  fun _ => ⟨row_mem _, rfl⟩

theorem litcodeAdd2 : Statement .litcodeAdd2 :=
  fun _ => ⟨row_mem _, rfl⟩

theorem litcopy : Statement .litcopy :=
  fun _ => ⟨row_mem _, rfl⟩

theorem endchk : Statement .endchk :=
  fun _ => ⟨row_mem _, rfl⟩

theorem midx0 : Statement .midx0 :=
  fun _ => ⟨row_mem _, rfl⟩

theorem midx1 : Statement .midx1 :=
  fun _ => ⟨row_mem _, rfl⟩

theorem midx2 : Statement .midx2 :=
  fun _ => ⟨row_mem _, rfl⟩

theorem midx3 : Statement .midx3 :=
  fun _ => ⟨row_mem _, rfl⟩

theorem midx4 : Statement .midx4 :=
  fun _ => ⟨row_mem _, rfl⟩

theorem midx5 : Statement .midx5 :=
  fun _ => ⟨row_mem _, rfl⟩

theorem midx6 : Statement .midx6 :=
  fun _ => ⟨row_mem _, rfl⟩

theorem midx7 : Statement .midx7 :=
  fun _ => ⟨row_mem _, rfl⟩

theorem midx8 : Statement .midx8 :=
  fun _ => ⟨row_mem _, rfl⟩

theorem midx9 : Statement .midx9 :=
  fun _ => ⟨row_mem _, rfl⟩

theorem midx10 : Statement .midx10 :=
  fun _ => ⟨row_mem _, rfl⟩

theorem midx11 : Statement .midx11 :=
  fun _ => ⟨row_mem _, rfl⟩

theorem midx12 : Statement .midx12 :=
  fun _ => ⟨row_mem _, rfl⟩

theorem midx13 : Statement .midx13 :=
  fun _ => ⟨row_mem _, rfl⟩

theorem midx14 : Statement .midx14 :=
  fun _ => ⟨row_mem _, rfl⟩

theorem midx15 : Statement .midx15 :=
  fun _ => ⟨row_mem _, rfl⟩

theorem mdist (n : BitVec 4) (e : BitVec 14) : Statement (.mdist n e) :=
  fun _ => ⟨row_mem _, by simp [Row.matches, Instr.row, encode, Code.phase]⟩

theorem mlen2Ext : Statement .mlen2Ext :=
  fun _ => ⟨row_mem _, rfl⟩

theorem mlen2L6 : Statement .mlen2L6 :=
  fun _ => ⟨row_mem _, rfl⟩

theorem mlen2L5 : Statement .mlen2L5 :=
  fun _ => ⟨row_mem _, rfl⟩

theorem mlen2L4 : Statement .mlen2L4 :=
  fun _ => ⟨row_mem _, rfl⟩

theorem mlennCont : Statement .mlennCont :=
  fun _ => ⟨row_mem _, rfl⟩

theorem mlennAdd1 : Statement .mlennAdd1 :=
  fun _ => ⟨row_mem _, rfl⟩

theorem mlennAdd2 : Statement .mlennAdd2 :=
  fun _ => ⟨row_mem _, rfl⟩

theorem mlennAdd3 : Statement .mlennAdd3 :=
  fun _ => ⟨row_mem _, rfl⟩

theorem mlennAdd4 : Statement .mlennAdd4 :=
  fun _ => ⟨row_mem _, rfl⟩

theorem mlennAdd5 : Statement .mlennAdd5 :=
  fun _ => ⟨row_mem _, rfl⟩

theorem mlennAdd6 : Statement .mlennAdd6 :=
  fun _ => ⟨row_mem _, rfl⟩

theorem mlennAdd7 : Statement .mlennAdd7 :=
  fun _ => ⟨row_mem _, rfl⟩

theorem mlennAdd8 : Statement .mlennAdd8 :=
  fun _ => ⟨row_mem _, rfl⟩

theorem mlennAdd9 : Statement .mlennAdd9 :=
  fun _ => ⟨row_mem _, rfl⟩

theorem mlennAdd10 : Statement .mlennAdd10 :=
  fun _ => ⟨row_mem _, rfl⟩

theorem mlennAdd11 : Statement .mlennAdd11 :=
  fun _ => ⟨row_mem _, rfl⟩

theorem mlennAdd12 : Statement .mlennAdd12 :=
  fun _ => ⟨row_mem _, rfl⟩

theorem mlennAdd13 : Statement .mlennAdd13 :=
  fun _ => ⟨row_mem _, rfl⟩

theorem mlennAdd14 : Statement .mlennAdd14 :=
  fun _ => ⟨row_mem _, rfl⟩

theorem mlennAdd15 : Statement .mlennAdd15 :=
  fun _ => ⟨row_mem _, rfl⟩

theorem mcopy : Statement .mcopy :=
  fun _ => ⟨row_mem _, rfl⟩

theorem rawcopy : Statement .rawcopy :=
  fun _ => ⟨row_mem _, rfl⟩

theorem imgclear : Statement .imgclear :=
  fun _ => ⟨row_mem _, rfl⟩

theorem foldStep : Statement .foldStep :=
  fun _ => ⟨row_mem _, rfl⟩

end Sys2Proof.Laws.Encoding
end

