-- ==== Sys2Proof/Laws/Step.lean ====
section
/-! SUPPORT. What one step of the machine can do (R5, R10, R158): whose turn it is, what a unit's turn runs,
what a host's turn runs, and the cases of a step that answers a next state. -/

namespace Sys2Proof.Machine

@[simp] theorem runFetched_run (i : Instr) (t : State) : runFetched (.run i t) = recordStop t (exec i t) := rfl
@[simp] theorem runFetched_out (o : Out) : runFetched (.out o) = o := rfl

/-! ### The record of an unwritten byte (R41) -/

@[simp] theorem recordStop_next (s t : State) : recordStop s (.next t) = .next t := rfl
@[simp] theorem recordStop_refused (s : State) (r : Refusal) : recordStop s (.refused r) = .refused r := rfl
@[simp] theorem recordStop_unwritten (s : State) (m : Space) (a : Nat) :
    recordStop s (.fault (.unwritten m a)) = .next (s.stopUnit m a) := rfl

/-- A recorded step answers a next state in one of two ways: it did so by itself, or it stopped its unit. -/
theorem recordStop_eq_next {s t : State} {o : Out} :
    recordStop s o = .next t ↔ o = .next t ∨ ∃ m a, o = .fault (.unwritten m a) ∧ t = s.stopUnit m a := by
  cases o with
  | next x => simp [recordStop]
  | refused r => simp [recordStop]
  | fault f => cases f <;> simp [recordStop, eq_comm]

theorem recordStop_eq_refused {s : State} {o : Out} {r : Refusal} :
    recordStop s o = .refused r ↔ o = .refused r := by
  cases o with
  | next x => simp [recordStop]
  | refused r => simp [recordStop]
  | fault f => cases f <;> simp [recordStop]

theorem isStopped_eq_true {l : List Stopped} {k : Nat} : isStopped l k = true ↔ ∃ x ∈ l, x.unit = k := by
  simp [isStopped]

theorem isStopped_eq_false {l : List Stopped} {k : Nat} : isStopped l k = false ↔ ∀ x ∈ l, x.unit ≠ k := by
  simp [isStopped]

/-! ### Whose turn it is -/

theorem busyFrom_mem {st : List Stopped} {l : List DecUnit} : ∀ {n k : Nat},
    Agent.unit k ∈ busyFrom st n l ↔
      ∃ j u, k = n + j ∧ l[j]? = some u ∧ u.state = .busy ∧ isStopped st k = false := by
  induction l with
  | nil => simp [busyFrom]
  | cons x rest ih =>
    intro n k
    unfold busyFrom
    have hrest : (∃ j u, k = n + 1 + j ∧ rest[j]? = some u ∧ u.state = .busy ∧ isStopped st k = false) ↔
        ∃ j u, k = n + (j + 1) ∧ (x :: rest)[j + 1]? = some u ∧ u.state = .busy ∧ isStopped st k = false := by
      simp only [List.getElem?_cons_succ, show ∀ j, n + 1 + j = n + (j + 1) by omega]
    split
    · rename_i hb
      rw [List.mem_cons, ih, hrest]
      constructor
      · rintro (h | ⟨j, u, h⟩)
        · cases h
          exact ⟨0, x, rfl, rfl, hb.1, hb.2⟩
        · exact ⟨j + 1, u, h⟩
      · rintro ⟨j, u, h1, h2, h3⟩
        cases j with
        | zero => exact .inl (by rw [h1, Nat.add_zero])
        | succ j => exact .inr ⟨j, u, h1, h2, h3⟩
    · rename_i hb
      rw [ih, hrest]
      constructor
      · rintro ⟨j, u, h⟩
        exact ⟨j + 1, u, h⟩
      · rintro ⟨j, u, h1, h2, h3⟩
        cases j with
        | zero =>
          cases h2
          exact absurd ⟨h3.1, (by simpa using h1) ▸ h3.2⟩ hb
        | succ j => exact ⟨j, u, h1, h2, h3⟩

theorem host_not_mem_busyFrom {st : List Stopped} {l : List DecUnit} : ∀ {n : Nat}, Agent.host ∉ busyFrom st n l := by
  induction l with
  | nil => simp [busyFrom]
  | cons x rest ih =>
    intro n
    unfold busyFrom
    split <;> simp [ih]

theorem unit_mem_enabled {s : State} {k : Nat} :
    .unit k ∈ enabled s ↔ ∃ u, s.units[k]? = some u ∧ u.state = .busy ∧ isStopped s.stopped k = false := by
  unfold enabled
  split <;> simp [busyFrom_mem]

theorem host_mem_enabled {s : State} : .host ∈ enabled s ↔ hostReady s = true := by
  unfold enabled
  split <;> simp_all [host_not_mem_busyFrom]

/-- The agent picked can move, and picking changes nothing but the choices and draws used (I15). -/
theorem pick_eq_some {s t : State} {a : Agent} (h : pick s = some (a, t)) :
    a ∈ enabled s ∧ t = { s with choices := t.choices, draws := t.draws } := by
  unfold pick at h
  split at h
  · cases h
  · rename_i b he
    cases h
    exact ⟨by simp [he], rfl⟩
  · rename_i b d rest he
    cases h
    refine ⟨?_, ?_⟩
    · rw [he, List.getD_eq_getElem?_getD]
      have hlt : (nextChoice s).1 % (rest.length + 2) < (b :: d :: rest).length :=
        Nat.mod_lt _ (by simp)
      rw [List.getElem?_eq_getElem hlt]
      exact List.getElem_mem hlt
    · unfold nextChoice
      split <;> rfl

theorem pick_eq_none {s : State} : pick s = none ↔ enabled s = [] := by
  unfold pick
  split <;> simp_all

theorem pick_single {s : State} {a : Agent} (h : enabled s = [a]) : pick s = some (a, s) := by
  simp [pick, h]

/-! ### A unit's turn -/

theorem unitTurn_units {s t : State} {k : Nat} (h : unitTurn s k t) :
    t.units = s.units ∧ t.cfg = s.cfg ∧ t.im = s.im ∧ t.cur = k ∧ t.stopped = s.stopped
      ∧ ∃ u, s.units[k]? = some u ∧ u.state = .busy ∧ isStopped s.stopped k = false := by
  obtain ⟨-, s1, hp, rfl⟩ := h
  obtain ⟨ha, he⟩ := pick_eq_some hp
  exact ⟨by rw [he], by rw [he], by rw [he], rfl, by rw [he], unit_mem_enabled.mp ha⟩

theorem step_unitTurn {s t : State} {k : Nat} (h : unitTurn s k t) :
    step s = runFetched (unitFetch k t) := by
  obtain ⟨hv, s1, hp, rfl⟩ := h
  simp only [step, fetch, hv, if_true, hp]
  rfl

/-! ### The host's turn -/

theorem hostTurn_units {s t : State} {a : HostAction} (h : hostTurn s a t) :
    t.units = s.units ∧ t.cfg = s.cfg ∧ t.im = s.im ∧ t.imgW = s.imgW ∧ t.imgH = s.imgH ∧ t.imgBpc = s.imgBpc
      ∧ t.imValid = s.imValid ∧ t.stopped = s.stopped ∧ t.cur = s.cur ∧ t.host.file = s.host.file := by
  obtain ⟨-, s1, rest, hp, ht, rfl⟩ := h
  obtain ⟨ha, he⟩ := pick_eq_some hp
  rw [he]
  exact ⟨rfl, rfl, rfl, rfl, rfl, rfl, rfl, rfl, rfl, rfl⟩

theorem step_hostTurn {s t : State} {a : HostAction} (h : hostTurn s a t) :
    step s = runFetched (hostAct a t) := by
  obtain ⟨hv, s1, rest, hp, ht, rfl⟩ := h
  simp only [step, fetch, hv, if_true, hp, hostFetch, ht]
  rfl

/-! ### The cases of a step -/

/-- Everything a step can be: refused for its parameters, no agent to move, the host's turn or a unit's. -/
theorem step_turns (s : State) :
    (paramsValid s.cfg = false ∧ step s = .refused .badParameter)
      ∨ (paramsValid s.cfg = true ∧ enabled s = [] ∧ step s = .next s)
      ∨ (∃ a t, hostTurn s a t) ∨ ∃ k t, unitTurn s k t := by
  cases hv : paramsValid s.cfg with
  | false => exact .inl ⟨rfl, by simp [step, fetch, hv]⟩
  | true =>
    refine .inr ?_
    cases hp : pick s with
    | none => exact .inl ⟨rfl, pick_eq_none.mp hp, by simp [step, fetch, hv, hp]⟩
    | some x =>
      obtain ⟨a, t⟩ := x
      obtain ⟨ha, he⟩ := pick_eq_some hp
      cases a with
      | unit k => exact .inr (.inr ⟨k, _, hv, t, hp, rfl⟩)
      | host =>
        have hr := host_mem_enabled.mp ha
        unfold hostReady at hr
        split at hr
        · cases hr
        · rename_i a rest hq
          exact .inr (.inl ⟨a, _, hv, t, rest, hp, by rw [he]; exact hq, rfl⟩)

end Sys2Proof.Machine
end

