-- ==== Sys2Proof/Laws/Turns.lean ====
section
/-! SUPPORT. A unit's turn as one function of the unit (`phaseBody`), the host's turn as a short list of cases, and
the start step of any command word as a short list of cases. Claims about every step go through these. -/

namespace Sys2Proof.Machine

/-! ### The row that a symbol selects, run -/

theorem exec_decodeF (b : BitVec 1) (s : State) :
    exec (decodeF b) s =
      symbolStep s .ctrl read1 b fun u => if b = 0#1 then u.goto .litsel else u.goto .endchk := by
  revert b
  have h : ∀ b : BitVec 1, b = 0#1 ∨ b = 1#1 := by decide
  intro b
  rcases h b with rfl | rfl <;> rfl

theorem exec_decodeS (b : BitVec 1) (s : State) :
    exec (decodeS b) s = symbolStep s .litsel read1 b fun u =>
      if b = 0#1 then (u.setLitcnt 0).goto .litcode else (u.setLitcnt 1).goto .litcopy := by
  have h : ∀ b : BitVec 1, b = 0#1 ∨ b = 1#1 := by decide
  rcases h b with rfl | rfl <;> rfl

theorem exec_decodeLc (b : BitVec 2) (s : State) :
    exec (decodeLc b) s = symbolStep s .litcode read2 b fun u =>
      if b = 0#2 then (u.setLitcnt (u.litcnt + 3)).goto .litcode
      else (u.setLitcnt (u.litcnt + (5 - b.toNat))).goto .litcopy := by
  have h : ∀ b : BitVec 2, b = 0#2 ∨ b = 1#2 ∨ b = 2#2 ∨ b = 3#2 := by decide
  rcases h b with rfl | rfl | rfl | rfl <;> rfl

theorem exec_decodeI (b : BitVec 4) (s : State) :
    exec (decodeI b) s = symbolStep s .midx read4 b fun u =>
      (u.setIndex b (vlcLookup b).1 (vlcLookup b).2).goto .mdist := by
  have h : ∀ b : BitVec 4, b = 0#4 ∨ b = 1#4 ∨ b = 2#4 ∨ b = 3#4 ∨ b = 4#4 ∨ b = 5#4 ∨ b = 6#4 ∨ b = 7#4
    ∨ b = 8#4 ∨ b = 9#4 ∨ b = 10#4 ∨ b = 11#4 ∨ b = 12#4 ∨ b = 13#4 ∨ b = 14#4 ∨ b = 15#4 := by decide
  rcases h b with rfl | rfl | rfl | rfl | rfl | rfl | rfl | rfl | rfl | rfl | rfl | rfl | rfl | rfl | rfl | rfl <;> rfl

theorem exec_decodeMc (b : BitVec 2) (s : State) :
    exec (decodeMc b) s = symbolStep s .mlen2 read2 b fun u =>
      if b = 0#2 then (u.setMlen 6).goto .mlenn else (u.setMlen (3 + (4 - b.toNat))).goto .mcopy := by
  have h : ∀ b : BitVec 2, b = 0#2 ∨ b = 1#2 ∨ b = 2#2 ∨ b = 3#2 := by decide
  rcases h b with rfl | rfl | rfl | rfl <;> rfl

theorem exec_decodeN (b : BitVec 4) (s : State) :
    exec (decodeN b) s = symbolStep s .mlenn read4 b fun u =>
      if b = 0#4 then (u.setMlen (u.mlen + 15)).goto .mlenn
      else (u.setMlen (u.mlen + (16 - b.toNat))).goto .mcopy := by
  have h : ∀ b : BitVec 4, b = 0#4 ∨ b = 1#4 ∨ b = 2#4 ∨ b = 3#4 ∨ b = 4#4 ∨ b = 5#4 ∨ b = 6#4 ∨ b = 7#4
    ∨ b = 8#4 ∨ b = 9#4 ∨ b = 10#4 ∨ b = 11#4 ∨ b = 12#4 ∨ b = 13#4 ∨ b = 14#4 ∨ b = 15#4 := by decide
  rcases h b with rfl | rfl | rfl | rfl | rfl | rfl | rfl | rfl | rfl | rfl | rfl | rfl | rfl | rfl | rfl | rfl <;> rfl

/-! ### A unit's turn -/

/-- What a unit's turn does to a state and its unit, whatever symbol comes next: the phase's step as one function
(R91 and the step rules). -/
def phaseBody (s : State) (u : DecUnit) : Res State :=
  match u.phase with
  | .none => .stop (.noStep s.cur)
  | .ctrl => (read1 s.cfg u).map fun x =>
      s.setUnit (if x.1 = 0#1 then x.2.goto .litsel else x.2.goto .endchk)
  | .litsel => (read1 s.cfg u).map fun x =>
      s.setUnit (if x.1 = 0#1 then (x.2.setLitcnt 0).goto .litcode else (x.2.setLitcnt 1).goto .litcopy)
  | .litcode => (read2 s.cfg u).map fun x =>
      s.setUnit (if x.1 = 0#2 then (x.2.setLitcnt (x.2.litcnt + 3)).goto .litcode
        else (x.2.setLitcnt (x.2.litcnt + (5 - x.1.toNat))).goto .litcopy)
  | .litcopy => (literalBody s.cfg u).map s.setUnit
  | .endchk => .ok (s.setUnit (if u.wp = u.dstLen.toNat then u.finish else u.goto .midx))
  | .midx => (read4 s.cfg u).map fun x =>
      s.setUnit ((x.2.setIndex x.1 (vlcLookup x.1).1 (vlcLookup x.1).2).goto .mdist)
  | .mdist => (readX u.mbl.toNat s.cfg u).map fun x => s.setUnit (setDistance x.1 x.2)
  | .mlen2 => (read2 s.cfg u).map fun x =>
      s.setUnit (if x.1 = 0#2 then (x.2.setMlen 6).goto .mlenn
        else (x.2.setMlen (3 + (4 - x.1.toNat))).goto .mcopy)
  | .mlenn => (read4 s.cfg u).map fun x =>
      s.setUnit (if x.1 = 0#4 then (x.2.setMlen (x.2.mlen + 15)).goto .mlenn
        else (x.2.setMlen (x.2.mlen + (16 - x.1.toNat))).goto .mcopy)
  | .mcopy => (matchBody s.cfg u).map s.setUnit
  | .rawcopy => ((copyRawFrom u.dstLen.toNat 0 s.cfg u).map fun v => (v.setWp v.dstLen.toNat).finish).map s.setUnit
  | .imgclear =>
      (clearFrom (u.width.toNat * u.height.toNat) 0 s.cfg s.im).map fun m =>
        { s with im := m, imgW := u.width, imgH := u.height, imgBpc := u.bpc, imValid := true }.setUnit u.finish
  | .fold =>
      (foldFrom (s.imgW.toNat * s.imgH.toNat) 0 s.cfg s.imgW.toNat u.plane.toNat u.om s.im).map fun m =>
        { s with im := m }.setUnit u.finish

/-- READX's value has n bits (R78). -/
theorem readXFrom_lt {n : Nat} : ∀ {m r e : Nat} {c : Config} {u v : DecUnit}, r < 2 ^ m →
    readXFrom n r c u = .ok (e, v) → e < 2 ^ (m + n) := by
  induction n with
  | zero =>
    intro m r e c u v hr h
    cases h
    exact hr
  | succ n ih =>
    intro m r e c u v hr h
    obtain ⟨x, hx, h⟩ := Res.bind_eq_ok.mp h
    have hb := x.1.isLt
    have := ih (m := m + 1) (by rw [Nat.pow_succ]; omega) h
    rwa [show m + 1 + n = m + (n + 1) by omega] at this

theorem readX_lt {n e : Nat} {c : Config} {u v : DecUnit} (h : readX n c u = .ok (e, v)) : e < 2 ^ n := by
  have := readXFrom_lt (m := 0) (r := 0) (by decide) h
  rwa [Nat.zero_add] at this

section
variable {s : State} {u : DecUnit}

/-- The fetch and the instruction it runs are one function of the unit. The two side conditions are kept by every
step: a BUSY unit in phase MDIST has an MBL in 4..14 (R22). -/
theorem unitFetch_run (hu : s.units[s.cur]? = some u) (hb : u.state = .busy)
    (hm : u.phase = .mdist → 4 ≤ u.mbl.toNat ∧ u.mbl.toNat ≤ 14) :
    runFetched (unitFetch s.cur s) = recordStop s (settle s u (phaseBody s u)) := by
  have hc : s.unit? = some u := hu
  unfold unitFetch fetchCode phaseBody
  simp only [hu]
  cases hp : u.phase with
  | none =>
    rfl
  | ctrl =>
    dsimp only
    cases hr : read1 s.cfg u with
    | ok x =>
      have hd : symbolOf 1 1 x.1.toNat = .ok x.1 := by simp [symbolOf, x.1.isLt]
      simp only [Res.map_ok, decode, decodeSym, hd, Except.map]
      exact congrArg (recordStop s) ((exec_decodeF x.1 s).trans (symbolStep_ok hc hb hp hr))
    | raise c p => rfl
    | stop f => rfl
    | refuse r => rfl
  | litsel =>
    dsimp only
    cases hr : read1 s.cfg u with
    | ok x =>
      have hd : symbolOf 1 1 x.1.toNat = .ok x.1 := by simp [symbolOf, x.1.isLt]
      simp only [Res.map_ok, decode, decodeSym, hd, Except.map]
      exact congrArg (recordStop s) ((exec_decodeS x.1 s).trans (symbolStep_ok hc hb hp hr))
    | raise c p => rfl
    | stop f => rfl
    | refuse r => rfl
  | litcode =>
    dsimp only
    cases hr : read2 s.cfg u with
    | ok x =>
      have hd : symbolOf 2 2 x.1.toNat = .ok x.1 := by simp [symbolOf, x.1.isLt]
      simp only [Res.map_ok, decode, decodeSym, hd, Except.map]
      exact congrArg (recordStop s) ((exec_decodeLc x.1 s).trans (symbolStep_ok hc hb hp hr))
    | raise c p => rfl
    | stop f => rfl
    | refuse r => rfl
  | litcopy =>
    simp only [decode, decodeStep, runFetched_run, exec_litcopy, unitStep]
    exact congrArg (recordStop s) (phaseStep_run hc hb hp)
  | endchk =>
    simp only [decode, decodeStep, runFetched_run, exec_endchk, unitStep]
    exact congrArg (recordStop s) (phaseStep_run hc hb hp)
  | midx =>
    dsimp only
    cases hr : read4 s.cfg u with
    | ok x =>
      have hd : symbolOf 4 4 x.1.toNat = .ok x.1 := by simp [symbolOf, x.1.isLt]
      simp only [Res.map_ok, decode, decodeSym, hd, Except.map]
      exact congrArg (recordStop s) ((exec_decodeI x.1 s).trans (symbolStep_ok hc hb hp hr))
    | raise c p => rfl
    | stop f => rfl
    | refuse r => rfl
  | mdist =>
    obtain ⟨h4, h14⟩ := hm hp
    dsimp only
    cases hr : readX u.mbl.toNat s.cfg u with
    | ok x =>
      have hlt : x.1 < 2 ^ u.mbl.toNat := readX_lt (v := x.2) hr
      have h14' : x.1 < 16384 := Nat.lt_of_lt_of_le hlt (Nat.pow_le_pow_right (by omega) h14)
      simp only [Res.map_ok, decode, decodeSym, decodeE, h4, h14, hlt, and_self, if_true, runFetched_run]
      rw [exec_mdist]
      refine congrArg (recordStop s) (unitStep_ok hc hb hp ?_)
      rw [hr, Res.bind_ok, if_pos ⟨BitVec.eq_of_toNat_eq (by simp), by simp [Nat.mod_eq_of_lt h14']⟩]
    | raise c p => rfl
    | stop f => rfl
    | refuse r => rfl
  | mlen2 =>
    dsimp only
    cases hr : read2 s.cfg u with
    | ok x =>
      have hd : symbolOf 2 2 x.1.toNat = .ok x.1 := by simp [symbolOf, x.1.isLt]
      simp only [Res.map_ok, decode, decodeSym, hd, Except.map]
      exact congrArg (recordStop s) ((exec_decodeMc x.1 s).trans (symbolStep_ok hc hb hp hr))
    | raise c p => rfl
    | stop f => rfl
    | refuse r => rfl
  | mlenn =>
    dsimp only
    cases hr : read4 s.cfg u with
    | ok x =>
      have hd : symbolOf 4 4 x.1.toNat = .ok x.1 := by simp [symbolOf, x.1.isLt]
      simp only [Res.map_ok, decode, decodeSym, hd, Except.map]
      exact congrArg (recordStop s) ((exec_decodeN x.1 s).trans (symbolStep_ok hc hb hp hr))
    | raise c p => rfl
    | stop f => rfl
    | refuse r => rfl
  | mcopy =>
    simp only [decode, decodeStep, runFetched_run, exec_mcopy, unitStep]
    exact congrArg (recordStop s) (phaseStep_run hc hb hp)
  | rawcopy =>
    simp only [decode, decodeStep, runFetched_run, exec_rawcopy, unitStep]
    exact congrArg (recordStop s) (phaseStep_run hc hb hp)
  | imgclear =>
    simp only [decode, decodeStep, runFetched_run, exec_imgclear]
    exact congrArg (recordStop s) (phaseStep_run hc hb hp)
  | fold =>
    simp only [decode, decodeStep, runFetched_run, exec_foldStep]
    exact congrArg (recordStop s) (phaseStep_run hc hb hp)

/-- Without the side condition on MBL: a turn that answers a next state is still that function of the unit. -/
theorem unitFetch_next (hu : s.units[s.cur]? = some u) (hb : u.state = .busy) {t : State}
    (h : runFetched (unitFetch s.cur s) = .next t) : recordStop s (settle s u (phaseBody s u)) = .next t := by
  by_cases hm : u.phase = .mdist → 4 ≤ u.mbl.toNat ∧ u.mbl.toNat ≤ 14
  · rwa [← unitFetch_run hu hb hm]
  · obtain ⟨hp, hn⟩ := Classical.not_imp.mp hm
    unfold unitFetch fetchCode at h
    unfold phaseBody
    simp only [hu, hp] at h ⊢
    cases hr : readX u.mbl.toNat s.cfg u with
    | ok x =>
      rw [hr] at h
      simp only [Res.map_ok, decode, decodeSym, decodeE, hn, if_false] at h
      cases h
    | raise c p =>
      rw [hr] at h
      exact h
    | stop f =>
      rw [hr] at h
      exact h
    | refuse r =>
      rw [hr] at h
      cases h

end

/-- What a unit's turn leaves when it answers a next state: the phase's step done, the unit in FAULT, or the unit
stopped by R41. -/
def turnEnds (t r : State) (u : DecUnit) : Prop :=
  phaseBody t u = .ok r ∨ (∃ c p, phaseBody t u = .raise c p ∧ r = t.setUnit (u.enterFault c p))
    ∨ ∃ m a, phaseBody t u = .stop (.unwritten m a) ∧ r = t.stopUnit m a

theorem unitTurn_next {s t r : State} {k : Nat} (h : unitTurn s k t) (hs : step s = .next r) :
    ∃ u, t.units[t.cur]? = some u ∧ u.state = .busy ∧ turnEnds t r u
      ∧ isStopped t.stopped t.cur = false := by
  obtain ⟨h1, -, -, h4, h5, u, hu, hb, hn⟩ := unitTurn_units h
  have hu' : t.units[t.cur]? = some u := by rw [h1, h4, hu]
  rw [step_unitTurn h, ← h4] at hs
  refine ⟨u, hu', hb, ?_, by rw [h4, h5]; exact hn⟩
  rcases recordStop_eq_next.mp (unitFetch_next hu' hb hs) with hn | ⟨m, a, hf, hr⟩
  · exact (settle_next.mp hn).imp_right .inl
  · exact .inr (.inr ⟨m, a, settle_fault.mp hf, hr⟩)

/-! ### A command word -/

/-- What raises in a start step, and what it leaves: the causes of R137, none of them the host's own (R133). -/
def startCause (c : Cause) : Prop :=
  c ∈ [Cause.srcRange, .dstRange, .rawSizeMismatch, .bpcRange, .imgRange, .noImage, .planeRange, .noPlaneData,
    .planeShort, .badOpcode]

/-- Everything a command word can do when it answers a next state (R88, R89, R124, R126, R135, R138). -/
theorem command_cases {w : BitVec 32} {s t : State} (h : exec (decodeCmd w) s = .next t) :
    ∃ u, s.units[s.cur]? = some u ∧
      ((u.state = .busy ∧ t = s)
        ∨ (u.state ≠ .busy ∧
          ((∃ op c p, startCause c ∧ t = s.setUnit (((u.startJob op).goto .none).enterFault c p))
            ∨ (∃ op c p, startCause c ∧ t = s.setUnit ((clearOutput (u.startJob op)).goto .none |>.enterFault c p))
            ∨ (u.srcLen.toNat ≤ s.cfg.pmSize ∧ u.dstLen.toNat ≤ s.cfg.omSize
                ∧ t = s.setUnit (((cursorInit s.cfg (clearOutput (u.startJob 1#4))).setWp 0).goto .ctrl))
            ∨ (u.srcLen.toNat ≤ s.cfg.pmSize ∧ u.dstLen.toNat ≤ s.cfg.omSize ∧ u.srcLen = u.dstLen
                ∧ t = s.setUnit (((clearOutput (u.startJob 2#4)).setWp 0).goto .rawcopy))
            ∨ (u.bpc.toNat ≤ 8 ∧ u.width.toNat * u.height.toNat ≤ s.cfg.imSize
                ∧ t = { s with imValid := false }.setUnit ((u.startJob 3#4).goto .imgclear))
            ∨ (s.imValid = true ∧ u.plane.toNat < s.imgBpc.toNat ∧ u.omValid = true
                ∧ s.imgH.toNat * stride s.cfg s.imgW.toNat ≤ 8 * u.omLen.toNat
                ∧ t = s.setUnit ((u.startJob 4#4).goto .fold))))) := by
  have ill : ∀ op, illegalStep op s = .next t → ∃ u, s.units[s.cur]? = some u ∧
      ((u.state = .busy ∧ t = s) ∨ (u.state ≠ .busy ∧
        ∃ op c p, startCause c ∧ t = s.setUnit (((u.startJob op).goto .none).enterFault c p))) := by
    intro op hi
    rw [illegalStep_eq] at hi
    obtain ⟨u, hu, hb | ⟨hb, hr | ⟨c, p, hr, ht⟩⟩⟩ := commandStep_cases hi
    · exact ⟨u, hu, .inl hb⟩
    · cases hr
    · cases hr
      exact ⟨u, hu, .inr ⟨hb, op, _, _, by simp [startCause], ht⟩⟩
  have four : ∀ op : BitVec 4, ∃ n : Fin 16, op = BitVec.ofNat 4 n.val := by decide
  unfold decodeCmd at h
  generalize cmdIgnored w = g at h
  obtain ⟨n, hn⟩ := four (cmdOp w)
  rw [hn] at h
  have key : ∀ n : Fin 16, exec (decodeOp (BitVec.ofNat 4 n.val) g) s =
      match n.val with
      | 1 => exec (.decode g) s
      | 2 => exec (.copyRaw g) s
      | 3 => exec (.imgClear g) s
      | 4 => exec (.fold g) s
      | n => illegalStep (BitVec.ofNat 4 n) s := by
    intro n
    fin_cases n <;> rfl
  rw [key] at h
  split at h
  · rw [exec_decode] at h
    replace h := commandStep_cases h
    obtain ⟨u, hu, hb | ⟨hb, h | ⟨c, p, h, rfl⟩⟩⟩ := h
    · exact ⟨u, hu, .inl hb⟩
    · simp only [checkRanges, refuseIf_eq_ok] at h
      obtain ⟨h1, h2, h3⟩ := h
      exact ⟨u, hu, .inr ⟨hb, .inr (.inr (.inl ⟨Nat.le_of_not_lt h1, Nat.le_of_not_lt h2, (Res.ok.inj h3).symm⟩))⟩⟩
    · refine ⟨u, hu, .inr ⟨hb, .inr (.inl ⟨_, c, p, ?_, rfl⟩)⟩⟩
      simp only [checkRanges, refuseIf_eq_raise] at h
      rcases h with ⟨-, rfl, -⟩ | ⟨-, ⟨-, rfl, -⟩ | ⟨-, h⟩⟩
      · simp [startCause]
      · simp [startCause]
      · cases h
  · rw [exec_copyRaw] at h
    replace h := commandStep_cases h
    obtain ⟨u, hu, hb | ⟨hb, h | ⟨c, p, h, rfl⟩⟩⟩ := h
    · exact ⟨u, hu, .inl hb⟩
    · simp only [checkRanges, refuseIf_eq_ok] at h
      obtain ⟨h1, h2, h3, h4⟩ := h
      exact ⟨u, hu, .inr ⟨hb, .inr (.inr (.inr (.inl
        ⟨Nat.le_of_not_lt h1, Nat.le_of_not_lt h2, Decidable.not_not.mp h3, (Res.ok.inj h4).symm⟩)))⟩⟩
    · refine ⟨u, hu, .inr ⟨hb, .inr (.inl ⟨_, c, p, ?_, rfl⟩)⟩⟩
      simp only [checkRanges, refuseIf_eq_raise] at h
      rcases h with ⟨-, rfl, -⟩ | ⟨-, ⟨-, rfl, -⟩ | ⟨-, ⟨-, rfl, -⟩ | ⟨-, h⟩⟩⟩
      · simp [startCause]
      · simp [startCause]
      · simp [startCause]
      · cases h
  · rw [exec_imgClear] at h
    replace h := commandStep_cases h
    obtain ⟨u, hu, hb | ⟨hb, h | ⟨c, p, h, rfl⟩⟩⟩ := h
    · exact ⟨u, hu, .inl hb⟩
    · simp only [refuseIf_eq_ok] at h
      obtain ⟨h1, h2, h3⟩ := h
      exact ⟨u, hu, .inr ⟨hb, .inr (.inr (.inr (.inr (.inl
        ⟨Nat.le_of_not_lt h1, Nat.le_of_not_lt h2, (Res.ok.inj h3).symm⟩))))⟩⟩
    · refine ⟨u, hu, .inr ⟨hb, .inl ⟨_, c, p, ?_, rfl⟩⟩⟩
      simp only [refuseIf_eq_raise] at h
      rcases h with ⟨-, rfl, -⟩ | ⟨-, ⟨-, rfl, -⟩ | ⟨-, h⟩⟩
      · simp [startCause]
      · simp [startCause]
      · cases h
  · rw [exec_fold] at h
    replace h := commandStep_cases h
    obtain ⟨u, hu, hb | ⟨hb, h | ⟨c, p, h, rfl⟩⟩⟩ := h
    · exact ⟨u, hu, .inl hb⟩
    · simp only [refuseIf_eq_ok] at h
      obtain ⟨h1, h2, h3, h4, h5⟩ := h
      exact ⟨u, hu, .inr ⟨hb, .inr (.inr (.inr (.inr (.inr
        ⟨by simpa using h1, Nat.lt_of_not_le h2, by simpa using h3, Nat.le_of_not_lt h4,
          (Res.ok.inj h5).symm⟩))))⟩⟩
    · refine ⟨u, hu, .inr ⟨hb, .inl ⟨_, c, p, ?_, rfl⟩⟩⟩
      simp only [refuseIf_eq_raise] at h
      rcases h with ⟨-, rfl, -⟩ | ⟨-, ⟨-, rfl, -⟩ | ⟨-, ⟨-, rfl, -⟩ | ⟨-, ⟨-, rfl, -⟩ | ⟨-, h⟩⟩⟩⟩
      · simp [startCause]
      · simp [startCause]
      · simp [startCause]
      · simp [startCause]
      · cases h
  · obtain ⟨u, hu, h | ⟨hb, h⟩⟩ := ill _ h
    · exact ⟨u, hu, .inl h⟩
    · exact ⟨u, hu, .inr ⟨hb, .inl h⟩⟩

/-- A command word to a unit that is there answers a next state: a start step reads no memory, so R41 cannot stop
it. -/
theorem command_runs {s : State} {d : DecUnit} (w : BitVec 32) (hd : s.units[s.cur]? = some d) :
    ∃ t, exec (decodeCmd w) s = .next t := by
  have ok : ∀ t : State, (Res.ok t).runs := fun t => .inl ⟨t, rfl⟩
  have ill : ∀ op, ∃ t, illegalStep op s = .next t := fun op => commandStep_runs hd (.inr ⟨_, _, rfl⟩)
  unfold decodeCmd decodeOp
  split
  · rw [exec_decode]
    exact commandStep_runs hd (refuseIf_runs (refuseIf_runs (ok _)))
  split
  · rw [exec_copyRaw]
    exact commandStep_runs hd (refuseIf_runs (refuseIf_runs (refuseIf_runs (ok _))))
  split
  · rw [exec_imgClear]
    exact commandStep_runs hd (refuseIf_runs (refuseIf_runs (ok _)))
  split
  · rw [exec_fold]
    exact commandStep_runs hd (refuseIf_runs (refuseIf_runs (refuseIf_runs (refuseIf_runs (ok _)))))
  (repeat' split) <;> exact ill _

/-! ### The host's turn -/

/-- The block, the parameters and R41's records are the same: only the host agent, the unit in hand and the free values
differ. -/
def blockSame (s t : State) : Prop :=
  t.cfg = s.cfg ∧ t.units = s.units ∧ t.im = s.im ∧ t.imgW = s.imgW ∧ t.imgH = s.imgH ∧ t.imgBpc = s.imgBpc
    ∧ t.imValid = s.imValid ∧ t.stopped = s.stopped

theorem blockSame_refl (s : State) : blockSame s s := ⟨rfl, rfl, rfl, rfl, rfl, rfl, rfl, rfl⟩

theorem blockSame_trans {a b c : State} (h : blockSame a b) (g : blockSame b c) : blockSame a c := by
  obtain ⟨h1, h2, h3, h4, h5, h6, h7, h8⟩ := h
  obtain ⟨g1, g2, g3, g4, g5, g6, g7, g8⟩ := g
  exact ⟨g1.trans h1, g2.trans h2, g3.trans h3, g4.trans h4, g5.trans h5, g6.trans h6, g7.trans h7, g8.trans h8⟩

theorem hostByte_same {v : Bool} {m : Memory} {i : Nat} (s : State) : blockSame s (hostByte v m i s).2 := by
  unfold hostByte State.draw
  split <;> exact blockSame_refl s

theorem hostImage_same {n : Nat} : ∀ {k : Nat} (s : State), blockSame s (hostImage n k s).2 := by
  induction n with
  | zero => exact fun s => blockSame_refl s
  | succ n ih => exact fun s => blockSame_trans (hostByte_same s) (ih _)

/-- What a host action leaves when it answers a next state by itself: the block as it was, one unit with a register
or PM written, or the block reset. -/
def hostEffect (s t : State) : Prop :=
  blockSame s t
    ∨ (∃ k d off v, s.units[k]? = some d ∧ t = s.putUnit k (writeReg d off v))
    ∨ (∃ k d a bytes, s.units[k]? = some d ∧ d.state ≠ .busy ∧ (bytes ≠ [] → a + bytes.length ≤ s.cfg.pmSize)
        ∧ t = s.putUnit k (d.setPm (writeBytes d.pm a bytes)))
    ∨ blockSame (State.resetWith s.cfg) t

theorem hostAct_out {a : HostAction} {s t : State} (h : hostAct a s = .out (.next t)) : hostEffect s t := by
  cases a <;> simp only [hostAct, withWindow, withUnit, hostPmWrite] at h
  case regWrite u off width v =>
    split at h
    · split at h
      · split at h
        · rename_i d hd
          split at h
          · cases h
          · cases h
            exact .inr (.inl ⟨u, d, off, v, hd, rfl⟩)
        · cases h
      · cases h
    · cases h
  case regRead u off width =>
    split at h
    · split at h
      · split at h
        · cases h
          exact .inl (blockSame_refl s)
        · cases h
      · cases h
    · cases h
  case pmWrite u a bytes =>
    split at h
    · rename_i d hd
      split at h
      · cases h
      · rename_i hn
        split at h
        · cases h
          exact .inl (blockSame_refl s)
        · rename_i hb
          cases h
          refine .inr (.inr (.inl ⟨u, d, a, bytes, hd, hb, fun he => ?_, rfl⟩))
          by_contra hc
          exact hn ⟨he, by omega⟩
    · cases h
  case omRead u i =>
    split at h
    · cases h
      exact .inl (hostByte_same s)
    · cases h
  case imRead i =>
    cases h
    exact .inl (hostByte_same s)
  case omWrite u i v =>
    split at h <;> cases h
    exact .inl (blockSame_refl s)
  case imWrite i v =>
    cases h
    exact .inl (blockSame_refl s)
  case wait u =>
    split at h <;> cases h
    exact .inl (blockSame_refl s)
  case reset =>
    cases h
    exact .inr (.inr (.inr ⟨rfl, rfl, rfl, rfl, rfl, rfl, rfl, rfl⟩))
  case walk u =>
    cases h
    refine .inl ?_
    unfold hostWalk
    split <;> exact ⟨rfl, rfl, rfl, rfl, rfl, rfl, rfl, rfl⟩
  case findPlane u a j =>
    cases h
    refine .inl ?_
    unfold hostFindPlane
    split
    · exact ⟨rfl, rfl, rfl, rfl, rfl, rfl, rfl, rfl⟩
    · split <;> exact ⟨rfl, rfl, rfl, rfl, rfl, rfl, rfl, rfl⟩
  case stopIfFault u =>
    split at h <;> cases h
    split <;> exact .inl ⟨rfl, rfl, rfl, rfl, rfl, rfl, rfl, rfl⟩
  case returnOk =>
    cases h
    exact .inl (blockSame_trans (hostImage_same s) ⟨rfl, rfl, rfl, rfl, rfl, rfl, rfl, rfl⟩)
  case walkParallel =>
    cases h
    refine .inl ?_
    unfold hostWalkParallel hostWalk
    split <;> exact ⟨rfl, rfl, rfl, rfl, rfl, rfl, rfl, rfl⟩
  case batch a j =>
    cases h
    exact .inl ⟨rfl, rfl, rfl, rfl, rfl, rfl, rfl, rfl⟩
  case noteIfFault u j =>
    split at h <;> cases h
    refine .inl ?_
    unfold State.note
    split
    · split <;> exact ⟨rfl, rfl, rfl, rfl, rfl, rfl, rfl, rfl⟩
    · exact blockSame_refl s
  case noteFailure j c =>
    cases h
    refine .inl ?_
    unfold State.note
    split <;> exact ⟨rfl, rfl, rfl, rfl, rfl, rfl, rfl, rfl⟩
  case foldPlane u j =>
    cases h
    split <;> exact .inl ⟨rfl, rfl, rfl, rfl, rfl, rfl, rfl, rfl⟩
  case stopIfNoted =>
    cases h
    split <;> exact .inl ⟨rfl, rfl, rfl, rfl, rfl, rfl, rfl, rfl⟩

theorem hostAct_run {a : HostAction} {s t : State} {i : Instr} (h : hostAct a s = .run i t) :
    ∃ w k d, i = decodeCmd w ∧ t = { s with cur := k } ∧ s.units[k]? = some d := by
  cases a <;> simp only [hostAct, withWindow, withUnit, hostPmWrite] at h
  case regWrite u off width v =>
    split at h
    · split at h
      · split at h
        · rename_i d hd
          split at h
          · cases h
            exact ⟨v, u, d, rfl, rfl, hd⟩
          · cases h
        · cases h
      · cases h
    · cases h
  all_goals
    (repeat' split at h) <;> cases h

/-- Everything a step can be when it answers a next state: nothing moved; the host's own action; a command word; or a
unit's turn. -/
theorem step_next_cases {s r : State} (h : step s = .next r) :
    paramsValid s.cfg = true ∧
      (r = s
        ∨ (∃ t, blockSame s t ∧ hostEffect t r)
        ∨ (∃ t w, blockSame s t ∧ exec (decodeCmd w) t = .next r)
        ∨ ∃ t u, blockSame s t ∧ t.units[t.cur]? = some u ∧ u.state = .busy
            ∧ turnEnds t r u ∧ isStopped t.stopped t.cur = false) := by
  rcases step_turns s with ⟨hv, hs⟩ | ⟨hv, -, hs⟩ | ⟨a, t, ht⟩ | ⟨k, t, ht⟩
  · rw [hs] at h
    cases h
  · rw [hs] at h
    cases h
    exact ⟨hv, .inl rfl⟩
  · obtain ⟨h1, h2, h3, h4, h5, h6, h7, h8, -⟩ := hostTurn_units ht
    have hb : blockSame s t := ⟨h2, h1, h3, h4, h5, h6, h7, h8⟩
    refine ⟨ht.1, .inr ?_⟩
    rw [step_hostTurn ht] at h
    cases ha : hostAct a t with
    | run i x =>
      rw [ha] at h
      obtain ⟨w, k, d, rfl, rfl, hd⟩ := hostAct_run ha
      have h : exec (decodeCmd w) { t with cur := k } = .next r := by
        obtain ⟨x, hx⟩ := command_runs (s := { t with cur := k }) w hd
        rw [runFetched_run, hx, recordStop_next] at h
        rw [hx, h]
      exact .inr (.inl ⟨{ t with cur := k }, w, blockSame_trans hb ⟨rfl, rfl, rfl, rfl, rfl, rfl, rfl, rfl⟩, h⟩)
    | out o =>
      rw [ha] at h
      have h : o = .next r := h
      subst h
      exact .inl ⟨t, hb, hostAct_out ha⟩
  · obtain ⟨u, hu, hb, hr, hn⟩ := unitTurn_next ht h
    obtain ⟨hv, s1, hp, rfl⟩ := ht
    have he := (pick_eq_some hp).2
    refine ⟨hv, .inr (.inr (.inr ⟨_, u, ?_, hu, hb, hr, hn⟩))⟩
    rw [he]
    exact ⟨rfl, rfl, rfl, rfl, rfl, rfl, rfl, rfl⟩

end Sys2Proof.Machine
end

