-- ==== Sys2Proof/Laws/Phases.lean ====
section
/-! SUPPORT. What a phase step that completes has done to its unit (`unitMoved`), what it can raise, and what one step
of the machine can make of any unit (`unitStepped`). Claims about every unit after every step go through these. -/

namespace Sys2Proof.Machine

/-! ### The forward bits that a read takes, exactly -/

theorem read1_bits {c : Config} {u v : DecUnit} {b : BitVec 1} (h : read1 c u = .ok (b, v)) :
    forwardBits c v + 1 = forwardBits c u := by
  obtain ⟨x, hx, he⟩ := Res.map_eq_ok.mp h
  cases he
  rcases readyC1_ok hx with ⟨hr, rfl⟩ | ⟨hr, w, y, hy, rfl⟩
  · have hf := forwardBits_setC1 c x ⟨x.c1.pend, x.c1.rem - 1⟩
    dsimp only at hf
    omega
  · obtain ⟨-, ⟨e, -⟩, hf, -⟩ := take16_ok hy
    have hg := forwardBits_setC1 c y ⟨w, 15⟩
    rw [e, hr] at hg
    change forwardBits c (y.setC1 ⟨w, 15⟩) + 1 = _
    dsimp only at hg
    omega

theorem read2_bits {c : Config} {u v : DecUnit} {b : BitVec 2} (h : read2 c u = .ok (b, v)) (hc : cursorsOk u) :
    forwardBits c v + 2 = forwardBits c u := by
  obtain ⟨x, hx, he⟩ := Res.map_eq_ok.mp h
  cases he
  have hc := hc.2.1.2
  rcases readyC2_ok hx with ⟨hr, rfl⟩ | ⟨hr, w, y, hy, rfl⟩
  · have hf := forwardBits_setC2 c x ⟨x.c2.pend, x.c2.rem - 2⟩
    dsimp only at hf
    omega
  · obtain ⟨-, ⟨-, e, -⟩, hf, -⟩ := take16_ok hy
    have hg := forwardBits_setC2 c y ⟨w, 14⟩
    rw [e, hr] at hg
    change forwardBits c (y.setC2 ⟨w, 14⟩) + 2 = _
    dsimp only at hg
    omega

theorem read4_bits {c : Config} {u v : DecUnit} {b : BitVec 4} (h : read4 c u = .ok (b, v)) (hc : cursorsOk u) :
    forwardBits c v + 4 = forwardBits c u := by
  obtain ⟨x, hx, he⟩ := Res.map_eq_ok.mp h
  cases he
  have hc := hc.2.2.2.2
  rcases readyC4_ok hx with ⟨hr, rfl⟩ | ⟨hr, w, y, hy, rfl⟩
  · have hf := forwardBits_setC4 c x ⟨x.c4.pend >>> 4, x.c4.rem - 4⟩
    dsimp only at hf
    omega
  · obtain ⟨-, ⟨-, -, -, e⟩, hf, -⟩ := take32_ok hy
    have hg := forwardBits_setC4 c y ⟨w >>> 4, 28⟩
    rw [e, hr] at hg
    change forwardBits c (y.setC4 ⟨w >>> 4, 28⟩) + 4 = _
    dsimp only at hg
    omega

/-! ### A phase step that completes -/

/-- What a completed step of a phase that reads one symbol makes of its unit: the read gives `x`, and the symbol
decides between the forms listed (R92 to R94, R97 to R100). -/
def symbolMoved (c : Config) (u v : DecUnit) : Prop :=
  ∃ x, readKeeps u x ∧
    ((u.phase = .ctrl ∧ forwardBits c x + 1 = forwardBits c u ∧ (v = x.goto .litsel ∨ v = x.goto .endchk))
      ∨ (u.phase = .litsel ∧ forwardBits c x + 1 = forwardBits c u
          ∧ (v = (x.setLitcnt 0).goto .litcode ∨ v = (x.setLitcnt 1).goto .litcopy))
      ∨ (u.phase = .litcode ∧ forwardBits c x < forwardBits c u
          ∧ (cursorsOk u → forwardBits c x + 2 = forwardBits c u)
          ∧ (v = (x.setLitcnt (u.litcnt + 3)).goto .litcode
              ∨ ∃ k, 2 ≤ k ∧ k ≤ 4 ∧ v = (x.setLitcnt (u.litcnt + k)).goto .litcopy))
      ∨ (u.phase = .midx ∧ forwardBits c x < forwardBits c u
          ∧ ∃ i, v = (x.setIndex i (vlcLookup i).1 (vlcLookup i).2).goto .mdist)
      ∨ (u.phase = .mdist ∧ forwardBits c x + u.mbl.toNat ≤ forwardBits c u
          ∧ ∃ e, e < 2 ^ u.mbl.toNat ∧ v = setDistance e x)
      ∨ (u.phase = .mlen2 ∧ forwardBits c x < forwardBits c u
          ∧ (v = (x.setMlen 6).goto .mlenn ∨ ∃ k, 4 ≤ k ∧ k ≤ 6 ∧ v = (x.setMlen k).goto .mcopy))
      ∨ (u.phase = .mlenn ∧ forwardBits c x < forwardBits c u
          ∧ (cursorsOk u → forwardBits c x + 4 = forwardBits c u)
          ∧ (v = (x.setMlen (u.mlen + 15)).goto .mlenn
              ∨ ∃ k, 1 ≤ k ∧ k ≤ 15 ∧ v = (x.setMlen (u.mlen + k)).goto .mcopy)))

/-- What a completed phase step that leaves the shared state alone makes of its unit (R90, R92 to R101). -/
def unitMoved (c : Config) (u v : DecUnit) : Prop :=
  symbolMoved c u v
    ∨ (u.phase = .litcopy ∧ u.wp + u.litcnt ≤ u.dstLen.toNat
        ∧ ∃ x, copyLiterals u.litcnt c u = .ok x ∧ v = x.goto .endchk)
    ∨ (u.phase = .endchk ∧ u.wp = u.dstLen.toNat ∧ v = u.finish)
    ∨ (u.phase = .endchk ∧ u.wp ≠ u.dstLen.toNat ∧ v = u.goto .midx)
    ∨ (u.phase = .mcopy ∧ 1 ≤ u.dist ∧ u.dist ≤ u.wp ∧ u.wp + u.mlen ≤ u.dstLen.toNat
        ∧ ∃ x, copyMatch u.mlen c u = .ok x ∧ v = x.goto .ctrl)
    ∨ (u.phase = .rawcopy
        ∧ ∃ x, copyRawFrom u.dstLen.toNat 0 c u = .ok x ∧ v = (x.setWp x.dstLen.toNat).finish)

/-- Everything a completed phase step has done (R91 and the step rules). -/
theorem phaseBody_ok {s r : State} {u : DecUnit} (h : phaseBody s u = .ok r) :
    (∃ v, unitMoved s.cfg u v ∧ r = s.setUnit v)
      ∨ (u.phase = .imgclear ∧ ∃ m, clearFrom (u.width.toNat * u.height.toNat) 0 s.cfg s.im = .ok m
          ∧ r = { s with im := m, imgW := u.width, imgH := u.height, imgBpc := u.bpc, imValid := true }.setUnit u.finish)
      ∨ (u.phase = .fold ∧ ∃ m,
          foldFrom (s.imgW.toNat * s.imgH.toNat) 0 s.cfg s.imgW.toNat u.plane.toNat u.om s.im = .ok m
          ∧ r = { s with im := m }.setUnit u.finish) := by
  unfold phaseBody at h
  cases hp : u.phase with
  | none =>
    rw [hp] at h
    cases h
  | ctrl =>
    rw [hp] at h
    obtain ⟨x, hx, rfl⟩ := Res.map_eq_ok.mp h
    have hk := read1_ok (b := x.1) (v := x.2) hx
    have hb := read1_bits (b := x.1) (v := x.2) hx
    refine .inl ⟨_, .inl ⟨x.2, hk.1, .inl ⟨hp, hb, ?_⟩⟩, rfl⟩
    split
    · exact .inl rfl
    · exact .inr rfl
  | litsel =>
    rw [hp] at h
    obtain ⟨x, hx, rfl⟩ := Res.map_eq_ok.mp h
    have hk := read1_ok (b := x.1) (v := x.2) hx
    have hb := read1_bits (b := x.1) (v := x.2) hx
    refine .inl ⟨_, .inl ⟨x.2, hk.1, .inr (.inl ⟨hp, hb, ?_⟩)⟩, rfl⟩
    split
    · exact .inl rfl
    · exact .inr rfl
  | litcode =>
    rw [hp] at h
    obtain ⟨x, hx, rfl⟩ := Res.map_eq_ok.mp h
    have hk := read2_ok (b := x.1) (v := x.2) hx
    have hl : x.2.litcnt = u.litcnt := by rw [hk.1.1]
    refine .inl ⟨_, .inl ⟨x.2, hk.1, .inr (.inr (.inl
      ⟨hp, hk.2, read2_bits (b := x.1) (v := x.2) hx, ?_⟩))⟩, rfl⟩
    rw [hl]
    split
    · exact .inl rfl
    · rename_i hn
      have := x.1.isLt
      have : x.1.toNat ≠ 0 := fun he => hn (BitVec.eq_of_toNat_eq he)
      exact .inr ⟨5 - x.1.toNat, by omega, by omega, rfl⟩
  | litcopy =>
    rw [hp] at h
    obtain ⟨v, hv, rfl⟩ := Res.map_eq_ok.mp h
    refine .inl ⟨v, .inr (.inl ⟨hp, ?_⟩), rfl⟩
    unfold literalBody at hv
    split at hv
    · cases hv
    · obtain ⟨x, hx, rfl⟩ := Res.map_eq_ok.mp hv
      exact ⟨by omega, x, hx, rfl⟩
  | endchk =>
    rw [hp] at h
    cases h
    by_cases hw : u.wp = u.dstLen.toNat
    · exact .inl ⟨_, .inr (.inr (.inl ⟨hp, hw, rfl⟩)), by rw [if_pos hw]⟩
    · exact .inl ⟨_, .inr (.inr (.inr (.inl ⟨hp, hw, rfl⟩))), by rw [if_neg hw]⟩
  | midx =>
    rw [hp] at h
    obtain ⟨x, hx, rfl⟩ := Res.map_eq_ok.mp h
    have hk := read4_ok (b := x.1) (v := x.2) hx
    exact .inl ⟨_, .inl ⟨x.2, hk.1, .inr (.inr (.inr (.inl ⟨hp, hk.2, x.1, rfl⟩)))⟩, rfl⟩
  | mdist =>
    rw [hp] at h
    obtain ⟨x, hx, rfl⟩ := Res.map_eq_ok.mp h
    have hk := readX_ok (e := x.1) (v := x.2) hx
    exact .inl ⟨_, .inl ⟨x.2, hk.1, .inr (.inr (.inr (.inr (.inl
      ⟨hp, hk.2, x.1, readX_lt (v := x.2) hx, rfl⟩))))⟩, rfl⟩
  | mlen2 =>
    rw [hp] at h
    obtain ⟨x, hx, rfl⟩ := Res.map_eq_ok.mp h
    have hk := read2_ok (b := x.1) (v := x.2) hx
    refine .inl ⟨_, .inl ⟨x.2, hk.1, .inr (.inr (.inr (.inr (.inr (.inl ⟨hp, hk.2, ?_⟩)))))⟩, rfl⟩
    split
    · exact .inl rfl
    · rename_i hn
      have := x.1.isLt
      have : x.1.toNat ≠ 0 := fun he => hn (BitVec.eq_of_toNat_eq he)
      exact .inr ⟨3 + (4 - x.1.toNat), by omega, by omega, rfl⟩
  | mlenn =>
    rw [hp] at h
    obtain ⟨x, hx, rfl⟩ := Res.map_eq_ok.mp h
    have hk := read4_ok (b := x.1) (v := x.2) hx
    have hl : x.2.mlen = u.mlen := by rw [hk.1.1]
    refine .inl ⟨_, .inl ⟨x.2, hk.1, .inr (.inr (.inr (.inr (.inr (.inr
      ⟨hp, hk.2, read4_bits (b := x.1) (v := x.2) hx, ?_⟩)))))⟩, rfl⟩
    rw [hl]
    split
    · exact .inl rfl
    · rename_i hn
      have := x.1.isLt
      have : x.1.toNat ≠ 0 := fun he => hn (BitVec.eq_of_toNat_eq he)
      exact .inr ⟨16 - x.1.toNat, by omega, by omega, rfl⟩
  | mcopy =>
    rw [hp] at h
    obtain ⟨v, hv, rfl⟩ := Res.map_eq_ok.mp h
    refine .inl ⟨v, .inr (.inr (.inr (.inr (.inl ⟨hp, ?_⟩)))), rfl⟩
    unfold matchBody at hv
    split at hv
    · cases hv
    · split at hv
      · cases hv
      · split at hv
        · cases hv
        · obtain ⟨x, hx, rfl⟩ := Res.map_eq_ok.mp hv
          exact ⟨by omega, by omega, by omega, x, hx, rfl⟩
  | rawcopy =>
    rw [hp] at h
    obtain ⟨v, hv, rfl⟩ := Res.map_eq_ok.mp h
    obtain ⟨x, hx, rfl⟩ := Res.map_eq_ok.mp hv
    exact .inl ⟨_, .inr (.inr (.inr (.inr (.inr ⟨hp, x, hx, rfl⟩)))), rfl⟩
  | imgclear =>
    rw [hp] at h
    obtain ⟨m, hm, rfl⟩ := Res.map_eq_ok.mp h
    exact .inr (.inl ⟨rfl, m, hm, rfl⟩)
  | fold =>
    rw [hp] at h
    obtain ⟨m, hm, rfl⟩ := Res.map_eq_ok.mp h
    exact .inr (.inr ⟨rfl, m, hm, rfl⟩)

/-! ### A phase step that raises -/

/-- The causes that a phase step raises (R137). -/
def streamCause (c : Cause) : Prop :=
  c ∈ [Cause.fwdExhaust, .tailCross, .litOverrun, .distZero, .distBeforeStart, .matchOverrun]

/-- A phase step raises only in a DECODE phase, one of the stream causes, and at WP but for TAIL_CROSS (R137). -/
theorem phaseBody_raise {s : State} {u : DecUnit} {c : Cause} {p : Nat} (h : phaseBody s u = .raise c p) :
    streamCause c ∧ decoding u.phase = true ∧ (c ≠ .tailCross → p = u.wp) := by
  unfold phaseBody at h
  cases hp : u.phase <;> rw [hp] at h
  case none => cases h
  case endchk => cases h
  case ctrl | litsel =>
    obtain ⟨rfl, rfl⟩ := read1_raise (Res.map_eq_raise.mp h)
    exact ⟨by simp [streamCause], rfl, fun _ => rfl⟩
  case litcode | mlen2 =>
    obtain ⟨rfl, rfl⟩ := read2_raise (Res.map_eq_raise.mp h)
    exact ⟨by simp [streamCause], rfl, fun _ => rfl⟩
  case midx | mlenn =>
    obtain ⟨rfl, rfl⟩ := read4_raise (Res.map_eq_raise.mp h)
    exact ⟨by simp [streamCause], rfl, fun _ => rfl⟩
  case mdist =>
    obtain ⟨rfl, rfl⟩ := readX_raise (Res.map_eq_raise.mp h)
    exact ⟨by simp [streamCause], rfl, fun _ => rfl⟩
  case litcopy =>
    have h := Res.map_eq_raise.mp h
    unfold literalBody at h
    split at h
    · cases h
      exact ⟨by simp [streamCause], rfl, fun _ => rfl⟩
    · obtain ⟨rfl, -⟩ := copyLiterals_raise (Res.map_eq_raise.mp h)
      exact ⟨by simp [streamCause], rfl, fun hn => absurd rfl hn⟩
  case mcopy =>
    have h := Res.map_eq_raise.mp h
    unfold matchBody at h
    split at h
    · cases h
      exact ⟨by simp [streamCause], rfl, fun _ => rfl⟩
    · split at h
      · cases h
        exact ⟨by simp [streamCause], rfl, fun _ => rfl⟩
      · split at h
        · cases h
          exact ⟨by simp [streamCause], rfl, fun _ => rfl⟩
        · exact absurd (Res.map_eq_raise.mp h) copyMatch_ne_raise
  case rawcopy =>
    exact absurd (Res.map_eq_raise.mp (Res.map_eq_raise.mp h)) copyRawFrom_ne_raise
  case imgclear =>
    exact absurd (Res.map_eq_raise.mp h) clearFrom_ne_raise
  case fold =>
    exact absurd (Res.map_eq_raise.mp h) foldFrom_ne_raise

/-! ### Any unit after any step -/

/-- What a command that a unit takes makes of it (R88, R89, R124, R126, R135). -/
def unitStarted (s : State) (u v : DecUnit) : Prop :=
  (∃ op c p, startCause c ∧ v = ((u.startJob op).goto .none).enterFault c p)
    ∨ (∃ op c p, startCause c ∧ v = ((clearOutput (u.startJob op)).goto .none).enterFault c p)
    ∨ (u.srcLen.toNat ≤ s.cfg.pmSize ∧ u.dstLen.toNat ≤ s.cfg.omSize
        ∧ v = ((cursorInit s.cfg (clearOutput (u.startJob 1#4))).setWp 0).goto .ctrl)
    ∨ (u.srcLen.toNat ≤ s.cfg.pmSize ∧ u.dstLen.toNat ≤ s.cfg.omSize ∧ u.srcLen = u.dstLen
        ∧ v = ((clearOutput (u.startJob 2#4)).setWp 0).goto .rawcopy)
    ∨ (u.bpc.toNat ≤ 8 ∧ u.width.toNat * u.height.toNat ≤ s.cfg.imSize ∧ v = (u.startJob 3#4).goto .imgclear)
    ∨ (s.imValid = true ∧ u.plane.toNat < s.imgBpc.toNat ∧ u.omValid = true
        ∧ s.imgH.toNat * stride s.cfg s.imgW.toNat ≤ 8 * u.omLen.toNat ∧ v = (u.startJob 4#4).goto .fold)

/-- What one step of the machine makes of a unit that it changes: a register or PM written by the host, a command
taken, a phase step completed, or a raise. -/
def unitStepped (s : State) (u v : DecUnit) : Prop :=
  (∃ off x, v = writeReg u off x)
    ∨ (u.state ≠ .busy ∧ ∃ a bytes, (bytes ≠ [] → a + bytes.length ≤ s.cfg.pmSize)
        ∧ v = u.setPm (writeBytes u.pm a bytes))
    ∨ (u.state ≠ .busy ∧ unitStarted s u v)
    ∨ (u.state = .busy ∧ unitMoved s.cfg u v)
    ∨ (u.state = .busy ∧ (u.phase = .imgclear ∨ u.phase = .fold) ∧ v = u.finish)
    ∨ (u.state = .busy ∧ decoding u.phase = true ∧ ∃ c p, streamCause c ∧ v = u.enterFault c p)

/-! ### What the shared operations on a unit leave alone -/

/-- A register write changes the host's six registers and nothing else (R23). -/
theorem writeReg_keeps (u : DecUnit) (off : Nat) (x : BitVec 32) : ∃ a b c d e f, writeReg u off x =
    { u with srcLen := a, dstLen := b, width := c, height := d, bpc := e, plane := f } := by
  unfold writeReg
  split
  · exact ⟨_, _, _, _, _, _, rfl⟩
  · split <;> exact ⟨_, _, _, _, _, _, rfl⟩

/-- A BUSY unit ignores a register write (R138). -/
theorem writeReg_busy (u : DecUnit) (off : Nat) (x : BitVec 32) (h : u.state = .busy) : writeReg u off x = u := by
  simp [writeReg, h]

/-- done() changes STATE, PHASE, OM_VALID and OM_LEN and nothing else (R102). -/
theorem finish_keeps (u : DecUnit) :
    ∃ a b, u.finish = { u with state := .done, phase := .none, omValid := a, omLen := b } := by
  unfold DecUnit.finish
  simp only
  split <;> exact ⟨_, _, rfl⟩

/-- What MDIST's extra bits change: DIST, MLEN and PHASE (R98). -/
theorem setDistance_keeps (e : Nat) (u : DecUnit) : ∃ a b c, (c = .mcopy ∨ c = .mlen2)
    ∧ setDistance e u = { u with dist := a, mlen := b, phase := c } := by
  unfold setDistance
  simp only
  repeat' split
  · exact ⟨_, _, _, .inl rfl, rfl⟩
  · exact ⟨_, _, _, .inl rfl, rfl⟩
  · exact ⟨_, u.mlen, _, .inr rfl, rfl⟩

/-- Fresh cursors, TAIL at SRC_LEN, and the forward index of the mode in hand (R73). -/
theorem cursorInit_keeps (c : Config) (u : DecUnit) : ∃ a b, cursorInit c u =
    { u with c1 := ⟨0, 0⟩, c2 := ⟨0, 0⟩, cx := ⟨0, 0⟩, c4 := ⟨0, 0⟩, tail := u.srcLen.toNat, fwd := a, off := b } := by
  unfold cursorInit
  simp only
  split <;> exact ⟨_, _, rfl⟩

/-- A row is at least as wide as it has pixels (R44, R126). -/
theorem stride_le {c : Config} (hv : paramsValid c = true) (w : Nat) : w ≤ stride c w := by
  unfold stride
  simp only [paramsValid, Bool.and_eq_true, Bool.or_eq_true, beq_iff_eq] at hv
  obtain ⟨⟨⟨⟨-, -⟩, -⟩, (h | h) | h⟩, -⟩ := hv <;> rw [h] <;> omega

/-- Lowering TAIL only lowers the forward bits to come. -/
theorem forwardBits_frame (c : Config) {u v : DecUnit} (h1 : v.c1 = u.c1) (h2 : v.c2 = u.c2) (h3 : v.cx = u.cx)
    (h4 : v.c4 = u.c4) (h5 : v.fwd = u.fwd) (h6 : v.off = u.off) (h7 : v.tail ≤ u.tail) :
    forwardBits c v ≤ forwardBits c u := by
  unfold forwardBits
  rw [h1, h2, h3, h4, h5, h6]
  cases c.fwdMode <;> simp only <;> omega

theorem mem_set {l : List DecUnit} {k : Nat} {u v : DecUnit} (h : v ∈ l.set k u) : v ∈ l ∨ v = u :=
  List.mem_or_eq_of_mem_set h

/-- The unit in hand of a state with one unit replaced: every other unit is as it was. -/
theorem setUnit_mem {s : State} {u v : DecUnit} (h : v ∈ (s.setUnit u).units) : v ∈ s.units ∨ v = u := mem_set h

/-- Every unit after a step was there before, is a unit after reset, or is one that the step changed. -/
theorem step_unit_cases {s r : State} (h : step s = .next r) :
    r.cfg = s.cfg ∧ ∀ v ∈ r.units, v ∈ s.units ∨ v = DecUnit.reset ∨ ∃ u ∈ s.units, unitStepped s u v := by
  obtain ⟨-, rfl | ⟨t, hb, he⟩ | ⟨t, w, hb, hc⟩ | ⟨t, u, hb, hu, hbz, hr, -⟩⟩ := step_next_cases h
  · exact ⟨rfl, fun v hv => .inl hv⟩
  · obtain ⟨c1, c2, -⟩ := hb
    rcases he with ⟨e1, e2, -⟩ | ⟨k, d, off, x, hd, rfl⟩ | ⟨k, d, a, bytes, hd, hn, hl, rfl⟩ | ⟨e1, e2, -⟩
    · exact ⟨e1.trans c1, fun v hv => .inl (by rwa [e2, c2] at hv)⟩
    · refine ⟨c1, fun v hv => ?_⟩
      have hm : d ∈ s.units := c2 ▸ List.mem_of_getElem? hd
      rcases mem_set hv with hv | rfl
      · exact .inl (c2 ▸ hv)
      · exact .inr (.inr ⟨d, hm, .inl ⟨off, x, rfl⟩⟩)
    · refine ⟨c1, fun v hv => ?_⟩
      have hm : d ∈ s.units := c2 ▸ List.mem_of_getElem? hd
      rcases mem_set hv with hv | rfl
      · exact .inl (c2 ▸ hv)
      · exact .inr (.inr ⟨d, hm, .inr (.inl ⟨hn, a, bytes, c1 ▸ hl, rfl⟩)⟩)
    · refine ⟨e1.trans c1, fun v hv => .inr (.inl ?_)⟩
      rw [e2] at hv
      exact List.eq_of_mem_replicate hv
  · obtain ⟨c1, c2, -, c4, c5, c6, c7, -⟩ := hb
    obtain ⟨u, hu, ⟨-, rfl⟩ | ⟨hn, hs⟩⟩ := command_cases hc
    · exact ⟨c1, fun v hv => .inl (c2 ▸ hv)⟩
    · have hm : u ∈ s.units := c2 ▸ List.mem_of_getElem? hu
      have key : ∀ {t' : State} {x : DecUnit}, t'.units = t.units → t'.cfg = t.cfg → unitStarted t u x →
          (t'.setUnit x).cfg = s.cfg ∧ ∀ v ∈ (t'.setUnit x).units,
            v ∈ s.units ∨ v = DecUnit.reset ∨ ∃ u ∈ s.units, unitStepped s u v := by
        intro t' x h1 h2 hx
        refine ⟨h2.trans c1, fun v hv => ?_⟩
        rcases setUnit_mem hv with hv | rfl
        · exact .inl (c2 ▸ h1 ▸ hv)
        · refine .inr (.inr ⟨u, hm, .inr (.inr (.inl ⟨hn, ?_⟩))⟩)
          unfold unitStarted at hx ⊢
          rwa [c1, c4, c5, c6, c7] at hx
      rcases hs with ⟨op, c, p, hx, rfl⟩ | ⟨op, c, p, hx, rfl⟩ | ⟨h1, h2, rfl⟩ | ⟨h1, h2, h3, rfl⟩ | ⟨h1, h2, rfl⟩ |
        ⟨h1, h2, h3, h4, rfl⟩
      · exact key rfl rfl (.inl ⟨op, c, p, hx, rfl⟩)
      · exact key rfl rfl (.inr (.inl ⟨op, c, p, hx, rfl⟩))
      · exact key rfl rfl (.inr (.inr (.inl ⟨h1, h2, rfl⟩)))
      · exact key rfl rfl (.inr (.inr (.inr (.inl ⟨h1, h2, h3, rfl⟩))))
      · exact key rfl rfl (.inr (.inr (.inr (.inr (.inl ⟨h1, h2, rfl⟩)))))
      · exact key rfl rfl (.inr (.inr (.inr (.inr (.inr ⟨h1, h2, h3, h4, rfl⟩)))))
  · obtain ⟨c1, c2, -⟩ := hb
    have hm : u ∈ s.units := c2 ▸ List.mem_of_getElem? hu
    have key : ∀ {t' : State} {x : DecUnit}, t'.units = t.units → t'.cfg = t.cfg → unitStepped s u x →
        (t'.setUnit x).cfg = s.cfg ∧ ∀ v ∈ (t'.setUnit x).units,
          v ∈ s.units ∨ v = DecUnit.reset ∨ ∃ u ∈ s.units, unitStepped s u v := by
      intro t' x h1 h2 hx
      refine ⟨h2.trans c1, fun v hv => ?_⟩
      rcases setUnit_mem hv with hv | rfl
      · exact .inl (c2 ▸ h1 ▸ hv)
      · exact .inr (.inr ⟨u, hm, hx⟩)
    rcases hr with hr | ⟨c, p, hr, rfl⟩ | ⟨m, a, -, rfl⟩
    · rcases phaseBody_ok hr with ⟨v, hv, rfl⟩ | ⟨hp, m, -, rfl⟩ | ⟨hp, m, -, rfl⟩
      · exact key rfl rfl (.inr (.inr (.inr (.inl ⟨hbz, c1 ▸ hv⟩))))
      · exact key rfl rfl (.inr (.inr (.inr (.inr (.inl ⟨hbz, .inl hp, rfl⟩)))))
      · exact key rfl rfl (.inr (.inr (.inr (.inr (.inl ⟨hbz, .inr hp, rfl⟩)))))
    · obtain ⟨h1, h2, -⟩ := phaseBody_raise hr
      exact key rfl rfl (.inr (.inr (.inr (.inr (.inr ⟨hbz, h2, c, p, h1, rfl⟩)))))
    · exact ⟨c1, fun v hv => .inl (c2 ▸ hv)⟩

/-- A property of units that reset has and that `unitStepped` keeps is kept by every step, for every unit. -/
theorem step_units_invariant {P : Config → DecUnit → Prop} (h0 : ∀ c, P c DecUnit.reset)
    (hs : ∀ s u v, P s.cfg u → unitStepped s u v → P s.cfg v) {s t : State} (hP : ∀ u ∈ s.units, P s.cfg u)
    (h : step s = .next t) : ∀ u ∈ t.units, P t.cfg u := by
  intro v hv
  obtain ⟨hc, hm⟩ := step_unit_cases h
  rw [hc]
  rcases hm v hv with hm | rfl | ⟨u, hu, hx⟩
  · exact hP v hm
  · exact h0 _
  · exact hs s u v (hP u hu) hx

/-- A step of a unit by itself is a step of its phase, with an unwritten byte recorded (R41). -/
theorem soloStep_run {s : State} {u : DecUnit} (hu : s.units[s.cur]? = some u) (hb : u.state = .busy)
    (hn : isStopped s.stopped s.cur = false) (hm : u.phase = .mdist → 4 ≤ u.mbl.toNat ∧ u.mbl.toNat ≤ 14) :
    soloStep s = recordStop s (settle s u (phaseBody s u)) := by
  unfold soloStep
  have hu' : s.unit? = some u := hu
  simp only [hu', hb, hn, and_self, if_true]
  exact unitFetch_run hu hb hm

/-! ### The shared image after any step -/

/-- The image after a step: as it was, but that IM_VALID may have been cleared; as after reset; cleared by an IMGCLEAR
step; or folded into by a FOLD step (R30). -/
def imageStepped (s r : State) : Prop :=
  (r.im = s.im ∧ r.imgW = s.imgW ∧ r.imgH = s.imgH ∧ r.imgBpc = s.imgBpc)
    ∨ (r.im = [] ∧ r.imgW = 0 ∧ r.imgH = 0 ∧ r.imgBpc = 0 ∧ r.units = List.replicate s.cfg.nUnits DecUnit.reset)
    ∨ (∃ u ∈ s.units, u.state = .busy ∧ u.phase = .imgclear
        ∧ clearFrom (u.width.toNat * u.height.toNat) 0 s.cfg s.im = .ok r.im
        ∧ r.imgW = u.width ∧ r.imgH = u.height ∧ r.imgBpc = u.bpc)
    ∨ (∃ u ∈ s.units, u.state = .busy ∧ u.phase = .fold
        ∧ foldFrom (s.imgW.toNat * s.imgH.toNat) 0 s.cfg s.imgW.toNat u.plane.toNat u.om s.im = .ok r.im
        ∧ r.imgW = s.imgW ∧ r.imgH = s.imgH ∧ r.imgBpc = s.imgBpc)

theorem step_image_cases {s r : State} (h : step s = .next r) : imageStepped s r := by
  obtain ⟨-, rfl | ⟨t, hb, he⟩ | ⟨t, w, hb, hc⟩ | ⟨t, u, hb, hu, hbz, hr, -⟩⟩ := step_next_cases h
  · exact .inl ⟨rfl, rfl, rfl, rfl⟩
  · obtain ⟨c1, -, c3, c4, c5, c6, -⟩ := hb
    rcases he with ⟨-, -, e3, e4, e5, e6, -⟩ | ⟨k, d, off, x, -, rfl⟩ | ⟨k, d, a, bytes, -, -, -, rfl⟩ |
      ⟨-, e2, e3, e4, e5, e6, -⟩
    · exact .inl ⟨e3.trans c3, e4.trans c4, e5.trans c5, e6.trans c6⟩
    · exact .inl ⟨c3, c4, c5, c6⟩
    · exact .inl ⟨c3, c4, c5, c6⟩
    · exact .inr (.inl ⟨e3, e4, e5, e6, by rw [e2, c1]; rfl⟩)
  · obtain ⟨-, -, c3, c4, c5, c6, -⟩ := hb
    obtain ⟨u, -, ⟨-, rfl⟩ | ⟨-, ⟨op, c, p, -, rfl⟩ | ⟨op, c, p, -, rfl⟩ | ⟨-, -, rfl⟩ | ⟨-, -, -, rfl⟩ | ⟨-, -, rfl⟩ |
      ⟨-, -, -, -, rfl⟩⟩⟩ := command_cases hc
    all_goals exact .inl ⟨c3, c4, c5, c6⟩
  · obtain ⟨c1, c2, c3, c4, c5, c6, -⟩ := hb
    have hm : u ∈ s.units := c2 ▸ List.mem_of_getElem? hu
    rcases hr with hr | ⟨c, p, -, rfl⟩ | ⟨m, a, -, rfl⟩
    · rcases phaseBody_ok hr with ⟨v, -, rfl⟩ | ⟨hp, m, hm', rfl⟩ | ⟨hp, m, hm', rfl⟩
      · exact .inl ⟨c3, c4, c5, c6⟩
      · rw [c1, c3] at hm'
        exact .inr (.inr (.inl ⟨u, hm, hbz, hp, hm', rfl, rfl, rfl⟩))
      · rw [c1, c3, c4, c5] at hm'
        exact .inr (.inr (.inr ⟨u, hm, hbz, hp, hm', c4, c5, c6⟩))
    · exact .inl ⟨c3, c4, c5, c6⟩
    · exact .inl ⟨c3, c4, c5, c6⟩

/-- The number of units after a step is as it was, or N_UNITS after a reset (R142, R147). -/
theorem step_unit_count {s r : State} (h : step s = .next r) :
    r.units.length = s.units.length ∨ r.units.length = s.cfg.nUnits := by
  obtain ⟨-, rfl | ⟨t, hb, he⟩ | ⟨t, w, hb, hc⟩ | ⟨t, u, hb, hu, hbz, hr, -⟩⟩ := step_next_cases h
  · exact .inl rfl
  · obtain ⟨c1, c2, -⟩ := hb
    rcases he with ⟨-, e2, -⟩ | ⟨k, d, off, x, -, rfl⟩ | ⟨k, d, a, bytes, -, -, -, rfl⟩ | ⟨-, e2, -⟩
    · exact .inl (by rw [e2, c2])
    · exact .inl (by rw [← c2]; exact List.length_set)
    · exact .inl (by rw [← c2]; exact List.length_set)
    · exact .inr (by rw [e2, ← c1]; exact List.length_replicate)
  · obtain ⟨-, c2, -⟩ := hb
    obtain ⟨u, -, ⟨-, rfl⟩ | ⟨-, ⟨op, c, p, -, rfl⟩ | ⟨op, c, p, -, rfl⟩ | ⟨-, -, rfl⟩ | ⟨-, -, -, rfl⟩ | ⟨-, -, rfl⟩ |
      ⟨-, -, -, -, rfl⟩⟩⟩ := command_cases hc
    · exact .inl (by rw [c2])
    all_goals exact .inl (by rw [← c2]; exact List.length_set)
  · obtain ⟨-, c2, -⟩ := hb
    rcases hr with hr | ⟨c, p, -, rfl⟩ | ⟨m, a, -, rfl⟩
    · rcases phaseBody_ok hr with ⟨v, -, rfl⟩ | ⟨-, m, -, rfl⟩ | ⟨-, m, -, rfl⟩
      all_goals exact .inl (by rw [← c2]; exact List.length_set)
    · exact .inl (by rw [← c2]; exact List.length_set)
    · exact .inl (by rw [← c2]; rfl)

end Sys2Proof.Machine
end

