-- ==== Sys2Proof/Tests/Slice0.lean ====
section
/-! SUPPORT. Tests of this model, each about one operation or one step on a small machine: ill-formed terms,
words written out from the tables of R58 and R61, and vectors of spec/95_test_vectors.md. Each names its source.
A test called witness_o<n> shows a state and operands that meet the hypotheses of obligation O<n>, for a clause of
it; many of them check the clause's conclusion on that state as well. -/

namespace Sys2Proof.Tests

open Sys2Proof Sys2Proof.Machine

/-! ### Small machines -/

/-- Parameters for tests: R6's defaults, an IM of 16 bytes and the tags "HDR ", "PAL ", "PLN ". -/
def cfg : Config where
  nUnits := 1
  pmSize := 65535
  omSize := 65535
  imSize := 16
  fwdMode := .shared
  initOff := ⟨0, 0, 0, 0⟩
  lsbWordOrder := .le
  rowAlign := 1
  tagHdr := ⟨0x48, 0x44, 0x52, 0x20⟩
  tagPal := ⟨0x50, 0x41, 0x4C, 0x20⟩
  tagPlane := ⟨0x50, 0x4C, 0x4E, 0x20⟩
  planeSearchStep := 4

/-- The same in independent mode. -/
def cfgInd : Config := { cfg with fwdMode := .independent }

/-- A memory that holds bytes from address `a` up. -/
def memFrom (a : Nat) (l : List Byte) : Memory :=
  match l with
  | [] => []
  | b :: bs => (a, b) :: memFrom (a + 1) bs

/-- A BUSY unit of a DECODE job in a phase, with PM filled from 0 and DST_LEN set. -/
def busyUnit (p : Phase) (pm : List Byte) (dst : BitVec 32) : DecUnit :=
  { DecUnit.reset with
    state := .busy, phase := p, lastOp := 1, pm := memFrom 0 pm, srcLen := BitVec.ofNat 32 pm.length
    tail := pm.length, dstLen := dst }

/-- A machine of one unit. -/
def machine (u : DecUnit) : State := { State.resetWith cfg with units := [u] }

/-- The same with a host program. -/
def hosted (u : DecUnit) (l : List HostAction) : State :=
  { machine u with host := { HostState.reset with todo := l } }

/-- The stream of P2. -/
def p2 : List Byte := [0x20, 0x00, 0xD0, 0x00, 0x0A, 0x00, 0x00, 0x00, 0x10, 0x00, 0x42, 0x41]

/-- The stream of P1. -/
def p1 : List Byte := [0x00, 0x00, 0x80, 0x00, 0x43, 0x42, 0x41]

/-! ### Ill-formed terms (R85, R98) -/

/-- A width below the table's least bit_length. -/
theorem test_wf_mdist_narrow : (Instr.mdist 3 0).wellFormed = false := by decide

/-- A width above the table's greatest bit_length. -/
theorem test_wf_mdist_wide : (Instr.mdist 15 0).wellFormed = false := by decide

/-- A value with more bits than its width. -/
theorem test_wf_mdist_value : (Instr.mdist 4 16).wellFormed = false := by decide

/-! ### Decoding: words written out bit by bit -/

/-- OP in bits 3:0 (R58): each OP value of R59, with bits above it in two of them. -/
theorem test_decode_commands :
    decode (.cmd 0b00000000000000000000000000000001#32) = .ok (.decode 0)
      ∧ decode (.cmd 0b11111111111111111111111111110001#32) = .ok (.decode 0xFFFFFFF#28)
      ∧ decode (.cmd 0b00000000000000000000000000000010#32) = .ok (.copyRaw 0)
      ∧ decode (.cmd 0b00000000000000000000000000000011#32) = .ok (.imgClear 0)
      ∧ decode (.cmd 0b00000000000000000000000000000100#32) = .ok (.fold 0)
      ∧ decode (.cmd 0b00000000000000000000000000000000#32) = .ok (.illegal0 0)
      ∧ decode (.cmd 0b00000000000000000000000000000101#32) = .ok (.illegal5 0)
      ∧ decode (.cmd 0b00000000000000000000000000000110#32) = .ok (.illegal67 0 0)
      ∧ decode (.cmd 0b00000000000000000000000000000111#32) = .ok (.illegal67 1 0)
      ∧ decode (.cmd 0b00000000000000000000000000001000#32) = .ok (.illegal8F 0 0)
      ∧ decode (.cmd 0b00000000000000000000000000101111#32) = .ok (.illegal8F 7 2) :=
  ⟨rfl, rfl, rfl, rfl, rfl, rfl, rfl, rfl, rfl, rfl, rfl⟩

/-- The one-bit symbols F and S, and the two-bit symbols Lc and Mc (R61). -/
theorem test_decode_short_symbols :
    decode (.sym .ctrl 1 0b0) = .ok .ctrlLit ∧ decode (.sym .ctrl 1 0b1) = .ok .ctrlNolit
      ∧ decode (.sym .litsel 1 0b0) = .ok .litExt ∧ decode (.sym .litsel 1 0b1) = .ok .litOne
      ∧ decode (.sym .litcode 2 0b00) = .ok .litcodeCont ∧ decode (.sym .litcode 2 0b01) = .ok .litcodeAdd4
      ∧ decode (.sym .litcode 2 0b10) = .ok .litcodeAdd3 ∧ decode (.sym .litcode 2 0b11) = .ok .litcodeAdd2
      ∧ decode (.sym .mlen2 2 0b00) = .ok .mlen2Ext ∧ decode (.sym .mlen2 2 0b01) = .ok .mlen2L6
      ∧ decode (.sym .mlen2 2 0b10) = .ok .mlen2L5 ∧ decode (.sym .mlen2 2 0b11) = .ok .mlen2L4 :=
  ⟨rfl, rfl, rfl, rfl, rfl, rfl, rfl, rfl, rfl, rfl, rfl, rfl⟩

/-- The nibble I: the index itself (R61, R97). -/
theorem test_decode_indices :
    decode (.sym .midx 4 0b0000) = .ok .midx0 ∧ decode (.sym .midx 4 0b0001) = .ok .midx1
      ∧ decode (.sym .midx 4 0b0010) = .ok .midx2 ∧ decode (.sym .midx 4 0b0011) = .ok .midx3
      ∧ decode (.sym .midx 4 0b0100) = .ok .midx4 ∧ decode (.sym .midx 4 0b0101) = .ok .midx5
      ∧ decode (.sym .midx 4 0b0110) = .ok .midx6 ∧ decode (.sym .midx 4 0b0111) = .ok .midx7
      ∧ decode (.sym .midx 4 0b1000) = .ok .midx8 ∧ decode (.sym .midx 4 0b1001) = .ok .midx9
      ∧ decode (.sym .midx 4 0b1010) = .ok .midx10 ∧ decode (.sym .midx 4 0b1011) = .ok .midx11
      ∧ decode (.sym .midx 4 0b1100) = .ok .midx12 ∧ decode (.sym .midx 4 0b1101) = .ok .midx13
      ∧ decode (.sym .midx 4 0b1110) = .ok .midx14 ∧ decode (.sym .midx 4 0b1111) = .ok .midx15 :=
  ⟨rfl, rfl, rfl, rfl, rfl, rfl, rfl, rfl, rfl, rfl, rfl, rfl, rfl, rfl, rfl, rfl⟩

/-- The nibble N: 15 adds 1 and 1 adds 15 (R61, R100). -/
theorem test_decode_length_nibbles :
    decode (.sym .mlenn 4 0b0000) = .ok .mlennCont ∧ decode (.sym .mlenn 4 0b1111) = .ok .mlennAdd1
      ∧ decode (.sym .mlenn 4 0b1110) = .ok .mlennAdd2 ∧ decode (.sym .mlenn 4 0b1101) = .ok .mlennAdd3
      ∧ decode (.sym .mlenn 4 0b1100) = .ok .mlennAdd4 ∧ decode (.sym .mlenn 4 0b1011) = .ok .mlennAdd5
      ∧ decode (.sym .mlenn 4 0b1010) = .ok .mlennAdd6 ∧ decode (.sym .mlenn 4 0b1001) = .ok .mlennAdd7
      ∧ decode (.sym .mlenn 4 0b1000) = .ok .mlennAdd8 ∧ decode (.sym .mlenn 4 0b0111) = .ok .mlennAdd9
      ∧ decode (.sym .mlenn 4 0b0110) = .ok .mlennAdd10 ∧ decode (.sym .mlenn 4 0b0101) = .ok .mlennAdd11
      ∧ decode (.sym .mlenn 4 0b0100) = .ok .mlennAdd12 ∧ decode (.sym .mlenn 4 0b0011) = .ok .mlennAdd13
      ∧ decode (.sym .mlenn 4 0b0010) = .ok .mlennAdd14 ∧ decode (.sym .mlenn 4 0b0001) = .ok .mlennAdd15 :=
  ⟨rfl, rfl, rfl, rfl, rfl, rfl, rfl, rfl, rfl, rfl, rfl, rfl, rfl, rfl, rfl, rfl⟩

/-- The symbol E at its least and greatest width (R61), and B5's value. -/
theorem test_decode_extra_bits :
    decode (.sym .mdist 4 0b0000) = .ok (.mdist 4 0) ∧ decode (.sym .mdist 5 0b10111) = .ok (.mdist 5 23)
      ∧ decode (.sym .mdist 14 0b11111111111111) = .ok (.mdist 14 16383) :=
  ⟨rfl, rfl, rfl⟩

/-- The phases that select a row without a symbol (R70). -/
theorem test_decode_steps :
    decode (.step .litcopy) = .ok .litcopy ∧ decode (.step .endchk) = .ok .endchk
      ∧ decode (.step .mcopy) = .ok .mcopy ∧ decode (.step .rawcopy) = .ok .rawcopy
      ∧ decode (.step .imgclear) = .ok .imgclear ∧ decode (.step .fold) = .ok .foldStep :=
  ⟨rfl, rfl, rfl, rfl, rfl, rfl⟩

/-- Codes that no phase reads (R61, R70). -/
theorem test_decode_rejects :
    decode (.sym .ctrl 2 0) = .error .wrongWidth ∧ decode (.sym .ctrl 1 2) = .error .valueTooWide
      ∧ decode (.sym .mdist 3 0) = .error .wrongWidth ∧ decode (.sym .mdist 15 0) = .error .wrongWidth
      ∧ decode (.sym .mcopy 1 0) = .error .noRow ∧ decode (.step .ctrl) = .error .noRow :=
  ⟨rfl, rfl, rfl, rfl, rfl, rfl⟩

/-- Words as the opcode table numbers them (log entry 12). -/
theorem test_decode_table_word :
    decodeTableWord 32 4 = some (.fold 0) ∧ decodeTableWord 1 1 = some .ctrlNolit
      ∧ decodeTableWord 2 2 = some .litcodeAdd3 ∧ decodeTableWord 4 15 = some .midx15 :=
  ⟨rfl, rfl, rfl, rfl⟩

/-- The word FOLD placed at reset is what the next step fetches, for the host's current unit. -/
theorem test_fetch_command_from_reset : fetch (State.reset.withFetchWord 32 4) = .run (.fold 0) State.reset := rfl

/-- The symbol 10 placed at reset is fetched as MIDX.10. -/
theorem test_fetch_symbol_from_reset :
    ∃ t, fetch (State.reset.withFetchWord 4 10) = .run .midx10 t := ⟨_, rfl⟩

/-- O1, at the widest and the narrowest symbol. -/
theorem witness_o1 : (Instr.mdist 14 16383).WellFormed ∧ (Instr.mdist 4 15).WellFormed
    ∧ (Instr.illegal8F 7 0xFFFFFFF#28).WellFormed := by decide

/-- O2. -/
theorem witness_o2 : decode (.sym .mdist 14 16383) = .ok (.mdist 14 16383)
    ∧ encode (.mdist 14 16383) = .sym .mdist 14 16383 := ⟨rfl, rfl⟩

/-- O3: a code with an instruction, a row that matches it, and symbol widths at their bounds. -/
theorem witness_o3 : decode (.sym .mlenn 4 15) = .ok .mlennAdd1 ∧ Instr.mlennAdd1.row ∈ opcodeTable
    ∧ Instr.mlennAdd1.row.matches (.sym .mlenn 4 15) = true
    ∧ (symbolWidth .mdist 4 ∧ 15 < 2 ^ 4) ∧ (symbolWidth .mdist 14 ∧ 16383 < 2 ^ 14) := by
  refine ⟨rfl, by decide, rfl, ?_, ?_⟩ <;> simp [symbolWidth]

/-- O5: K3's word and DECODE's. -/
theorem witness_o5 : (0xFFFFFFF1#32).toNat % 16 = (1#32).toNat % 16 := rfl

/-! ### Cursors (vectors B1 to B15) and the VLC table -/

/-- P2's unit before its first step. -/
def u2 : DecUnit := busyUnit .ctrl p2 8

/-- O6, first clause, and V6: two bytes do not fit below TAIL 1. -/
theorem witness_o6_short16 : (busyUnit .ctrl [0x80] 0).tail < forwardAt cfg (busyUnit .ctrl [0x80] 0) .c1 + 2
    ∧ take16 cfg (busyUnit .ctrl [0x80] 0) .c1 = .raise .fwdExhaust 0 := ⟨by decide, rfl⟩

/-- O6, second clause, and B11: FWD 4, TAIL 6 and 7. -/
theorem witness_o6_short32 : ({ u2 with fwd := 4, tail := 7 } : DecUnit).tail
      < forwardAt cfg { u2 with fwd := 4, tail := 7 } .c4 + 4
    ∧ take32 cfg { u2 with fwd := 4, tail := 7 } = .raise .fwdExhaust 0
    ∧ take32 cfg { u2 with fwd := 4, tail := 6 } = .raise .fwdExhaust 0 := ⟨by decide, rfl, rfl⟩

/-- O6, third clause, and B12: the refill ends exactly at TAIL. P2's bytes 2 and 3 are D0 00. -/
theorem witness_o6_word16 : forwardAt cfg { u2 with fwd := 2, tail := 4 } .c2 + 2 ≤ 4 ∧ (4 : Nat) ≤ cfg.pmSize
    ∧ u2.pm.read 2 = some 0xD0 ∧ u2.pm.read 3 = some 0x00
    ∧ take16 cfg { u2 with fwd := 2, tail := 4 } .c2 = .ok (0xD000, { u2 with fwd := 4, tail := 4 }) :=
  ⟨by decide, by decide, rfl, rfl, rfl⟩

/-- The same in independent mode (B15): only OFF[1] moves. -/
theorem test_take16_independent :
    take16 cfgInd { u2 with off := ⟨0, 2, 0, 0⟩, tail := 4 } .c2 =
      .ok (0xD000, { u2 with off := ⟨0, 4, 0, 0⟩, tail := 4 }) := rfl

/-- An INIT_OFF above SRC_LEN (R82, log entry 28): C4's own refill faults and so does a tail read, C1's does not. -/
theorem test_init_off_above_src_len :
    let u := { u2 with off := ⟨0, 0, 0, 13⟩ };
    take16 cfgInd u .c1 = .ok (0x2000, { u with off := ⟨2, 0, 0, 13⟩ }) ∧ take32 cfgInd u = .raise .fwdExhaust 0
      ∧ tailByte cfgInd u = .raise .tailCross 0 := ⟨rfl, rfl, rfl⟩

/-- O6, fourth clause: P2's C4 word in both orders (step 6 of P2, and M1). -/
theorem witness_o6_word32 : forwardAt cfg { u2 with fwd := 4, tail := 8 } .c4 + 4 ≤ 8 ∧ (8 : Nat) ≤ cfg.pmSize
    ∧ u2.pm.read 4 = some 0x0A ∧ u2.pm.read 5 = some 0 ∧ u2.pm.read 6 = some 0 ∧ u2.pm.read 7 = some 0
    ∧ take32 cfg { u2 with fwd := 4, tail := 8 } = .ok (0x0000000A, { u2 with fwd := 8, tail := 8 })
    ∧ take32 { cfg with lsbWordOrder := .be } { u2 with fwd := 4, tail := 8 } =
        .ok (0x0A000000, { u2 with fwd := 8, tail := 8 }) :=
  ⟨by decide, by decide, rfl, rfl, rfl, rfl, rfl, rfl⟩

/-- O6, the unwritten bytes of a 16-bit refill (R41): the first, and the second behind a written first. -/
theorem witness_o6_unwritten16 :
    (forwardAt cfg { u2 with pm := [] } .c1 + 2 ≤ u2.tail ∧ u2.tail ≤ cfg.pmSize
      ∧ take16 cfg { u2 with pm := [] } .c1 = .stop (.unwritten .pm 0))
    ∧ (let u := { u2 with pm := [(0, 0x20)] };
      forwardAt cfg u .c1 + 2 ≤ u.tail ∧ u.pm.read (forwardAt cfg u .c1 + 0) ≠ none
        ∧ u.pm.read (forwardAt cfg u .c1 + 1) = none ∧ take16 cfg u .c1 = .stop (.unwritten .pm 1)) :=
  ⟨⟨by decide, by decide, rfl⟩, by decide, by decide, rfl, rfl⟩

/-- O6, the unwritten bytes of C4's refill (R41): the first, the third and the last of four. -/
theorem witness_o6_unwritten32 :
    (forwardAt cfg { u2 with pm := [] } .c4 + 4 ≤ u2.tail ∧ take32 cfg { u2 with pm := [] } = .stop (.unwritten .pm 0))
    ∧ (let u := { u2 with pm := [(0, 1), (1, 2), (3, 4)] };
      (∀ i, i < 2 → u.pm.read (forwardAt cfg u .c4 + i) ≠ none) ∧ u.pm.read (forwardAt cfg u .c4 + 2) = none
        ∧ take32 cfg u = .stop (.unwritten .pm 2))
    ∧ (let u := { u2 with pm := [(0, 1), (1, 2), (2, 3)] };
      (∀ i, i < 3 → u.pm.read (forwardAt cfg u .c4 + i) ≠ none) ∧ u.pm.read (forwardAt cfg u .c4 + 3) = none
        ∧ take32 cfg u = .stop (.unwritten .pm 3)) :=
  ⟨⟨by decide, rfl⟩, ⟨by decide, rfl, rfl⟩, by decide, rfl, rfl⟩

/-- O7, the clauses of READ1: B2's two reads of 0x4000, B3's refill after the last bit, V1's empty stream. -/
theorem witness_o7_read1 :
    (let u := { u2 with c1 := ⟨0x4000, 15⟩ };
      u.c1.rem ≠ 0 ∧ read1 cfg u = .ok (1, { u with c1 := ⟨0x4000, 14⟩ }))
    ∧ (let u := { u2 with c1 := ⟨0x4001, 1⟩ };
      read1 cfg u = .ok (1, { u with c1 := ⟨0x4001, 0⟩ }))
    ∧ (u2.c1.rem = 0 ∧ take16 cfg u2 .c1 = .ok (0x2000, { u2 with fwd := 2 })
      ∧ read1 cfg u2 = .ok (0, { u2 with c1 := ⟨0x2000, 15⟩, fwd := 2 }))
    ∧ (let u := busyUnit .ctrl [] 0;
      u.c1.rem = 0 ∧ take16 cfg u .c1 = .raise .fwdExhaust 0 ∧ read1 cfg u = .raise .fwdExhaust 0) :=
  ⟨⟨by decide, rfl⟩, rfl, ⟨rfl, rfl, rfl⟩, rfl, rfl, rfl⟩

/-- O7, the clauses of READ2: B4's first two and last pairs of 0xD000, a refill, V3's exhausted stream. -/
theorem witness_o7_read2 :
    (let u := { u2 with c2 := ⟨0xD000, 16⟩ };
      2 ≤ u.c2.rem ∧ read2 cfg u = .ok (3, { u with c2 := ⟨0xD000, 14⟩ }))
    ∧ (let u := { u2 with c2 := ⟨0xD001, 2⟩ };
      2 ≤ u.c2.rem ∧ read2 cfg u = .ok (1, { u with c2 := ⟨0xD001, 0⟩ }))
    ∧ (let u := { u2 with fwd := 2 };
      u.c2.rem = 0 ∧ take16 cfg u .c2 = .ok (0xD000, { u2 with fwd := 4 })
      ∧ read2 cfg u = .ok (3, { u2 with c2 := ⟨0xD000, 14⟩, fwd := 4 }))
    ∧ (let u := { busyUnit .litcode [0, 0] 0 with fwd := 2 };
      u.c2.rem = 0 ∧ take16 cfg u .c2 = .raise .fwdExhaust 0 ∧ read2 cfg u = .raise .fwdExhaust 0) :=
  ⟨⟨by decide, rfl⟩, ⟨by decide, rfl⟩, ⟨rfl, rfl, rfl⟩, rfl, rfl, rfl⟩

/-- B4: the second pair of 0xD000 is 01. -/
theorem test_read2_second : read2 cfg { u2 with c2 := ⟨0xD000, 14⟩ } = .ok (1, { u2 with c2 := ⟨0xD000, 12⟩ }) := rfl

/-- O8, first clause: B7, and all the bits there are. -/
theorem witness_o8_inside :
    (let u := { u2 with cx := ⟨0x1000, 16⟩ };
      u.cx.rem ≤ 16 ∧ 5 ≤ 16 ∧ 5 ≤ u.cx.rem ∧ readX 5 cfg u = .ok (2, { u with cx := ⟨0x1000, 11⟩ }))
    ∧ (let u := { u2 with cx := ⟨0x1235, 4⟩ };
      4 ≤ u.cx.rem ∧ readX 4 cfg u = .ok (5, { u with cx := ⟨0x1235, 0⟩ })) :=
  ⟨⟨by decide, by decide, by decide, rfl⟩, by decide, rfl⟩

/-- O8, second clause: B5, where three bits are left of the old word, and B6, where none is. -/
theorem witness_o8_across :
    (let u := { busyUnit .mdist [0xC0, 0x00] 0 with cx := ⟨5, 3⟩ };
      u.cx.rem < 5 ∧ take16 cfg u .cx = .ok (0xC000, { u with fwd := 2 })
        ∧ readX 5 cfg u = .ok (23, { u with cx := ⟨0xC000, 14⟩, fwd := 2 }))
    ∧ (let u := busyUnit .mdist [0x12, 0x34] 0;
      u.cx.rem < 16 ∧ take16 cfg u .cx = .ok (0x1234, { u with fwd := 2 })
        ∧ readX 16 cfg u = .ok (0x1234, { u with cx := ⟨0x1234, 0⟩, fwd := 2 })) :=
  ⟨⟨by decide, rfl, rfl⟩, by decide, rfl, rfl⟩

/-- O8, third clause: XSHORT, one byte too few. -/
theorem witness_o8_short :
    let u := { busyUnit .mdist [0x08] 6 with cx := ⟨5, 3⟩, wp := 1 };
    u.cx.rem < 5 ∧ take16 cfg u .cx = .raise .fwdExhaust 1 ∧ readX 5 cfg u = .raise .fwdExhaust 1 :=
  ⟨by decide, rfl, rfl⟩

/-- O9: B10's second nibble, the refill of P2's step 6, and C4SHORT. -/
theorem witness_o9 :
    (let u := { u2 with c4 := ⟨0x15, 28⟩ };
      u.c4.rem ≠ 0 ∧ read4 cfg u = .ok (5, { u with c4 := ⟨0x1, 24⟩ }))
    ∧ (let u := { u2 with fwd := 4 };
      u.c4.rem = 0 ∧ take32 cfg u = .ok (0x0000000A, { u2 with fwd := 8 })
        ∧ read4 cfg u = .ok (10, { u2 with c4 := ⟨0, 28⟩, fwd := 8 }))
    ∧ (let u := { busyUnit .midx [0x60, 0x00, 0x0A, 0x00, 0x00] 3 with fwd := 2, tail := 4, wp := 1 };
      u.c4.rem = 0 ∧ take32 cfg u = .raise .fwdExhaust 1 ∧ read4 cfg u = .raise .fwdExhaust 1) :=
  ⟨⟨by decide, rfl⟩, ⟨rfl, rfl, rfl⟩, rfl, rfl, rfl⟩

/-- O10: B13 and B14, and the forward mark of independent mode (B15). -/
theorem witness_o10 :
    (let u := { busyUnit .litcopy [0x40, 0x00, 0x41] 1 with fwd := 2 };
      fwdHi cfg u < u.tail ∧ u.tail ≤ cfg.pmSize ∧ u.pm.read (u.tail - 1) = some 0x41
        ∧ tailByte cfg u = .ok (0x41, { u with tail := 2 })
        ∧ tailByte cfg { u with tail := 2 } = .raise .tailCross 0)
    ∧ (let u := { busyUnit .litcopy [0x20, 0x00, 0x41] 1 with off := ⟨0, 0, 0, 3⟩ };
      tailByte cfgInd u = .raise .tailCross 0
        ∧ tailByte cfgInd { u with off := ⟨2, 2, 0, 0⟩ } = .ok (0x41, { u with off := ⟨2, 2, 0, 0⟩, tail := 2 })) :=
  ⟨⟨by decide, by decide, rfl, rfl, rfl⟩, rfl, rfl⟩

/-- O11's last clauses have an index each: 4 opens a band, 15 ends one. Section L2.2's lookups. -/
theorem witness_o11 : ((4 : BitVec 4) = 0 ∨ (4 : BitVec 4) = 4 ∨ (4 : BitVec 4) = 10)
    ∧ ((15 : BitVec 4) ≠ 0 ∧ (15 : BitVec 4) ≠ 4 ∧ (15 : BitVec 4) ≠ 10)
    ∧ vlcLookup 0 = (4, 0) ∧ vlcLookup 3 = (9, 336) ∧ vlcLookup 4 = (4, 0) ∧ vlcLookup 9 = (14, 10896)
    ∧ vlcLookup 10 = (5, 0) ∧ vlcLookup 13 = (11, 672) ∧ vlcLookup 15 = (14, 10912) :=
  ⟨by decide, by decide, rfl, rfl, rfl, rfl, rfl, rfl, rfl⟩

/-! ### The symbol rows -/

/-- The unit in hand of `machine u` is `u`, BUSY in phase `p`. -/
def inPhase (u : DecUnit) (p : Phase) : Prop :=
  (machine u).units[(machine u).cur]? = some u ∧ u.state = .busy ∧ u.phase = p

/-- O13, F = 0: step 1 of P2. -/
theorem witness_o13_lit : inPhase u2 .ctrl ∧ read1 cfg u2 = .ok (0, { u2 with c1 := ⟨0x2000, 15⟩, fwd := 2 })
    ∧ exec .ctrlLit (machine u2) =
        .next (machine { u2 with c1 := ⟨0x2000, 15⟩, fwd := 2, phase := .litsel }) := ⟨⟨rfl, rfl, rfl⟩, rfl, rfl⟩

/-- P2's unit before its tenth step. -/
def u2late : DecUnit :=
  { u2 with c1 := ⟨0x2000, 14⟩, c2 := ⟨0xD000, 12⟩, cx := ⟨0x1000, 11⟩, c4 := ⟨0, 28⟩, fwd := 10, tail := 10, wp := 8 }

/-- O13, F = 1: step 10 of P2. -/
theorem witness_o13_nolit : inPhase u2late .ctrl
    ∧ read1 cfg u2late = .ok (1, { u2late with c1 := ⟨0x2000, 13⟩ })
    ∧ exec .ctrlNolit (machine u2late) = .next (machine { u2late with c1 := ⟨0x2000, 13⟩, phase := .endchk }) :=
  ⟨⟨rfl, rfl, rfl⟩, rfl, rfl⟩

/-- O13, the raise: V6. -/
theorem witness_o13_fault :
    let u := busyUnit .ctrl [0x80] 0;
    inPhase u .ctrl ∧ read1 cfg u = .raise .fwdExhaust 0
      ∧ exec .ctrlNolit (machine u) =
          .next (machine { u with state := .fault, errKind := .corruptStream, errCause := .fwdExhaust }) :=
  ⟨⟨rfl, rfl, rfl⟩, rfl, rfl⟩

/-- O14: step 2 of P2, LIT1's second step, and a stream that ends there. -/
theorem witness_o14 :
    (let u := { u2 with phase := .litsel, c1 := ⟨0x2000, 15⟩, fwd := 2, litcnt := 9 };
      inPhase u .litsel ∧ read1 cfg u = .ok (0, { u with c1 := ⟨0x2000, 14⟩ })
        ∧ exec .litExt (machine u) =
            .next (machine { u with c1 := ⟨0x2000, 14⟩, litcnt := 0, phase := .litcode }))
    ∧ (let u := { busyUnit .litsel [0x40, 0x00, 0x61] 1 with c1 := ⟨0x4000, 15⟩, fwd := 2 };
      inPhase u .litsel ∧ read1 cfg u = .ok (1, { u with c1 := ⟨0x4000, 14⟩ })
        ∧ exec .litOne (machine u) =
            .next (machine { u with c1 := ⟨0x4000, 14⟩, litcnt := 1, phase := .litcopy }))
    ∧ (let u := { busyUnit .litsel [0x00, 0x00, 0x61] 1 with c1 := ⟨0, 0⟩, fwd := 2 };
      inPhase u .litsel ∧ read1 cfg u = .raise .fwdExhaust 0) :=
  ⟨⟨⟨rfl, rfl, rfl⟩, rfl, rfl⟩, ⟨⟨rfl, rfl, rfl⟩, rfl, rfl⟩, ⟨rfl, rfl, rfl⟩, rfl⟩

/-- A unit in a phase that reads C2, with the pair `n` last in the cursor. -/
def pairUnit (p : Phase) (n : BitVec 2) : DecUnit :=
  { u2 with phase := p, c2 := ⟨n.setWidth 16, 2⟩, litcnt := 3, mlen := 0, fwd := 4, wp := 1 }

/-- Every pair can come next. -/
theorem test_pairs : ∀ n : BitVec 2, read2 cfg (pairUnit .litcode n) =
    .ok (n, { pairUnit .litcode n with c2 := ⟨n.setWidth 16, 0⟩ }) := by decide

/-- O15: the four codes behind one code 0 (LIT5 to LIT7 take the last three), and V3's end of the stream. -/
theorem witness_o15 :
    inPhase (pairUnit .litcode 0) .litcode
      ∧ exec .litcodeCont (machine (pairUnit .litcode 0)) =
          .next (machine { pairUnit .litcode 0 with c2 := ⟨0, 0⟩, litcnt := 6 })
      ∧ exec .litcodeAdd4 (machine (pairUnit .litcode 1)) =
          .next (machine { pairUnit .litcode 1 with c2 := ⟨1, 0⟩, litcnt := 7, phase := .litcopy })
      ∧ exec .litcodeAdd3 (machine (pairUnit .litcode 2)) =
          .next (machine { pairUnit .litcode 2 with c2 := ⟨2, 0⟩, litcnt := 6, phase := .litcopy })
      ∧ exec .litcodeAdd2 (machine (pairUnit .litcode 3)) =
          .next (machine { pairUnit .litcode 3 with c2 := ⟨3, 0⟩, litcnt := 5, phase := .litcopy })
      ∧ (let u := { busyUnit .litcode [0, 0] 0 with fwd := 2 };
        inPhase u .litcode ∧ read2 cfg u = .raise .fwdExhaust 0) :=
  ⟨⟨rfl, rfl, rfl⟩, rfl, rfl, rfl, rfl, ⟨rfl, rfl, rfl⟩, rfl⟩

/-- A unit in a phase that reads C4, with the nibble `n` last in the cursor. -/
def nibbleUnit (p : Phase) (n : BitVec 4) : DecUnit :=
  { u2 with phase := p, c4 := ⟨n.setWidth 32, 4⟩, mlen := 21, fwd := 8, wp := 2 }

/-- Every nibble can come next. -/
theorem test_nibbles : ∀ n : BitVec 4, read4 cfg (nibbleUnit .midx n) =
    .ok (n, { nibbleUnit .midx n with c4 := ⟨0, 0⟩ }) := by decide

/-- O16: the first and last index and those beside the bands' ends (section L2.2), and V21's fault. -/
theorem witness_o16 :
    inPhase (nibbleUnit .midx 0) .midx
      ∧ exec .midx0 (machine (nibbleUnit .midx 0)) =
          .next (machine { nibbleUnit .midx 0 with c4 := ⟨0, 0⟩, midx := 0, mbl := 4, mbase := 0, phase := .mdist })
      ∧ exec .midx3 (machine (nibbleUnit .midx 3)) =
          .next (machine { nibbleUnit .midx 3 with c4 := ⟨0, 0⟩, midx := 3, mbl := 9, mbase := 336, phase := .mdist })
      ∧ exec .midx9 (machine (nibbleUnit .midx 9)) =
          .next (machine
            { nibbleUnit .midx 9 with c4 := ⟨0, 0⟩, midx := 9, mbl := 14, mbase := 10896, phase := .mdist })
      ∧ exec .midx15 (machine (nibbleUnit .midx 15)) =
          .next (machine
            { nibbleUnit .midx 15 with c4 := ⟨0, 0⟩, midx := 15, mbl := 14, mbase := 10912, phase := .mdist })
      ∧ (let u := { busyUnit .midx [0x40, 0x00, 0x41] 2 with fwd := 2, tail := 2, wp := 1 };
        inPhase u .midx ∧ read4 cfg u = .raise .fwdExhaust 1) :=
  ⟨⟨rfl, rfl, rfl⟩, rfl, rfl, rfl, rfl, ⟨rfl, rfl, rfl⟩, rfl⟩

/-- Step 6 of P2: the index 10, with C4's refill. -/
theorem test_midx10 :
    let u := { u2 with phase := .midx, fwd := 4, tail := 10, wp := 2 };
    exec .midx10 (machine u) = .next (machine
      { u with c4 := ⟨0, 28⟩, fwd := 8, midx := 10, mbl := 5, mbase := 0, phase := .mdist }) := rfl

/-- A unit in MDIST for an index, with its extra bits in the cursor. -/
def distanceUnit (i mbl : BitVec 4) (base : BitVec 16) (cx : Cursor 16) : DecUnit :=
  { u2 with phase := .mdist, midx := i, mbl := mbl, mbase := base, cx := cx, fwd := 8, wp := 1 }

/-- O17: the last index of each length (3, 9 and 15), the last two with all extra bits set (section L2.2). -/
theorem witness_o17 :
    (let u := distanceUnit 3 9 336 ⟨0, 16⟩;
      inPhase u .mdist ∧ readX u.mbl.toNat cfg u = .ok ((0 : BitVec 14).toNat, { u with cx := ⟨0, 7⟩ })
        ∧ exec (.mdist 9 0) (machine u) =
            .next (machine { u with cx := ⟨0, 7⟩, dist := 336, mlen := 2, phase := .mcopy }))
    ∧ (let u := distanceUnit 9 14 10896 ⟨0xFFFF, 14⟩;
      readX u.mbl.toNat cfg u = .ok ((16383 : BitVec 14).toNat, { u with cx := ⟨0xFFFF, 0⟩ })
        ∧ exec (.mdist 14 16383) (machine u) =
            .next (machine { u with cx := ⟨0xFFFF, 0⟩, dist := 27279, mlen := 3, phase := .mcopy }))
    ∧ (let u := distanceUnit 15 14 10912 ⟨0xFFFF, 15⟩;
      readX u.mbl.toNat cfg u = .ok ((16383 : BitVec 14).toNat, { u with cx := ⟨0xFFFF, 1⟩ })
        ∧ exec (.mdist 14 16383) (machine u) =
            .next (machine { u with cx := ⟨0xFFFF, 1⟩, dist := 27295, phase := .mlen2 })) :=
  ⟨⟨⟨rfl, rfl, rfl⟩, rfl, rfl⟩, ⟨rfl, rfl⟩, rfl, rfl⟩

/-- O17, the raise (XSHORT), and the first index of the other lengths (4 and 10). -/
theorem witness_o17_bounds :
    (let u := { distanceUnit 10 5 0 ⟨0, 0⟩ with fwd := 12, tail := 12 };
      inPhase u .mdist ∧ readX u.mbl.toNat cfg u = .raise .fwdExhaust 1)
    ∧ (let u := distanceUnit 4 4 0 ⟨2, 4⟩;
      exec (.mdist 4 2) (machine u) =
        .next (machine { u with cx := ⟨2, 0⟩, dist := 2, mlen := 3, phase := .mcopy }))
    ∧ (let u := distanceUnit 10 5 0 ⟨2, 5⟩;
      exec (.mdist 5 2) (machine u) = .next (machine { u with cx := ⟨2, 0⟩, dist := 2, phase := .mlen2 })) :=
  ⟨⟨⟨rfl, rfl, rfl⟩, rfl⟩, rfl, rfl⟩

/-- O18: the four codes (ML4 to ML7), and a stream that ends there. -/
theorem witness_o18 :
    inPhase (pairUnit .mlen2 0) .mlen2
      ∧ read2 cfg (pairUnit .mlen2 0) = .ok (0, { pairUnit .mlen2 0 with c2 := ⟨0, 0⟩ })
      ∧ exec .mlen2Ext (machine (pairUnit .mlen2 0)) =
          .next (machine { pairUnit .mlen2 0 with c2 := ⟨0, 0⟩, mlen := 6, phase := .mlenn })
      ∧ exec .mlen2L6 (machine (pairUnit .mlen2 1)) =
          .next (machine { pairUnit .mlen2 1 with c2 := ⟨1, 0⟩, mlen := 6, phase := .mcopy })
      ∧ exec .mlen2L5 (machine (pairUnit .mlen2 2)) =
          .next (machine { pairUnit .mlen2 2 with c2 := ⟨2, 0⟩, mlen := 5, phase := .mcopy })
      ∧ exec .mlen2L4 (machine (pairUnit .mlen2 3)) =
          .next (machine { pairUnit .mlen2 3 with c2 := ⟨3, 0⟩, mlen := 4, phase := .mcopy })
      ∧ (let u := { u2 with phase := .mlen2, fwd := 12 };
        inPhase u .mlen2 ∧ read2 cfg u = .raise .fwdExhaust 0) :=
  ⟨⟨rfl, rfl, rfl⟩, rfl, rfl, rfl, rfl, rfl, ⟨rfl, rfl, rfl⟩, rfl⟩

/-- O19: the code 0, the stopping codes 1 and 15 at their ends (ML36 and ML22), 7 in the middle (P7), and a
stream that ends there. -/
theorem witness_o19 :
    inPhase (nibbleUnit .mlenn 0) .mlenn
      ∧ read4 cfg (nibbleUnit .mlenn 15) = .ok (15, { nibbleUnit .mlenn 15 with c4 := ⟨0, 0⟩ })
      ∧ exec .mlennCont (machine (nibbleUnit .mlenn 0)) =
          .next (machine { nibbleUnit .mlenn 0 with c4 := ⟨0, 0⟩, mlen := 36 })
      ∧ exec .mlennAdd1 (machine (nibbleUnit .mlenn 15)) =
          .next (machine { nibbleUnit .mlenn 15 with c4 := ⟨0, 0⟩, mlen := 22, phase := .mcopy })
      ∧ exec .mlennAdd15 (machine (nibbleUnit .mlenn 1)) =
          .next (machine { nibbleUnit .mlenn 1 with c4 := ⟨0, 0⟩, mlen := 36, phase := .mcopy })
      ∧ exec .mlennAdd9 (machine (nibbleUnit .mlenn 7)) =
          .next (machine { nibbleUnit .mlenn 7 with c4 := ⟨0, 0⟩, mlen := 30, phase := .mcopy })
      ∧ (let u := { u2 with phase := .mlenn, fwd := 12 };
        inPhase u .mlenn ∧ read4 cfg u = .raise .fwdExhaust 0) :=
  ⟨⟨rfl, rfl, rfl⟩, rfl, rfl, rfl, rfl, rfl, ⟨rfl, rfl, rfl⟩, rfl⟩

/-- A row that the phase or the symbol does not select is refused (R70, log entry 10). -/
theorem test_row_not_selected :
    exec .ctrlNolit (machine u2) = .refused (.rowNotSelected .ctrl)
      ∧ exec .endchk (machine u2) = .refused (.rowNotSelected .endchk) := ⟨rfl, rfl⟩

/-! ### The steps that move bytes -/

/-- O20: step 4 of P2. -/
theorem witness_o20 :
    let u := { u2 with phase := .litcopy, litcnt := 2, fwd := 4 };
    inPhase u .litcopy ∧ u.wp + u.litcnt ≤ u.dstLen.toNat ∧ u.dstLen.toNat ≤ cfg.omSize
      ∧ fwdHi cfg u + u.litcnt ≤ u.tail ∧ u.tail ≤ cfg.pmSize
      ∧ (∀ j, j < u.litcnt → u.pm.read (u.tail - 1 - j) ≠ none)
      ∧ exec .litcopy (machine u) =
          .next (machine { u with tail := 10, wp := 2, om := [(0, 0x41), (1, 0x42)], phase := .endchk }) :=
  ⟨⟨rfl, rfl, rfl⟩, by decide, by decide, by decide, by decide, by decide, rfl⟩

/-- O20 where the tail and the forward mark meet, and the output ends exactly at DST_LEN (P1). -/
theorem witness_o20_meet :
    let u := { busyUnit .litcopy p1 3 with fwd := 4, litcnt := 3 };
    inPhase u .litcopy ∧ u.wp + u.litcnt ≤ u.dstLen.toNat ∧ u.dstLen.toNat ≤ cfg.omSize
      ∧ fwdHi cfg u + u.litcnt ≤ u.tail ∧ u.tail ≤ cfg.pmSize
      ∧ (∀ j, j < u.litcnt → u.pm.read (u.tail - 1 - j) ≠ none)
      ∧ exec .litcopy (machine u) =
          .next (machine { u with tail := 4, wp := 3, om := [(0, 0x41), (1, 0x42), (2, 0x43)], phase := .endchk }) :=
  ⟨⟨rfl, rfl, rfl⟩, by decide, by decide, by decide, by decide, by decide, rfl⟩

/-- O21: V4's overrun, and V20's crossing at the second byte, which is undone. -/
theorem witness_o21 :
    (let u := { busyUnit .litcopy [0x40, 0x00] 0 with fwd := 2, litcnt := 1 };
      inPhase u .litcopy ∧ u.dstLen.toNat < u.wp + u.litcnt
        ∧ exec .litcopy (machine u) =
            .next (machine { u with state := .fault, errKind := .corruptStream, errCause := .litOverrun }))
    ∧ (let u := { busyUnit .litcopy [0x00, 0x00, 0x80, 0x00, 0x43] 3 with fwd := 4, litcnt := 3 };
      inPhase u .litcopy ∧ u.wp + u.litcnt ≤ u.dstLen.toNat ∧ u.dstLen.toNat ≤ cfg.omSize ∧ 1 ≤ u.litcnt
        ∧ u.tail < fwdHi cfg u + u.litcnt ∧ u.tail ≤ cfg.pmSize ∧ u.pm.read 4 ≠ none
        ∧ exec .litcopy (machine u) = .next (machine
            { u with state := .fault, errKind := .corruptStream, errCause := .tailCross, errPos := 1 })) :=
  ⟨⟨⟨rfl, rfl, rfl⟩, by decide, rfl⟩,
    ⟨rfl, rfl, rfl⟩, by decide, by decide, by decide, by decide, by decide, by decide, rfl⟩

/-- O22: steps 5 and 11 of P2. -/
theorem witness_o22 :
    (let u := { u2 with phase := .endchk, wp := 2 };
      inPhase u .endchk ∧ u.wp ≠ u.dstLen.toNat
        ∧ exec .endchk (machine u) = .next (machine { u with phase := .midx }))
    ∧ (let u := { u2late with phase := .endchk };
      inPhase u .endchk ∧ u.wp = u.dstLen.toNat
        ∧ exec .endchk (machine u) =
            .next (machine { u with state := .done, phase := .none, omValid := true, omLen := 8 })) :=
  ⟨⟨⟨rfl, rfl, rfl⟩, by decide, rfl⟩, ⟨rfl, rfl, rfl⟩, rfl, rfl⟩

/-- O23: step 9 of P2, an overlapping copy that ends at DST_LEN. -/
theorem witness_o23 :
    let u := { u2 with phase := .mcopy, om := [(0, 0x41), (1, 0x42)], wp := 2, dist := 2, mlen := 6 };
    inPhase u .mcopy ∧ 1 ≤ u.dist ∧ u.dist ≤ u.wp ∧ u.wp + u.mlen ≤ u.dstLen.toNat ∧ u.dstLen.toNat ≤ cfg.omSize
      ∧ (∀ i, i < u.wp → u.om.read i ≠ none)
      ∧ exec .mcopy (machine u) = .next (machine
          { u with
            wp := 8
            om := [(0, 0x41), (1, 0x42), (2, 0x41), (3, 0x42), (4, 0x41), (5, 0x42), (6, 0x41), (7, 0x42)]
            phase := .ctrl }) :=
  ⟨⟨rfl, rfl, rfl⟩, by decide, by decide, by decide, by decide, by decide, rfl⟩

/-- O24: DZ0, P4 and MOVR, in the order of the checks. -/
theorem witness_o24 :
    (let u := { u2 with phase := .mcopy, wp := 1, dist := 0, mlen := 2 };
      inPhase u .mcopy ∧ u.dist = 0 ∧ exec .mcopy (machine u) = .next (machine
        { u with state := .fault, errKind := .corruptStream, errCause := .distZero, errPos := 1 }))
    ∧ (let u := { u2 with phase := .mcopy, wp := 1, dist := 2, mlen := 3 };
      u.dist ≠ 0 ∧ u.wp < u.dist ∧ exec .mcopy (machine u) = .next (machine
        { u with state := .fault, errKind := .corruptStream, errCause := .distBeforeStart, errPos := 1 }))
    ∧ (let u := { u2 with phase := .mcopy, wp := 1, dist := 1, mlen := 8 };
      u.dist ≠ 0 ∧ u.dist ≤ u.wp ∧ u.dstLen.toNat < u.wp + u.mlen ∧ exec .mcopy (machine u) = .next (machine
        { u with state := .fault, errKind := .corruptStream, errCause := .matchOverrun, errPos := 1 })) :=
  ⟨⟨⟨rfl, rfl, rfl⟩, rfl, rfl⟩, ⟨by decide, by decide, rfl⟩, by decide, by decide, by decide, rfl⟩

/-- O25: R1. -/
theorem witness_o25 :
    let u := { busyUnit .rawcopy [0xAA, 0x55] 2 with lastOp := 2 };
    inPhase u .rawcopy ∧ u.dstLen.toNat ≤ cfg.pmSize ∧ u.dstLen.toNat ≤ cfg.omSize
      ∧ (∀ i, i < u.dstLen.toNat → u.pm.read i ≠ none)
      ∧ exec .rawcopy (machine u) = .next (machine
          { u with
            om := [(0, 0xAA), (1, 0x55)], wp := 2, state := .done, phase := .none, omValid := true, omLen := 2 }) :=
  ⟨⟨rfl, rfl, rfl⟩, by decide, by decide, by decide, rfl⟩

/-- O25 with nothing to copy: R3. -/
theorem witness_o25_empty :
    let u := { busyUnit .rawcopy [] 0 with lastOp := 2 };
    exec .rawcopy (machine u) = .next (machine { u with state := .done, phase := .none, omValid := true }) := rfl

/-- O26: F1's clear, on an IM of exactly its size in the second part. -/
theorem witness_o26 :
    (let u := { DecUnit.reset with state := .busy, phase := .imgclear, lastOp := 3, width := 4, height := 1, bpc := 2 };
      inPhase u .imgclear ∧ u.width.toNat * u.height.toNat ≤ cfg.imSize
        ∧ exec .imgclear (machine u) = .next
            { machine { u with state := .done, phase := .none } with
              im := [(0, 0), (1, 0), (2, 0), (3, 0)], imgW := 4, imgH := 1, imgBpc := 2, imValid := true })
    ∧ (let u := { DecUnit.reset with state := .busy, phase := .imgclear, lastOp := 3, width := 4, height := 4, bpc := 8 };
      inPhase u .imgclear ∧ u.width.toNat * u.height.toNat ≤ cfg.imSize) :=
  ⟨⟨⟨rfl, rfl, rfl⟩, by decide, rfl⟩, ⟨rfl, rfl, rfl⟩, by decide⟩

/-- A machine with a cleared image of 4 x 1 pixels and 2 planes (F1). -/
def imaged (u : DecUnit) : State :=
  { machine u with im := memFrom 0 [0, 0, 0, 0], imgW := 4, imgH := 1, imgBpc := 2, imValid := true }

/-- A unit that folds a plane of one byte. -/
def foldUnit (b : Byte) (plane : BitVec 8) : DecUnit :=
  { DecUnit.reset with
    state := .busy, phase := .fold, lastOp := 4, omValid := true, omLen := 1, om := [(0, b)], plane := plane }

/-- O27: F9. -/
theorem witness_o27 :
    (imaged (foldUnit 0xA0 0)).units[0]? = some (foldUnit 0xA0 0) ∧ (foldUnit 0xA0 0).phase = .fold
      ∧ paramsValid cfg = true ∧ (∀ i, i < 4 * 1 → (imaged (foldUnit 0xA0 0)).im.read i ≠ none)
      ∧ (∀ i, i < 1 * 4 → i / 8 < cfg.omSize ∧ (foldUnit 0xA0 0).om.read (i / 8) ≠ none)
      ∧ exec .foldStep (imaged (foldUnit 0xA0 0)) = .next
          { imaged { foldUnit 0xA0 0 with state := .done, phase := .none } with im := memFrom 0 [1, 0, 1, 0] } :=
  ⟨rfl, rfl, rfl, by decide, by decide, rfl⟩

/-- F10: the second plane. -/
theorem test_fold_second_plane :
    exec .foldStep { imaged (foldUnit 0x60 1) with im := memFrom 0 [1, 0, 1, 0] } = .next
      { imaged { foldUnit 0x60 1 with state := .done, phase := .none } with im := memFrom 0 [1, 2, 3, 0] } := rfl

/-- O27 with padded rows: F15's image of 4 x 2 under ROW_ALIGN 8. -/
theorem witness_o27_padded :
    let u := { foldUnit 0xC0 0 with om := [(0, 0xC0), (1, 0x30)], omLen := 2 };
    let s := { imaged u with cfg := { cfg with rowAlign := 8 }, im := memFrom 0 [0, 0, 0, 0, 0, 0, 0, 0], imgH := 2 };
    (4 + (8 - 1)) / 8 * 8 = 8 ∧ (∀ i, i < 2 * 8 → i / 8 < cfg.omSize ∧ u.om.read (i / 8) ≠ none)
      ∧ exec .foldStep s = .next
          { s with
            units := [{ u with state := .done, phase := .none }], im := memFrom 0 [1, 1, 0, 0, 0, 0, 1, 1] } :=
  ⟨rfl, by decide, rfl⟩

/-! ### The commands -/

/-- An idle unit with a job to start. -/
def idleUnit (src dst : BitVec 32) : DecUnit := { DecUnit.reset with srcLen := src, dstLen := dst }

/-- The unit in hand of `machine u` is `u`, and it is not BUSY. -/
def notBusy (u : DecUnit) : Prop := (machine u).units[(machine u).cur]? = some u ∧ u.state ≠ .busy

/-- A unit that ends in FAULT in a start step, with PHASE NONE. -/
def startFault (u : DecUnit) (op : BitVec 4) (k : ErrKind) (c : Cause) (pos : BitVec 32) : DecUnit :=
  { u with state := .fault, lastOp := op, errKind := k, errCause := c, errPos := pos, phase := .none }

/-- O28: a start (K5: from a unit in FAULT), with SRC_LEN and DST_LEN at their bounds. -/
theorem witness_o28 :
    let u := startFault { idleUnit 65535 65535 with omValid := true, omLen := 3, c1 := ⟨7, 3⟩, fwd := 9, tail := 9 }
      15 .illegalCommand .badOpcode 15;
    notBusy u ∧ exec (.decode 0xFFFFFFF#28) (machine u) = .next (machine
      { idleUnit 65535 65535 with state := .busy, lastOp := 1, tail := 65535, phase := .ctrl }) :=
  ⟨⟨rfl, by decide⟩, rfl⟩

/-- O28: SRC_RANGE before DST_RANGE, each one past its bound (R4, R5). -/
theorem witness_o28_faults :
    (notBusy (idleUnit 65536 65536) ∧ exec (.decode 0) (machine (idleUnit 65536 65536)) = .next (machine
        (startFault (idleUnit 65536 65536) 1 .configError .srcRange 65536)))
      ∧ exec (.decode 0) (machine (idleUnit 65535 65536)) = .next (machine
        (startFault (idleUnit 65535 65536) 1 .configError .dstRange 65536)) :=
  ⟨⟨⟨rfl, by decide⟩, rfl⟩, rfl⟩

/-- O29: R1's start, R2's mismatch, and R4 and R5. -/
theorem witness_o29 :
    (notBusy (idleUnit 2 2) ∧ exec (.copyRaw 0) (machine (idleUnit 2 2)) = .next (machine
        { idleUnit 2 2 with state := .busy, lastOp := 2, phase := .rawcopy }))
      ∧ exec (.copyRaw 0) (machine (idleUnit 1 2)) = .next (machine
        (startFault (idleUnit 1 2) 2 .corruptStream .rawSizeMismatch 1))
      ∧ exec (.copyRaw 0) (machine (idleUnit 65536 65536)) = .next (machine
        (startFault (idleUnit 65536 65536) 2 .configError .srcRange 65536))
      ∧ exec (.copyRaw 0) (machine (idleUnit 0 65536)) = .next (machine
        (startFault (idleUnit 0 65536) 2 .configError .dstRange 65536)) :=
  ⟨⟨⟨rfl, by decide⟩, rfl⟩, rfl, rfl, rfl⟩

/-- A unit with the registers of an IMG_CLEAR. -/
def clearUnit (w h : BitVec 16) (bpc : BitVec 8) : DecUnit := { DecUnit.reset with width := w, height := h, bpc := bpc }

/-- O30: F1's start with BPC at its bound, F2, and F3 with IM_SIZE 16. -/
theorem witness_o30 :
    (notBusy (clearUnit 4 4 8) ∧ exec (.imgClear 0) { machine (clearUnit 4 4 8) with imValid := true } = .next (machine
        { clearUnit 4 4 8 with state := .busy, lastOp := 3, phase := .imgclear }))
      ∧ exec (.imgClear 0) (machine (clearUnit 4 1 9)) = .next (machine
        (startFault (clearUnit 4 1 9) 3 .configError .bpcRange 9))
      ∧ exec (.imgClear 0) { machine (clearUnit 17 1 1) with imValid := true } = .next
        { machine (startFault (clearUnit 17 1 1) 3 .configError .imgRange 17) with imValid := true } :=
  ⟨⟨⟨rfl, by decide⟩, rfl⟩, rfl, rfl⟩

/-- O31: F9's start. -/
theorem witness_o31 :
    let u := { foldUnit 0xA0 1 with state := .done, phase := .none, lastOp := 1 };
    u.state ≠ .busy ∧ exec (.fold 0) (imaged u) = .next (imaged { u with state := .busy, lastOp := 4, phase := .fold }) :=
  ⟨by decide, rfl⟩

/-- O31's faults: F5, F6, F7, and F8 with nine bits needed of eight. -/
theorem witness_o31_faults :
    exec (.fold 0) (machine (idleUnit 0 0)) = .next (machine (startFault (idleUnit 0 0) 4 .configError .noImage 0))
      ∧ (let u := { idleUnit 0 0 with plane := 2 };
        exec (.fold 0) (imaged u) = .next (imaged (startFault u 4 .configError .planeRange 2)))
      ∧ exec (.fold 0) (imaged (idleUnit 0 0)) =
          .next (imaged (startFault (idleUnit 0 0) 4 .configError .noPlaneData 0))
      ∧ (let u := { foldUnit 0xA0 0 with state := .done, phase := .none };
        let s := { imaged u with imgW := 3, imgH := 3, imgBpc := 1 };
        exec (.fold 0) s = .next { s with units := [startFault u 4 .corruptStream .planeShort 1] }) :=
  ⟨rfl, rfl, rfl, rfl⟩

/-- O32: K2 and K1, and the other reserved OPs. -/
theorem witness_o32 :
    notBusy DecUnit.reset
      ∧ exec (.illegal0 0) (machine DecUnit.reset) =
          .next (machine (startFault DecUnit.reset 0 .illegalCommand .badOpcode 0))
      ∧ exec (.illegal5 0) (machine DecUnit.reset) =
          .next (machine (startFault DecUnit.reset 5 .illegalCommand .badOpcode 5))
      ∧ exec (.illegal67 1 0) (machine DecUnit.reset) =
          .next (machine (startFault DecUnit.reset 7 .illegalCommand .badOpcode 7))
      ∧ exec (.illegal8F 7 0) (machine DecUnit.reset) =
          .next (machine (startFault DecUnit.reset 15 .illegalCommand .badOpcode 15)) :=
  ⟨⟨rfl, by decide⟩, rfl, rfl, rfl, rfl⟩

/-- K1's STATUS word. -/
theorem test_status_word :
    statusWord (startFault DecUnit.reset 15 .illegalCommand .badOpcode 15) false = 0x001004F3 := rfl

/-- O33: K4's COPY_RAW to a BUSY unit. -/
theorem witness_o33 : (machine u2).units[0]? = some u2 ∧ u2.state = .busy ∧ isCommand (.copyRaw 0)
    ∧ exec (.copyRaw 0) (machine u2) = .next (machine u2) := ⟨rfl, rfl, trivial, rfl⟩

/-! ### Steps of the machine and its host -/

/-- Where the host program is empty and one unit is BUSY, it is that unit's turn. -/
theorem turn_of_unit : unitTurn (machine u2) 0 (machine u2) := ⟨rfl, _, rfl, rfl⟩

/-- Where no unit is BUSY, it is the host's turn. -/
theorem turn_of_host (a : HostAction) (l : List HostAction) :
    actReady (hosted DecUnit.reset (a :: l)) a = true →
      hostTurn (hosted DecUnit.reset (a :: l)) a (hosted DecUnit.reset l) := by
  intro h
  refine ⟨rfl, hosted DecUnit.reset (a :: l), l, ?_, rfl, rfl⟩
  have hh : hostReady (hosted DecUnit.reset (a :: l)) = true := h
  simp only [pick, enabled, hh, if_true]
  rfl

/-- The host's turn on an idle unit of any registers. -/
theorem turn_of_host_on (u : DecUnit) (a : HostAction) (l : List HostAction) (hu : u.state ≠ .busy)
    (ha : actReady (hosted u (a :: l)) a = true) : hostTurn (hosted u (a :: l)) a (hosted u l) := by
  refine ⟨rfl, hosted u (a :: l), l, ?_, rfl, rfl⟩
  have hh : hostReady (hosted u (a :: l)) = true := ha
  have hb : busyFrom [] 0 (hosted u (a :: l)).units = [] := by simp [hosted, machine, busyFrom, hu]
  have hs : (hosted u (a :: l)).stopped = [] := rfl
  simp only [pick, enabled, hh, hs, hb, if_true]

/-- O34: the first step of P2, and a fetch that faults (V1). -/
theorem witness_o34 :
    (unitTurn (machine u2) 0 (machine u2) ∧ (machine u2).units[0]? = some u2
      ∧ fetchCode 0 cfg u2 = .ok (.sym .ctrl 1 0) ∧ decode (.sym .ctrl 1 0) = .ok .ctrlLit
      ∧ step (machine u2) = .next (machine { u2 with c1 := ⟨0x2000, 15⟩, fwd := 2, phase := .litsel }))
    ∧ (let u := busyUnit .ctrl [] 0;
      unitTurn (machine u) 0 (machine u) ∧ fetchCode 0 cfg u = .raise .fwdExhaust 0
        ∧ step (machine u) =
            .next (machine { u with state := .fault, errKind := .corruptStream, errCause := .fwdExhaust })) :=
  ⟨⟨turn_of_unit, rfl, rfl, rfl, rfl⟩, ⟨rfl, _, rfl, rfl⟩, rfl, rfl⟩

/-- O34, the bytes that no write has defined (R41): in a fetch, and in a RAWCOPY. -/
theorem witness_o34_stop :
    (let u := { u2 with pm := [] };
      unitTurn (machine u) 0 (machine u) ∧ fetchCode 0 cfg u = .stop (.unwritten .pm 0)
        ∧ step (machine u) = .next { machine u with stopped := [⟨0, .pm, 0⟩] })
    ∧ (let u := { busyUnit .rawcopy [0xAA] 2 with lastOp := 2 };
      unitTurn (machine u) 0 (machine u) ∧ fetchCode 0 cfg u = .ok (.step .rawcopy)
        ∧ decode (.step .rawcopy) = .ok .rawcopy ∧ exec .rawcopy (machine u) = .fault (.unwritten .pm 1)
        ∧ step (machine u) = .next { machine u with stopped := [⟨0, .pm, 1⟩] }) :=
  ⟨⟨⟨rfl, _, rfl, rfl⟩, rfl, rfl⟩, ⟨rfl, _, rfl, rfl⟩, rfl, rfl, rfl, rfl⟩

/-- R41 stops the unit alone: beside a stopped unit, another unit and the host go on (R41, log entry 8). -/
theorem test_stop_leaves_others :
    (let s := { machine { u2 with pm := [] } with
        units := [{ u2 with pm := [] }, u2], cfg := { cfg with nUnits := 2 }, stopped := [⟨0, .pm, 0⟩] };
      enabled s = [.unit 1] ∧ ∃ t, step s = .next t ∧ t.units = [{ u2 with pm := [] },
        { u2 with c1 := ⟨0x2000, 15⟩, fwd := 2, phase := .litsel }])
    ∧ (let s := { hosted { u2 with pm := [] } [.regRead 0 0x1C 32] with stopped := [⟨0, .pm, 0⟩] };
      enabled s = [.host] ∧ ∃ t, step s = .next t ∧ t.host.got = some 0x11 ∧ step t = .next t)
    ∧ (let s := { hosted { u2 with pm := [] } [.reset] with stopped := [⟨0, .pm, 0⟩] };
      step s = .next (machine DecUnit.reset)) :=
  ⟨⟨rfl, _, rfl, rfl⟩, ⟨rfl, _, rfl, rfl, rfl⟩, rfl⟩

/-- O34's last part: MDIST's symbol has MBL bits, and a copy step has none. -/
theorem witness_o34_phases :
    (let u := distanceUnit 10 5 0 ⟨2, 5⟩; u.phase = .mdist ∧ fetchCode 0 cfg u = .ok (.sym .mdist 5 2))
      ∧ (nibbleUnit .mlenn 9).phase = .mlenn
      ∧ fetchCode 0 cfg (nibbleUnit .mlenn 9) = .ok (.sym .mlenn 4 9)
      ∧ (pairUnit .mlen2 1).phase = .mlen2 ∧ fetchCode 0 cfg (pairUnit .mlen2 1) = .ok (.sym .mlen2 2 1)
      ∧ (busyUnit .mcopy [] 0).phase ∈ [Phase.litcopy, .endchk, .mcopy, .rawcopy, .imgclear, .fold]
      ∧ fetchCode 0 cfg (busyUnit .mcopy [] 0) = .ok (.step .mcopy) :=
  ⟨⟨rfl, rfl⟩, rfl, rfl, rfl, rfl, by decide, rfl⟩

/-- O35: K1's write of CMD. -/
theorem witness_o35 :
    hostTurn (hosted DecUnit.reset [.regWrite 0 0 32 0xF]) (.regWrite 0 0 32 0xF) (hosted DecUnit.reset [])
      ∧ (hosted DecUnit.reset []).units[0]? = some DecUnit.reset
      ∧ decode (.cmd 0xF) = .ok (.illegal8F 7 0)
      ∧ step (hosted DecUnit.reset [.regWrite 0 0 32 0xF]) =
          .next (machine (startFault DecUnit.reset 15 .illegalCommand .badOpcode 15)) :=
  ⟨turn_of_host _ _ rfl, rfl, rfl, rfl⟩

/-- O36: a row alignment that R6 does not allow, and K6's 16-bit read. -/
theorem witness_o36 :
    step { machine u2 with cfg := { cfg with rowAlign := 4 } } = .refused .badParameter
      ∧ step (hosted DecUnit.reset [.regRead 0 0x1C 16]) = .refused (.badRegisterAccess 0x1C 16) := ⟨rfl, rfl⟩

/-- O37: one agent, none, a WAIT on a unit that is BUSY, and a unit that R41 has stopped. -/
theorem witness_o37 :
    enabled (machine u2) = [.unit 0] ∧ pick (machine u2) = some (.unit 0, machine u2)
      ∧ enabled (machine DecUnit.reset) = [] ∧ paramsValid cfg = true
      ∧ step (machine DecUnit.reset) = .next (machine DecUnit.reset)
      ∧ enabled (hosted u2 [.wait 0]) = [.unit 0] ∧ enabled (hosted u2 [.imRead 0]) = [.host, .unit 0]
      ∧ enabled { machine u2 with stopped := [⟨0, .pm, 0⟩] } = []
      ∧ enabled { hosted u2 [.wait 0] with stopped := [⟨0, .pm, 0⟩] } = [] :=
  ⟨rfl, rfl, rfl, rfl, rfl, rfl, rfl, rfl, rfl⟩

/-- Where host and unit can both move, a fixed choice picks one of them. -/
theorem test_choice : pick { hosted u2 [.imRead 0] with choices := [1, 0] } =
    some (.unit 0, { hosted u2 [.imRead 0] with choices := [0] }) := rfl

/-- O38: a unit in FAULT is put back by the external reset. -/
theorem witness_o38 :
    let u := startFault (idleUnit 5 6) 15 .illegalCommand .badOpcode 15;
    hostTurn (hosted u [.reset]) .reset (hosted u []) ∧ step (hosted u [.reset]) = .next (State.resetWith cfg) :=
  ⟨turn_of_host_on _ _ _ (by decide) rfl, rfl⟩

/-- O39: the six RW registers and a read-only one; only the used bits are kept. -/
theorem witness_o39 :
    hostTurn (hosted DecUnit.reset [.regWrite 0 0x3C 32 7]) (.regWrite 0 0x3C 32 7) (hosted DecUnit.reset [])
      ∧ step (hosted DecUnit.reset [.regWrite 0 0x04 32 0xFFFFFFFF]) = .next (machine (idleUnit 0xFFFFFFFF 0))
      ∧ step (hosted DecUnit.reset [.regWrite 0 0x08 32 9]) = .next (machine (idleUnit 0 9))
      ∧ step (hosted DecUnit.reset [.regWrite 0 0x0C 32 0x12345]) = .next (machine (clearUnit 0x2345 0 0))
      ∧ step (hosted DecUnit.reset [.regWrite 0 0x10 32 0x12345]) = .next (machine (clearUnit 0 0x2345 0))
      ∧ step (hosted DecUnit.reset [.regWrite 0 0x14 32 0x109]) = .next (machine (clearUnit 0 0 9))
      ∧ step (hosted DecUnit.reset [.regWrite 0 0x18 32 0x102]) = .next (machine { DecUnit.reset with plane := 2 })
      ∧ step (hosted DecUnit.reset [.regWrite 0 0x20 32 7]) = .next (machine DecUnit.reset) :=
  ⟨turn_of_host _ _ rfl, rfl, rfl, rfl, rfl, rfl, rfl, rfl⟩

/-- O39 on a BUSY unit, with the choice fixed on the host: K4's write of DST_LEN. -/
theorem witness_o39_busy :
    let a : HostAction := .regWrite 0 0x08 32 3;
    hostTurn { hosted u2 [a] with choices := [0] } a (hosted u2 [])
      ∧ step { hosted u2 [a] with choices := [0] } = .next (hosted u2 []) :=
  ⟨⟨rfl, hosted u2 [.regWrite 0 0x08 32 3], [], rfl, rfl, rfl⟩, rfl⟩

/-- What a read of offset `off` returns on a unit with an empty host program behind it. -/
def readOf (u : DecUnit) (off : Nat) : Option (BitVec 32) :=
  match step (hosted u [.regRead 0 off 32]) with
  | .next t => t.host.got
  | .fault _ | .refused _ => none

/-- O40: P4's end state, K7 and K8. -/
theorem witness_o40 :
    let u := { busyUnit .mcopy [0x60, 0, 4, 0, 0, 0, 0x20, 0, 0x41] 4 with
      state := .fault, errKind := .corruptStream, errCause := .distBeforeStart, errPos := 1, wp := 1, fwd := 8
      tail := 8, width := 4, height := 2, bpc := 1, plane := 3 };
    hostTurn (hosted u [.regRead 0 0x1C 32]) (.regRead 0 0x1C 32) (hosted u [])
      ∧ [0x00, 0x04, 0x08, 0x0C, 0x10, 0x14, 0x18, 0x1C].map (readOf u) =
          [some 0, some 9, some 4, some 4, some 2, some 1, some 3, some 0x00040313]
      ∧ [0x20, 0x24, 0x28, 0x2C, 0x30, 0x34, 0x38, 0x3C].map (readOf u) =
          [some 1, some 1, some 8, some 8, some 10, some 0, some 0, some 0] :=
  ⟨turn_of_host_on _ _ _ (by decide) rfl, rfl, rfl⟩

/-- O40's tables, at the last code of each: BUSY in FOLD; and FAULT with ConfigError NO_IMAGE, IM_VALID set. -/
theorem witness_o40_codes :
    (let u := { foldUnit 0xA0 0 with state := .busy };
      hostTurn { hosted u [.regRead 0 0x30 32] with choices := [0] } (.regRead 0 0x30 32) (hosted u [])
        ∧ (u.phase, 13) ∈ [(Phase.imgclear, 12), (.fold, 13)]
        ∧ (∃ t, step { hosted u [.regRead 0 0x30 32] with choices := [0] } = .next t ∧ t.host.got = some 13))
    ∧ (let u := startFault (idleUnit 0 0) 4 .configError .noImage 0;
      (u.state, 3) ∈ [(UnitState.done, 2), (.fault, 3)] ∧ (u.errKind, 5) ∈ [(ErrKind.configError, 5)]
        ∧ (u.errCause, 0x17) ∈ [(Cause.noImage, 0x17)] ∧ readOf u 0x1C = some 0x00170543) :=
  ⟨⟨⟨rfl, hosted _ [.regRead 0 0x30 32], [], rfl, rfl, rfl⟩, by decide, _, rfl, rfl⟩, by decide, by decide, by decide,
    rfl⟩

/-- O41: K6, and an offset that is not aligned. -/
theorem witness_o41 :
    (¬(16 = 32 ∧ 0x1C % 4 = 0)
      ∧ hostTurn (hosted DecUnit.reset [.regRead 0 0x1C 16]) (.regRead 0 0x1C 16) (hosted DecUnit.reset []))
    ∧ (¬(32 = 32 ∧ 5 % 4 = 0)
      ∧ hostTurn (hosted DecUnit.reset [.regWrite 0 5 32 1]) (.regWrite 0 5 32 1) (hosted DecUnit.reset [])
      ∧ step (hosted DecUnit.reset [.regWrite 0 5 32 1]) = .refused (.badRegisterAccess 5 32)) :=
  ⟨⟨by decide, turn_of_host _ _ rfl⟩, by decide, turn_of_host _ _ rfl, rfl⟩

/-- O42: a fill of an idle unit up to the end of PM, and one that a BUSY unit ignores. -/
theorem witness_o42 :
    (hostTurn (hosted DecUnit.reset [.pmWrite 0 65533 [0xA0, 0x60]]) (.pmWrite 0 65533 [0xA0, 0x60])
        (hosted DecUnit.reset [])
      ∧ 65533 + 2 ≤ cfg.pmSize
      ∧ step (hosted DecUnit.reset [.pmWrite 0 65533 [0xA0, 0x60]]) =
          .next (machine { DecUnit.reset with pm := [(65533, 0xA0), (65534, 0x60)] }))
    ∧ (hostTurn { hosted u2 [.pmWrite 0 0 [1]] with choices := [0] } (.pmWrite 0 0 [1]) (hosted u2 [])
      ∧ u2.state = .busy ∧ step { hosted u2 [.pmWrite 0 0 [1]] with choices := [0] } = .next (hosted u2 [])) :=
  ⟨⟨turn_of_host _ _ rfl, by decide, rfl⟩, ⟨rfl, hosted u2 [.pmWrite 0 0 [1]], [], rfl, rfl, rfl⟩, rfl, rfl⟩

/-- What the last read returned, in the next state. -/
def readBack (o : Out) : Option (Option (BitVec 32)) :=
  match o with
  | .next t => some t.host.got
  | .fault _ | .refused _ => none

/-- R1's unit after its job. -/
def rawDone : DecUnit :=
  { idleUnit 2 2 with state := .done, omValid := true, omLen := 2, om := [(0, 0xAA), (1, 0x55)], lastOp := 2 }

/-- O43, the reads of OM: the last valid byte, one past it (a draw), and a unit without output. -/
theorem witness_o43_om :
    (hostTurn (hosted rawDone [.omRead 0 1]) (.omRead 0 1) (hosted rawDone [])
      ∧ rawDone.omValid = true ∧ rawDone.state ≠ .busy ∧ 1 < rawDone.omLen.toNat ∧ rawDone.om.read 1 = some 0x55
      ∧ readBack (step (hosted rawDone [.omRead 0 1])) = some (some 0x55))
    ∧ (hostTurn (hosted rawDone [.omRead 0 2]) (.omRead 0 2) (hosted rawDone []) ∧ rawDone.omLen.toNat ≤ 2)
    ∧ (hostTurn (hosted DecUnit.reset [.omRead 0 0]) (.omRead 0 0) (hosted DecUnit.reset [])
      ∧ DecUnit.reset.omValid = false)
    ∧ (hostTurn (hosted rawDone [.omWrite 0 0 1]) (.omWrite 0 0 1) (hosted rawDone [])
      ∧ step (hosted rawDone [.omWrite 0 0 1]) = .next (hosted rawDone [])) :=
  ⟨⟨turn_of_host_on _ _ _ (by decide) rfl, rfl, by decide, by decide, rfl, rfl⟩,
    ⟨turn_of_host_on _ _ _ (by decide) rfl, by decide⟩, ⟨turn_of_host _ _ rfl, rfl⟩,
    turn_of_host_on _ _ _ (by decide) rfl, rfl⟩

/-- The image of F10 with a host program. -/
def imageHosted (l : List HostAction) : State :=
  { imaged rawDone with im := memFrom 0 [1, 2, 3, 0], host := { HostState.reset with todo := l } }

/-- O43, the reads of IM: the last pixel and one past it (P6), and the write that is ignored. -/
theorem witness_o43_im :
    (hostTurn (imageHosted [.imRead 2]) (.imRead 2) (imageHosted []) ∧ (imageHosted []).imValid = true
      ∧ 2 < (imageHosted []).imgW.toNat * (imageHosted []).imgH.toNat ∧ (imageHosted []).im.read 2 = some 3
      ∧ readBack (step (imageHosted [.imRead 2])) = some (some 3))
    ∧ (hostTurn (imageHosted [.imRead 4]) (.imRead 4) (imageHosted [])
      ∧ (imageHosted []).imgW.toNat * (imageHosted []).imgH.toNat ≤ 4)
    ∧ (hostTurn (imageHosted [.imWrite 0 9]) (.imWrite 0 9) (imageHosted [])
      ∧ step (imageHosted [.imWrite 0 9]) = .next (imageHosted [])) :=
  ⟨⟨⟨rfl, imageHosted [.imRead 2], [], rfl, rfl, rfl⟩, rfl, by decide, rfl, rfl⟩,
    ⟨⟨rfl, imageHosted [.imRead 4], [], rfl, rfl, rfl⟩, by decide⟩,
    ⟨rfl, imageHosted [.imWrite 0 9], [], rfl, rfl, rfl⟩, rfl⟩

/-! ### The container walker (program P8) -/

/-- P8's header: 4 x 1 pixels, 2 planes. -/
def p8header : List Byte := [0x48, 0x44, 0x52, 0x20, 0, 0, 0, 0, 0, 4, 0, 1, 0, 0, 0, 2]

/-- P8's palette: L = 12. -/
def p8palette : List Byte :=
  [0x50, 0x41, 0x4C, 0x20, 0, 0, 0, 12, 0, 0, 0, 0xFF, 0, 0, 0, 0xFF, 0, 0, 0, 0xFF]

/-- A plane chunk of one byte. -/
def p8chunk (type b : Byte) : List Byte :=
  [0x50, 0x4C, 0x4E, 0x20] ++ List.replicate 32 0 ++ [type, 0, 1, 0, 1, b]

/-- P8's file. -/
def p8 : List Byte := p8header ++ p8palette ++ p8chunk 0 0xA0 ++ p8chunk 0 0x60

/-- A machine whose host has a file and a program. -/
def walking (f : List Byte) (l : List HostAction) : State :=
  { machine DecUnit.reset with host := { HostState.reset with file := f, todo := l } }

/-- It is the host's turn in such a machine. -/
theorem turn_walking (f : List Byte) (a : HostAction) (l : List HostAction)
    (ha : actReady (walking f (a :: l)) a = true) : hostTurn (walking f (a :: l)) a (walking f l) := by
  refine ⟨rfl, walking f (a :: l), l, ?_, rfl, rfl⟩
  have hh : hostReady (walking f (a :: l)) = true := ha
  simp only [pick, enabled, hh, if_true]
  rfl

/-- The host's result after a step. -/
def resultAfter (s : State) : Option HostResult :=
  match step s with
  | .next t => t.host.result
  | .fault _ | .refused _ => none

/-- The host's program after a step. -/
def todoAfter (s : State) : List HostAction :=
  match step s with
  | .next t => t.host.todo
  | .fault _ | .refused _ => []

/-- What R123's start takes from: a machine whose host has notes of an earlier run. -/
def noting (f : List Byte) (l : List HostAction) (noted : List Failure) : State :=
  { walking f l with host := { HostState.reset with file := f, todo := l, noted := noted } }

/-- O44, the header: a file cut to 15 bytes, and one with another first byte; serial and parallel. -/
theorem witness_o44_header :
    hostTurn (walking (p8.take 15) [.walk 0]) (.walk 0) (walking (p8.take 15) []) ∧ (p8.take 15).length < 16
      ∧ resultAfter (walking (p8.take 15) [.walk 0]) = some (.err .missingHeader .none)
      ∧ hostTurn (walking (p8.take 15) [.walkParallel]) .walkParallel (walking (p8.take 15) [])
      ∧ resultAfter (walking (p8.take 15) [.walkParallel]) = some (.err .missingHeader .none)
      ∧ ((0 : Byte) :: p8header.tail).take 4 ≠ tagBytes cfg.tagHdr
      ∧ resultAfter (walking ((0 : Byte) :: p8header.tail) [.walk 0]) = some (.err .missingHeader .none) :=
  ⟨turn_walking _ _ _ rfl, by decide, rfl, turn_walking _ _ _ rfl, rfl, by decide, rfl⟩

/-- O44, the palette: files cut inside its head and inside its entries, and one without its tag. -/
theorem witness_o44_palette :
    (16 ≤ (p8.take 23).length ∧ (p8.take 23).take 4 = tagBytes cfg.tagHdr ∧ (p8.take 23).length < 24
      ∧ resultAfter (walking (p8.take 23) [.walk 0]) = some (.err .missingPalette .none))
    ∧ (((p8header ++ p8chunk 0 1).drop 16).take 4 ≠ tagBytes cfg.tagPal
      ∧ resultAfter (walking (p8header ++ p8chunk 0 1) [.walk 0]) = some (.err .missingPalette .none))
    ∧ (hostTurn (walking (p8.take 35) [.walk 0]) (.walk 0) (walking (p8.take 35) [])
      ∧ (p8.take 35).take 4 = tagBytes cfg.tagHdr ∧ ((p8.take 35).drop 16).take 8 = tagBytes cfg.tagPal ++ [0, 0, 0, 12]
      ∧ ((p8.take 35).drop 8).take 4 = [0, 4, 0, 1] ∧ (p8.take 35)[15]? = some 2
      ∧ 4 = (2 ^ 24 * 0 + 2 ^ 16 * 0 + 2 ^ 8 * 0 + 12) / 3 ∧ (p8.take 35).length < 24 + 3 * 4
      ∧ resultAfter (walking (p8.take 35) [.walk 0]) = some (.err .missingPalette .none)) :=
  ⟨⟨by decide, rfl, by decide, rfl⟩, ⟨by decide, rfl⟩, turn_walking _ _ _ rfl, rfl, rfl, rfl, rfl, rfl, by decide, rfl⟩

/-- O44, both procedures on a file that ends with its palette; the parallel one forgets an earlier note. -/
theorem witness_o44_ok :
    (p8.take 36).take 4 = tagBytes cfg.tagHdr ∧ ((p8.take 36).drop 16).take 8 = tagBytes cfg.tagPal ++ [0, 0, 0, 12]
      ∧ ((p8.take 36).drop 8).take 4 = [0, 4, 0, 1] ∧ (p8.take 36)[15]? = some 2
      ∧ 4 = (2 ^ 24 * 0 + 2 ^ 16 * 0 + 2 ^ 8 * 0 + 12) / 3 ∧ 24 + 3 * 4 ≤ (p8.take 36).length
      ∧ (hostTurn (walking (p8.take 36) [.walk 0]) (.walk 0) (walking (p8.take 36) [])
        ∧ todoAfter (walking (p8.take 36) [.walk 0]) =
          [.regWrite 0 0x0C 32 4, .regWrite 0 0x10 32 1, .regWrite 0 0x14 32 2, .regWrite 0 0x00 32 3, .wait 0,
            .stopIfFault 0, .findPlane 0 0 0])
      ∧ step (noting (p8.take 36) [.walkParallel] [⟨0, .corruptStream, .distZero⟩]) = .next (noting (p8.take 36)
          [.regWrite 0 0x0C 32 4, .regWrite 0 0x10 32 1, .regWrite 0 0x14 32 2, .regWrite 0 0x00 32 3, .wait 0,
            .stopIfFault 0, .batch 0 0] []) :=
  ⟨rfl, rfl, rfl, rfl, rfl, by decide, ⟨turn_walking _ _ _ rfl, rfl⟩, rfl⟩

/-- O44's big-endian fields: a file of 513 x 258 pixels, and a palette length of 0x01000000. -/
theorem witness_o44_order :
    (let f := p8header.take 8 ++ [2, 1, 1, 2, 0, 0, 0, 1] ++ p8palette;
      (f.drop 8).take 4 = [2, 1, 1, 2]
        ∧ (todoAfter (walking f [.walk 0])).take 2 = [.regWrite 0 0x0C 32 513, .regWrite 0 0x10 32 258])
    ∧ (let f := p8header ++ [0x50, 0x41, 0x4C, 0x20, 1, 0, 0, 0] ++ p8palette.drop 8;
      resultAfter (walking f [.walk 0]) = some (.err .missingPalette .none)) := ⟨⟨rfl, rfl⟩, rfl⟩

/-- O44's last part: after a job, on a unit in FAULT and on one that is not. -/
theorem witness_o44_stop :
    (let u := startFault (idleUnit 0 0) 4 .configError .noImage 0;
      hostTurn (hosted u [.stopIfFault 0, .returnOk]) (.stopIfFault 0) (hosted u [.returnOk]) ∧ u.state = .fault
        ∧ resultAfter (hosted u [.stopIfFault 0, .returnOk]) = some (.err .configError .noImage)
        ∧ todoAfter (hosted u [.stopIfFault 0, .returnOk]) = [])
    ∧ (hostTurn (hosted rawDone [.stopIfFault 0, .returnOk]) (.stopIfFault 0) (hosted rawDone [.returnOk])
      ∧ rawDone.state ≠ .fault
      ∧ step (hosted rawDone [.stopIfFault 0, .returnOk]) = .next (hosted rawDone [.returnOk])) :=
  ⟨⟨turn_of_host_on _ _ _ (by decide) rfl, rfl, rfl, rfl⟩, turn_of_host_on _ _ _ (by decide) rfl, by decide, rfl⟩

/-- O45's clauses on P8: search(0) is 36, search(36) is 36, search(40) is 78, search(82) is none. -/
theorem witness_o45 :
    searchPlane cfg p8 0 = some 36 ∧ searchPlane cfg p8 36 = some 36 ∧ searchPlane cfg p8 40 = some 78
      ∧ searchPlane cfg p8 82 = none ∧ (36 + 4 ≤ p8.length ∧ (p8.drop 36).take 4 = tagBytes cfg.tagPlane) :=
  ⟨rfl, rfl, rfl, rfl, by decide, rfl⟩

/-- O46, the end of the loop: P8's third search. -/
theorem witness_o46_none :
    hostTurn (walking p8 [.findPlane 0 82 2]) (.findPlane 0 82 2) (walking p8 [])
      ∧ searchPlane cfg p8 82 = none ∧ todoAfter (walking p8 [.findPlane 0 82 2]) = [.returnOk] :=
  ⟨turn_walking _ _ _ rfl, rfl, rfl⟩

/-- A file of P8's header and palette and one plane chunk of a type. -/
def onePlane (type : Byte) : List Byte := p8header ++ p8palette ++ p8chunk type 0xA0

/-- O46, a chunk past the end of the file: its payload cut off, and its last header byte too. -/
theorem witness_o46_eof :
    (hostTurn (walking ((onePlane 0).take 77) [.findPlane 0 36 1]) (.findPlane 0 36 1)
        (walking ((onePlane 0).take 77) [])
      ∧ searchPlane cfg ((onePlane 0).take 77) 36 = some 36 ∧ chunkError ((onePlane 0).take 77) 36 .chunkPastEof
      ∧ resultAfter (walking ((onePlane 0).take 77) [.findPlane 0 36 1]) = some (.err .corruptStream .chunkPastEof))
    ∧ (chunkError ((onePlane 0).take 76) 36 .chunkPastEof
      ∧ resultAfter (walking ((onePlane 0).take 76) [.findPlane 0 36 1]) = some (.err .corruptStream .chunkPastEof)) :=
  ⟨⟨turn_walking _ _ _ rfl, rfl, .inl ⟨rfl, .inr ⟨0, 1, 1, ⟨0, 1, 0, 1, rfl, rfl, rfl⟩, by decide⟩⟩, rfl⟩,
    .inl ⟨rfl, .inl (by decide)⟩, rfl⟩

/-- O46, the type 2. -/
theorem witness_o46_type :
    hostTurn (walking (onePlane 2) [.findPlane 0 0 0]) (.findPlane 0 0 0) (walking (onePlane 2) [])
      ∧ searchPlane cfg (onePlane 2) 0 = some 36 ∧ chunkError (onePlane 2) 36 .unknownType
      ∧ resultAfter (walking (onePlane 2) [.findPlane 0 0 0]) = some (.err .corruptStream .unknownType) :=
  ⟨turn_walking _ _ _ rfl, rfl,
    .inr ⟨rfl, 2, 1, 1, ⟨0, 1, 0, 1, rfl, rfl, rfl⟩, by decide, by decide, by decide⟩, rfl⟩

/-- P8's first chunk. -/
def chunk0 : Chunk := ⟨36, 2, [0xA0], 1⟩

theorem chunk0_at : chunkAt p8 chunk0 := ⟨0, 1, ⟨0, 1, 0, 1, rfl, rfl, rfl⟩, by decide, rfl, .inl ⟨rfl, rfl⟩⟩

/-- O46, a raw plane. -/
theorem witness_o46_raw :
    hostTurn (walking p8 [.findPlane 0 36 1]) (.findPlane 0 36 1) (walking p8 [])
      ∧ searchPlane cfg p8 36 = some chunk0.start ∧ chunkAt p8 chunk0 :=
  ⟨turn_walking _ _ _ rfl, rfl, chunk0_at⟩

/-- What that plane's chunk queues: HostJob with COPY_RAW, then FOLD of plane 1, then the search behind it. -/
theorem test_raw_plane : todoAfter (walking p8 [.findPlane 0 36 1]) =
    [.wait 0, .pmWrite 0 0 [0xA0], .regWrite 0 0x04 32 1, .regWrite 0 0x08 32 1, .regWrite 0 0x00 32 2, .wait 0,
      .stopIfFault 0, .regWrite 0 0x18 32 1, .regWrite 0 0x00 32 4, .wait 0, .stopIfFault 0, .findPlane 0 40 2] := rfl

/-- O46, a NUKE plane that ends with the file: the same with DECODE. -/
theorem witness_o46_nuke :
    searchPlane cfg (onePlane 1) 36 = some 36 ∧ chunkAt (onePlane 1) ⟨36, 1, [0xA0], 1⟩
      ∧ (todoAfter (walking (onePlane 1) [.findPlane 0 36 0]))[4]? = some (.regWrite 0 0x00 32 1) :=
  ⟨rfl, ⟨1, 1, ⟨0, 1, 0, 1, rfl, rfl, rfl⟩, by decide, rfl, .inr ⟨rfl, rfl⟩⟩, rfl⟩

/-- O46's big-endian sizes: P = 0x0102 is past the end of this file, and R = 0x0201 is 513. -/
theorem witness_o46_order :
    (let f := (p8chunk 0 0).take 36 ++ [0, 1, 2, 2, 1, 7, 7];
      chunkFields f 0 0 258 513 ∧ resultAfter (walking f [.findPlane 0 0 0]) = some (.err .corruptStream .chunkPastEof))
    ∧ (let f := (p8chunk 0 0).take 36 ++ [0, 0, 2, 2, 1, 7, 7];
      chunkAt f ⟨0, 2, [7, 7], 513⟩
        ∧ (todoAfter (walking f [.findPlane 0 0 0]))[3]? = some (.regWrite 0 0x08 32 513)) :=
  ⟨⟨⟨1, 2, 2, 1, rfl, rfl, rfl⟩, rfl⟩, ⟨0, 2, ⟨0, 2, 2, 1, rfl, rfl, rfl⟩, by decide, rfl, .inl ⟨rfl, rfl⟩⟩, rfl⟩

/-- O46, the return (P8's result, on the image of F10), and where IM_VALID is clear the pixels are draws. -/
theorem witness_o46_return :
    (let s := { imageHosted [.returnOk] with host := { HostState.reset with file := p8, todo := [.returnOk] } };
      hostTurn s .returnOk { s with host := { s.host with todo := [] } }
        ∧ (p8.drop 8).take 4 = [0, 4, 0, 1] ∧ (p8.drop 20).take 4 = [0, 0, 0, 12] ∧ s.imValid = true
        ∧ 3 < 4 * 1 ∧ 3 < s.imgW.toNat * s.imgH.toNat ∧ s.im.read 3 = some 0
        ∧ (p8.drop (24 + 3 * 3)).take 3 = [0, 0, 0xFF]
        ∧ resultAfter s = some (.ok 4 1 [1, 2, 3, 0] [(0, 0, 0), (0xFF, 0, 0), (0, 0xFF, 0), (0, 0, 0xFF)]))
    ∧ (let s := walking p8 [.returnOk];
      s.imValid = false ∧ ∃ px pal, resultAfter s = some (.ok 4 1 px pal) ∧ px[3]? = some (Config.freeByte 3)) :=
  ⟨⟨⟨rfl, _, _, rfl, rfl, rfl⟩, rfl, rfl, rfl, by decide, by decide, rfl, rfl, rfl⟩, rfl, _, _, rfl, rfl⟩

theorem chunk_at : chunkAt (onePlane 0) chunk0 := ⟨0, 1, ⟨0, 1, 0, 1, rfl, rfl, rfl⟩, by decide, rfl, .inl ⟨rfl, rfl⟩⟩

/-- O46, a batch of every unit. -/
theorem witness_o46_batch :
    hostTurn (walking (onePlane 0) [.batch 36 0]) (.batch 36 0) (walking (onePlane 0) [])
      ∧ chunksFrom cfg (onePlane 0) 36 [chunk0] 40 ∧ [chunk0].length = cfg.nUnits :=
  ⟨turn_walking _ _ _ rfl, ⟨rfl, chunk_at, rfl⟩, rfl⟩

/-- What that batch queues. -/
theorem test_batch : todoAfter (walking (onePlane 0) [.batch 36 0]) =
    [.wait 0, .pmWrite 0 0 [0xA0], .regWrite 0 0x04 32 1, .regWrite 0 0x08 32 1, .regWrite 0 0x00 32 2, .wait 0,
      .noteIfFault 0 0, .foldPlane 0 0, .wait 0, .noteIfFault 0 0, .stopIfNoted, .batch 40 1] := rfl

/-- O46, a batch of two units that finds no second chunk. -/
theorem witness_o46_batch_last :
    chunksFrom { cfg with nUnits := 2 } (onePlane 0) 36 [chunk0] 40 ∧ [chunk0].length < 2
      ∧ searchPlane { cfg with nUnits := 2 } (onePlane 0) 40 = none := ⟨⟨rfl, chunk_at, rfl⟩, by decide, rfl⟩

/-- How that batch ends. -/
theorem test_batch_last :
    (todoAfter { walking (onePlane 0) [.batch 36 1] with cfg := { cfg with nUnits := 2 } }).drop 9 =
      [.noteIfFault 0 1, .stopIfNoted, .returnOk] := rfl

/-- O46, a batch whose first chunk is in error. -/
theorem witness_o46_batch_bad :
    chunksFrom cfg (onePlane 2) 0 [] 0 ∧ searchPlane cfg (onePlane 2) 0 = some 36
      ∧ chunkError (onePlane 2) 36 .unknownType
      ∧ todoAfter (walking (onePlane 2) [.batch 0 0]) = [.noteFailure 0 .unknownType, .stopIfNoted] :=
  ⟨rfl, rfl, witness_o46_type.2.2.1, rfl⟩

/-- O46, R123's notes: a FAULT is noted once for its plane, a noted plane is not folded, and the lowest-numbered
failing plane is the host's error. -/
theorem witness_o46_notes :
    let u := startFault (idleUnit 0 0) 4 .corruptStream .planeShort 1;
    let x : Failure := ⟨2, .corruptStream, .planeShort⟩;
    let y : Failure := ⟨1, .corruptStream, .distZero⟩;
    let s := fun (l : List HostAction) (n : List Failure) =>
      { machine u with host := { HostState.reset with todo := l, noted := n } };
    hostTurn (s [.noteIfFault 0 2] []) (.noteIfFault 0 2) (s [] []) ∧ u.state = .fault
      ∧ step (s [.noteIfFault 0 2] [y]) = .next (s [] [y, x])
      ∧ step (s [.noteIfFault 0 2] [x]) = .next (s [] [x])
      ∧ step (s [.noteFailure 1 .unknownType] [x]) = .next (s [] [x, ⟨1, .corruptStream, .unknownType⟩])
      ∧ step (s [.noteFailure 2 .unknownType] [x]) = .next (s [] [x])
      ∧ step (s [.foldPlane 0 2] [x]) = .next (s [] [x])
      ∧ step (s [.foldPlane 0 1] [x]) = .next (s [.regWrite 0 0x18 32 1, .regWrite 0 0x00 32 4] [x])
      ∧ step (s [.stopIfNoted, .returnOk] []) = .next (s [.returnOk] [])
      ∧ resultAfter (s [.stopIfNoted, .returnOk] [x, y]) = some (.err .corruptStream .distZero) :=
  ⟨⟨rfl, _, _, rfl, rfl, rfl⟩, rfl, rfl, rfl, rfl, rfl, rfl, rfl, rfl, rfl⟩

/-! ### Frames, invariants and whole jobs -/

/-- A unit that clears a 4 x 1 image, BUSY. -/
def clearing : DecUnit := { clearUnit 4 1 2 with state := .busy, phase := .imgclear, lastOp := 3 }

/-- P2's unit before its match copy. -/
def matching : DecUnit :=
  { u2 with
    phase := .mcopy, om := [(0, 0x41), (1, 0x42)], wp := 2, midx := 10, mbl := 5, dist := 2, mlen := 6, fwd := 10
    tail := 10, c1 := ⟨0x2000, 14⟩, c2 := ⟨0xD000, 12⟩, cx := ⟨0x1000, 11⟩, c4 := ⟨0, 28⟩ }

/-- P2's unit after it. -/
def matched : DecUnit :=
  { matching with wp := 8, om := memFrom 0 [0x41, 0x42, 0x41, 0x42, 0x41, 0x42, 0x41, 0x42], phase := .ctrl }

/-- O47: an instruction of each shape that answers a next state, and an address outside the bytes it stores to. -/
theorem witness_o47 :
    (exec .imgclear (machine clearing) = .next { machine { clearing with state := .done, phase := .none } with
        im := memFrom 0 [0, 0, 0, 0], imgW := 4, imgH := 1, imgBpc := 2, imValid := true }
      ∧ clearing.width.toNat * clearing.height.toNat ≤ 4)
    ∧ ((∃ t, exec .foldStep (imaged (foldUnit 0xA0 0)) = .next t) ∧ (4#16).toNat * (1#16).toNat ≤ 4)
    ∧ ((∃ t, exec .litcopy (machine { u2 with phase := .litcopy, litcnt := 2, fwd := 4 }) = .next t) ∧ 0 + 2 ≤ 2)
    ∧ ((∃ t, exec .mcopy (machine matching) = .next t) ∧ 1 < matching.wp ∧ matching.wp + matching.mlen ≤ 8)
    ∧ ((∃ t, exec .rawcopy (machine { busyUnit .rawcopy [0xAA] 1 with lastOp := 2 }) = .next t) ∧ (1#32).toNat ≤ 1)
    ∧ ((∃ t, exec .ctrlLit (machine u2) = .next t) ∧ isSymbolRow .ctrlLit)
    ∧ ((∃ t, exec (.imgClear 0) (machine DecUnit.reset) = .next t) ∧ isCommand (.imgClear 0)
      ∧ ¬isSymbolRow (.imgClear 0)) :=
  ⟨⟨rfl, by decide⟩, ⟨⟨_, rfl⟩, by decide⟩, ⟨⟨_, rfl⟩, by decide⟩, ⟨⟨_, rfl⟩, by decide, by decide⟩,
    ⟨⟨_, rfl⟩, by decide⟩, ⟨⟨_, rfl⟩, trivial⟩, ⟨_, rfl⟩, trivial, id⟩

/-- O48: step 9 of P2. -/
theorem witness_o48 :
    exec .mcopy (machine matching) = .next (machine matched) ∧ (machine matching).units[0]? = some matching
      ∧ (machine matched).units[0]? = some matched ∧ matching.state = .busy ∧ decoding matching.phase = true
      ∧ 1 < matching.wp := ⟨rfl, rfl, rfl, rfl, rfl, by decide⟩

/-- What O52 asks of a job holds of P2's. -/
theorem job_matching : jobOk cfg matching := by
  unfold jobOk decodeJobOk writtenBelow; decide

/-- O49 to O53: step 9 of P2, on a machine that meets every invariant. -/
theorem witness_o49 : step (machine matching) = .next (machine matched)
    ∧ unitCountOk (machine matching) ∧ allMemoriesOk (machine matching) :=
  ⟨rfl, rfl, by unfold allMemoriesOk memoriesOk; decide⟩

@[inherit_doc witness_o49] theorem witness_o50 :
    step (machine matching) = .next (machine matched) ∧ allCursorsOk (machine matching) :=
  ⟨rfl, by unfold allCursorsOk cursorsOk; decide⟩

@[inherit_doc witness_o49] theorem witness_o51 :
    step (machine matching) = .next (machine matched) ∧ allStatusOk (machine matching) ∧ stopsOk (machine matching) :=
  ⟨rfl, by unfold allStatusOk statusOk; decide, nofun⟩

/-- O51's last part: a stopped unit is as it was after another unit's step. -/
theorem witness_o51_stopped :
    let s := { machine u2 with units := [u2, u2], cfg := { cfg with nUnits := 2 }, stopped := [⟨0, .pm, 0⟩] };
    stopsOk s ∧ ∃ t, step s = .next t ∧ t.stopped = s.stopped ∧ t.units[0]? = some u2 ∧ t.units ≠ s.units := by
  refine ⟨fun x hx => ?_, _, rfl, rfl, rfl, by decide⟩
  obtain rfl := List.mem_singleton.mp hx
  exact ⟨u2, rfl, rfl⟩

@[inherit_doc witness_o49] theorem witness_o52 :
    step (machine matching) = .next (machine matched) ∧ allJobsOk (machine matching) :=
  ⟨rfl, fun u hu => by
    obtain rfl : u = matching := List.mem_singleton.mp hu
    exact ⟨job_matching, fun h => Bool.noConfusion h⟩⟩

/-- O52 in independent mode, where max(INIT_OFF) is SRC_LEN and where it lies above it (R82). -/
theorem witness_o52_independent :
    (let c := { cfgInd with initOff := ⟨0, 2, 4, 12⟩ };
      initHi c ≤ u2.srcLen.toNat ∧ jobOk c { u2 with off := ⟨0, 2, 4, 12⟩ })
    ∧ (let c := { cfgInd with initOff := ⟨0, 2, 4, 13⟩ };
      ¬initHi c ≤ u2.srcLen.toNat ∧ jobOk c { u2 with off := ⟨0, 2, 4, 13⟩ }) := by
  refine ⟨⟨by decide, ?_⟩, by decide, ?_⟩ <;> unfold jobOk decodeJobOk writtenBelow <;> decide

@[inherit_doc witness_o49] theorem witness_o53 :
    step (machine matching) = .next (machine matched) ∧ allCursorsOk (machine matching)
      ∧ allJobsOk (machine matching) ∧ allCountersOk (machine matching) ∧ allBelowWord (machine matching) :=
  ⟨rfl, witness_o50.2, witness_o52.2, by unfold allCountersOk countersOk forwardBits; decide,
    by unfold allBelowWord belowWord; decide⟩

/-- O53 in independent mode: one OFF[k] at an INIT_OFF[k] above SRC_LEN, one moved to SRC_LEN. -/
theorem witness_o53_independent :
    let c := { cfgInd with initOff := ⟨0, 0, 0, 65535⟩ };
    let u := { busyUnit .ctrl [] 0 with off := ⟨0, 0, 0, 65535⟩ };
    paramsValid c = true ∧ jobOk c u ∧ countersOk c u ∧ u.state = .busy ∧ decoding u.phase = true
      ∧ c.fwdMode = .independent ∧ (u.off.c4, c.initOff.c4) = (65535, 65535) ∧ ¬initHi c ≤ u.srcLen.toNat := by
  refine ⟨rfl, ?_, ?_, rfl, rfl, rfl, rfl, by decide⟩
  · unfold jobOk decodeJobOk writtenBelow; decide
  · unfold countersOk forwardBits; decide

/-- O53's bounds, where a copy is next and where a literal length is being read (V3's unit)
or a match length is. -/
theorem witness_o53_bounds :
    (paramsValid cfg = true ∧ jobOk cfg matching ∧ countersOk cfg matching ∧ matching.state = .busy
      ∧ decoding matching.phase = true ∧ matching.phase = .mcopy)
    ∧ (let u := { busyUnit .litcode [0, 0] 0 with c1 := ⟨0, 14⟩, fwd := 2 };
      jobOk cfg u ∧ countersOk cfg u ∧ u.state = .busy ∧ decoding u.phase = true ∧ u.phase = .litcode)
    ∧ (let u := { matching with phase := .mlenn, mlen := 21 };
      jobOk cfg u ∧ countersOk cfg u ∧ u.state = .busy ∧ decoding u.phase = true ∧ u.phase = .mlenn) := by
  refine ⟨⟨rfl, job_matching, ?_, rfl, rfl, rfl⟩, ⟨?_, ?_, rfl, rfl, rfl⟩, ?_, ?_, rfl, rfl, rfl⟩
  · unfold countersOk forwardBits; decide
  · unfold jobOk decodeJobOk writtenBelow; decide
  · unfold countersOk forwardBits; decide
  · unfold jobOk decodeJobOk writtenBelow; decide
  · unfold countersOk forwardBits; decide

/-- The machine of F9 before its step. -/
def folding : State := imaged (foldUnit 0xA0 0)

/-- O54: F9's step, on an image that is written whole. -/
theorem witness_o54 :
    (∃ t, step folding = .next t) ∧ allJobsOk folding ∧ imageOk folding := by
  refine ⟨⟨_, rfl⟩, fun u hu => ?_, by unfold imageOk writtenBelow; decide⟩
  obtain rfl : u = foldUnit 0xA0 0 := List.mem_singleton.mp hu
  refine ⟨?_, ?_⟩
  · unfold jobOk decodeJobOk writtenBelow; decide
  · unfold outputOk writtenBelow; decide

/-- O55: the same step, with the checks of its start step holding. -/
theorem witness_o55 :
    (∃ t, step folding = .next t) ∧ folding.cfg.nUnits = 1 ∧ unitCountOk folding ∧ allJobsOk folding
      ∧ pixelsOk folding ∧ foldsOk folding := by
  refine ⟨⟨_, rfl⟩, rfl, rfl, witness_o54.2.1, ⟨by decide, ?_⟩, ?_⟩
  · have h : ∀ i, i < 4 → folding.im.read i = some 0 := by decide
    intro i b hi hb
    rw [h i hi] at hb
    cases hb
    decide
  · unfold foldsOk foldReady; decide

/-- O57: the first step of P2 with nothing in PM. -/
theorem witness_o57 :
    let u := { u2 with pm := [] };
    unitTurn (machine u) 0 (machine u) ∧ (machine u).units[0]? = some u ∧ u.state = .busy ∧ statusOk u
      ∧ jobOk cfg u ∧ outputOk cfg u ∧ imageOk (machine u) ∧ (u.phase = .fold → foldReady (machine u) u)
      ∧ (0 < u.srcLen.toNat ∧ u.pm.read 0 = none
        ∧ step (machine u) = .next { machine u with stopped := [⟨0, .pm, 0⟩] }) := by
  refine ⟨⟨rfl, _, rfl, rfl⟩, rfl, rfl, ?_, ?_, ?_, ?_, fun h => Phase.noConfusion h, by decide, rfl, rfl⟩
  · unfold statusOk; decide
  · unfold jobOk decodeJobOk writtenBelow; decide
  · unfold outputOk writtenBelow; decide
  · unfold imageOk writtenBelow; decide

/-- A unit with P1 loaded. -/
def loaded : DecUnit := { idleUnit 7 3 with pm := memFrom 0 p1 }

/-- O58: P1, which is DONE after its fifth step; and V1, which faults in its first. -/
theorem witness_o58 :
    ((machine loaded).units[(machine loaded).cur]? = some loaded ∧ loaded.state ≠ .busy ∧ stopsOk (machine loaded)
      ∧ loaded.srcLen.toNat ≤ cfg.pmSize ∧ loaded.dstLen.toNat ≤ cfg.omSize
      ∧ (∀ i, i < loaded.srcLen.toNat → loaded.pm.read i ≠ none))
    ∧ decodeRun 5 (machine loaded) = .next (machine
        { loaded with
          state := .done, lastOp := 1, tail := 4, fwd := 4, wp := 3, litcnt := 3, c1 := ⟨0, 14⟩, c2 := ⟨0x8000, 14⟩
          om := memFrom 0 [0x41, 0x42, 0x43], omValid := true, omLen := 3 })
    ∧ decodeRun 1 (machine DecUnit.reset) = .next (machine
        { DecUnit.reset with
          state := .fault, lastOp := 1, phase := .ctrl, errKind := .corruptStream, errCause := .fwdExhaust }) :=
  ⟨⟨rfl, by decide, nofun, by decide, by decide, by decide⟩, rfl, rfl⟩

/-- A unit with P1 loaded that has run other jobs before. -/
def loadedLate : DecUnit :=
  { startFault { loaded with om := [(0, 9)], c1 := ⟨0x4000, 1⟩, litcnt := 9, wp := 5, fwd := 2 } 15
      .illegalCommand .badOpcode 15 with
    pm := memFrom 0 (p1 ++ [0xFF]) }

/-- O59: two units that agree on what counts alone. -/
theorem witness_o59 :
    (machine loaded).units[0]? = some loaded ∧ (machine loadedLate).units[0]? = some loadedLate
      ∧ loaded.state ≠ .busy ∧ loadedLate.state ≠ .busy ∧ stopsOk (machine loaded) ∧ stopsOk (machine loadedLate)
      ∧ (machine loadedLate).cfg = (machine loaded).cfg
      ∧ loadedLate.srcLen = loaded.srcLen ∧ loadedLate.dstLen = loaded.dstLen
      ∧ (∀ i, i < loaded.srcLen.toNat → loadedLate.pm.read i = loaded.pm.read i) ∧ loadedLate ≠ loaded :=
  ⟨rfl, rfl, by decide, by decide, nofun, nofun, rfl, rfl, rfl, by decide, by decide⟩

/-- Two units that fold two planes of a 3 x 3 image (P9). -/
def twoFolds (im : List Byte) (a b : UnitState × Phase) : State :=
  { State.resetWith { cfg with nUnits := 2 } with
    units := [{ foldUnit 0 0 with omLen := 2, om := [(0, 0xB6), (1, 0x80)], state := a.1, phase := a.2 },
      { foldUnit 0 1 with omLen := 2, om := [(0, 0x6D), (1, 0x00)], state := b.1, phase := b.2 }]
    im := memFrom 0 im, imgW := 3, imgH := 3, imgBpc := 2, imValid := true }

/-- O60, first part: the two steps of P9, one after the other (F12, F13). -/
theorem witness_o60 :
    (0 : Nat) ≠ 1 ∧ (twoFolds [0, 0, 0, 0, 0, 0, 0, 0, 0] (.busy, .fold) (.busy, .fold)).im.wf
      ∧ exec .foldStep (twoFolds [0, 0, 0, 0, 0, 0, 0, 0, 0] (.busy, .fold) (.busy, .fold)) =
          .next (twoFolds [1, 0, 1, 1, 0, 1, 1, 0, 1] (.done, .none) (.busy, .fold))
      ∧ exec .foldStep { twoFolds [1, 0, 1, 1, 0, 1, 1, 0, 1] (.done, .none) (.busy, .fold) with cur := 1 } =
          .next { twoFolds [1, 2, 3, 1, 2, 3, 1, 2, 1] (.done, .none) (.done, .none) with cur := 1 } :=
  ⟨by decide, by decide, rfl, rfl⟩

/-- O60, second part: F11's repeated fold. -/
theorem witness_o60_repeat :
    folding.im.wf ∧ folding.units[0]? = some (foldUnit 0xA0 0)
      ∧ exec .foldStep folding = .next
          { imaged { foldUnit 0xA0 0 with state := .done, phase := .none } with im := memFrom 0 [1, 0, 1, 0] } :=
  ⟨by decide, rfl, rfl⟩

end Sys2Proof.Tests
end

section
/-! PROOFS. The scope: what a step of the machine refuses (R6, R52, R70) and which agents move (R5, R148, R158). -/

namespace Sys2Proof.Machine

/-! ### A phase step is never refused -/

theorem literalBody_ne_refuse {c : Config} {u : DecUnit} {r : Refusal} : literalBody c u ≠ .refuse r := by
  unfold literalBody
  split
  · exact fun h => nomatch h
  · exact fun h => copyLiterals_ne_refuse (Res.map_eq_refuse.mp h)

theorem matchBody_ne_refuse {c : Config} {u : DecUnit} {r : Refusal} : matchBody c u ≠ .refuse r := by
  intro h
  unfold matchBody at h
  split at h
  · cases h
  split at h
  · cases h
  split at h
  · cases h
  · exact copyMatch_ne_refuse (Res.map_eq_refuse.mp h)

theorem phaseBody_ne_refuse {s : State} {u : DecUnit} {r : Refusal} : phaseBody s u ≠ .refuse r := by
  intro h
  unfold phaseBody at h
  cases hp : u.phase <;> rw [hp] at h
  case none | endchk => cases h
  case ctrl | litsel => exact read1_ne_refuse (Res.map_eq_refuse.mp h)
  case litcode | mlen2 => exact read2_ne_refuse (Res.map_eq_refuse.mp h)
  case midx | mlenn => exact read4_ne_refuse (Res.map_eq_refuse.mp h)
  case mdist => exact readX_ne_refuse (Res.map_eq_refuse.mp h)
  case litcopy => exact literalBody_ne_refuse (Res.map_eq_refuse.mp h)
  case mcopy => exact matchBody_ne_refuse (Res.map_eq_refuse.mp h)
  case rawcopy => exact copyRawFrom_ne_refuse (Res.map_eq_refuse.mp (Res.map_eq_refuse.mp h))
  case imgclear => exact clearFrom_ne_refuse (Res.map_eq_refuse.mp h)
  case fold => exact foldFrom_ne_refuse (Res.map_eq_refuse.mp h)

/-- A BUSY unit's turn is never refused: the row that it fetches is the row that its phase and symbol select (R70).
An MBL outside 4..14, which no rule writes, has no row at all and ends in the model fault noStep. -/
theorem unitFetch_ne_refused {s : State} {u : DecUnit} {r : Refusal} (hu : s.units[s.cur]? = some u)
    (hb : u.state = .busy) : runFetched (unitFetch s.cur s) ≠ .refused r := by
  intro h
  by_cases hm : u.phase = .mdist → 4 ≤ u.mbl.toNat ∧ u.mbl.toNat ≤ 14
  · rw [unitFetch_run hu hb hm, recordStop_eq_refused, settle_refused] at h
    exact phaseBody_ne_refuse h
  · obtain ⟨hp, hn⟩ := Classical.not_imp.mp hm
    simp only [unitFetch, fetchCode, hu, hp] at h
    cases hr : readX u.mbl.toNat s.cfg u with
    | ok x => simp [hr, decode, decodeSym, decodeE, hn] at h
    | raise c p => simp [hr] at h
    | stop f => simp [hr, recordStop_eq_refused] at h
    | refuse e => exact readX_ne_refuse hr

/-! ### What a host action refuses -/

theorem withUnit_eq_refused {s : State} {k : Nat} {f : DecUnit → Fetched} {r : Refusal}
    (h : withUnit s k f = .out (.refused r)) : ∃ d, f d = .out (.refused r) := by
  unfold withUnit at h
  split at h
  · exact ⟨_, h⟩
  · cases h

theorem withWindow_eq_refused {s : State} {k off width : Nat} {f : DecUnit → Fetched} {r : Refusal}
    (h : withWindow s k off width f = .out (.refused r)) :
    (r = .badRegisterAccess off width ∧ ¬(width = 32 ∧ off % 4 = 0)) ∨ ∃ d, f d = .out (.refused r) := by
  unfold withWindow at h
  split at h
  · split at h
    · exact .inr (withUnit_eq_refused h)
    · cases h
  · rename_i hg
    cases h
    exact .inl ⟨rfl, by simpa [goodAccess] using hg⟩

/-- A host action refuses only an access to the register window that is not an aligned 32-bit one (R52). -/
theorem hostAct_eq_refused {a : HostAction} {s : State} {r : Refusal} (h : hostAct a s = .out (.refused r)) :
    ∃ off width, r = .badRegisterAccess off width ∧ ¬(width = 32 ∧ off % 4 = 0) := by
  cases a <;> simp only [hostAct, hostPmWrite] at h
  case regWrite u off width v =>
    rcases withWindow_eq_refused h with hr | ⟨d, hd⟩
    · exact ⟨off, width, hr⟩
    · split at hd <;> cases hd
  case regRead u off width =>
    rcases withWindow_eq_refused h with hr | ⟨d, hd⟩
    · exact ⟨off, width, hr⟩
    · cases hd
  case pmWrite =>
    obtain ⟨d, hd⟩ := withUnit_eq_refused h
    (repeat' split at hd) <;> cases hd
  case omRead | omWrite | wait | stopIfFault | noteIfFault =>
    obtain ⟨d, hd⟩ := withUnit_eq_refused h
    cases hd
  all_goals cases h

/-- Settles O36: a step is refused for its parameters or by a host action; a unit's turn and a command never are. -/
theorem stepRefusesOnlyBadInput : Obligations.StepRefusesOnlyBadInput := by
  intro s r h
  rcases step_turns s with ⟨hv, hs⟩ | ⟨-, -, hs⟩ | ⟨a, t, ht⟩ | ⟨k, t, ht⟩
  · rw [hs] at h
    cases h
    exact .inl ⟨rfl, hv⟩
  · rw [hs] at h
    cases h
  · rw [step_hostTurn ht] at h
    cases ha : hostAct a t with
    | out o =>
      rw [ha, runFetched_out] at h
      exact .inr (hostAct_eq_refused (h ▸ ha))
    | run i x =>
      obtain ⟨w, k, d, rfl, rfl, hd⟩ := hostAct_run ha
      obtain ⟨y, hy⟩ := command_runs (s := { t with cur := k }) w hd
      rw [ha, runFetched_run, hy] at h
      cases h
  · obtain ⟨hunits, -, -, hcur, -, u, hu, hb, -⟩ := unitTurn_units ht
    rw [step_unitTurn ht, ← hcur] at h
    exact absurd h (unitFetch_ne_refused (by rw [hunits, hcur, hu]) hb)

/-! ### The agents that can move -/

theorem actReady_iff {s : State} {a : HostAction} :
    actReady s a = true ↔ ∀ k u, a = .wait k → s.units[k]? = some u → u.state ≠ .busy := by
  cases a
  case wait k =>
    have hk : (∀ j u, HostAction.wait k = .wait j → s.units[j]? = some u → u.state ≠ .busy) ↔
        ∀ u, s.units[k]? = some u → u.state ≠ .busy :=
      ⟨fun h u => h k u rfl, fun h j u e => by cases e; exact h u⟩
    rw [hk]
    cases hu : s.units[k]? <;> simp [actReady, hu]
  all_goals simp [actReady]

theorem hostReady_iff {s : State} :
    hostReady s = true ↔ ∃ a rest, s.host.todo = a :: rest ∧ actReady s a = true := by
  unfold hostReady
  split <;> simp_all

/-- A machine that no agent can move stands still (R148). -/
theorem step_of_enabled_nil {s : State} (h : enabled s = []) (hv : paramsValid s.cfg = true) : step s = .next s := by
  simp [step, fetch, hv, pick_eq_none.mpr h]

/-- Settles O37. -/
theorem enabledAgentsMove : Obligations.EnabledAgentsMove := by
  refine ⟨fun _ _ _ => pick_eq_some, fun _ _ => pick_single, fun _ => step_of_enabled_nil, fun s k => ?_, fun s => ?_⟩
  · simp only [unit_mem_enabled, isStopped_eq_false, ← and_assoc, exists_and_right]
  · simp only [host_mem_enabled, hostReady_iff, actReady_iff]

end Sys2Proof.Machine
end

section
/-! PROOFS. What every instruction leaves unchanged (R10, R29, R37 to R40, R134): first what each kind of row can make
of its unit and of the shared image, said once for exec, then the frame read off it. -/

namespace Sys2Proof.Machine

/-! ### Kinds of change to a unit -/

/-- What a symbol row may change: the forward cursors and their index, PHASE, the working registers, and in a raise
STATE and the error fields (R92 to R94, R97 to R100, R134). -/
def symbolFrame (u v : DecUnit) : Prop :=
  v = { u with
    c1 := v.c1, c2 := v.c2, cx := v.cx, c4 := v.c4, fwd := v.fwd, off := v.off, phase := v.phase
    litcnt := v.litcnt, midx := v.midx, mbl := v.mbl, mbase := v.mbase, dist := v.dist, mlen := v.mlen
    state := v.state, errKind := v.errKind, errCause := v.errCause, errPos := v.errPos }

/-- What a command other than DECODE may change: WP, PHASE, and the fields of STATUS with what they describe (R88, R89,
R124, R126, R134, R135). -/
def commandFrame (u v : DecUnit) : Prop :=
  v = { u with
    wp := v.wp, phase := v.phase, lastOp := v.lastOp, omValid := v.omValid, omLen := v.omLen
    state := v.state, errKind := v.errKind, errCause := v.errCause, errPos := v.errPos }

/-- What DECODE may change: besides that, the forward cursors, their index and TAIL (R73, R88). -/
def decodeFrame (u v : DecUnit) : Prop :=
  v = { u with
    c1 := v.c1, c2 := v.c2, cx := v.cx, c4 := v.c4, fwd := v.fwd, off := v.off, tail := v.tail
    wp := v.wp, phase := v.phase, lastOp := v.lastOp, omValid := v.omValid, omLen := v.omLen
    state := v.state, errKind := v.errKind, errCause := v.errCause, errPos := v.errPos }

/-- What a phase step without a symbol may change: TAIL, WP, OM, PHASE, and what done() or a raise writes (R90, R95,
R96, R101, R102, R125, R127, R134). -/
def blockFrame (u v : DecUnit) : Prop :=
  v = { u with
    tail := v.tail, wp := v.wp, om := v.om, phase := v.phase, omValid := v.omValid, omLen := v.omLen
    state := v.state, errKind := v.errKind, errCause := v.errCause, errPos := v.errPos }

theorem symbolFrame_trans {u v w : DecUnit} (h : symbolFrame u v) (g : symbolFrame v w) : symbolFrame u w := by
  unfold symbolFrame at *
  rw [h] at g
  exact g

theorem commandFrame_trans {u v w : DecUnit} (h : commandFrame u v) (g : commandFrame v w) : commandFrame u w := by
  unfold commandFrame at *
  rw [h] at g
  exact g

theorem blockFrame_trans {u v w : DecUnit} (h : blockFrame u v) (g : blockFrame v w) : blockFrame u w := by
  unfold blockFrame at *
  rw [h] at g
  exact g

theorem symbolFrame_of_cursorsOnly {u v : DecUnit} (h : cursorsOnly u v) : symbolFrame u v := by
  unfold symbolFrame
  rw [h]

theorem symbolFrame_enterFault (u : DecUnit) (c : Cause) (p : Nat) : symbolFrame u (u.enterFault c p) := rfl

theorem symbolFrame_setDistance (e : Nat) (u : DecUnit) : symbolFrame u (setDistance e u) := by
  obtain ⟨a, b, c, -, h⟩ := setDistance_keeps e u
  rw [h]
  rfl

theorem commandFrame_startJob (u : DecUnit) (op : BitVec 4) : commandFrame u (u.startJob op) := rfl

theorem commandFrame_enterFault (u : DecUnit) (c : Cause) (p : Nat) :
    commandFrame u ((u.goto .none).enterFault c p) := rfl

theorem decodeFrame_cursorInit {u v : DecUnit} (c : Config) (h : commandFrame u v) :
    decodeFrame u (((cursorInit c v).setWp 0).goto .ctrl) := by
  obtain ⟨a, b, hi⟩ := cursorInit_keeps c v
  rw [hi, h]
  rfl

theorem blockFrame_enterFault (u : DecUnit) (c : Cause) (p : Nat) : blockFrame u (u.enterFault c p) := rfl

theorem blockFrame_finish (u : DecUnit) : blockFrame u u.finish := by
  obtain ⟨a, b, h⟩ := finish_keeps u
  rw [h]
  rfl

/-! ### The bytes of OM that a copy leaves -/

/-- OM is as it was outside the addresses from `lo` to below `hi`. -/
def omKeptOutside (u v : DecUnit) (lo hi : Nat) : Prop := ∀ a, a < lo ∨ hi ≤ a → v.om.read a = u.om.read a

theorem literalBody_frame {c : Config} {u v : DecUnit} (h : literalBody c u = .ok v) :
    blockFrame u v ∧ omKeptOutside u v u.wp (u.wp + u.litcnt) := by
  unfold literalBody at h
  split at h
  · cases h
  · obtain ⟨x, hx, rfl⟩ := Res.map_eq_ok.mp h
    obtain ⟨hv, -, -, -, -, hom, -⟩ := copyLiterals_ok hx
    refine ⟨?_, hom⟩
    rw [hv]
    rfl

theorem matchBody_frame {c : Config} {u v : DecUnit} (h : matchBody c u = .ok v) :
    blockFrame u v ∧ omKeptOutside u v u.wp (u.wp + u.mlen) := by
  unfold matchBody at h
  split at h
  · cases h
  split at h
  · cases h
  split at h
  · cases h
  · rename_i hd hw _
    obtain ⟨x, hx, rfl⟩ := Res.map_eq_ok.mp h
    obtain ⟨hv, -, -, -, hom, -⟩ := copyMatch_ok hx (Nat.pos_of_ne_zero hd) (Nat.le_of_not_lt hw)
    refine ⟨?_, hom⟩
    rw [hv]
    rfl

theorem copyRawFrom_frame {n : Nat} {c : Config} {u x : DecUnit} (h : copyRawFrom n 0 c u = .ok x) :
    blockFrame u (x.setWp x.dstLen.toNat).finish
      ∧ omKeptOutside u (x.setWp x.dstLen.toNat).finish 0 n := by
  obtain ⟨hv, -, -, hom, -⟩ := copyRawFrom_ok h
  refine ⟨blockFrame_trans ?_ (blockFrame_finish _), fun a ha => ?_⟩
  · rw [hv]
    rfl
  · rw [DecUnit.finish_om]
    exact hom a (by omega)

/-! ### What exec can do -/

/-- The row is a phase step that reads no symbol of a forward cursor (R70: mask 0): neither of the other two kinds. -/
def isBlockRow (i : Instr) : Prop := ¬isSymbolRow i ∧ ¬isCommand i

/-- What the row `i` makes of the unit `u`, by its kind. -/
def unitEffect (i : Instr) (u v : DecUnit) : Prop :=
  (isSymbolRow i ∧ symbolFrame u v)
    ∨ (isCommand i ∧ commandFrame u v)
    ∨ ((∃ g, i = .decode g) ∧ decodeFrame u v)
    ∨ (isBlockRow i ∧ blockFrame u v)

/-- What the row `i` makes of the OM of the unit `u` (R39, R90, R95, R101). -/
def outputEffect (i : Instr) (u v : DecUnit) : Prop :=
  v.om = u.om
    ∨ (i = .litcopy ∧ omKeptOutside u v u.wp (u.wp + u.litcnt))
    ∨ (i = .mcopy ∧ omKeptOutside u v u.wp (u.wp + u.mlen))
    ∨ (i = .rawcopy ∧ omKeptOutside u v 0 u.dstLen.toNat)

/-- What the row `i`, run for the unit `u`, makes of the shared image (R40, R124, R125, R127). -/
def imageEffect (i : Instr) (u : DecUnit) (s s' : State) : Prop :=
  s' = s
    ∨ ((∃ g, i = .imgClear g) ∧ s' = { s with imValid := false })
    ∨ (i = .imgclear ∧ ∃ m, clearFrom (u.width.toNat * u.height.toNat) 0 s.cfg s.im = .ok m
        ∧ s' = { s with im := m, imgW := u.width, imgH := u.height, imgBpc := u.bpc, imValid := true })
    ∨ (i = .foldStep ∧ ∃ m,
        foldFrom (s.imgW.toNat * s.imgH.toNat) 0 s.cfg s.imgW.toNat u.plane.toNat u.om s.im = .ok m
        ∧ s' = { s with im := m })

/-- What the row `i` makes of the machine, the unit in hand being `u`. -/
def execEffect (i : Instr) (u : DecUnit) (s t : State) : Prop :=
  ∃ s' v, t = s'.setUnit v ∧ imageEffect i u s s' ∧ unitEffect i u v ∧ outputEffect i u v

section
variable {i : Instr} {s t : State} {u v : DecUnit}

theorem execEffect_symbol (hi : isSymbolRow i) (h : symbolFrame u v) : execEffect i u s (s.setUnit v) :=
  ⟨s, v, rfl, .inl rfl, .inl ⟨hi, h⟩, .inl (by rw [h])⟩

theorem execEffect_command (hi : isCommand i) (h : commandFrame u v) : execEffect i u s (s.setUnit v) :=
  ⟨s, v, rfl, .inl rfl, .inr (.inl ⟨hi, h⟩), .inl (by rw [h])⟩

theorem execEffect_block (hi : isBlockRow i) (h : blockFrame u v) (ho : outputEffect i u v) :
    execEffect i u s (s.setUnit v) :=
  ⟨s, v, rfl, .inl rfl, .inr (.inr (.inr ⟨hi, h⟩)), ho⟩

theorem execEffect_raise (hi : isBlockRow i) (c : Cause) (p : Nat) :
    execEffect i u s (s.setUnit (u.enterFault c p)) :=
  execEffect_block hi (blockFrame_enterFault u c p) (.inl rfl)

theorem State.setUnit_self (hu : s.unit? = some u) : s.setUnit u = s := by
  obtain ⟨hlt, rfl⟩ := List.getElem?_eq_some_iff.mp hu
  simp [State.setUnit]

/-! ### The shapes of a step -/

/-- A symbol row: its read leaves all but the forward cursors, and `act` leaves all but PHASE and the working
registers. -/
theorem symbolStep_effect {w : Nat} {p : Phase} {rd : Config → DecUnit → Res (BitVec w × DecUnit)} {b : BitVec w}
    {act : DecUnit → DecUnit} (hi : isSymbolRow i) (hu : s.unit? = some u) (h : symbolStep s p rd b act = .next t)
    (hrd : ∀ {c x y}, rd c x = .ok (b, y) → cursorsOnly x y) (hact : ∀ x, symbolFrame x (act x)) :
    execEffect i u s t := by
  obtain ⟨y, hy, -, -, ⟨x, hx, rfl⟩ | ⟨c, pos, -, rfl⟩⟩ := symbolStep_cases h <;>
    obtain rfl := Option.some.inj (hu ▸ hy)
  · exact execEffect_symbol hi (symbolFrame_trans (symbolFrame_of_cursorsOnly (hrd hx)) (hact x))
  · exact execEffect_symbol hi (symbolFrame_enterFault _ c pos)

theorem mdist_effect {n : BitVec 4} {e : BitVec 14} (hu : s.unit? = some u) (h : exec (.mdist n e) s = .next t) :
    execEffect (.mdist n e) u s t := by
  rw [exec_mdist] at h
  obtain ⟨y, v, hy, -, -, rfl, hr | ⟨c, pos, -, rfl⟩⟩ := unitStep_cases h <;>
    obtain rfl := Option.some.inj (hu ▸ hy)
  · obtain ⟨x, hx, ha⟩ := Res.bind_eq_ok.mp hr
    split at ha
    · cases ha
      exact execEffect_symbol trivial
        (symbolFrame_trans (symbolFrame_of_cursorsOnly (readX_ok (v := x.2) hx).1.1) (symbolFrame_setDistance x.1 x.2))
    · cases ha
  · exact execEffect_symbol trivial (symbolFrame_enterFault _ c pos)

/-- A start step that a BUSY unit ignores, or that raises, is a `commandFrame`; what is left is its body's result. -/
theorem commandStep_effect {op : BitVec 4} {prep : DecUnit → DecUnit} {body : State → DecUnit → Res State}
    (hi : isCommand i) (hu : s.unit? = some u) (h : commandStep s op prep body = .next t)
    (hprep : ∀ x, commandFrame x (prep x))
    (hbody : ∀ x, commandFrame u x → body s x = .ok t → execEffect i u s t) : execEffect i u s t := by
  have hx : commandFrame u (prep (u.startJob op)) := commandFrame_trans (commandFrame_startJob u op) (hprep _)
  obtain ⟨y, hy, ⟨-, rfl⟩ | ⟨-, hr | ⟨c, pos, -, rfl⟩⟩⟩ := commandStep_cases h <;>
    obtain rfl := Option.some.inj (hu ▸ hy)
  · have := execEffect_command (s := t) hi (show commandFrame u u from rfl)
    rwa [State.setUnit_self hu] at this
  · exact hbody _ hx hr
  · exact execEffect_command hi (commandFrame_trans hx (commandFrame_enterFault _ c pos))

theorem decode_effect {g : BitVec 28} (hu : s.unit? = some u) (h : exec (.decode g) s = .next t) :
    execEffect (.decode g) u s t := by
  rw [exec_decode] at h
  refine commandStep_effect trivial hu h (fun _ => rfl) fun x hx hb => ?_
  simp only [checkRanges, refuseIf_eq_ok] at hb
  obtain ⟨-, -, hb⟩ := hb
  cases hb
  have hv := decodeFrame_cursorInit s.cfg hx
  exact ⟨s, _, rfl, .inl rfl, .inr (.inr (.inl ⟨⟨g, rfl⟩, hv⟩)), .inl (by rw [hv])⟩

theorem copyRaw_effect {g : BitVec 28} (hu : s.unit? = some u) (h : exec (.copyRaw g) s = .next t) :
    execEffect (.copyRaw g) u s t := by
  rw [exec_copyRaw] at h
  refine commandStep_effect trivial hu h (fun _ => rfl) fun x hx hb => ?_
  simp only [checkRanges, refuseIf_eq_ok] at hb
  obtain ⟨-, -, -, hb⟩ := hb
  cases hb
  exact execEffect_command trivial (commandFrame_trans hx rfl)

theorem imgClear_effect {g : BitVec 28} (hu : s.unit? = some u) (h : exec (.imgClear g) s = .next t) :
    execEffect (.imgClear g) u s t := by
  rw [exec_imgClear] at h
  refine commandStep_effect trivial hu h (fun _ => rfl) fun x hx hb => ?_
  simp only [refuseIf_eq_ok] at hb
  obtain ⟨-, -, hb⟩ := hb
  cases hb
  have hv : commandFrame u (x.goto .imgclear) := commandFrame_trans hx rfl
  exact ⟨_, _, rfl, .inr (.inl ⟨⟨g, rfl⟩, rfl⟩), .inr (.inl ⟨trivial, hv⟩), .inl (by rw [hv])⟩

theorem fold_effect {g : BitVec 28} (hu : s.unit? = some u) (h : exec (.fold g) s = .next t) :
    execEffect (.fold g) u s t := by
  rw [exec_fold] at h
  refine commandStep_effect trivial hu h (fun _ => rfl) fun x hx hb => ?_
  simp only [refuseIf_eq_ok] at hb
  obtain ⟨-, -, -, -, hb⟩ := hb
  cases hb
  exact execEffect_command trivial (commandFrame_trans hx rfl)

theorem illegal_effect {op : BitVec 4} (hi : isCommand i) (hu : s.unit? = some u) (h : illegalStep op s = .next t) :
    execEffect i u s t := by
  rw [illegalStep_eq] at h
  exact commandStep_effect hi hu h (fun _ => rfl) fun x _ hb => nomatch hb

/-- A phase step that touches its own unit only and reads no symbol. -/
theorem unitStep_effect {p : Phase} {own : Config → DecUnit → Res DecUnit} (hi : isBlockRow i)
    (hu : s.unit? = some u) (h : unitStep s p own = .next t)
    (hown : ∀ v, own s.cfg u = .ok v → blockFrame u v ∧ outputEffect i u v) : execEffect i u s t := by
  obtain ⟨y, v, hy, -, -, rfl, hr | ⟨c, pos, -, rfl⟩⟩ := unitStep_cases h <;>
    obtain rfl := Option.some.inj (hu ▸ hy)
  · exact execEffect_block hi (hown v hr).1 (hown v hr).2
  · exact execEffect_raise hi c pos

theorem litcopy_effect (hu : s.unit? = some u) (h : exec .litcopy s = .next t) : execEffect .litcopy u s t :=
  unitStep_effect ⟨id, id⟩ hu h fun _ hv => (literalBody_frame hv).imp_right fun ho => .inr (.inl ⟨rfl, ho⟩)

theorem mcopy_effect (hu : s.unit? = some u) (h : exec .mcopy s = .next t) : execEffect .mcopy u s t :=
  unitStep_effect ⟨id, id⟩ hu h fun _ hv => (matchBody_frame hv).imp_right fun ho => .inr (.inr (.inl ⟨rfl, ho⟩))

theorem rawcopy_effect (hu : s.unit? = some u) (h : exec .rawcopy s = .next t) : execEffect .rawcopy u s t := by
  rw [exec_rawcopy] at h
  refine unitStep_effect ⟨id, id⟩ hu h fun v hv => ?_
  obtain ⟨x, hx, rfl⟩ := Res.map_eq_ok.mp hv
  exact (copyRawFrom_frame hx).imp_right fun ho => .inr (.inr (.inr ⟨rfl, ho⟩))

theorem endchk_effect (hu : s.unit? = some u) (h : exec .endchk s = .next t) : execEffect .endchk u s t := by
  rw [exec_endchk] at h
  refine unitStep_effect ⟨id, id⟩ hu h fun v hv => ?_
  cases hv
  split
  · exact ⟨blockFrame_finish u, .inl (DecUnit.finish_om u)⟩
  · exact ⟨rfl, .inl rfl⟩

theorem imgclear_effect (hu : s.unit? = some u) (h : exec .imgclear s = .next t) : execEffect .imgclear u s t := by
  rw [exec_imgclear] at h
  obtain ⟨y, hy, -, -, hr | ⟨c, pos, -, rfl⟩⟩ := phaseStep_cases h <;> obtain rfl := Option.some.inj (hu ▸ hy)
  · obtain ⟨m, hm, rfl⟩ := Res.map_eq_ok.mp hr
    exact ⟨_, _, rfl, .inr (.inr (.inl ⟨rfl, m, hm, rfl⟩)), .inr (.inr (.inr ⟨⟨id, id⟩, blockFrame_finish _⟩)),
      .inl (DecUnit.finish_om _)⟩
  · exact execEffect_raise ⟨id, id⟩ c pos

theorem foldStep_effect (hu : s.unit? = some u) (h : exec .foldStep s = .next t) : execEffect .foldStep u s t := by
  rw [exec_foldStep] at h
  obtain ⟨y, hy, -, -, hr | ⟨c, pos, -, rfl⟩⟩ := phaseStep_cases h <;> obtain rfl := Option.some.inj (hu ▸ hy)
  · obtain ⟨m, hm, rfl⟩ := Res.map_eq_ok.mp hr
    exact ⟨_, _, rfl, .inr (.inr (.inr ⟨rfl, m, hm, rfl⟩)), .inr (.inr (.inr ⟨⟨id, id⟩, blockFrame_finish _⟩)),
      .inl (DecUnit.finish_om _)⟩
  · exact execEffect_raise ⟨id, id⟩ c pos

/-- Everything that an instruction can change when it answers a next state. -/
theorem exec_effect (h : exec i s = .next t) (hu : s.unit? = some u) : execEffect i u s t := by
  cases i
  case decode g => exact decode_effect hu h
  case copyRaw g => exact copyRaw_effect hu h
  case imgClear g => exact imgClear_effect hu h
  case fold g => exact fold_effect hu h
  case illegal0 | illegal5 | illegal67 | illegal8F => exact illegal_effect trivial hu h
  case ctrlLit | ctrlNolit | litExt | litOne =>
    simp only [exec_ctrlLit, exec_ctrlNolit, exec_litExt, exec_litOne] at h
    exact symbolStep_effect trivial hu h (fun hr => (read1_ok hr).1.1) fun _ => rfl
  case litcodeCont | litcodeAdd4 | litcodeAdd3 | litcodeAdd2 | mlen2Ext | mlen2L6 | mlen2L5 | mlen2L4 =>
    simp only [exec_litcodeCont, exec_litcodeAdd4, exec_litcodeAdd3, exec_litcodeAdd2, exec_mlen2Ext,
      exec_mlen2L6, exec_mlen2L5, exec_mlen2L4] at h
    exact symbolStep_effect trivial hu h (fun hr => (read2_ok hr).1.1) fun _ => rfl
  case midx0 | midx1 | midx2 | midx3 | midx4 | midx5 | midx6 | midx7 | midx8 | midx9 | midx10 | midx11 |
      midx12 | midx13 | midx14 | midx15 =>
    simp only [exec_midx0, exec_midx1, exec_midx2, exec_midx3, exec_midx4, exec_midx5, exec_midx6, exec_midx7,
      exec_midx8, exec_midx9, exec_midx10, exec_midx11, exec_midx12, exec_midx13, exec_midx14, exec_midx15] at h
    exact symbolStep_effect trivial hu h (fun hr => (read4_ok hr).1.1) fun _ => rfl
  case mlennCont | mlennAdd1 | mlennAdd2 | mlennAdd3 | mlennAdd4 | mlennAdd5 | mlennAdd6 | mlennAdd7 |
      mlennAdd8 | mlennAdd9 | mlennAdd10 | mlennAdd11 | mlennAdd12 | mlennAdd13 | mlennAdd14 | mlennAdd15 =>
    simp only [exec_mlennCont, exec_mlennAdd1, exec_mlennAdd2, exec_mlennAdd3, exec_mlennAdd4, exec_mlennAdd5,
      exec_mlennAdd6, exec_mlennAdd7, exec_mlennAdd8, exec_mlennAdd9, exec_mlennAdd10, exec_mlennAdd11,
      exec_mlennAdd12, exec_mlennAdd13, exec_mlennAdd14, exec_mlennAdd15] at h
    exact symbolStep_effect trivial hu h (fun hr => (read4_ok hr).1.1) fun _ => rfl
  case mdist n e => exact mdist_effect hu h
  case litcopy => exact litcopy_effect hu h
  case endchk => exact endchk_effect hu h
  case mcopy => exact mcopy_effect hu h
  case rawcopy => exact rawcopy_effect hu h
  case imgclear => exact imgclear_effect hu h
  case foldStep => exact foldStep_effect hu h

/-! ### The frame, clause by clause -/

theorem not_command_of_symbolRow (hi : isSymbolRow i) : ¬isCommand i := by
  unfold isSymbolRow at hi
  unfold isCommand
  cases he : encode i <;> simp_all

/-- No row changes PM or a register that the host writes (R10, R23, R38). -/
theorem unitEffect_hostSide (h : unitEffect i u v) : windowSame u v ∧ v.pm = u.pm := by
  rcases h with ⟨-, h⟩ | ⟨-, h⟩ | ⟨-, h⟩ | ⟨-, h⟩ <;> rw [h] <;> exact ⟨⟨rfl, rfl, rfl, rfl, rfl, rfl⟩, rfl⟩

theorem unitEffect_symbolRow (h : unitEffect i u v) (hi : isSymbolRow i) :
    v.wp = u.wp ∧ v.tail = u.tail ∧ v.lastOp = u.lastOp ∧ v.omValid = u.omValid ∧ v.omLen = u.omLen := by
  rcases h with ⟨-, h⟩ | ⟨hc, -⟩ | ⟨⟨g, rfl⟩, -⟩ | ⟨hb, -⟩
  · rw [h]
    exact ⟨rfl, rfl, rfl, rfl, rfl⟩
  · exact absurd hc (not_command_of_symbolRow hi)
  · exact hi.elim
  · exact absurd hi hb.1

theorem unitEffect_cursors (h : unitEffect i u v) (hi : ¬isSymbolRow i) (hd : ∀ g, i ≠ .decode g) :
    v.c1 = u.c1 ∧ v.c2 = u.c2 ∧ v.cx = u.cx ∧ v.c4 = u.c4 ∧ v.fwd = u.fwd ∧ v.off = u.off := by
  rcases h with ⟨hs, -⟩ | ⟨-, h⟩ | ⟨⟨g, hg⟩, -⟩ | ⟨-, h⟩
  · exact absurd hs hi
  · rw [h]
    exact ⟨rfl, rfl, rfl, rfl, rfl, rfl⟩
  · exact absurd hg (hd g)
  · rw [h]
    exact ⟨rfl, rfl, rfl, rfl, rfl, rfl⟩

theorem unitEffect_workingRegisters (h : unitEffect i u v) (hi : ¬isSymbolRow i) :
    v.litcnt = u.litcnt ∧ v.midx = u.midx ∧ v.mbl = u.mbl ∧ v.mbase = u.mbase ∧ v.dist = u.dist
      ∧ v.mlen = u.mlen := by
  rcases h with ⟨hs, -⟩ | ⟨-, h⟩ | ⟨-, h⟩ | ⟨-, h⟩
  · exact absurd hs hi
  all_goals
    rw [h]
    exact ⟨rfl, rfl, rfl, rfl, rfl, rfl⟩

theorem unitEffect_command_tail (h : unitEffect i u v) (hc : isCommand i) (hd : ∀ g, i ≠ .decode g) :
    v.tail = u.tail := by
  rcases h with ⟨hs, -⟩ | ⟨-, h⟩ | ⟨⟨g, hg⟩, -⟩ | ⟨hb, -⟩
  · exact absurd hc (not_command_of_symbolRow hs)
  · rw [h]
  · exact absurd hg (hd g)
  · exact absurd hc hb.2

theorem outputEffect_other (h : outputEffect i u v) (h1 : i ≠ .litcopy) (h2 : i ≠ .mcopy) (h3 : i ≠ .rawcopy) :
    v.om = u.om := by
  rcases h with h | ⟨hi, -⟩ | ⟨hi, -⟩ | ⟨hi, -⟩
  · exact h
  · exact absurd hi h1
  · exact absurd hi h2
  · exact absurd hi h3

theorem omKeptOutside_of_om_eq (h : v.om = u.om) (lo hi : Nat) : omKeptOutside u v lo hi := fun a _ => by rw [h]

theorem outputEffect_litcopy (h : outputEffect .litcopy u v) : omKeptOutside u v u.wp (u.wp + u.litcnt) := by
  rcases h with h | ⟨-, h⟩ | ⟨hi, -⟩ | ⟨hi, -⟩
  · exact omKeptOutside_of_om_eq h _ _
  · exact h
  · cases hi
  · cases hi

theorem outputEffect_mcopy (h : outputEffect .mcopy u v) : omKeptOutside u v u.wp (u.wp + u.mlen) := by
  rcases h with h | ⟨hi, -⟩ | ⟨-, h⟩ | ⟨hi, -⟩
  · exact omKeptOutside_of_om_eq h _ _
  · cases hi
  · exact h
  · cases hi

theorem outputEffect_rawcopy (h : outputEffect .rawcopy u v) : omKeptOutside u v 0 u.dstLen.toNat := by
  rcases h with h | ⟨hi, -⟩ | ⟨hi, -⟩ | ⟨-, h⟩
  · exact omKeptOutside_of_om_eq h _ _
  · cases hi
  · cases hi
  · exact h

variable {s' : State}

theorem imageEffect_surroundings (h : imageEffect i u s s') : surroundingsSame s s' ∧ s'.units = s.units := by
  rcases h with rfl | ⟨-, rfl⟩ | ⟨-, m, -, rfl⟩ | ⟨-, m, -, rfl⟩ <;> exact ⟨⟨rfl, rfl, rfl, rfl, rfl, rfl⟩, rfl⟩

theorem imageEffect_geometry (h : imageEffect i u s s') (hi : i ≠ .imgclear) :
    s'.imgW = s.imgW ∧ s'.imgH = s.imgH ∧ s'.imgBpc = s.imgBpc := by
  rcases h with rfl | ⟨-, rfl⟩ | ⟨he, -⟩ | ⟨-, m, -, rfl⟩
  · exact ⟨rfl, rfl, rfl⟩
  · exact ⟨rfl, rfl, rfl⟩
  · exact absurd he hi
  · exact ⟨rfl, rfl, rfl⟩

theorem imageEffect_imValid (h : imageEffect i u s s') (hi : i ≠ .imgclear) (hg : ∀ g, i ≠ .imgClear g) :
    s'.imValid = s.imValid := by
  rcases h with rfl | ⟨⟨g, he⟩, -⟩ | ⟨he, -⟩ | ⟨-, m, -, rfl⟩
  · rfl
  · exact absurd he (hg g)
  · exact absurd he hi
  · rfl

theorem imageEffect_im (h : imageEffect i u s s') (hi : i ≠ .imgclear) (hf : i ≠ .foldStep) : s'.im = s.im := by
  rcases h with rfl | ⟨-, rfl⟩ | ⟨he, -⟩ | ⟨he, -⟩
  · rfl
  · rfl
  · exact absurd he hi
  · exact absurd he hf

theorem imageEffect_imgclear (h : imageEffect .imgclear u s s') {a : Nat} (ha : u.width.toNat * u.height.toNat ≤ a) :
    s'.im.read a = s.im.read a := by
  rcases h with rfl | ⟨-, rfl⟩ | ⟨-, m, hm, rfl⟩ | ⟨he, -⟩
  · rfl
  · rfl
  · obtain ⟨-, -, hkept, -⟩ := clearFrom_ok hm
    exact hkept a (by omega)
  · cases he

theorem imageEffect_foldStep (h : imageEffect .foldStep u s s') {a : Nat} (ha : s.imgW.toNat * s.imgH.toNat ≤ a) :
    s'.im.read a = s.im.read a := by
  rcases h with rfl | ⟨-, rfl⟩ | ⟨he, -⟩ | ⟨-, m, hm, rfl⟩
  · rfl
  · rfl
  · cases he
  · obtain ⟨-, -, hkept, -⟩ := foldFrom_ok hm
    exact hkept a (by omega)

/-- Replacing the unit in hand leaves the surroundings and the other units (R10). -/
theorem setUnit_frame (hs : surroundingsSame s s') (hunits : s'.units = s.units) (hu : s.unit? = some u) :
    (s'.setUnit v).units[s.cur]? = some v ∧ surroundingsSame s (s'.setUnit v) ∧ othersSame s (s'.setUnit v) := by
  have hcur : s'.cur = s.cur := hs.2.2.1
  have hu' : s'.unit? = some u := by rw [State.unit?, hunits, hcur]; exact hu
  refine ⟨hcur ▸ State.setUnit_unit? s' u v hu', hs, ?_, fun k hk => ?_⟩
  · rw [State.setUnit_units, List.length_set, hunits]
  · rw [State.setUnit_other s' v k (hcur ▸ hk), hunits]

end

/-- Settles O47: each clause is read off what the row's kind can change (`exec_effect`). -/
theorem instructionFrame : Obligations.InstructionFrame := by
  intro i s t u h hu
  obtain ⟨s', v, rfl, himage, hunit, houtput⟩ := exec_effect h hu
  obtain ⟨hsame, hunits⟩ := imageEffect_surroundings himage
  obtain ⟨hv, haround, hothers⟩ := setUnit_frame (v := v) hsame hunits hu
  obtain ⟨hwindow, hpm⟩ := unitEffect_hostSide hunit
  have hgeometry := imageEffect_geometry himage
  have hvalid := imageEffect_imValid himage
  refine ⟨v, hv, haround, hothers, hwindow, fun a => by rw [hpm], hgeometry, hvalid,
    fun hi hf a => by rw [State.setUnit_im, imageEffect_im himage hi hf], ?_, ?_,
    fun h1 h2 h3 a => by rw [outputEffect_other houtput h1 h2 h3], ?_, ?_, ?_,
    unitEffect_symbolRow hunit, unitEffect_cursors hunit, unitEffect_workingRegisters hunit,
    unitEffect_command_tail hunit⟩
  · rintro rfl a ha
    exact imageEffect_imgclear himage ha
  · rintro rfl a ha
    exact imageEffect_foldStep himage ha
  · rintro rfl
    exact outputEffect_litcopy houtput
  · rintro rfl
    exact outputEffect_mcopy houtput
  · rintro rfl a ha
    exact outputEffect_rawcopy houtput a (.inr ha)

end Sys2Proof.Machine
end

section
/-! PROOFS. The register window and the commands on the host's turn (R23, R24, R27, R28, R138), and the machine after
reset (R36, R147). -/

namespace Sys2Proof.Machine

/-! ### Commands -/

/-- Settles O33: every command is a start step, which a BUSY unit ignores. -/
theorem busyIgnoresCommands : Obligations.BusyIgnoresCommands := by
  intro i s u hu hb hi
  cases i
  case decode | copyRaw | imgClear | fold | illegal0 | illegal5 | illegal67 | illegal8F =>
    simp only [exec_decode, exec_copyRaw, exec_imgClear, exec_fold, exec_illegal0, exec_illegal5, exec_illegal67,
      exec_illegal8F, illegalStep_eq]
    exact commandStep_busy hu hb
  all_goals exact hi.elim

/-- An aligned 32-bit access to the window of a unit that is there goes through (R23, R52). -/
theorem withWindow_run {s : State} {k off : Nat} {d : DecUnit} {f : DecUnit → Fetched} (hd : s.units[k]? = some d)
    (ha : off % 4 = 0) (ho : off < 64) : withWindow s k off 32 f = f d := by
  simp [withWindow, goodAccess, withUnit, ha, ho, hd]

/-- Settles O35: the write hands the decoded command on, and no start step can be stopped by R41. -/
theorem stepRunsCommand : Obligations.StepRunsCommand := by
  intro s t k w i d ht hd hi
  cases hi
  obtain ⟨r, hr⟩ := command_runs (s := { t with cur := k }) w hd
  rw [step_hostTurn ht, hostAct, withWindow_run hd rfl (by decide), if_pos rfl, runFetched_run, hr, recordStop_next]

/-! ### Register writes -/

theorem writeReg_idle {u : DecUnit} (h : u.state ≠ .busy) (off : Nat) (v : BitVec 32) : writeReg u off v =
    if off = 0x04 then { u with srcLen := v }
    else if off = 0x08 then { u with dstLen := v }
    else if off = 0x0C then { u with width := v.setWidth 16 }
    else if off = 0x10 then { u with height := v.setWidth 16 }
    else if off = 0x14 then { u with bpc := v.setWidth 8 }
    else if off = 0x18 then { u with plane := v.setWidth 8 }
    else u := by
  unfold writeReg
  rw [if_neg h]
  split <;> simp_all

/-- Settles O39: a BUSY unit ignores the write, another takes it as its register's width says. -/
theorem registerWrites : Obligations.RegisterWrites := by
  intro s t k off v d ht hd ha h0 ho
  rw [step_hostTurn ht, hostAct, withWindow_run hd ha ho, if_neg h0, runFetched_out]
  by_cases hb : d.state = .busy
  · rw [writeReg_busy d off v hb, if_pos hb]
    rfl
  · rw [writeReg_idle hb, if_neg hb]
    rfl

/-! ### Register reads -/

/-- The value of two fields side by side. -/
theorem toNat_append_add {m n : Nat} (x : BitVec m) (y : BitVec n) : (x ++ y).toNat = y.toNat + 2 ^ n * x.toNat := by
  rw [BitVec.toNat_append, Nat.shiftLeft_eq, Nat.mul_comm, ← Nat.two_pow_add_eq_or_of_lt y.isLt, Nat.add_comm]

/-- STATUS is the sum of its fields, each at its place (R27). -/
theorem statusWord_toNat (u : DecUnit) (b : Bool) : (statusWord u b).toNat =
    u.state.code.toNat + 2 ^ 2 * u.omValid.toNat + 2 ^ 3 * b.toNat + 2 ^ 4 * u.lastOp.toNat
      + 2 ^ 8 * u.errKind.code.toNat + 2 ^ 16 * u.errCause.code.toNat := by
  simp only [statusWord, toNat_append_add, BitVec.toNat_ofBool, BitVec.toNat_ofNat]
  omega

theorem state_code_of_table {x : UnitState} {n : Nat}
    (h : (x, n) ∈ [(UnitState.idle, 0), (.busy, 1), (.done, 2), (.fault, 3)]) : x.code.toNat = n := by
  fin_cases h <;> rfl

theorem kind_code_of_table {x : ErrKind} {n : Nat}
    (h : (x, n) ∈ [(ErrKind.none, 0), (.missingHeader, 1), (.missingPalette, 2), (.corruptStream, 3),
      (.illegalCommand, 4), (.configError, 5)]) : x.code.toNat = n := by
  fin_cases h <;> rfl

theorem cause_code_of_table {x : Cause} {n : Nat}
    (h : (x, n) ∈ [(Cause.none, 0x00), (.fwdExhaust, 0x01), (.tailCross, 0x02), (.litOverrun, 0x03),
      (.distBeforeStart, 0x04), (.distZero, 0x05), (.matchOverrun, 0x06), (.rawSizeMismatch, 0x07),
      (.planeShort, 0x08), (.unknownType, 0x09), (.chunkPastEof, 0x0A), (.badOpcode, 0x10), (.srcRange, 0x11),
      (.dstRange, 0x12), (.imgRange, 0x13), (.bpcRange, 0x14), (.planeRange, 0x15), (.noPlaneData, 0x16),
      (.noImage, 0x17)]) : x.code.toNat = n := by
  fin_cases h <;> rfl

theorem phase_code_of_table {x : Phase} {n : Nat}
    (h : (x, n) ∈ [(Phase.none, 0), (.ctrl, 1), (.litsel, 2), (.litcode, 3), (.litcopy, 4), (.endchk, 5), (.midx, 6),
      (.mdist, 7), (.mlen2, 8), (.mlenn, 9), (.mcopy, 10), (.rawcopy, 11), (.imgclear, 12), (.fold, 13)]) :
    (phaseCode x).toNat = n := by
  fin_cases h <;> rfl

/-- Settles O40: each clause is the window's entry at its offset, a register narrower than the window read with zeros
above it. -/
theorem registerReads : Obligations.RegisterReads := by
  intro s t k off d ht hd ha ho
  refine ⟨readReg t.cfg t.imValid d off, ?_, fun h => by fin_cases h <;> rfl, ?_, ?_, ?_, ?_, ?_, ?_,
    fun x y z hx hy hz => ?_, ?_, ?_, ?_, ?_, fun x hx => ?_, ?_⟩
  · rw [step_hostTurn ht, hostAct, withWindow_run hd ha ho]
    rfl
  all_goals rintro rfl
  case refine_4 | refine_5 | refine_6 | refine_7 => exact BitVec.toNat_setWidth_of_le (by decide)
  case refine_8 =>
    rw [← state_code_of_table hx, ← kind_code_of_table hy, ← cause_code_of_table hz]
    exact statusWord_toNat d t.imValid
  case refine_13 =>
    rw [← phase_code_of_table hx]
    exact BitVec.toNat_setWidth_of_le (by decide)
  all_goals rfl

/-! ### Reset -/

theorem mem_resetWith {c : Config} {u : DecUnit} (h : u ∈ (State.resetWith c).units) : u = DecUnit.reset :=
  List.eq_of_mem_replicate h

/-- Settles O38. -/
theorem resetValues : Obligations.ResetValues := by
  refine ⟨fun c => ⟨rfl, List.length_replicate, rfl, rfl, rfl, rfl, rfl, fun _ => rfl, fun u hu => ?_⟩, rfl,
    fun s t ht => ?_⟩
  · obtain rfl := mem_resetWith hu
    simp [DecUnit.reset, State.resetWith, statusWord, ErrKind.code, Cause.code, UnitState.code]
  · obtain ⟨-, hcfg, -⟩ := hostTurn_units ht
    rw [step_hostTurn ht, hostAct, runFetched_out, ← hcfg]
    exact ⟨_, rfl, rfl, rfl, rfl, rfl, rfl, rfl, rfl, rfl⟩

/-! ### The invariants of a unit after reset -/

theorem reset_memoriesOk (c : Config) : memoriesOk c DecUnit.reset := by
  simp [memoriesOk, DecUnit.reset]

theorem reset_cursorsOk : cursorsOk DecUnit.reset := by
  simp [cursorsOk, DecUnit.reset]

theorem reset_statusOk : statusOk DecUnit.reset := by
  simp [statusOk, DecUnit.reset, Cause.kind]

/-- A unit that is not BUSY has no job in progress. -/
theorem jobOk_of_not_busy {c : Config} {u : DecUnit} (h : u.state ≠ .busy) : jobOk c u := fun hb => absurd hb h

theorem outputOk_of_invalid {c : Config} {u : DecUnit} (h : u.omValid = false) : outputOk c u := fun hv => by
  rw [h] at hv
  cases hv

theorem reset_not_busy : DecUnit.reset.state ≠ .busy := nofun

theorem reset_jobOk (c : Config) : jobOk c DecUnit.reset ∧ outputOk c DecUnit.reset :=
  ⟨jobOk_of_not_busy reset_not_busy, outputOk_of_invalid rfl⟩

theorem reset_belowWord : belowWord DecUnit.reset := by
  simp [belowWord, DecUnit.reset]

/-- Settles O56: each unit is a unit after reset, and the image is empty. -/
theorem invariantsHoldAtReset : Obligations.InvariantsHoldAtReset := by
  intro c
  have units : ∀ {P : DecUnit → Prop}, P DecUnit.reset → ∀ u ∈ (State.resetWith c).units, P u :=
    fun h u hu => mem_resetWith hu ▸ h
  refine ⟨List.length_replicate, ⟨⟨.nil, nofun⟩, units (reset_memoriesOk c)⟩, units reset_cursorsOk,
    units reset_statusOk, units (reset_jobOk c), units fun hb => absurd hb reset_not_busy, units reset_belowWord, nofun,
    ⟨Nat.zero_le _, nofun⟩, ⟨Nat.zero_le _, nofun⟩, units fun hb => absurd hb reset_not_busy⟩

end Sys2Proof.Machine
end

section
/-! PROOFS. What a completed phase step changes in its unit, by fields: a symbol row reads, then sets PHASE and the
working registers; the others leave the forward cursors alone. Then R15 for every unit after every step. -/

namespace Sys2Proof.Machine

section
variable {c : Config} {s : State} {u v x : DecUnit}

/-- What a symbol row may change once its symbol is read: PHASE and the working registers (R92 to R94, R97 to
R100). -/
def workFrame (x v : DecUnit) : Prop :=
  v = { x with
    phase := v.phase, litcnt := v.litcnt, midx := v.midx, mbl := v.mbl, mbase := v.mbase, dist := v.dist
    mlen := v.mlen }

theorem workFrame_setDistance (e : Nat) (x : DecUnit) : workFrame x (setDistance e x) := by
  obtain ⟨d, m, p, -, h⟩ := setDistance_keeps e x
  rw [h]
  rfl

theorem symbolMoved_workFrame (h : symbolMoved c u v) : ∃ x, readKeeps u x ∧ workFrame x v := by
  obtain ⟨x, hx, h⟩ := h
  refine ⟨x, hx, ?_⟩
  rcases h with ⟨-, -, rfl | rfl⟩ | ⟨-, -, rfl | rfl⟩ | ⟨-, -, -, rfl | ⟨k, -, -, rfl⟩⟩ | ⟨-, -, i, rfl⟩ |
    ⟨-, -, e, -, rfl⟩ | ⟨-, -, rfl | ⟨k, -, -, rfl⟩⟩ | ⟨-, -, -, rfl | ⟨k, -, -, rfl⟩⟩
  case inr.inr.inr.inr.inl => exact workFrame_setDistance e x
  all_goals rfl

/-- A completed phase step has read a symbol, or has left the forward cursors alone. -/
theorem unitMoved_frame (h : unitMoved c u v) : (∃ x, readKeeps u x ∧ workFrame x v) ∨ blockFrame u v := by
  rcases h with h | ⟨-, -, x, hx, rfl⟩ | ⟨-, -, rfl⟩ | ⟨-, -, rfl⟩ | ⟨-, hd, hw, -, x, hx, rfl⟩ | ⟨-, x, hx, rfl⟩
  · exact .inl (symbolMoved_workFrame h)
  · rw [(copyLiterals_ok hx).1]
    exact .inr rfl
  · exact .inr (blockFrame_finish u)
  · exact .inr rfl
  · rw [(copyMatch_ok hx hd hw).1]
    exact .inr rfl
  · exact .inr (copyRawFrom_frame hx).1

/-- A command leaves the forward cursors alone, but for DECODE, which empties them (R73). -/
theorem unitStarted_frame (h : unitStarted s u v) :
    commandFrame u v ∨ ∃ a b, v = { u with
      c1 := ⟨0, 0⟩, c2 := ⟨0, 0⟩, cx := ⟨0, 0⟩, c4 := ⟨0, 0⟩, fwd := a, off := b, tail := v.tail, wp := v.wp
      phase := v.phase, lastOp := v.lastOp, omValid := v.omValid, omLen := v.omLen, state := v.state
      errKind := v.errKind, errCause := v.errCause, errPos := v.errPos } := by
  rcases h with ⟨op, e, p, -, rfl⟩ | ⟨op, e, p, -, rfl⟩ | ⟨-, -, rfl⟩ | ⟨-, -, -, rfl⟩ | ⟨-, -, rfl⟩ | ⟨-, -, -, -, rfl⟩
  case inr.inr.inl =>
    obtain ⟨a, b, h⟩ := cursorInit_keeps s.cfg (clearOutput (u.startJob 1#4))
    refine .inr ⟨a, b, ?_⟩
    rw [h]
    rfl
  all_goals exact .inl rfl

/-! ### The bit counts (R15) -/

theorem unitMoved_cursorsOk (hu : cursorsOk u) (h : unitMoved c u v) : cursorsOk v := by
  rcases unitMoved_frame h with ⟨x, ⟨-, hx, -⟩, hv⟩ | hv
  · rw [hv]
    exact hx hu
  · rw [hv]
    exact hu

theorem unitStarted_cursorsOk (hu : cursorsOk u) (h : unitStarted s u v) : cursorsOk v := by
  rcases unitStarted_frame h with hv | ⟨a, b, hv⟩
  · rw [hv]
    exact hu
  · rw [hv]
    exact reset_cursorsOk

theorem unitStepped_cursorsOk (hu : cursorsOk u) (h : unitStepped s u v) : cursorsOk v := by
  rcases h with ⟨off, w, rfl⟩ | ⟨-, a, bytes, -, rfl⟩ | ⟨-, h⟩ | ⟨-, h⟩ | ⟨-, -, rfl⟩ | ⟨-, -, d, p, -, rfl⟩
  · obtain ⟨_, _, _, _, _, _, hw⟩ := writeReg_keeps u off w
    rw [hw]
    exact hu
  · exact hu
  · exact unitStarted_cursorsOk hu h
  · exact unitMoved_cursorsOk hu h
  · rw [blockFrame_finish u]
    exact hu
  · exact hu

end

/-- Settles O50: a read keeps the counts, DECODE's start step empties the cursors, and nothing else writes them. -/
theorem cursorCountsStayInRange : Obligations.CursorCountsStayInRange := fun _ _ hs h =>
  step_units_invariant (P := fun _ u => cursorsOk u) (fun _ => reset_cursorsOk) (fun _ _ _ => unitStepped_cursorsOk) hs h

end Sys2Proof.Machine
end

section
/-! PROOFS. STATUS, PHASE and the error fields agree after every step (R21, R27, R29, R102, R132 to R134), and a unit
that R41 has stopped stays as it is. -/

namespace Sys2Proof.Machine

section
variable {c : Config} {s r t : State} {u v x : DecUnit}

/-! ### A completed phase step -/

/-- STATE, the error fields and the record of a valid output are the same. -/
def statusSame (u v : DecUnit) : Prop :=
  v.state = u.state ∧ v.errKind = u.errKind ∧ v.errCause = u.errCause ∧ v.errPos = u.errPos
    ∧ v.omValid = u.omValid ∧ v.omLen = u.omLen

theorem statusSame_refl (u : DecUnit) : statusSame u u := ⟨rfl, rfl, rfl, rfl, rfl, rfl⟩

theorem statusSame_of_read (hx : readKeeps u x) (hv : workFrame x v) : statusSame u v := by
  rw [hv, hx.1]
  exact ⟨rfl, rfl, rfl, rfl, rfl, rfl⟩

theorem setDistance_decoding (e : Nat) (x : DecUnit) : decoding (setDistance e x).phase = true := by
  obtain ⟨d, m, p, hp | hp, h⟩ := setDistance_keeps e x <;> rw [h, hp] <;> rfl

/-- A symbol row goes from one phase of a DECODE job to another (R91). -/
theorem symbolMoved_decoding (h : symbolMoved c u v) : decoding u.phase = true ∧ decoding v.phase = true := by
  obtain ⟨x, -, h⟩ := h
  rcases h with ⟨hp, -, rfl | rfl⟩ | ⟨hp, -, rfl | rfl⟩ | ⟨hp, -, -, rfl | ⟨k, -, -, rfl⟩⟩ | ⟨hp, -, i, rfl⟩ |
    ⟨hp, -, e, -, rfl⟩ | ⟨hp, -, rfl | ⟨k, -, -, rfl⟩⟩ | ⟨hp, -, -, rfl | ⟨k, -, -, rfl⟩⟩ <;> rw [hp] <;>
    refine ⟨rfl, ?_⟩
  case inr.inr.inr.inr.inl => exact setDistance_decoding e x
  all_goals rfl

theorem phase_ne_none_of_decoding {p : Phase} (h : decoding p = true) : p ≠ .none := by
  rintro rfl
  cases h

/-- A completed phase step goes on in another phase, or ends its job with done() (R91, R102). -/
theorem unitMoved_status (h : unitMoved c u v) :
    (statusSame u v ∧ v.phase ≠ .none) ∨ ∃ x, statusSame u x ∧ v = x.finish := by
  rcases h with h | ⟨-, -, x, hx, rfl⟩ | ⟨-, -, rfl⟩ | ⟨-, -, rfl⟩ | ⟨-, hd, hw, -, x, hx, rfl⟩ | ⟨-, x, hx, rfl⟩
  · obtain ⟨x, hx, hv⟩ := symbolMoved_workFrame h
    exact .inl ⟨statusSame_of_read hx hv, phase_ne_none_of_decoding (symbolMoved_decoding h).2⟩
  · rw [(copyLiterals_ok hx).1]
    exact .inl ⟨⟨rfl, rfl, rfl, rfl, rfl, rfl⟩, nofun⟩
  · exact .inr ⟨u, statusSame_refl u, rfl⟩
  · exact .inl ⟨⟨rfl, rfl, rfl, rfl, rfl, rfl⟩, nofun⟩
  · rw [(copyMatch_ok hx hd hw).1]
    exact .inl ⟨⟨rfl, rfl, rfl, rfl, rfl, rfl⟩, nofun⟩
  · refine .inr ⟨_, ?_, rfl⟩
    rw [(copyRawFrom_ok hx).1]
    exact ⟨rfl, rfl, rfl, rfl, rfl, rfl⟩

/-! ### The agreement of STATUS -/

/-- A BUSY unit has no cause, so its position is 0 (R102, R134). -/
theorem statusOk_busy_clean (hu : statusOk u) (hb : u.state = .busy) : u.errCause = .none ∧ u.errPos = 0 := by
  obtain ⟨-, hfault, -, -, -, hpos, -⟩ := hu
  have hn : u.errCause = .none := by
    by_contra hc
    have := hfault.mpr hc
    rw [hb] at this
    cases this
  exact ⟨hn, hpos hn⟩

/-- done() ends a job without a cause (R102). -/
theorem statusOk_finish (h : statusSame u x) (hu : statusOk u) (hb : u.state = .busy) : statusOk x.finish := by
  obtain ⟨hc, hpos⟩ := statusOk_busy_clean hu hb
  obtain ⟨-, h2, h3, h4, h5, h6⟩ := h
  obtain ⟨hkind, -, -, -, -, -, hlen⟩ := hu
  have hout : x.finish.omValid = false → x.finish.omLen = 0 := by
    rw [DecUnit.finish_omValid, DecUnit.finish_omLen, h5, h6]
    split
    · exact nofun
    · exact hlen
  refine ⟨?_, ?_, ?_, ?_, ?_, ?_, hout⟩ <;> simp [h2, h3, h4, hc, hpos, hkind]

theorem statusOk_goes_on (h : statusSame u v) (hu : statusOk u) (hb : u.state = .busy) (hp : v.phase ≠ .none) :
    statusOk v := by
  obtain ⟨h1, h2, h3, h4, h5, h6⟩ := h
  obtain ⟨hkind, hfault, -, -, hhost, hpos, hlen⟩ := hu
  refine ⟨by rwa [h2, h3], by rwa [h1, h3], fun _ => hp, fun hi => ?_, by rwa [h3], by rwa [h3, h4], by rwa [h5, h6]⟩
  rw [h1, hb] at hi
  rcases hi with hi | hi <;> cases hi

/-- Fault entry with a cause of the block (R133, R134) from a unit whose OM_LEN agrees with OM_VALID. -/
theorem statusOk_enterFault {d : Cause} (p : Nat) (hd : startCause d ∨ streamCause d)
    (hlen : u.omValid = false → u.omLen = 0) : statusOk (u.enterFault d p) := by
  have hblock : d ≠ .none ∧ d ≠ .unknownType ∧ d ≠ .chunkPastEof := by
    refine ⟨?_, ?_, ?_⟩ <;> rintro rfl <;> simp [startCause, streamCause] at hd
  exact ⟨rfl, ⟨fun _ => hblock.1, fun _ => rfl⟩, nofun, fun h => h.elim nofun nofun, hblock.2,
    fun h => absurd h hblock.1, hlen⟩

/-- A job that has just started: BUSY in a phase, with the error fields cleared (R88, R89, R124, R126). -/
theorem statusOk_started (hb : v.state = .busy) (hk : v.errKind = .none) (hc : v.errCause = .none)
    (hpos : v.errPos = 0) (hp : v.phase ≠ .none) (hlen : v.omValid = false → v.omLen = 0) : statusOk v := by
  refine ⟨?_, ?_, fun _ => hp, ?_, ?_, fun _ => hpos, hlen⟩ <;> simp [hb, hk, hc, Cause.kind]

theorem unitStarted_statusOk (hu : statusOk u) (h : unitStarted s u v) : statusOk v := by
  obtain ⟨-, -, -, -, -, -, hlen⟩ := hu
  rcases h with ⟨op, d, p, hd, rfl⟩ | ⟨op, d, p, hd, rfl⟩ | ⟨-, -, rfl⟩ | ⟨-, -, -, rfl⟩ | ⟨-, -, rfl⟩ | ⟨-, -, -, -, rfl⟩
  · exact statusOk_enterFault p (.inl hd) hlen
  · exact statusOk_enterFault p (.inl hd) fun _ => rfl
  · obtain ⟨a, b, h⟩ := cursorInit_keeps s.cfg (clearOutput (u.startJob 1#4))
    rw [h]
    exact statusOk_started rfl rfl rfl rfl nofun fun _ => rfl
  · exact statusOk_started rfl rfl rfl rfl nofun fun _ => rfl
  · exact statusOk_started rfl rfl rfl rfl nofun hlen
  · exact statusOk_started rfl rfl rfl rfl nofun hlen

theorem unitMoved_statusOk (hu : statusOk u) (hb : u.state = .busy) (h : unitMoved c u v) : statusOk v := by
  rcases unitMoved_status h with ⟨hs, hp⟩ | ⟨x, hs, rfl⟩
  · exact statusOk_goes_on hs hu hb hp
  · exact statusOk_finish hs hu hb

theorem unitStepped_statusOk (hu : statusOk u) (h : unitStepped s u v) : statusOk v := by
  rcases h with ⟨off, w, rfl⟩ | ⟨-, a, bytes, -, rfl⟩ | ⟨-, h⟩ | ⟨hb, h⟩ | ⟨hb, -, rfl⟩ | ⟨-, -, d, p, hd, rfl⟩
  · obtain ⟨_, _, _, _, _, _, hw⟩ := writeReg_keeps u off w
    rw [hw]
    exact hu
  · exact hu
  · exact unitStarted_statusOk hu h
  · exact unitMoved_statusOk hu hb h
  · exact statusOk_finish (statusSame_refl u) hu hb
  · obtain ⟨-, -, -, -, -, -, hlen⟩ := hu
    exact statusOk_enterFault p (.inr hd) hlen

theorem step_keeps_statusOk (hs : allStatusOk s) (h : step s = .next t) : allStatusOk t :=
  step_units_invariant (P := fun _ u => statusOk u) (fun _ => reset_statusOk) (fun _ _ _ => unitStepped_statusOk) hs h

/-! ### The units that R41 has stopped -/

/-- The records stand, and the stopped units are as they were. -/
def stopsKept (s r : State) : Prop := ∀ x ∈ s.stopped, x ∈ r.stopped ∧ r.units[x.unit]? = s.units[x.unit]?

/-- A unit that is not BUSY is not stopped. -/
theorem not_stopped_of_not_busy {k : Nat} (hs : stopsOk s) (hu : s.units[k]? = some u) (hb : u.state ≠ .busy) :
    ∀ x ∈ s.stopped, x.unit ≠ k := by
  rintro x hx rfl
  obtain ⟨y, hy, hyb⟩ := hs x hx
  obtain rfl := Option.some.inj (hu ▸ hy)
  exact hb hyb

/-- What every step makes of the records of R41: nothing is left of them, or no new one, or one of the unit in hand. -/
def stopsStepped (s r : State) : Prop :=
  r.stopped = [] ∨ (stopsKept s r ∧
    ∀ x ∈ r.stopped, x ∈ s.stopped ∨ ∃ u, r.units[x.unit]? = some u ∧ u.state = .busy)

theorem stopsStepped_of_same (h1 : r.stopped = s.stopped) (h2 : r.units = s.units) : stopsStepped s r :=
  .inr ⟨fun x hx => ⟨h1 ▸ hx, by rw [h2]⟩, fun _ hx => .inl (h1 ▸ hx)⟩

/-- Changing a unit that is not stopped leaves every stopped unit. -/
theorem stopsStepped_of_set {k : Nat} (h1 : r.stopped = s.stopped) (h2 : r.units = s.units.set k v)
    (hk : ∀ x ∈ s.stopped, x.unit ≠ k) : stopsStepped s r :=
  .inr ⟨fun x hx => ⟨h1 ▸ hx, by rw [h2, List.getElem?_set_ne (Ne.symm (hk x hx))]⟩, fun _ hx => .inl (h1 ▸ hx)⟩

theorem hostEffect_stops (hs : stopsOk s) (h : hostEffect s r) : stopsStepped s r := by
  rcases h with ⟨-, h2, -, -, -, -, -, h8⟩ | ⟨k, d, off, x, hd, rfl⟩ | ⟨k, d, a, bytes, hd, hb, -, rfl⟩ |
    ⟨-, -, -, -, -, -, -, h8⟩
  · exact stopsStepped_of_same h8 h2
  · by_cases hb : d.state = .busy
    · obtain ⟨hk, rfl⟩ := List.getElem?_eq_some_iff.mp hd
      exact stopsStepped_of_same rfl (by rw [State.putUnit_units, writeReg_busy _ off x hb, List.set_getElem_self])
    · exact stopsStepped_of_set rfl rfl (not_stopped_of_not_busy hs hd hb)
  · exact stopsStepped_of_set rfl rfl (not_stopped_of_not_busy hs hd hb)
  · exact .inl h8

theorem command_stops {w : BitVec 32} (hs : stopsOk s) (h : exec (decodeCmd w) s = .next r) : stopsStepped s r := by
  obtain ⟨u, hu, ⟨-, rfl⟩ | ⟨hb, h⟩⟩ := command_cases h
  · exact stopsStepped_of_same rfl rfl
  · have hn := not_stopped_of_not_busy hs hu hb
    rcases h with ⟨op, d, p, -, rfl⟩ | ⟨op, d, p, -, rfl⟩ | ⟨-, -, rfl⟩ | ⟨-, -, -, rfl⟩ | ⟨-, -, rfl⟩ |
      ⟨-, -, -, -, rfl⟩ <;> exact stopsStepped_of_set rfl rfl hn

theorem turnEnds_stops (hu : s.units[s.cur]? = some u) (hb : u.state = .busy)
    (hn : isStopped s.stopped s.cur = false) (h : turnEnds s r u) : stopsStepped s r := by
  have hn := isStopped_eq_false.mp hn
  rcases h with h | ⟨d, p, -, rfl⟩ | ⟨m, a, -, rfl⟩
  · rcases phaseBody_ok h with ⟨v, -, rfl⟩ | ⟨-, m, -, rfl⟩ | ⟨-, m, -, rfl⟩ <;>
      exact stopsStepped_of_set rfl rfl hn
  · exact stopsStepped_of_set rfl rfl hn
  · refine .inr ⟨fun x hx => ⟨List.mem_cons_of_mem _ hx, rfl⟩, fun x hx => ?_⟩
    rcases List.mem_cons.mp hx with rfl | hx
    · exact .inr ⟨u, hu, hb⟩
    · exact .inl hx

theorem step_stops (hs : stopsOk s) (h : step s = .next r) : stopsStepped s r := by
  have key : ∀ t, blockSame s t → (stopsOk t → stopsStepped t r) → stopsStepped s r := by
    rintro t ⟨-, h2, -, -, -, -, -, h8⟩ ht
    unfold stopsStepped stopsKept stopsOk at *
    rw [h2, h8] at ht
    exact ht hs
  obtain ⟨-, rfl | ⟨t, hb, he⟩ | ⟨t, w, hb, hc⟩ | ⟨t, u, hb, hu, hbz, hr, hn⟩⟩ := step_next_cases h
  · exact stopsStepped_of_same rfl rfl
  · exact key t hb fun ht => hostEffect_stops ht he
  · exact key t hb fun ht => command_stops ht hc
  · exact key t hb fun _ => turnEnds_stops hu hbz hn hr

theorem stopsOk_of_stopsStepped (hs : stopsOk s) (h : stopsStepped s r) : stopsOk r := by
  intro x hx
  rcases h with h | ⟨hk, hn⟩
  · rw [h] at hx
    cases hx
  · rcases hn x hx with hx | hu
    · rw [(hk x hx).2]
      exact hs x hx
    · exact hu

end

/-- Settles O51: the first part unit by unit, the second by whose turn it was: only a unit that is not stopped is
changed. -/
theorem statusStaysConsistent : Obligations.StatusStaysConsistent := by
  intro s t h
  refine ⟨fun hs => step_keeps_statusOk hs h, fun hs => ?_⟩
  have hst := step_stops hs h
  exact ⟨stopsOk_of_stopsStepped hs hst, hst.imp_right fun hk => hk.1⟩

end Sys2Proof.Machine
end

section
/-! PROOFS. Every job in progress stays in the ranges that its start step checked (R19, R20, R22, R39, R82), a valid
output stays written whole (R29, R104), and so does the image (R30, R40). -/

namespace Sys2Proof.Machine

section
variable {c : Config} {s : State} {u v x : DecUnit}

/-! ### How the job of a unit is shown -/

/-- The working registers that the next step of a DECODE job uses (R22). -/
def workOk (u : DecUnit) : Prop :=
  (u.phase = .mdist → (u.mbl, u.mbase) = vlcLookup u.midx) ∧ (u.phase = .litcopy → 1 ≤ u.litcnt)
    ∧ (u.phase = .mlenn → 6 ≤ u.mlen) ∧ (u.phase = .mcopy → 2 ≤ u.mlen)

/-- A phase that uses no working register leaves nothing to show of them. -/
theorem workOk_of_phase (h : u.phase ∉ [Phase.mdist, .litcopy, .mlenn, .mcopy]) : workOk u := by
  simp only [List.mem_cons, List.not_mem_nil, or_false, not_or] at h
  obtain ⟨h1, h2, h3, h4⟩ := h
  exact ⟨fun hp => absurd hp h1, fun hp => absurd hp h2, fun hp => absurd hp h3, fun hp => absurd hp h4⟩

/-- In a DECODE phase the job is DECODE's, with its working registers, and there is no valid output yet (R29). -/
theorem jobOk_of_decoding (hd : decoding u.phase = true) (hj : decodeJobOk c u) (hw : workOk u) :
    jobOk c u ∧ outputOk c u := by
  obtain ⟨hmdist, hlit, hmlenn, hmcopy⟩ := hw
  constructor
  · refine fun _ => ⟨fun _ => hj, fun hp => ?_, fun hp => ?_, fun hp => ?_, hmdist, hlit, hmlenn, hmcopy⟩ <;>
      rw [hp] at hd <;> cases hd
  · obtain ⟨-, hv, -⟩ := hj
    exact outputOk_of_invalid hv

theorem jobOk_decoding (hu : jobOk c u) (hb : u.state = .busy) (hd : decoding u.phase = true) :
    decodeJobOk c u ∧ workOk u := by
  obtain ⟨hj, -, -, -, hmdist, hlit, hmlenn, hmcopy⟩ := hu hb
  exact ⟨hj hd, hmdist, hlit, hmlenn, hmcopy⟩

theorem outputOk_of_same (h1 : v.omValid = u.omValid) (h2 : v.omLen = u.omLen) (h3 : v.om = u.om)
    (hu : outputOk c u) : outputOk c v := by
  unfold outputOk
  rwa [h1, h2, h3]

/-! ### A symbol row -/

theorem decodeJobOk_read (hx : readKeeps u x) (hu : decodeJobOk c u) : decodeJobOk c x := by
  obtain ⟨hcur, -, hfwd⟩ := hx
  obtain ⟨h1, h2, h3, h4, h5, h6, h7, h8⟩ := hu
  have htail : x.tail = u.tail := cursorsOnly_tail hcur
  have hsrc : x.srcLen = u.srcLen := by rw [hcur]
  refine ⟨by rw [hcur]; exact h1, by rw [hcur]; exact h2, fun hm => ?_, by rwa [htail, hsrc], by rwa [hsrc],
    by rw [hcur]; exact h6, by rw [hcur]; exact h7, by rw [hcur]; exact h8⟩
  rw [htail]
  exact forwardKept_fwdHi hfwd (h3 (hsrc ▸ hm))

theorem decodeJobOk_work (hv : workFrame x v) (hx : decodeJobOk c x) : decodeJobOk c v := by
  rw [hv]
  exact hx

theorem decodeJobOk_goto {p : Phase} (hx : decodeJobOk c x) : decodeJobOk c (x.goto p) := hx

theorem workOk_setDistance (e : Nat) (x : DecUnit) : workOk (setDistance e x) := by
  unfold setDistance
  simp only
  split
  · exact ⟨nofun, nofun, nofun, fun _ => Nat.le_refl 2⟩
  split
  · exact ⟨nofun, nofun, nofun, fun _ => Nat.le_succ 2⟩
  · exact ⟨nofun, nofun, nofun, nofun⟩

/-- Each symbol leaves the working registers that the next step uses (R93, R94, R97 to R100). -/
theorem symbolMoved_workOk (h : symbolMoved c u v) (hu : workOk u) : workOk v := by
  obtain ⟨x, -, h⟩ := h
  obtain ⟨-, -, hmlenn, -⟩ := hu
  rcases h with ⟨-, -, rfl | rfl⟩ | ⟨-, -, rfl | rfl⟩ | ⟨-, -, -, rfl | ⟨k, hk, -, rfl⟩⟩ | ⟨-, -, i, rfl⟩ |
    ⟨-, -, e, -, rfl⟩ | ⟨-, -, rfl | ⟨k, hk, -, rfl⟩⟩ | ⟨hp, -, -, rfl | ⟨k, hk, -, rfl⟩⟩
  · exact ⟨nofun, nofun, nofun, nofun⟩
  · exact ⟨nofun, nofun, nofun, nofun⟩
  · exact ⟨nofun, nofun, nofun, nofun⟩
  · exact ⟨nofun, fun _ => Nat.le_refl 1, nofun, nofun⟩
  · exact ⟨nofun, nofun, nofun, nofun⟩
  · exact ⟨nofun, fun _ => by show 1 ≤ u.litcnt + k; omega, nofun, nofun⟩
  · exact ⟨fun _ => rfl, nofun, nofun, nofun⟩
  · exact workOk_setDistance e x
  · exact ⟨nofun, nofun, fun _ => Nat.le_refl 6, nofun⟩
  · exact ⟨nofun, nofun, nofun, fun _ => by show 2 ≤ k; omega⟩
  · exact ⟨nofun, nofun, fun _ => Nat.le_add_right_of_le (hmlenn hp), nofun⟩
  · have hlen := hmlenn hp
    exact ⟨nofun, nofun, nofun, fun _ => by show 2 ≤ u.mlen + k; omega⟩

theorem symbolMoved_jobOk (hu : jobOk c u) (hb : u.state = .busy) (h : symbolMoved c u v) :
    jobOk c v ∧ outputOk c v := by
  obtain ⟨hdu, hdv⟩ := symbolMoved_decoding h
  obtain ⟨x, hx, hv⟩ := symbolMoved_workFrame h
  obtain ⟨hj, hw⟩ := jobOk_decoding hu hb hdu
  exact jobOk_of_decoding hdv (decodeJobOk_work hv (decodeJobOk_read hx hj)) (symbolMoved_workOk h hw)

/-! ### The copies -/

/-- The literal copy takes LITCNT bytes from above FwdHi and writes them below DST_LEN (R39, R82, R95). -/
theorem copyLiterals_jobOk (hu : decodeJobOk c u) (hl : 1 ≤ u.litcnt) (hr : u.wp + u.litcnt ≤ u.dstLen.toNat)
    (h : copyLiterals u.litcnt c u = .ok x) : decodeJobOk c x := by
  obtain ⟨h1, h2, -, h4, h5, -, h7, h8⟩ := hu
  obtain ⟨hx, hfwd, -, hnew, hpm, hold, -⟩ := copyLiterals_ok h
  have hroom := hfwd hl
  rw [hx]
  refine ⟨h1, h2, fun _ => ?_, ?_, h5, hr, h7, fun a ha => ?_⟩
  · show fwdHi c u ≤ u.tail - u.litcnt
    omega
  · show u.tail - u.litcnt ≤ u.srcLen.toNat
    omega
  · have ha : a < u.wp + u.litcnt := ha
    by_cases hw : a < u.wp
    · rw [hold a (.inl hw)]
      exact h8 a hw
    · have hj := hnew (a - u.wp) (by omega)
      rw [show u.wp + (a - u.wp) = a by omega] at hj
      rw [hj]
      exact hpm (a - u.wp) (by omega)

/-- The match copy writes MLEN bytes below DST_LEN (R39, R101). -/
theorem copyMatch_jobOk (hu : decodeJobOk c u) (hd : 1 ≤ u.dist) (hw : u.dist ≤ u.wp)
    (hr : u.wp + u.mlen ≤ u.dstLen.toNat) (h : copyMatch u.mlen c u = .ok x) : decodeJobOk c x := by
  obtain ⟨h1, h2, h3, h4, h5, -, h7, h8⟩ := hu
  obtain ⟨hx, -, -, hnew, hold, -⟩ := copyMatch_ok h hd hw
  rw [hx]
  refine ⟨h1, h2, h3, h4, h5, hr, h7, fun a ha => ?_⟩
  have ha : a < u.wp + u.mlen := ha
  by_cases hlt : a < u.wp
  · rw [hold a (.inl hlt)]
    exact h8 a hlt
  · have hj := hnew (a - u.wp) (by omega)
    rwa [show u.wp + (a - u.wp) = a by omega] at hj

/-! ### done() -/

theorem finish_not_busy (u : DecUnit) : u.finish.state ≠ .busy := by
  rw [DecUnit.finish_state]
  exact nofun

/-- A DECODE or COPY_RAW that is done has written the DST_LEN bytes that OM_LEN says (R102, R104). -/
theorem outputOk_finish_written (ho : u.dstLen.toNat ≤ c.omSize) (hw : writtenBelow u.om u.dstLen.toNat)
    (hop : u.lastOp = 1#4 ∨ u.lastOp = 2#4) : outputOk c u.finish := by
  intro _
  rw [DecUnit.finish_omLen, DecUnit.finish_om, if_pos hop]
  exact ⟨ho, hw⟩

/-- Another job's done() leaves the output and its record (R102). -/
theorem outputOk_finish_other (hop : ¬(u.lastOp = 1#4 ∨ u.lastOp = 2#4)) (hu : outputOk c u) : outputOk c u.finish :=
  outputOk_of_same (by rw [DecUnit.finish_omValid, if_neg hop]) (by rw [DecUnit.finish_omLen, if_neg hop])
    (DecUnit.finish_om u) hu

/-! ### A completed phase step -/

theorem unitMoved_jobOk (hu : jobOk c u) (hb : u.state = .busy) (h : unitMoved c u v) :
    jobOk c v ∧ outputOk c v := by
  rcases h with h | ⟨hp, hr, x, hx, rfl⟩ | ⟨hp, hw, rfl⟩ | ⟨hp, -, rfl⟩ | ⟨hp, hd, hw, hr, x, hx, rfl⟩ | ⟨hp, x, hx, rfl⟩
  · exact symbolMoved_jobOk hu hb h
  · obtain ⟨hj, -, hlit, -⟩ := jobOk_decoding hu hb (by rw [hp]; rfl)
    exact jobOk_of_decoding rfl (decodeJobOk_goto (copyLiterals_jobOk hj (hlit hp) hr hx)) (workOk_of_phase (by simp))
  · obtain ⟨⟨hop, -, -, -, -, -, ho, hom⟩, -⟩ := jobOk_decoding hu hb (by rw [hp]; rfl)
    exact ⟨jobOk_of_not_busy (finish_not_busy u), outputOk_finish_written ho (hw ▸ hom) (.inl hop)⟩
  · obtain ⟨hj, -⟩ := jobOk_decoding hu hb (by rw [hp]; rfl)
    exact jobOk_of_decoding rfl (decodeJobOk_goto hj) (workOk_of_phase (by simp))
  · obtain ⟨hj, -⟩ := jobOk_decoding hu hb (by rw [hp]; rfl)
    exact jobOk_of_decoding rfl (decodeJobOk_goto (copyMatch_jobOk hj hd hw hr hx)) (workOk_of_phase (by simp))
  · obtain ⟨-, hraw, -⟩ := hu hb
    obtain ⟨hop, -, -, -, ho⟩ := hraw hp
    obtain ⟨hv, -, hnew, -⟩ := copyRawFrom_ok hx
    refine ⟨jobOk_of_not_busy (finish_not_busy _), outputOk_finish_written ?_ ?_ ?_⟩
    · rw [hv]
      exact ho
    · have hlen : (x.setWp x.dstLen.toNat).dstLen = u.dstLen := by rw [hv]; rfl
      intro a ha
      rw [hlen] at ha
      obtain ⟨he, hn⟩ := hnew a (Nat.zero_le a) (by omega)
      rw [DecUnit.setWp_om, he]
      exact hn
    · rw [hv]
      exact .inr hop

/-! ### A command -/

/-- R82's condition, at the start of a job. -/
theorem fwdHi_cursorInit_le {n : Nat} (h : c.fwdMode = .shared ∨ initHi c ≤ n) : fwdHi c (cursorInit c u) ≤ n := by
  unfold fwdHi cursorInit
  cases hm : c.fwdMode with
  | shared => exact Nat.zero_le n
  | independent => exact h.resolve_left (by rw [hm]; exact nofun)

/-- A DECODE job at its start (R73, R88). -/
theorem decodeJobOk_start (hop : u.lastOp = 1#4) (hv : u.omValid = false) (hs : u.srcLen.toNat ≤ c.pmSize)
    (hd : u.dstLen.toNat ≤ c.omSize) : decodeJobOk c (((cursorInit c u).setWp 0).goto .ctrl) := by
  have hhi := fwdHi_cursorInit_le (c := c) (u := u) (n := u.srcLen.toNat)
  obtain ⟨a, b, hi⟩ := cursorInit_keeps c u
  rw [hi] at hhi ⊢
  exact ⟨hop, hv, hhi, Nat.le_refl _, hs, Nat.zero_le _, hd, nofun⟩

theorem unitStarted_jobOk (ho : outputOk s.cfg u) (h : unitStarted s u v) : jobOk s.cfg v ∧ outputOk s.cfg v := by
  rcases h with ⟨op, d, p, -, rfl⟩ | ⟨op, d, p, -, rfl⟩ | ⟨hs, hd, rfl⟩ | ⟨hs, hd, he, rfl⟩ | ⟨hb, hi, rfl⟩ |
    ⟨-, -, hv, -, rfl⟩
  · exact ⟨jobOk_of_not_busy nofun, ho⟩
  · exact ⟨jobOk_of_not_busy nofun, outputOk_of_invalid rfl⟩
  · exact jobOk_of_decoding rfl (decodeJobOk_start rfl rfl hs hd) (workOk_of_phase (by simp))
  · exact ⟨fun _ => ⟨nofun, fun _ => ⟨rfl, rfl, he, hs, hd⟩, nofun, nofun, nofun, nofun, nofun, nofun⟩,
      outputOk_of_invalid rfl⟩
  · exact ⟨fun _ => ⟨nofun, nofun, fun _ => ⟨rfl, hi, hb⟩, nofun, nofun, nofun, nofun, nofun⟩, ho⟩
  · exact ⟨fun _ => ⟨nofun, nofun, nofun, fun _ => ⟨rfl, hv⟩, nofun, nofun, nofun, nofun⟩, ho⟩

/-! ### Every step -/

theorem unitStepped_jobOk (hu : jobOk s.cfg u ∧ outputOk s.cfg u) (h : unitStepped s u v) :
    jobOk s.cfg v ∧ outputOk s.cfg v := by
  obtain ⟨hj, ho⟩ := hu
  rcases h with ⟨off, w, rfl⟩ | ⟨hb, a, bytes, -, rfl⟩ | ⟨-, h⟩ | ⟨hb, h⟩ | ⟨hb, hp, rfl⟩ | ⟨-, -, d, p, -, rfl⟩
  · by_cases hb : u.state = .busy
    · rw [writeReg_busy u off w hb]
      exact ⟨hj, ho⟩
    · obtain ⟨_, _, _, _, _, _, hw⟩ := writeReg_keeps u off w
      rw [hw]
      exact ⟨jobOk_of_not_busy hb, ho⟩
  · exact ⟨jobOk_of_not_busy hb, ho⟩
  · exact unitStarted_jobOk ho h
  · exact unitMoved_jobOk hj hb h
  · obtain ⟨-, -, hclear, hfold, -⟩ := hj hb
    have hop : ¬(u.lastOp = 1#4 ∨ u.lastOp = 2#4) := by
      rcases hp with hp | hp
      · rw [(hclear hp).1]
        decide
      · rw [(hfold hp).1]
        decide
    exact ⟨jobOk_of_not_busy (finish_not_busy u), outputOk_finish_other hop ho⟩
  · exact ⟨jobOk_of_not_busy nofun, ho⟩

end

/-- Settles O52. -/
theorem jobsStayInRange : Obligations.JobsStayInRange := fun _ _ hs h =>
  step_units_invariant (P := fun c u => jobOk c u ∧ outputOk c u) reset_jobOk (fun _ _ _ => unitStepped_jobOk) hs h

/-- Settles O54: the image is empty, is cleared whole inside IM (R124, R125), or keeps its written bytes (R127). -/
theorem imageStaysWritten : Obligations.ImageStaysWritten := by
  rintro s t hs ⟨hfit, hwritten⟩ h
  obtain ⟨hcfg, -⟩ := step_unit_cases h
  unfold imageOk
  rw [hcfg]
  rcases step_image_cases h with ⟨h1, h2, h3, -⟩ | ⟨-, h2, -⟩ | ⟨u, hu, hb, hp, hm, h2, h3, -⟩ |
    ⟨u, -, -, -, hm, h2, h3, -⟩
  · rw [h1, h2, h3]
    exact ⟨hfit, hwritten⟩
  · simp [h2, writtenBelow]
  · obtain ⟨-, -, hclear, -⟩ := (hs u hu).1 hb
    obtain ⟨-, hsize, -⟩ := hclear hp
    obtain ⟨-, hzero, -⟩ := clearFrom_ok hm
    rw [h2, h3]
    refine ⟨hsize, fun i hi => ?_⟩
    rw [hzero i (Nat.zero_le i) (by omega)]
    exact nofun
  · obtain ⟨-, hfold, -⟩ := foldFrom_ok hm
    rw [h2, h3]
    refine ⟨hfit, fun i hi => ?_⟩
    obtain ⟨b, w, -, -, hr⟩ := hfold i (Nat.zero_le i) (by omega)
    rw [hr]
    exact nofun

end Sys2Proof.Machine
end

section
/-! PROOFS. Progress inside a DECODE job (R18 to R20, R39, R82): WP and FwdHi only rise, TAIL only falls, and the output
below WP stays. -/

namespace Sys2Proof.Machine

section
variable {c : Config} {i : Instr} {s t : State} {u v x : DecUnit}

/-! ### A read never moves FwdHi down (R18) -/

theorem fwdHi_le_setForward (k : CursorId) {n : Nat} (h : forwardPos c u k ≤ n) :
    fwdHi c u ≤ fwdHi c (setForward c u k n) := by
  unfold fwdHi setForward forwardPos at *
  cases hm : c.fwdMode with
  | shared =>
    rw [hm] at h
    exact h
  | independent =>
    rw [hm] at h
    simp only [DecUnit.setOff_off]
    cases k <;> dsimp only [offGet, offPut] at h ⊢ <;> omega

theorem take16_fwdHi_le {k : CursorId} {w : BitVec 16} (h : take16 c u k = .ok (w, v)) : fwdHi c u ≤ fwdHi c v := by
  obtain ⟨-, rfl, -⟩ := take16_eq_ok.mp h
  exact fwdHi_le_setForward k (Nat.le_add_right _ 2)

theorem take32_fwdHi_le {w : BitVec 32} (h : take32 c u = .ok (w, v)) : fwdHi c u ≤ fwdHi c v := by
  obtain ⟨-, rfl, -⟩ := take32_eq_ok.mp h
  exact fwdHi_le_setForward .c4 (Nat.le_add_right _ 4)

theorem read1_fwdHi_le {b : BitVec 1} (h : read1 c u = .ok (b, v)) : fwdHi c u ≤ fwdHi c v := by
  obtain ⟨x, hx, he⟩ := Res.map_eq_ok.mp h
  cases he
  rcases readyC1_ok hx with ⟨-, rfl⟩ | ⟨-, w, y, hy, rfl⟩
  · exact Nat.le_refl _
  · exact (take16_fwdHi_le hy :)

theorem read2_fwdHi_le {b : BitVec 2} (h : read2 c u = .ok (b, v)) : fwdHi c u ≤ fwdHi c v := by
  obtain ⟨x, hx, he⟩ := Res.map_eq_ok.mp h
  cases he
  rcases readyC2_ok hx with ⟨-, rfl⟩ | ⟨-, w, y, hy, rfl⟩
  · exact Nat.le_refl _
  · exact (take16_fwdHi_le hy :)

theorem readXBit_fwdHi_le {b : BitVec 1} (h : readXBit c u = .ok (b, v)) : fwdHi c u ≤ fwdHi c v := by
  obtain ⟨x, hx, he⟩ := Res.map_eq_ok.mp h
  cases he
  rcases readyCX_ok hx with ⟨-, rfl⟩ | ⟨-, w, y, hy, rfl⟩
  · exact Nat.le_refl _
  · exact (take16_fwdHi_le hy :)

theorem read4_fwdHi_le {b : BitVec 4} (h : read4 c u = .ok (b, v)) : fwdHi c u ≤ fwdHi c v := by
  obtain ⟨x, hx, he⟩ := Res.map_eq_ok.mp h
  cases he
  rcases readyC4_ok hx with ⟨-, rfl⟩ | ⟨-, w, y, hy, rfl⟩
  · exact Nat.le_refl _
  · exact (take32_fwdHi_le hy :)

theorem readXFrom_fwdHi_le {n r e : Nat} (h : readXFrom n r c u = .ok (e, v)) : fwdHi c u ≤ fwdHi c v := by
  induction n generalizing r u with
  | zero =>
    cases h
    exact Nat.le_refl _
  | succ n ih =>
    obtain ⟨y, hy, h⟩ := Res.bind_eq_ok.mp h
    exact Nat.le_trans (readXBit_fwdHi_le (b := y.1) (v := y.2) hy) (ih h)

/-! ### A symbol row reads one symbol and sets the working registers -/

/-- `x` is `u` after the read of one symbol (R76 to R79). -/
def symbolRead (c : Config) (u x : DecUnit) : Prop :=
  (∃ b, read1 c u = .ok (b, x)) ∨ (∃ b, read2 c u = .ok (b, x)) ∨ (∃ b, read4 c u = .ok (b, x))
    ∨ ∃ n e, readX n c u = .ok (e, x)

/-- What a symbol row leaves: the symbol read and the working registers set, or a raise. -/
def symbolEnds (c : Config) (u v : DecUnit) : Prop :=
  (∃ x, symbolRead c u x ∧ workFrame x v) ∨ ∃ d p, v = u.enterFault d p

theorem symbolRead_cursorsOnly (h : symbolRead c u x) : cursorsOnly u x := by
  rcases h with ⟨b, h⟩ | ⟨b, h⟩ | ⟨b, h⟩ | ⟨n, e, h⟩
  · exact (read1_ok h).1.1
  · exact (read2_ok h).1.1
  · exact (read4_ok h).1.1
  · exact (readX_ok h).1.1

theorem symbolRead_fwdHi_le (h : symbolRead c u x) : fwdHi c u ≤ fwdHi c x := by
  rcases h with ⟨b, h⟩ | ⟨b, h⟩ | ⟨b, h⟩ | ⟨n, e, h⟩
  · exact read1_fwdHi_le h
  · exact read2_fwdHi_le h
  · exact read4_fwdHi_le h
  · exact readXFrom_fwdHi_le h

theorem symbolStep_ends {w : Nat} {p : Phase} {rd : Config → DecUnit → Res (BitVec w × DecUnit)} {b : BitVec w}
    {act : DecUnit → DecUnit} (hu : s.unit? = some u) (h : symbolStep s p rd b act = .next t)
    (hrd : ∀ {x}, rd s.cfg u = .ok (b, x) → symbolRead s.cfg u x) (hact : ∀ x, workFrame x (act x)) :
    ∃ v, t = s.setUnit v ∧ symbolEnds s.cfg u v := by
  obtain ⟨y, hy, -, -, ⟨x, hx, rfl⟩ | ⟨d, p, -, rfl⟩⟩ := symbolStep_cases h <;> obtain rfl := Option.some.inj (hu ▸ hy)
  · exact ⟨_, rfl, .inl ⟨x, hrd hx, hact x⟩⟩
  · exact ⟨_, rfl, .inr ⟨d, p, rfl⟩⟩

theorem mdist_ends {n : BitVec 4} {e : BitVec 14} (hu : s.unit? = some u) (h : exec (.mdist n e) s = .next t) :
    ∃ v, t = s.setUnit v ∧ symbolEnds s.cfg u v := by
  rw [exec_mdist] at h
  obtain ⟨y, v, hy, -, -, rfl, hr | ⟨d, p, -, rfl⟩⟩ := unitStep_cases h <;> obtain rfl := Option.some.inj (hu ▸ hy)
  · obtain ⟨x, hx, ha⟩ := Res.bind_eq_ok.mp hr
    split at ha
    · cases ha
      exact ⟨_, rfl, .inl ⟨x.2, .inr (.inr (.inr ⟨_, x.1, hx⟩)), workFrame_setDistance x.1 x.2⟩⟩
    · cases ha
  · exact ⟨_, rfl, .inr ⟨d, p, rfl⟩⟩

/-- Everything a symbol row can do when it answers a next state. -/
theorem exec_symbolRow (hi : isSymbolRow i) (hu : s.unit? = some u) (h : exec i s = .next t) :
    ∃ v, t = s.setUnit v ∧ symbolEnds s.cfg u v := by
  cases i
  case ctrlLit | ctrlNolit | litExt | litOne =>
    simp only [exec_ctrlLit, exec_ctrlNolit, exec_litExt, exec_litOne] at h
    exact symbolStep_ends hu h (fun hr => .inl ⟨_, hr⟩) fun _ => rfl
  case litcodeCont | litcodeAdd4 | litcodeAdd3 | litcodeAdd2 | mlen2Ext | mlen2L6 | mlen2L5 | mlen2L4 =>
    simp only [exec_litcodeCont, exec_litcodeAdd4, exec_litcodeAdd3, exec_litcodeAdd2, exec_mlen2Ext,
      exec_mlen2L6, exec_mlen2L5, exec_mlen2L4] at h
    exact symbolStep_ends hu h (fun hr => .inr (.inl ⟨_, hr⟩)) fun _ => rfl
  case midx0 | midx1 | midx2 | midx3 | midx4 | midx5 | midx6 | midx7 | midx8 | midx9 | midx10 | midx11 |
      midx12 | midx13 | midx14 | midx15 =>
    simp only [exec_midx0, exec_midx1, exec_midx2, exec_midx3, exec_midx4, exec_midx5, exec_midx6, exec_midx7,
      exec_midx8, exec_midx9, exec_midx10, exec_midx11, exec_midx12, exec_midx13, exec_midx14, exec_midx15] at h
    exact symbolStep_ends hu h (fun hr => .inr (.inr (.inl ⟨_, hr⟩))) fun _ => rfl
  case mlennCont | mlennAdd1 | mlennAdd2 | mlennAdd3 | mlennAdd4 | mlennAdd5 | mlennAdd6 | mlennAdd7 |
      mlennAdd8 | mlennAdd9 | mlennAdd10 | mlennAdd11 | mlennAdd12 | mlennAdd13 | mlennAdd14 | mlennAdd15 =>
    simp only [exec_mlennCont, exec_mlennAdd1, exec_mlennAdd2, exec_mlennAdd3, exec_mlennAdd4, exec_mlennAdd5,
      exec_mlennAdd6, exec_mlennAdd7, exec_mlennAdd8, exec_mlennAdd9, exec_mlennAdd10, exec_mlennAdd11,
      exec_mlennAdd12, exec_mlennAdd13, exec_mlennAdd14, exec_mlennAdd15] at h
    exact symbolStep_ends hu h (fun hr => .inr (.inr (.inl ⟨_, hr⟩))) fun _ => rfl
  case mdist n e => exact mdist_ends hu h
  all_goals exact hi.elim

/-! ### Progress -/

/-- WP and FwdHi are no lower, TAIL is no higher, and OM below the old WP is the same. -/
def progressed (c : Config) (u v : DecUnit) : Prop :=
  u.wp ≤ v.wp ∧ v.tail ≤ u.tail ∧ fwdHi c u ≤ fwdHi c v ∧ ∀ a, a < u.wp → v.om.read a = u.om.read a

theorem progressed_of_same (h1 : v.wp = u.wp) (h2 : v.tail = u.tail) (h3 : fwdHi c u ≤ fwdHi c v) (h4 : v.om = u.om) :
    progressed c u v :=
  ⟨Nat.le_of_eq h1.symm, Nat.le_of_eq h2, h3, fun _ _ => by rw [h4]⟩

theorem progressed_refl (c : Config) (u : DecUnit) : progressed c u u :=
  progressed_of_same rfl rfl (Nat.le_refl _) rfl

theorem symbolEnds_progressed (h : symbolEnds c u v) : progressed c u v := by
  rcases h with ⟨x, hx, hv⟩ | ⟨d, p, rfl⟩
  · have hle := symbolRead_fwdHi_le hx
    rw [hv]
    refine progressed_of_same ?_ ?_ hle ?_ <;> rw [symbolRead_cursorsOnly hx]
  · exact progressed_of_same rfl rfl (Nat.le_refl _) rfl

theorem literalBody_progressed (h : literalBody c u = .ok v) : progressed c u v := by
  have hom := (literalBody_frame h).2
  unfold literalBody at h
  split at h
  · cases h
  · obtain ⟨x, hx, rfl⟩ := Res.map_eq_ok.mp h
    refine ⟨?_, ?_, ?_, fun a ha => hom a (.inl ha)⟩ <;> rw [(copyLiterals_ok hx).1]
    · exact Nat.le_add_right _ _
    · exact Nat.sub_le _ _
    · exact Nat.le_refl _

theorem matchBody_progressed (h : matchBody c u = .ok v) : progressed c u v := by
  have hom := (matchBody_frame h).2
  unfold matchBody at h
  split at h
  · cases h
  split at h
  · cases h
  split at h
  · cases h
  · rename_i hd hw _
    obtain ⟨x, hx, rfl⟩ := Res.map_eq_ok.mp h
    refine ⟨?_, ?_, ?_, fun a ha => hom a (.inl ha)⟩ <;>
      rw [(copyMatch_ok hx (Nat.pos_of_ne_zero hd) (Nat.le_of_not_lt hw)).1]
    · exact Nat.le_add_right _ _
    · exact Nat.le_refl _
    · exact Nat.le_refl _

theorem endchk_progressed (c : Config) (u : DecUnit) :
    progressed c u (if u.wp = u.dstLen.toNat then u.finish else u.goto .midx) := by
  split
  · refine progressed_of_same (DecUnit.finish_wp u) (DecUnit.finish_tail u) ?_ (DecUnit.finish_om u)
    rw [blockFrame_finish u]
    exact Nat.le_refl _
  · exact progressed_of_same rfl rfl (Nat.le_refl _) rfl

theorem unitStep_progressed {p : Phase} {own : Config → DecUnit → Res DecUnit} (hu : s.unit? = some u)
    (h : unitStep s p own = .next t) (hown : ∀ {v}, own s.cfg u = .ok v → progressed s.cfg u v) :
    ∃ v, t = s.setUnit v ∧ progressed s.cfg u v := by
  obtain ⟨y, v, hy, -, -, rfl, hr | ⟨d, p, -, rfl⟩⟩ := unitStep_cases h <;> obtain rfl := Option.some.inj (hu ▸ hy)
  · exact ⟨v, rfl, hown hr⟩
  · exact ⟨_, rfl, progressed_of_same rfl rfl (Nat.le_refl _) rfl⟩

/-- A row of another phase is refused (R70). -/
theorem phaseStep_ne_next {p : Phase} {body : State → DecUnit → Res State} (hu : s.unit? = some u)
    (hp : u.phase ≠ p) : phaseStep s p body ≠ .next t := by
  rw [phaseStep_elsewhere hu fun h => hp h.2]
  exact nofun

/-- A row that reads no symbol, run for a unit in a DECODE phase. -/
theorem exec_blockRow_progressed (hi : isBlockRow i) (hu : s.unit? = some u) (hd : decoding u.phase = true)
    (h : exec i s = .next t) : ∃ v, t = s.setUnit v ∧ progressed s.cfg u v := by
  have away : ∀ p, decoding p = false → u.phase ≠ p := by
    rintro p hp rfl
    rw [hp] at hd
    cases hd
  cases i
  case litcopy => exact unitStep_progressed hu h literalBody_progressed
  case mcopy => exact unitStep_progressed hu h matchBody_progressed
  case endchk =>
    rw [exec_endchk] at h
    refine unitStep_progressed hu h fun hv => ?_
    cases hv
    exact endchk_progressed s.cfg u
  case rawcopy =>
    rw [exec_rawcopy, unitStep] at h
    exact absurd h (phaseStep_ne_next hu (away .rawcopy rfl))
  case imgclear =>
    rw [exec_imgclear] at h
    exact absurd h (phaseStep_ne_next hu (away .imgclear rfl))
  case foldStep =>
    rw [exec_foldStep] at h
    exact absurd h (phaseStep_ne_next hu (away .fold rfl))
  case decode | copyRaw | imgClear | fold | illegal0 | illegal5 | illegal67 | illegal8F => exact absurd trivial hi.2
  all_goals exact absurd trivial hi.1

end

/-- Settles O48, by kind of row: a BUSY unit ignores a command, a symbol row moves only forward cursors, and the copies
write from WP up. -/
theorem jobProgressIsMonotone : Obligations.JobProgressIsMonotone := by
  intro i s t u v h hu hv hb hd
  show progressed s.cfg u v
  have moved : ∀ {w}, t = s.setUnit w → progressed s.cfg u w → progressed s.cfg u v := by
    rintro w rfl hw
    rwa [Option.some.inj (hv.symm.trans (State.setUnit_unit? s u w hu))]
  by_cases hc : isCommand i
  · rw [busyIgnoresCommands i s u hu hb hc] at h
    cases h
    rw [Option.some.inj (hv.symm.trans hu)]
    exact progressed_refl s.cfg u
  by_cases hi : isSymbolRow i
  · obtain ⟨w, ht, hw⟩ := exec_symbolRow hi hu h
    exact moved ht (symbolEnds_progressed hw)
  · obtain ⟨w, ht, hw⟩ := exec_blockRow_progressed ⟨hi, hc⟩ hu hd h
    exact moved ht hw

end Sys2Proof.Machine
end

section
/-! PROOFS. The memories: PM, OM and IM stay canonical and inside their spaces after every step (R37, R142). -/

namespace Sys2Proof.Machine

section
variable {c : Config} {s t : State} {u v : DecUnit}

/-- The canonical form and the bounds carry over where PM is the same and OM keeps its own. -/
theorem memoriesOk_of_omKept (hpm : v.pm = u.pm) (hwf : u.om.wf → v.om.wf)
    (hin : u.om.within c.omSize → v.om.within c.omSize) (hu : memoriesOk c u) : memoriesOk c v := by
  obtain ⟨hp, how, hoi⟩ := hu
  exact ⟨hpm ▸ hp, hwf how, hin hoi⟩

theorem memoriesOk_of_same (hpm : v.pm = u.pm) (hom : v.om = u.om) (hu : memoriesOk c u) : memoriesOk c v := by
  unfold memoriesOk
  rwa [hpm, hom]

/-- Only the copies write OM, and only bytes inside it (R37, R39). -/
theorem unitMoved_memoriesOk (hu : memoriesOk c u) (h : unitMoved c u v) : memoriesOk c v := by
  rcases h with h | ⟨-, -, x, hx, rfl⟩ | ⟨-, -, rfl⟩ | ⟨-, -, rfl⟩ | ⟨-, hd, hw, -, x, hx, rfl⟩ | ⟨-, x, hx, rfl⟩
  · obtain ⟨x, ⟨hx, -⟩, hv⟩ := symbolMoved_workFrame h
    exact memoriesOk_of_same (by rw [hv, hx]) (by rw [hv, hx]) hu
  · obtain ⟨hv, -, -, -, -, -, hwf, hin⟩ := copyLiterals_ok hx
    exact memoriesOk_of_omKept (by rw [hv]; rfl) hwf hin hu
  · exact memoriesOk_of_same (DecUnit.finish_pm u) (DecUnit.finish_om u) hu
  · exact hu
  · obtain ⟨hv, -, -, -, -, hwf, hin⟩ := copyMatch_ok hx hd hw
    exact memoriesOk_of_omKept (by rw [hv]; rfl) hwf hin hu
  · obtain ⟨hv, -, -, -, hwf, hin⟩ := copyRawFrom_ok hx
    refine memoriesOk_of_same (DecUnit.finish_pm _) (DecUnit.finish_om _) ?_
    exact memoriesOk_of_omKept (by rw [hv]; rfl) hwf hin hu

/-- A command writes no memory (R88, R89, R124, R126, R135). -/
theorem unitStarted_memoriesOk (hu : memoriesOk s.cfg u) (h : unitStarted s u v) : memoriesOk s.cfg v := by
  rcases unitStarted_frame h with hv | ⟨a, b, hv⟩ <;> exact memoriesOk_of_same (by rw [hv]) (by rw [hv]) hu

theorem unitStepped_memoriesOk (hu : memoriesOk s.cfg u) (h : unitStepped s u v) : memoriesOk s.cfg v := by
  rcases h with ⟨off, w, rfl⟩ | ⟨-, a, bytes, hl, rfl⟩ | ⟨-, h⟩ | ⟨-, h⟩ | ⟨-, -, rfl⟩ | ⟨-, -, d, p, -, rfl⟩
  · obtain ⟨_, _, _, _, _, _, hw⟩ := writeReg_keeps u off w
    rw [hw]
    exact hu
  · obtain ⟨⟨hwf, hin⟩, hom⟩ := hu
    exact ⟨⟨writeBytes_wf bytes hwf a, writeBytes_within bytes hin a hl⟩, hom⟩
  · exact unitStarted_memoriesOk hu h
  · exact unitMoved_memoriesOk hu h
  · exact memoriesOk_of_same (DecUnit.finish_pm u) (DecUnit.finish_om u) hu
  · exact hu

/-- The steps that write IM keep its canonical form and write inside it (R37, R125, R127). -/
theorem imageStepped_imOk (h : imageStepped s t) (hs : s.im.wf ∧ s.im.within s.cfg.imSize) :
    t.im.wf ∧ t.im.within s.cfg.imSize := by
  obtain ⟨hwf, hin⟩ := hs
  rcases h with ⟨him, -⟩ | ⟨him, -⟩ | ⟨u, -, -, -, hm, -⟩ | ⟨u, -, -, -, hm, -⟩
  · rw [him]
    exact ⟨hwf, hin⟩
  · rw [him]
    exact ⟨.nil, nofun⟩
  · obtain ⟨-, -, -, hw, hi⟩ := clearFrom_ok hm
    exact ⟨hw hwf, hi hin⟩
  · obtain ⟨-, -, -, hw, hi⟩ := foldFrom_ok hm
    exact ⟨hw hwf, hi hin⟩

end

/-- Settles O49: the number of units by the cases of a step, IM by what a step makes of the image, PM and OM unit by
unit. -/
theorem memoriesStayCanonical : Obligations.MemoriesStayCanonical := by
  rintro s t hn ⟨him, hmem⟩ h
  obtain ⟨hcfg, -⟩ := step_unit_cases h
  refine ⟨?_, ?_, step_units_invariant reset_memoriesOk (fun _ _ _ => unitStepped_memoriesOk) hmem h⟩
  · unfold unitCountOk at *
    rw [hcfg]
    exact (step_unit_count h).elim (·.trans hn) id
  · rw [hcfg]
    exact imageStepped_imOk (step_image_cases h) him

end Sys2Proof.Machine
end

section
/-! PROOFS. The refill of a forward cursor from PM: the word it takes, by its byte order, and where it stops (R8, R41 to
R43, R74, R75). -/

namespace Sys2Proof.Machine

section
variable {c : Config} {u : DecUnit} {k : CursorId}

/-! ### The forward index -/

theorem forwardAt_eq (c : Config) (u : DecUnit) (k : CursorId) : forwardAt c u k = forwardPos c u k := by
  unfold forwardAt forwardPos
  cases c.fwdMode <;> cases k <;> rfl

theorem forwardMoved_eq (c : Config) (u : DecUnit) (k : CursorId) (n : Nat) :
    forwardMoved c u k n = setForward c u k n := by
  unfold forwardMoved setForward
  cases c.fwdMode <;> cases k <;> rfl

/-! ### Byte orders (R8) -/

theorem be16_toNat (b0 b1 : Byte) : (be16 b0 b1).toNat = 256 * b0.toNat + b1.toNat := by
  rw [be16, toNat_append_add]
  omega

theorem be32_toNat (b0 b1 b2 b3 : Byte) :
    (be32 b0 b1 b2 b3).toNat = b3.toNat + 2 ^ 8 * b2.toNat + 2 ^ 16 * b1.toNat + 2 ^ 24 * b0.toNat := by
  simp only [be32, toNat_append_add]
  omega

theorem le32_toNat (b0 b1 b2 b3 : Byte) :
    (le32 b0 b1 b2 b3).toNat = b0.toNat + 2 ^ 8 * b1.toNat + 2 ^ 16 * b2.toNat + 2 ^ 24 * b3.toNat :=
  be32_toNat b3 b2 b1 b0

/-! ### The bytes of the word (R41) -/

/-- A read of PM inside it: the byte where one is written, a stop where none is (R37, R41). -/
theorem pmRead_written {i : Nat} {b : Byte} (hi : i < c.pmSize) (hr : u.pm.read i = some b) : pmRead c u i = .ok b :=
  readByte_eq_ok.mpr ⟨hi, hr⟩

@[inherit_doc pmRead_written] theorem pmRead_unwritten {i : Nat} (hi : i < c.pmSize) (hr : u.pm.read i = none) :
    pmRead c u i = .stop (.unwritten .pm i) :=
  readByte_eq_stop.mpr (.inl ⟨hi, hr, rfl⟩)

theorem pmRead_of_ne_none {i : Nat} (hi : i < c.pmSize) (hr : u.pm.read i ≠ none) : ∃ b, pmRead c u i = .ok b := by
  obtain ⟨b, hb⟩ := Option.ne_none_iff_exists'.mp hr
  exact ⟨b, pmRead_written hi hb⟩

/-- Where the word lies below TAIL, the refill of an MSB cursor stops on its first unwritten byte (R41, R75). -/
theorem take16_unwritten {j : Nat} (hj : j < 2) (ht : forwardPos c u k + 2 ≤ u.tail) (hp : u.tail ≤ c.pmSize)
    (hbelow : ∀ i, i < j → u.pm.read (forwardPos c u k + i) ≠ none)
    (hr : u.pm.read (forwardPos c u k + j) = none) :
    take16 c u k = .stop (.unwritten .pm (forwardPos c u k + j)) := by
  have read : ∀ i, i < j → ∃ b, pmRead c u (forwardPos c u k + i) = .ok b := fun i hi =>
    pmRead_of_ne_none (by omega) (hbelow i hi)
  have stop := pmRead_unwritten (c := c) (u := u) (i := forwardPos c u k + j) (by omega) hr
  simp only [take16, forwardTake_eq_ok.mpr ⟨ht, rfl⟩, Res.bind_ok, Res.bind_eq_stop]
  match j, hj with
  | 0, _ => exact .inl stop
  | 1, _ =>
    obtain ⟨b0, h0⟩ := read 0 (by omega)
    exact .inr ⟨b0, h0, .inl stop⟩

/-- Where the word lies below TAIL, the refill of C4 stops on its first unwritten byte (R41, R75). -/
theorem take32_unwritten {j : Nat} (hj : j < 4) (ht : forwardPos c u .c4 + 4 ≤ u.tail) (hp : u.tail ≤ c.pmSize)
    (hbelow : ∀ i, i < j → u.pm.read (forwardPos c u .c4 + i) ≠ none)
    (hr : u.pm.read (forwardPos c u .c4 + j) = none) :
    take32 c u = .stop (.unwritten .pm (forwardPos c u .c4 + j)) := by
  have read : ∀ i, i < j → ∃ b, pmRead c u (forwardPos c u .c4 + i) = .ok b := fun i hi =>
    pmRead_of_ne_none (by omega) (hbelow i hi)
  have stop := pmRead_unwritten (c := c) (u := u) (i := forwardPos c u .c4 + j) (by omega) hr
  simp only [take32, forwardTake_eq_ok.mpr ⟨ht, rfl⟩, Res.bind_ok, Res.bind_eq_stop]
  match j, hj with
  | 0, _ => exact .inl stop
  | 1, _ =>
    obtain ⟨b0, h0⟩ := read 0 (by omega)
    exact .inr ⟨b0, h0, .inl stop⟩
  | 2, _ =>
    obtain ⟨b0, h0⟩ := read 0 (by omega)
    obtain ⟨b1, h1⟩ := read 1 (by omega)
    exact .inr ⟨b0, h0, .inr ⟨b1, h1, .inl stop⟩⟩
  | 3, _ =>
    obtain ⟨b0, h0⟩ := read 0 (by omega)
    obtain ⟨b1, h1⟩ := read 1 (by omega)
    obtain ⟨b2, h2⟩ := read 2 (by omega)
    exact .inr ⟨b0, h0, .inr ⟨b1, h1, .inr ⟨b2, h2, .inl stop⟩⟩⟩

end

/-- Settles O6: each clause is the outcome of the refill in its case, the word by its byte order. -/
theorem refillTakesNextBytes : Obligations.RefillTakesNextBytes := by
  intro c u k
  simp only [forwardAt_eq, forwardMoved_eq]
  refine ⟨fun h => take16_eq_raise.mpr ⟨h, rfl, rfl⟩, fun h => take32_eq_raise.mpr ⟨h, rfl, rfl⟩,
    fun b0 b1 ht hp h0 h1 => ?_, fun b0 b1 b2 b3 ht hp h0 h1 h2 h3 => ?_, fun j => take16_unwritten,
    fun j => take32_unwritten⟩
  · exact ⟨be16 b0 b1, take16_eq_ok.mpr ⟨ht, rfl, b0, b1, pmRead_written (by omega) h0, pmRead_written (by omega) h1,
      rfl⟩, be16_toNat b0 b1⟩
  · refine ⟨word32 c b0 b1 b2 b3, take32_eq_ok.mpr ⟨ht, rfl, b0, b1, b2, b3, pmRead_written (by omega) h0,
      pmRead_written (by omega) h1, pmRead_written (by omega) h2, pmRead_written (by omega) h3, rfl⟩,
      fun hm => ?_, fun hm => ?_⟩
    · rw [word32, hm]
      exact le32_toNat b0 b1 b2 b3
    · rw [word32, hm]
      exact be32_toNat b0 b1 b2 b3

end Sys2Proof.Machine
end

section
/-! PROOFS. What a unit's turn reads (R37, R39 to R41): a job in its ranges reads the output that it has written and the
image that IMG_W and IMG_H describe, so only a PM byte that the host has not written can stop it. -/

namespace Sys2Proof.Machine

section
variable {c : Config} {t : State} {u : DecUnit} {f : Fault}

/-- The fault is an unwritten PM byte below SRC_LEN (R41). -/
def stopsInSource (u : DecUnit) (f : Fault) : Prop :=
  ∃ i, f = .unwritten .pm i ∧ i < u.srcLen.toNat ∧ u.pm.read i = none

/-! ### The phases of a DECODE job -/

theorem stopsInSource_of_tail (hj : decodeJobOk c u)
    (h : u.tail ≤ c.pmSize → ∃ i, f = .unwritten .pm i ∧ i < u.tail ∧ u.pm.read i = none) : stopsInSource u f := by
  obtain ⟨-, -, -, htail, hsrc, -⟩ := hj
  obtain ⟨i, hf, hi, hr⟩ := h (by omega)
  exact ⟨i, hf, by omega, hr⟩

theorem literalBody_stop (hj : decodeJobOk c u) (h : literalBody c u = .stop f) : stopsInSource u f := by
  refine stopsInSource_of_tail hj fun ht => ?_
  obtain ⟨-, -, -, -, -, -, ho, -⟩ := hj
  unfold literalBody at h
  split at h
  · cases h
  · exact copyLiterals_stop (Res.map_eq_stop.mp h) ht (by omega)

/-- The match copy reads below WP only, where the output is written (R39). -/
theorem matchBody_ne_stop (hj : decodeJobOk c u) : matchBody c u ≠ .stop f := by
  obtain ⟨-, -, -, -, -, -, ho, hom⟩ := hj
  intro h
  unfold matchBody at h
  split at h
  · cases h
  split at h
  · cases h
  split at h
  · cases h
  · rename_i hd hw hl
    obtain ⟨v, hv⟩ := copyMatch_run (c := c) (n := u.mlen) (Nat.pos_of_ne_zero hd) (Nat.le_of_not_lt hw) hom (by omega)
    rw [hv] at h
    cases h

/-! ### The fold -/

/-- The plane bit of a pixel stands in the rows that the output holds (R44, R126). -/
theorem planeIndex_lt {w h k : Nat} (hw : w ≤ stride c w) (hk : k < w * h) : planeIndex c w k < h * stride c w := by
  have hpos : 0 < w := Nat.pos_of_mul_pos_right (Nat.zero_lt_of_lt hk)
  have hrow : k / w < h := Nat.div_lt_of_lt_mul hk
  have hcol : k % w < stride c w := Nat.lt_of_lt_of_le (Nat.mod_lt k hpos) hw
  calc planeIndex c w k < k / w * stride c w + stride c w := Nat.add_lt_add_left hcol _
    _ = (k / w + 1) * stride c w := (Nat.succ_mul _ _).symm
    _ ≤ h * stride c w := Nat.mul_le_mul_right _ hrow

/-- A fold whose checks hold finds every pixel in IM and every plane bit in OM (R39, R40, R126). -/
theorem fold_runs (hv : paramsValid t.cfg = true) (ho : outputOk t.cfg u) (hi : imageOk t) (hom : u.omValid = true)
    (hf : foldReady t u) : ∃ m,
      foldFrom (t.imgW.toNat * t.imgH.toNat) 0 t.cfg t.imgW.toNat u.plane.toNat u.om t.im = .ok m := by
  obtain ⟨hlen, hwritten⟩ := ho hom
  obtain ⟨hsize, himage⟩ := hi
  obtain ⟨-, -, hrows⟩ := hf
  refine foldFrom_run (by omega) (fun j _ hj => himage j (by omega)) fun j _ hj => ?_
  have hlt := planeIndex_lt (stride_le hv t.imgW.toNat) (show j < t.imgW.toNat * t.imgH.toNat by omega)
  obtain ⟨b, hb⟩ := Option.ne_none_iff_exists'.mp (hwritten (planeIndex t.cfg t.imgW.toNat j / 8) (by omega))
  exact ⟨_, planeBit_eq_ok.mpr ⟨b, by omega, hb, rfl⟩⟩

/-! ### A unit's turn -/

/-- Where a phase step stops, phase by phase (R39 to R41). -/
theorem phaseBody_stop (hv : paramsValid t.cfg = true) (hb : u.state = .busy) (hp : u.phase ≠ .none)
    (hj : jobOk t.cfg u) (ho : outputOk t.cfg u) (hi : imageOk t) (hf : u.phase = .fold → foldReady t u)
    (h : phaseBody t u = .stop f) : stopsInSource u f := by
  obtain ⟨hdec, hraw, hclear, hfold, -⟩ := hj hb
  unfold phaseBody at h
  cases hph : u.phase <;> rw [hph] at h hdec
  case none => exact absurd hph hp
  case endchk => cases h
  case ctrl | litsel => exact stopsInSource_of_tail (hdec rfl) (read1_stop (Res.map_eq_stop.mp h))
  case litcode | mlen2 => exact stopsInSource_of_tail (hdec rfl) (read2_stop (Res.map_eq_stop.mp h))
  case midx | mlenn => exact stopsInSource_of_tail (hdec rfl) (read4_stop (Res.map_eq_stop.mp h))
  case mdist => exact stopsInSource_of_tail (hdec rfl) (readX_stop (Res.map_eq_stop.mp h))
  case litcopy => exact literalBody_stop (hdec rfl) (Res.map_eq_stop.mp h)
  case mcopy => exact absurd (Res.map_eq_stop.mp h) (matchBody_ne_stop (hdec rfl))
  case rawcopy =>
    obtain ⟨-, -, he, hsrc, hdst⟩ := hraw hph
    obtain ⟨i, hf, hlt, hr⟩ := copyRawFrom_stop (Res.map_eq_stop.mp (Res.map_eq_stop.mp h)) (by rw [← he]; omega)
      (by omega)
    exact ⟨i, hf, by rw [he]; omega, hr⟩
  case imgclear =>
    obtain ⟨-, hsize, -⟩ := hclear hph
    exact absurd (Res.map_eq_stop.mp h) (clearFrom_ne_stop (by omega))
  case fold =>
    obtain ⟨m, hm⟩ := fold_runs hv ho hi (hfold hph).2 (hf hph)
    rw [hm] at h
    cases h

/-- A completed phase step leaves the records of R41 alone. -/
theorem phaseBody_stopped {r : State} (h : phaseBody t u = .ok r) : r.stopped = t.stopped := by
  rcases phaseBody_ok h with ⟨v, -, rfl⟩ | ⟨-, m, -, rfl⟩ | ⟨-, m, -, rfl⟩ <;> rfl

/-- The width that an index leaves in MBL is one that MDIST has a row for (R85, R98). -/
theorem vlcLookup_width : ∀ i : BitVec 4, 4 ≤ (vlcLookup i).1.toNat ∧ (vlcLookup i).1.toNat ≤ 14 := by decide

theorem mbl_of_jobOk (hj : jobOk c u) (hb : u.state = .busy) (hp : u.phase = .mdist) :
    4 ≤ u.mbl.toNat ∧ u.mbl.toNat ≤ 14 := by
  obtain ⟨-, -, -, -, hmdist, -⟩ := hj hb
  rw [show u.mbl = (vlcLookup u.midx).1 from congrArg Prod.fst (hmdist hp)]
  exact vlcLookup_width u.midx

end

/-- Settles O57: the turn is the phase's step, which completes, raises, or stops on a PM byte. -/
theorem blockReadsOnlyWrittenOutput : Obligations.BlockReadsOnlyWrittenOutput := by
  intro s t k u ht hu hb hstat hj ho hi hf
  obtain ⟨-, hcfg, -, rfl, -⟩ := unitTurn_units ht
  obtain ⟨-, -, hphase, -⟩ := hstat
  have hv : paramsValid t.cfg = true := hcfg ▸ ht.1
  rw [step_unitTurn ht, unitFetch_run hu hb (mbl_of_jobOk hj hb)]
  cases hr : phaseBody t u with
  | ok r => exact ⟨r, rfl, .inl (phaseBody_stopped hr)⟩
  | raise d p => exact ⟨_, rfl, .inl rfl⟩
  | refuse e => exact absurd hr phaseBody_ne_refuse
  | stop f =>
    obtain ⟨i, rfl, hlt, hnone⟩ := phaseBody_stop hv hb (hphase hb) hj ho hi hf hr
    exact ⟨_, rfl, .inr ⟨i, hlt, hnone, rfl⟩⟩

end Sys2Proof.Machine
end

section
/-! PROOFS. The host's accesses to the register window, PM, OM and IM (R52, R138, R159). -/

namespace Sys2Proof.Machine

/-! ### The register window and PM -/

/-- Settles O41. -/
theorem badAccessesRefused : Obligations.BadAccessesRefused := by
  intro s t k off width v hbad ht
  have refused : ∀ f, withWindow t k off width f = .out (.refused (.badRegisterAccess off width)) := by
    intro f
    exact if_neg (by simpa [goodAccess] using hbad)
  rcases ht with ht | ht
  · rw [step_hostTurn ht, hostAct, refused, runFetched_out]
  · rw [step_hostTurn ht, hostAct, refused, runFetched_out]

theorem withUnit_run {s : State} {k : Nat} {d : DecUnit} {f : DecUnit → Fetched} (hd : s.units[k]? = some d) :
    withUnit s k f = f d := by
  simp [withUnit, hd]

/-- Settles O42. -/
theorem hostPmWrites : Obligations.HostPmWrites := by
  intro s t k a bytes d ht hd hl
  have hin : ¬(bytes ≠ [] ∧ t.cfg.pmSize < a + bytes.length) := by omega
  have hs : step s = runFetched (if d.state = .busy then .out (.next t)
      else .out (.next (t.putUnit k (d.setPm (writeBytes d.pm a bytes))))) := by
    rw [step_hostTurn ht, hostAct, hostPmWrite, withUnit_run hd, if_neg hin]
  refine ⟨fun hb => ?_, fun hb => ⟨writeBytes d.pm a bytes, ?_, read_writeBytes bytes d.pm a⟩⟩
  · rw [hs, if_pos hb, runFetched_out]
  · rw [hs, if_neg hb, runFetched_out]
    rfl

/-! ### OM and IM -/

/-- A valid byte that is written is read, and the machine stays as it is (R52). -/
theorem hostByte_valid {m : Memory} {i : Nat} {b : Byte} (s : State) (h : m.read i = some b) :
    hostByte true m i s = (b, s) := by
  simp [hostByte, h]

/-- Where R52 makes no byte valid, or none is written, the read is a draw (log entries 6, 22). -/
theorem hostByte_draw {valid : Bool} {m : Memory} {i : Nat} (s : State) (h : valid = false ∨ m.read i = none) :
    hostByte valid m i s = s.draw := by
  unfold hostByte
  split
  · simp_all
  · rfl

theorem omReadable_iff {d : DecUnit} {i : Nat} :
    omReadable d i = true ↔ d.omValid = true ∧ d.state ≠ .busy ∧ i < d.omLen.toNat := by
  simp [omReadable, and_assoc]

theorem omReadable_eq_false {d : DecUnit} {i : Nat} :
    omReadable d i = false ↔ d.omValid = false ∨ d.state = .busy ∨ d.omLen.toNat ≤ i := by
  rw [← Bool.not_eq_true, omReadable_iff]
  simp only [not_and_or, Bool.not_eq_true, ne_eq, Decidable.not_not, Nat.not_lt]

theorem imReadable_iff {s : State} {i : Nat} :
    imReadable s i = true ↔ s.imValid = true
      ∧ (∀ u ∈ s.units, u.state = .busy → u.phase ≠ .imgclear ∧ u.phase ≠ .fold) ∧ i < s.imgW.toNat * s.imgH.toNat := by
  simp [imReadable, and_assoc, imp_iff_not_or]

theorem imReadable_eq_false {s : State} {i : Nat} :
    imReadable s i = false ↔ s.imValid = false
      ∨ (∃ u ∈ s.units, u.state = .busy ∧ (u.phase = .imgclear ∨ u.phase = .fold))
      ∨ s.imgW.toNat * s.imgH.toNat ≤ i := by
  rw [← Bool.not_eq_true, imReadable_iff]
  simp only [not_and_or, Bool.not_eq_true, not_forall, ne_eq, Decidable.not_not, Nat.not_lt, exists_prop]

/-- Settles O43: the validity of R52 decides between the byte and a draw. -/
theorem hostMemoryAccesses : Obligations.HostMemoryAccesses := by
  simp only [Obligations.HostMemoryAccesses, BitVec.ofNat_toNat]
  refine ⟨fun s t k i d ht hd => ?_, fun s t i ht => ?_, fun s t k i b d ht hd => ?_, fun s t i b ht => ?_⟩
  · have hs : step s = runFetched (hostAct (.omRead k i) t) := step_hostTurn ht
    rw [hostAct, withUnit_run hd] at hs
    refine ⟨fun b hv hb hi hr => ?_, fun hn => ?_⟩
    · rw [hs, omReadable_iff.mpr ⟨hv, hb, hi⟩, hostByte_valid t hr]
      rfl
    · rw [hs, omReadable_eq_false.mpr hn, hostByte_draw t (.inl rfl)]
      rfl
  · have hs : step s = runFetched (hostAct (.imRead i) t) := step_hostTurn ht
    rw [hostAct] at hs
    refine ⟨fun b hv hb hi hr => ?_, fun hn => ?_⟩
    · rw [hs, imReadable_iff.mpr ⟨hv, hb, hi⟩, hostByte_valid t hr]
      rfl
    · rw [hs, imReadable_eq_false.mpr hn, hostByte_draw t (.inl rfl)]
      rfl
  · rw [step_hostTurn ht, hostAct, withUnit_run hd, runFetched_out]
  · rw [step_hostTurn ht, hostAct, runFetched_out]

end Sys2Proof.Machine
end

section
/-! PROOFS. The container walker on the host's turn (R45, R110 to R123): what it reads in the file, the opening of both
whole-file procedures, the plane loop, the parallel batches and what the host returns. -/

namespace Sys2Proof.Machine

/-! ### Reading the file (R45, R111) -/

section
variable {f : List Byte} {i n : Nat} {b0 b1 b2 b3 : Byte}

/-- A byte of a slice is the file's byte there. -/
theorem fileByte_of_slice {l : List Byte} {j : Nat} {b : Byte} (h : (f.drop i).take n = l) (hj : l[j]? = some b) :
    fileByte f (i + j) = b := by
  rw [← h, List.getElem?_take] at hj
  split at hj
  · rw [List.getElem?_drop] at hj
    rw [fileByte, List.getD_eq_getElem?_getD, hj, Option.getD_some]
  · cases hj

theorem length_of_slice {l : List Byte} (h : (f.drop i).take n = l) (hl : 0 < l.length) : i + l.length ≤ f.length := by
  have := congrArg List.length h
  rw [List.length_take, List.length_drop] at this
  omega

theorem fileBE16_toNat (h0 : fileByte f i = b0) (h1 : fileByte f (i + 1) = b1) :
    (fileBE16 f i).toNat = 256 * b0.toNat + b1.toNat := by
  rw [fileBE16, h0, h1, be16_toNat]

theorem fileBE32_toNat (h : (f.drop i).take 4 = [b0, b1, b2, b3]) :
    (fileBE32 f i).toNat = 2 ^ 24 * b0.toNat + 2 ^ 16 * b1.toNat + 2 ^ 8 * b2.toNat + b3.toNat := by
  have h0 : fileByte f i = b0 := fileByte_of_slice (j := 0) h rfl
  have h1 : fileByte f (i + 1) = b1 := fileByte_of_slice h rfl
  have h2 : fileByte f (i + 2) = b2 := fileByte_of_slice h rfl
  have h3 : fileByte f (i + 3) = b3 := fileByte_of_slice h rfl
  rw [fileBE32, h0, h1, h2, h3, be32_toNat]
  omega

/-- W and H of the header (R114). -/
theorem fileWidth_toNat (h : (f.drop 8).take 4 = [b0, b1, b2, b3]) :
    (fileWidth f).toNat = 256 * b0.toNat + b1.toNat :=
  fileBE16_toNat (fileByte_of_slice (j := 0) h rfl) (fileByte_of_slice (j := 1) h rfl)

@[inherit_doc fileWidth_toNat] theorem fileHeight_toNat (h : (f.drop 8).take 4 = [b0, b1, b2, b3]) :
    (fileHeight f).toNat = 256 * b2.toNat + b3.toNat :=
  fileBE16_toNat (fileByte_of_slice (j := 2) h rfl) (fileByte_of_slice (j := 3) h rfl)

/-- NPAL (R113). -/
theorem paletteCount_eq (h : (f.drop 20).take 4 = [b0, b1, b2, b3]) :
    paletteCount f = (2 ^ 24 * b0.toNat + 2 ^ 16 * b1.toNat + 2 ^ 8 * b2.toNat + b3.toNat) / 3 := by
  rw [paletteCount, fileBE32_toNat h]

/-! ### The header and palette checks (R112, R113) -/

variable {c : Config}

theorem headerError_header (h : f.length < 16 ∨ f.take 4 ≠ tagBytes c.tagHdr) :
    headerError c f = some .missingHeader := if_pos h

theorem headerError_palette (h16 : 16 ≤ f.length) (hh : f.take 4 = tagBytes c.tagHdr)
    (h : f.length < 24 ∨ (f.drop 16).take 4 ≠ tagBytes c.tagPal) : headerError c f = some .missingPalette :=
  (if_neg (not_or.mpr ⟨Nat.not_lt.mpr h16, not_not_intro hh⟩)).trans (if_pos h)

/-- Where both tags stand, the palette's own length decides. -/
theorem headerError_tagged (h24 : 24 ≤ f.length) (hh : f.take 4 = tagBytes c.tagHdr)
    (hp : (f.drop 16).take 4 = tagBytes c.tagPal) :
    headerError c f = if f.length < 24 + 3 * paletteCount f then some .missingPalette else none :=
  (if_neg (not_or.mpr ⟨by omega, not_not_intro hh⟩)).trans
    (if_neg (not_or.mpr ⟨Nat.not_lt.mpr h24, not_not_intro hp⟩))

/-- IMG_CLEAR for the header's width, height and bitplane count (R114, R120). -/
theorem clearActs_eq {k : Nat} {b : Byte} (h : (f.drop 8).take 4 = [b0, b1, b2, b3]) (hb : f[15]? = some b) :
    clearActs k f = [.regWrite k 0x0C 32 (BitVec.ofNat 32 (256 * b0.toNat + b1.toNat)),
      .regWrite k 0x10 32 (BitVec.ofNat 32 (256 * b2.toNat + b3.toNat)),
      .regWrite k 0x14 32 (BitVec.ofNat 32 b.toNat), .regWrite k 0x00 32 3#32, .wait k, .stopIfFault k] := by
  have hbpc : fileBpc f = b := by rw [fileBpc, fileByte, List.getD_eq_getElem?_getD, hb, Option.getD_some]
  rw [← fileWidth_toNat h, ← fileHeight_toNat h, ← hbpc]
  simp only [BitVec.ofNat_toNat]
  rfl

end

/-! ### The opening of the whole-file procedures -/

section
variable {s t : State} {a next : HostAction} {k : Nat} {noted : List Failure}

/-- `t` with the failures noted replaced. -/
def withNoted (t : State) (noted : List Failure) : State := { t with host := { t.host with noted := noted } }

/-- The two whole-file procedures are one walk: on unit k, with what follows IMG_CLEAR (R120, R123). -/
theorem step_walk (ht : hostTurn s a t)
    (ha : (a = .walk k ∧ next = .findPlane k 0 0 ∧ noted = t.host.noted)
      ∨ (a = .walkParallel ∧ k = 0 ∧ next = .batch 0 0 ∧ noted = [])) :
    step s = .next (hostWalk (withNoted t noted) k [next]) := by
  rw [step_hostTurn ht]
  rcases ha with ⟨rfl, rfl, rfl⟩ | ⟨rfl, rfl, rfl, rfl⟩ <;> rfl

theorem hostWalk_error {e : ErrKind} {l : List HostAction} (h : headerError t.cfg t.host.file = some e) :
    hostWalk t k l = t.hostReturn (.err e .none) := by
  simp [hostWalk, h]

theorem hostWalk_clear {l : List HostAction} (h : headerError t.cfg t.host.file = none) :
    hostWalk t k l = t.pushActs (clearActs k t.host.file ++ l) := by
  simp [hostWalk, h]

end

/-- Settles O44: each clause is one outcome of the header and palette checks, or of the look at STATE after a job. -/
theorem walkStart : Obligations.WalkStart := by
  refine ⟨fun s t a next k noted f ht ha hf => ?_, fun s t k d ht hd => ?_⟩
  · subst hf
    have hs := step_walk ht ha
    refine ⟨fun h => ?_, fun h16 hh h => ?_, fun b w0 w1 h0 h1 l0 l1 l2 l3 n hh hp hw hb hn => ?_⟩
    · rw [hs, hostWalk_error (t := withNoted t noted) (headerError_header h)]
      rfl
    · rw [hs, hostWalk_error (t := withNoted t noted) (headerError_palette h16 hh h)]
      rfl
    · have h24 : 24 ≤ t.host.file.length := length_of_slice hp (Nat.zero_lt_succ _)
      have htag : (t.host.file.drop 16).take 4 = tagBytes t.cfg.tagPal := by
        have := congrArg (List.take 4) hp
        rwa [List.take_take] at this
      have hcount : (t.host.file.drop 20).take 4 = [l0, l1, l2, l3] := by
        have := congrArg (List.drop 4) hp
        rwa [List.drop_take, List.drop_drop] at this
      rw [← paletteCount_eq hcount] at hn
      subst hn
      have hchk := headerError_tagged h24 hh htag
      refine ⟨fun hlt => ?_, fun hle => ?_⟩
      · rw [hs, hostWalk_error (t := withNoted t noted) (hchk.trans (if_pos hlt))]
        rfl
      · rw [hs, hostWalk_clear (t := withNoted t noted) (hchk.trans (if_neg (Nat.not_lt.mpr hle)))]
        show Host.Outcome.next ((withNoted t noted).pushActs (clearActs k t.host.file ++ [next])) = _
        rw [clearActs_eq hw hb]
        rfl
  · have hs : step s = .next (if d.state = .fault then t.hostReturn (.err d.errKind d.errCause) else t) := by
      rw [step_hostTurn ht, hostAct, withUnit_run hd, runFetched_out]
    refine ⟨fun hf => ?_, fun hf => ?_⟩
    · rw [hs, if_pos hf]
      rfl
    · rw [hs, if_neg hf]

/-! ### A plane chunk (R117, R118) -/

section
variable {f : List Byte} {m : Nat}

/-- The job of a whole chunk. -/
def chunkJob (x : Chunk) : PlaneJob := ⟨x.op, x.payload, BitVec.ofNat 16 x.rawSize⟩

/-- The walker's reading of a chunk whose fields stand in the file. -/
theorem planeJob_of_fields {ty : Byte} {p r : Nat} (h : chunkFields f m ty p r) : planeJob f m =
    if f.length < m + 41 + p then .error .chunkPastEof
    else if ty = 0 then .ok ⟨2#32, (f.drop (m + 41)).take p, BitVec.ofNat 16 r⟩
    else if ty = 1 then .ok ⟨1#32, (f.drop (m + 41)).take p, BitVec.ofNat 16 r⟩
    else .error .unknownType := by
  obtain ⟨p0, p1, r0, r1, hs, hp, hr⟩ := h
  have hlen : m + 36 + 5 ≤ f.length := length_of_slice hs (Nat.zero_lt_succ _)
  have hty : fileByte f (m + 36) = ty := fileByte_of_slice (j := 0) hs rfl
  have hpay : (fileBE16 f (m + 37)).toNat = p :=
    (fileBE16_toNat (fileByte_of_slice (j := 1) hs rfl) (fileByte_of_slice (j := 2) hs rfl)).trans hp.symm
  have hraw : fileBE16 f (m + 39) = BitVec.ofNat 16 r := by
    rw [hr, ← fileBE16_toNat (fileByte_of_slice (j := 3) hs rfl) (fileByte_of_slice (j := 4) hs rfl),
      BitVec.ofNat_toNat, BitVec.setWidth_eq]
  rw [planeJob, if_neg (by omega)]
  simp only [hty, hpay, hraw, fileSlice]
  rfl

theorem planeJob_of_chunkAt {x : Chunk} (h : chunkAt f x) : planeJob f x.start = .ok (chunkJob x) := by
  obtain ⟨ty, p, hfields, hlen, hpay, hop⟩ := h
  rw [planeJob_of_fields hfields, if_neg (Nat.not_lt.mpr hlen), chunkJob, ← hpay]
  rcases hop with ⟨rfl, ho⟩ | ⟨rfl, ho⟩ <;> rw [ho] <;> rfl

theorem planeJob_of_chunkError {e : Cause} (h : chunkError f m e) : planeJob f m = .error e := by
  rcases h with ⟨rfl, h | ⟨ty, p, r, hfields, h⟩⟩ | ⟨rfl, ty, p, r, hfields, hlen, h0, h1⟩
  · exact if_pos h
  · rw [planeJob_of_fields hfields, if_pos h]
  · rw [planeJob_of_fields hfields, if_neg (Nat.not_lt.mpr hlen), if_neg h0, if_neg h1]

/-- HostJob for a chunk, up to its CMD write (R119). -/
def chunkStart (k : Nat) (x : Chunk) : List HostAction :=
  [.wait k, .pmWrite k 0 x.payload, .regWrite k 0x04 32 (BitVec.ofNat 32 x.payload.length),
    .regWrite k 0x08 32 (BitVec.ofNat 32 x.rawSize), .regWrite k 0x00 32 x.op]

/-- A raw size has 16 bits, so that it stands in DST_LEN as it is (R45, R119). -/
theorem startJobActs_chunk {x : Chunk} (h : chunkAt f x) (k : Nat) : startJobActs k (chunkJob x) = chunkStart k x := by
  obtain ⟨ty, p, ⟨p0, p1, r0, r1, -, -, hr⟩, -⟩ := h
  have h0 := r0.isLt
  have h1 := r1.isLt
  have hraw : (BitVec.ofNat 16 x.rawSize).setWidth 32 = BitVec.ofNat 32 x.rawSize := by
    rw [← BitVec.ofNat_toNat, BitVec.toNat_ofNat, Nat.mod_eq_of_lt (by omega)]
  rw [startJobActs, chunkStart, chunkJob, hraw]
  rfl

end

end Sys2Proof.Machine
end

section
/-! PROOFS. The plane loop of both whole-file procedures and what the host returns (R115 to R123). -/

namespace Sys2Proof.Machine

/-! ### The loop head (R120) -/

section
variable {s t : State} {k from_ j m : Nat}

theorem step_findPlane (ht : hostTurn s (.findPlane k from_ j) t) : step s = .next (hostFindPlane t k from_ j) := by
  rw [step_hostTurn ht, hostAct, runFetched_out]

theorem hostFindPlane_last (h : searchPlane t.cfg t.host.file from_ = none) :
    hostFindPlane t k from_ j = t.pushActs [.returnOk] := by
  simp only [hostFindPlane, h]

theorem hostFindPlane_bad {e : Cause} (h : searchPlane t.cfg t.host.file from_ = some m)
    (hj : planeJob t.host.file m = .error e) :
    hostFindPlane t k from_ j = t.hostReturn (.err .corruptStream e) := by
  simp only [hostFindPlane, h, hj]

theorem hostFindPlane_chunk {job : PlaneJob} (h : searchPlane t.cfg t.host.file from_ = some m)
    (hj : planeJob t.host.file m = .ok job) :
    hostFindPlane t k from_ j = t.pushActs (planeActs t.cfg k m j job) := by
  simp only [hostFindPlane, h, hj]

end

/-! ### The readout of the image (R52, R120) -/

section
variable {s : State} {i : Nat}

/-- What the host reads of IM at `i`: the byte that stands there where R52 makes it valid, and a draw otherwise. -/
def pixelRead (s : State) (i : Nat) (x : Byte) : Prop :=
  (∀ b, imReadable s i = true → s.im.read i = some b → x = b)
    ∧ (imReadable s i = false ∨ s.im.read i = none → ∃ d, x = Config.freeByte d)

theorem hostByte_pixelRead (s : State) (i : Nat) : ∃ d,
    (hostByte (imReadable s i) s.im i s).2 = { s with draws := d }
      ∧ pixelRead s i (hostByte (imReadable s i) s.im i s).1 := by
  by_cases h : imReadable s i = false ∨ s.im.read i = none
  · rw [hostByte_draw s h]
    refine ⟨s.draws + 1, rfl, fun b hv hr => ?_, fun _ => ⟨s.draws, rfl⟩⟩
    rcases h with h | h
    · rw [hv] at h
      cases h
    · rw [hr] at h
      cases h
  · obtain ⟨hv, hr⟩ := not_or.mp h
    obtain ⟨b, hb⟩ := Option.ne_none_iff_exists'.mp hr
    rw [Bool.not_eq_false] at hv
    rw [hv, hostByte_valid s hb]
    refine ⟨s.draws, rfl, fun b' _ hb' => Option.some.inj (hb.symm.trans hb'), fun h' => absurd (hv ▸ h') h⟩

/-- The readout holds one byte for each pixel, and only the draws advance (R120). -/
theorem hostImage_pixelRead {n : Nat} : ∀ (k : Nat) (s : State), ∃ d, (hostImage n k s).2 = { s with draws := d }
    ∧ (hostImage n k s).1.length = n
    ∧ ∀ i, i < n → ∃ x, (hostImage n k s).1[i]? = some x ∧ pixelRead s (k + i) x := by
  induction n with
  | zero => exact fun k s => ⟨s.draws, rfl, rfl, nofun⟩
  | succ n ih =>
    intro k s
    obtain ⟨d, hd, hx⟩ := hostByte_pixelRead s k
    obtain ⟨e, he, hlen, hrest⟩ := ih (k + 1) { s with draws := d }
    rw [← hd] at he hlen
    refine ⟨e, he.trans (by rw [hd]), congrArg (· + 1) hlen, fun i hi => ?_⟩
    cases i with
    | zero => exact ⟨_, rfl, hx⟩
    | succ i =>
      obtain ⟨x, hix, hpx⟩ := hrest i (by omega)
      rw [← hd] at hix
      rw [show k + 1 + i = k + (i + 1) by omega] at hpx
      exact ⟨x, hix, hpx⟩

end

/-! ### The palette (R115) -/

theorem length_paletteFrom {n : Nat} : ∀ (i : Nat) (f : List Byte), (paletteFrom n i f).length = n := by
  induction n with
  | zero => exact fun _ _ => rfl
  | succ n ih => exact fun i f => congrArg (· + 1) (ih (i + 3) f)

theorem getElem?_paletteFrom {n : Nat} : ∀ {i j : Nat} (f : List Byte), j < n → (paletteFrom n i f)[j]? =
    some (fileByte f (i + 3 * j), fileByte f (i + 3 * j + 1), fileByte f (i + 3 * j + 2)) := by
  induction n with
  | zero => exact fun _ h => absurd h (Nat.not_lt_zero _)
  | succ n ih =>
    intro i j f hj
    cases j with
    | zero => rfl
    | succ j =>
      rw [paletteFrom, List.getElem?_cons_succ, ih f (by omega), show i + 3 + 3 * j = i + 3 * (j + 1) by omega]

/-- The triple at 24 + 3 * i of the file is palette entry i. -/
theorem filePalette_getElem? {f : List Byte} {i : Nat} {r g b : Byte} (hi : i < paletteCount f)
    (h : (f.drop (24 + 3 * i)).take 3 = [r, g, b]) : (filePalette f)[i]? = some (r, g, b) := by
  have h0 : fileByte f (24 + 3 * i) = r := fileByte_of_slice (j := 0) h rfl
  rw [filePalette, getElem?_paletteFrom f hi, h0, fileByte_of_slice (j := 1) h rfl, fileByte_of_slice (j := 2) h rfl]

/-! ### The batches of the parallel procedure (R123) -/

section
variable {c : Config} {f : List Byte}

theorem chunkAt_of_mem {l : List Chunk} : ∀ {from_ rest : Nat}, chunksFrom c f from_ l rest → ∀ x ∈ l, chunkAt f x := by
  induction l with
  | nil => exact fun _ => nofun
  | cons x xs ih =>
    rintro from_ rest ⟨-, hx, hxs⟩ y hy
    rcases List.mem_cons.mp hy with rfl | hy
    · exact hx
    · exact ih hxs y hy

/-- Gathering finds the chunks one after the other, the first for unit `u` as plane `j`, and goes on behind them. -/
theorem gatherPlanes_chunks {l : List Chunk} {n : Nat} : ∀ {u j from_ rest : Nat}, chunksFrom c f from_ l rest →
    gatherPlanes (l.length + n) u from_ j c f =
      ((l.mapIdx fun i x => (u + i, j + i, chunkJob x))
          ++ (gatherPlanes n (u + l.length) rest (j + l.length) c f).1,
        (gatherPlanes n (u + l.length) rest (j + l.length) c f).2) := by
  induction l with
  | nil =>
    rintro u j from_ rest rfl
    simp
  | cons x xs ih =>
    rintro u j from_ rest ⟨hs, hx, hxs⟩
    rw [List.length_cons, show xs.length + 1 + n = xs.length + n + 1 by omega, gatherPlanes, hs]
    simp only [planeJob_of_chunkAt hx]
    rw [ih hxs]
    simp only [List.mapIdx_cons, List.cons_append, Nat.add_zero, Nat.add_assoc, Nat.add_comm 1]

/-- How gathering ends: at the batch's size, at the end of the file, or at a chunk in error (R116 to R118, R123). -/
theorem gatherPlanes_last {n u j from_ : Nat} (h : searchPlane c f from_ = none) :
    gatherPlanes (n + 1) u from_ j c f = ([], .last) := by
  simp only [gatherPlanes, h]

@[inherit_doc gatherPlanes_last] theorem gatherPlanes_bad {n u j from_ m : Nat} {e : Cause}
    (h : searchPlane c f from_ = some m) (he : chunkError f m e) :
    gatherPlanes (n + 1) u from_ j c f = ([], .bad j e) := by
  simp only [gatherPlanes, h, planeJob_of_chunkError he]

/-- A batch that gathers the chunks `l` and ends with `e`. -/
theorem batchActs_eq {l : List Chunk} {from_ j rest : Nat} {e : BatchEnd} (hl : chunksFrom c f from_ l rest)
    (hg : gatherPlanes c.nUnits 0 from_ j c f = (l.mapIdx fun i x => (0 + i, j + i, chunkJob x), e)) :
    batchActs from_ j c f =
      (l.mapIdx fun k x => chunkStart k x).flatten
        ++ (l.mapIdx fun k _ => [HostAction.wait k, .noteIfFault k (j + k)]).flatten
        ++ (l.mapIdx fun k _ => HostAction.foldPlane k (j + k))
        ++ (l.mapIdx fun k _ => [HostAction.wait k, .noteIfFault k (j + k)]).flatten ++ batchTail e := by
  have hstart : (l.mapIdx fun k x => startJobActs k (chunkJob x)) = l.mapIdx fun k x => chunkStart k x :=
    List.mapIdx_eq_mapIdx_iff.mpr fun k hk => startJobActs_chunk (chunkAt_of_mem hl _ (List.getElem_mem hk)) k
  simp only [batchActs, hg, ← hstart, List.mapIdx_eq_zipIdx_map, List.map_map, Nat.zero_add]
  rfl

theorem step_batch {s t : State} {from_ j : Nat} (ht : hostTurn s (.batch from_ j) t) :
    step s = .next (t.pushActs (batchActs from_ j t.cfg t.host.file)) := by
  rw [step_hostTurn ht, hostAct, runFetched_out]

/-- A batch takes one chunk a unit, fewer only where the file has no further one (R123). -/
theorem gatherPlanes_ends {l : List Chunk} {from_ j rest : Nat} {ends : List HostAction}
    (hl : chunksFrom c f from_ l rest)
    (he : (l.length = c.nUnits ∧ ends = [.stopIfNoted, .batch rest (j + l.length)])
      ∨ (l.length < c.nUnits ∧ searchPlane c f rest = none ∧ ends = [.stopIfNoted, .returnOk])
      ∨ (l.length < c.nUnits ∧ ∃ m e, searchPlane c f rest = some m ∧ chunkError f m e
          ∧ ends = [.noteFailure (j + l.length) e, .stopIfNoted])) :
    ∃ e, gatherPlanes c.nUnits 0 from_ j c f = (l.mapIdx fun i x => (0 + i, j + i, chunkJob x), e)
      ∧ batchTail e = ends := by
  have gather : ∀ {n : Nat} {e : BatchEnd}, c.nUnits = l.length + n →
      gatherPlanes n (0 + l.length) rest (j + l.length) c f = ([], e) →
      gatherPlanes c.nUnits 0 from_ j c f = (l.mapIdx fun i x => (0 + i, j + i, chunkJob x), e) := by
    intro n e hn hg
    rw [hn, gatherPlanes_chunks hl, hg, List.append_nil]
  rcases he with ⟨hn, rfl⟩ | ⟨hn, hs, rfl⟩ | ⟨hn, m, e, hs, hm, rfl⟩
  · exact ⟨_, gather (n := 0) hn.symm rfl, rfl⟩
  · obtain ⟨n, hn⟩ := Nat.exists_eq_add_of_lt hn
    exact ⟨_, gather hn (gatherPlanes_last hs), rfl⟩
  · obtain ⟨n, hn⟩ := Nat.exists_eq_add_of_lt hn
    exact ⟨_, gather hn (gatherPlanes_bad hs hm), rfl⟩

end

/-! ### The failures noted (R123) -/

section
variable {s : State} {x : Failure} {j : Nat}

theorem noted_any {l : List Failure} : (l.any fun y => y.plane == j) = true ↔ ∃ y ∈ l, y.plane = j := by
  simp

theorem noted_not_any {l : List Failure} : (l.any fun y => y.plane == j) ≠ true ↔ ∀ y ∈ l, y.plane ≠ j := by
  simp

theorem note_known (h : ∃ y ∈ s.host.noted, y.plane = x.plane) : s.note x = s :=
  if_pos (noted_any.mpr h)

theorem note_new (h : ∀ y ∈ s.host.noted, y.plane ≠ x.plane) :
    s.note x = { s with host := { s.host with noted := s.host.noted ++ [x] } } :=
  if_neg (noted_not_any.mpr h)

/-- Where failures are noted, the lowest-numbered plane among them is found. -/
theorem lowestFailure_of_ne_nil {l : List Failure} (h : l ≠ []) : ∃ y, lowestFailure l = some y ∧ y ∈ l
    ∧ ∀ z ∈ l, y.plane ≤ z.plane := by
  induction l with
  | nil => exact absurd rfl h
  | cons x rest ih =>
    by_cases hr : rest = []
    · subst hr
      exact ⟨x, rfl, List.mem_singleton_self x, fun z hz => by rw [List.mem_singleton.mp hz]⟩
    · obtain ⟨y, hy, hmem, hle⟩ := ih hr
      rw [lowestFailure, hy]
      by_cases hxy : x.plane ≤ y.plane
      · exact ⟨x, if_pos hxy, List.mem_cons_self,
          List.forall_mem_cons.mpr ⟨Nat.le_refl _, fun z hz => Nat.le_trans hxy (hle z hz)⟩⟩
      · exact ⟨y, if_neg hxy, List.mem_cons_of_mem _ hmem,
          List.forall_mem_cons.mpr ⟨Nat.le_of_not_le hxy, hle⟩⟩

end

/-! ### One action of the procedures -/

section
variable {s t : State} {k j : Nat}

/-- The host's result is W, H, the pixels that it reads of IM, and the palette (R114, R115, R120, R122). -/
theorem step_returnOk (ht : hostTurn s .returnOk t) : ∃ px draws,
    step s = .next { t with
      host := { t.host with
        todo := []
        result := some (.ok (fileWidth t.host.file) (fileHeight t.host.file) px (filePalette t.host.file)) }
      draws := draws }
    ∧ px.length = (fileWidth t.host.file).toNat * (fileHeight t.host.file).toNat
    ∧ ∀ i, i < (fileWidth t.host.file).toNat * (fileHeight t.host.file).toNat →
        ∃ x, px[i]? = some x ∧ pixelRead t i x := by
  obtain ⟨d, hd, hlen, hpx⟩ :=
    hostImage_pixelRead (n := (fileWidth t.host.file).toNat * (fileHeight t.host.file).toNat) 0 t
  simp only [Nat.zero_add] at hpx
  refine ⟨_, d, ?_, hlen, hpx⟩
  rw [step_hostTurn ht, hostAct, runFetched_out]
  simp only [hostReturnOk, hd]
  rfl

theorem step_noteIfFault {d : DecUnit} (ht : hostTurn s (.noteIfFault k j) t) (hd : t.units[k]? = some d) :
    step s = .next (if d.state = .fault then t.note ⟨j, d.errKind, d.errCause⟩ else t) := by
  rw [step_hostTurn ht, hostAct, withUnit_run hd, runFetched_out]

theorem step_noteFailure {c : Cause} (ht : hostTurn s (.noteFailure j c) t) :
    step s = .next (t.note ⟨j, c.kind, c⟩) := by
  rw [step_hostTurn ht, hostAct, runFetched_out]

theorem step_foldPlane (ht : hostTurn s (.foldPlane k j) t) : step s =
    .next (if t.host.noted.any (fun y => y.plane == j) then t else t.pushActs (foldActs k j)) := by
  rw [step_hostTurn ht, hostAct, runFetched_out]

theorem step_stopIfNoted_none (ht : hostTurn s .stopIfNoted t) (h : lowestFailure t.host.noted = none) :
    step s = .next t := by
  rw [step_hostTurn ht, hostAct, h]
  rfl

theorem step_stopIfNoted_some {x : Failure} (ht : hostTurn s .stopIfNoted t)
    (h : lowestFailure t.host.noted = some x) : step s = .next (t.hostReturn (.err x.kind x.cause)) := by
  rw [step_hostTurn ht, hostAct, h]
  rfl

end

/-- Settles O46, action by action. -/
theorem planeLoop : Obligations.PlaneLoop := by
  refine ⟨fun s t k from_ j f ht hf => ?_, fun s t f w0 w1 h0 h1 l0 l1 l2 l3 n W H ht hf hwh hl hW hH hn => ?_,
    fun s t from_ j rest f l ends ht hf hl he => ?_, fun s t k j d ht hd => ?_, fun s t j c ht hc => ?_,
    fun s t k j ht => ?_, fun s t ht => ?_⟩
  · subst hf
    rw [step_findPlane ht]
    refine ⟨fun h => ?_, fun m c h hc => ?_, fun x h hx => ?_⟩
    · rw [hostFindPlane_last h]
      rfl
    · rw [hostFindPlane_bad h (planeJob_of_chunkError hc)]
      rfl
    · rw [hostFindPlane_chunk h (planeJob_of_chunkAt hx), planeActs, startJobActs_chunk hx]
      rfl
  · subst hf
    have hwidth : (fileWidth t.host.file).toNat = W := (fileWidth_toNat hwh).trans hW.symm
    have hheight : (fileHeight t.host.file).toNat = H := (fileHeight_toNat hwh).trans hH.symm
    have hcount : paletteCount t.host.file = n := (paletteCount_eq hl).trans hn.symm
    obtain ⟨px, d, hs, hlen, hpx⟩ := step_returnOk ht
    rw [hwidth, hheight] at hlen hpx
    refine ⟨px, filePalette t.host.file, d, ?_, hlen, ?_, fun i b hi hv hu hin hr => ?_, fun i hi hn => ?_,
      fun i r g b hi h => filePalette_getElem? (hcount ▸ hi) h⟩
    · rw [hs, ← hwidth, ← hheight, BitVec.ofNat_toNat, BitVec.ofNat_toNat, BitVec.setWidth_eq, BitVec.setWidth_eq]
    · rw [filePalette, length_paletteFrom, hcount]
    · obtain ⟨x, hx, hbyte, -⟩ := hpx i hi
      rw [hx, hbyte b (imReadable_iff.mpr ⟨hv, hu, hin⟩) hr]
    · obtain ⟨x, hx, -, hdraw⟩ := hpx i hi
      obtain ⟨e, rfl⟩ := hdraw (by simpa only [imReadable_eq_false, or_assoc] using hn)
      exact ⟨e, hx⟩
  · subst hf
    obtain ⟨e, hg, rfl⟩ := gatherPlanes_ends hl he
    refine ⟨_, _, _, rfl, rfl, rfl, ?_⟩
    rw [step_batch ht, batchActs_eq hl hg]
    rfl
  · rw [step_noteIfFault ht hd]
    refine ⟨fun h => ?_, fun hf hn => ?_⟩
    · by_cases hf : d.state = .fault
      · rw [if_pos hf, note_known (h.resolve_left (not_not_intro hf))]
      · rw [if_neg hf]
    · rw [if_pos hf, note_new hn]
  · rw [step_noteFailure ht]
    refine ⟨fun h => by rw [note_known h], fun hn => ?_⟩
    have hkind : c.kind = .corruptStream := by rcases hc with rfl | rfl <;> rfl
    rw [note_new hn, hkind]
  · rw [step_foldPlane ht]
    refine ⟨fun h => by rw [if_pos (noted_any.mpr h)], fun hn => ?_⟩
    rw [if_neg (noted_not_any.mpr hn)]
    rfl
  · refine ⟨fun h => step_stopIfNoted_none ht (by rw [h]; rfl), fun h => ?_⟩
    obtain ⟨x, hx, hmem, hle⟩ := lowestFailure_of_ne_nil h
    exact ⟨x, hmem, hle, step_stopIfNoted_some ht hx⟩

end Sys2Proof.Machine
end

section
/-! PROOFS. The codes (R58, R61, R70): decoding and encoding are inverse, each code selects one row of the opcode
table, and bits 31:4 of a command word have no effect. -/

namespace Sys2Proof

/-! ### Command words (R58, R59) -/

theorem decode_cmdWord (op : BitVec 4) (g : BitVec 28) : decode (.cmd (cmdWord op g)) = .ok (decodeOp op g) :=
  congrArg Except.ok (decodeCmd_cmdWord op g)

/-- A bit vector is one of its finitely many values. -/
theorem exists_eq_ofNat {w : Nat} (b : BitVec w) : ∃ n : Fin (2 ^ w), b = BitVec.ofNat w n :=
  ⟨b.toFin, by simp⟩

theorem decodeOp_illegal67 (b : BitVec 1) (g : BitVec 28) : decodeOp (3#3 ++ b) g = .illegal67 b g := by
  obtain ⟨n, rfl⟩ := exists_eq_ofNat b
  fin_cases n <;> rfl

theorem decodeOp_illegal8F (l : BitVec 3) (g : BitVec 28) : decodeOp (1#1 ++ l) g = .illegal8F l g := by
  obtain ⟨n, rfl⟩ := exists_eq_ofNat l
  fin_cases n <;> rfl

theorem encode_decodeOp (op : BitVec 4) (g : BitVec 28) : encode (decodeOp op g) = .cmd (cmdWord op g) := by
  obtain ⟨n, rfl⟩ := exists_eq_ofNat op
  fin_cases n <;> rfl

theorem decodeOp_wellFormed (op : BitVec 4) (g : BitVec 28) : (decodeOp op g).WellFormed := by
  unfold decodeOp
  split_ifs <;> rfl

/-! ### Symbols (R61) -/

/-- The symbol that phase `p` reads is `w` bits wide, and `f` reads each of its values as a well-formed instruction
that the encoder gives the same symbol. -/
def readsSymbol (p : Phase) (w : Nat) (f : BitVec w → Instr) : Prop :=
  ∀ b, encode (f b) = .sym p w b.toNat ∧ (f b).WellFormed

theorem readsSymbol_decodeF : readsSymbol .ctrl 1 decodeF := by unfold readsSymbol; decide
theorem readsSymbol_decodeS : readsSymbol .litsel 1 decodeS := by unfold readsSymbol; decide
theorem readsSymbol_decodeLc : readsSymbol .litcode 2 decodeLc := by unfold readsSymbol; decide
theorem readsSymbol_decodeI : readsSymbol .midx 4 decodeI := by unfold readsSymbol; decide
theorem readsSymbol_decodeMc : readsSymbol .mlen2 2 decodeMc := by unfold readsSymbol; decide
theorem readsSymbol_decodeN : readsSymbol .mlenn 4 decodeN := by unfold readsSymbol; decide

section
variable {p : Phase} {w n v : Nat} {i : Instr}

theorem encode_of_symbolOf {f : BitVec w → Instr} (hf : readsSymbol p w f) (h : (symbolOf w n v).map f = .ok i) :
    encode i = .sym p n v ∧ i.WellFormed := by
  obtain ⟨b, hb, rfl⟩ := Except.map_eq_ok.mp h
  obtain ⟨rfl, hv, rfl⟩ := symbolOf_eq_ok.mp hb
  obtain ⟨he, hw⟩ := hf (BitVec.ofNat n v)
  exact ⟨by rw [he, BitVec.toNat_ofNat, Nat.mod_eq_of_lt hv], hw⟩

/-- E's width fits MDIST's width field and its value the value field, so both read back (R61, R98). -/
theorem encode_of_decodeE (h : decodeE n v = .ok i) : encode i = .sym .mdist n v ∧ i.WellFormed := by
  obtain ⟨h4, h14, hv, rfl⟩ := decodeE_eq_ok.mp h
  have hn : (BitVec.ofNat 4 n).toNat = n := by rw [BitVec.toNat_ofNat]; omega
  have hv14 : v < 2 ^ 14 := Nat.lt_of_lt_of_le hv (Nat.pow_le_pow_right (by decide) h14)
  have he : (BitVec.ofNat 14 v).toNat = v := by rw [BitVec.toNat_ofNat, Nat.mod_eq_of_lt hv14]
  exact ⟨by rw [encode, hn, he], by simp [Instr.WellFormed, Instr.wellFormed, hn, he, h4, h14, hv]⟩

theorem encode_of_decodeSym (h : decodeSym p n v = .ok i) : encode i = .sym p n v ∧ i.WellFormed := by
  cases p
  case ctrl => exact encode_of_symbolOf readsSymbol_decodeF h
  case litsel => exact encode_of_symbolOf readsSymbol_decodeS h
  case litcode => exact encode_of_symbolOf readsSymbol_decodeLc h
  case midx => exact encode_of_symbolOf readsSymbol_decodeI h
  case mdist => exact encode_of_decodeE h
  case mlen2 => exact encode_of_symbolOf readsSymbol_decodeMc h
  case mlenn => exact encode_of_symbolOf readsSymbol_decodeN h
  all_goals cases h

theorem encode_of_decodeStep (h : decodeStep p = .ok i) : encode i = .step p ∧ i.WellFormed := by
  cases p <;> cases h <;> exact ⟨rfl, rfl⟩

theorem symbolOf_map_ok (f : BitVec w → Instr) (hn : n = w) (hv : v < 2 ^ n) :
    ∃ i, (symbolOf w n v).map f = .ok i :=
  ⟨_, Except.map_eq_ok.mpr ⟨_, symbolOf_eq_ok.mpr ⟨hn, hn ▸ hv, rfl⟩, rfl⟩⟩

/-- A symbol of its phase's width has an instruction (R61, R68). -/
theorem decodeSym_of_symbolWidth (hn : Machine.symbolWidth p n) (hv : v < 2 ^ n) : ∃ i, decodeSym p n v = .ok i := by
  cases p
  case ctrl => exact symbolOf_map_ok decodeF hn hv
  case litsel => exact symbolOf_map_ok decodeS hn hv
  case litcode => exact symbolOf_map_ok decodeLc hn hv
  case midx => exact symbolOf_map_ok decodeI hn hv
  case mdist => exact ⟨_, decodeE_eq_ok.mpr ⟨hn.1, hn.2, hv, rfl⟩⟩
  case mlen2 => exact symbolOf_map_ok decodeMc hn hv
  case mlenn => exact symbolOf_map_ok decodeN hn hv
  all_goals exact hn.elim

end

/-! ### The two identities -/

/-- Settles O1, by the instruction's row: a command word's OP is read back, a symbol's value selects its row, and
MDIST's width and value are its own fields. -/
theorem decodeEncodeIdentity : Obligations.DecodeEncodeIdentity := by
  intro i hi
  cases i
  case decode g | copyRaw g | imgClear g | fold g | illegal0 g | illegal5 g => exact decode_cmdWord _ g
  case illegal67 b g => exact (decode_cmdWord _ g).trans (congrArg _ (decodeOp_illegal67 b g))
  case illegal8F l g => exact (decode_cmdWord _ g).trans (congrArg _ (decodeOp_illegal8F l g))
  case mdist n e =>
    simp only [Instr.WellFormed, Instr.wellFormed, Bool.and_eq_true, decide_eq_true_eq] at hi
    obtain ⟨⟨h4, h14⟩, he⟩ := hi
    exact decodeE_eq_ok.mpr ⟨h4, h14, he, by simp⟩
  all_goals rfl

/-- Settles O2, by the shape of the code. -/
theorem encodeDecodeIdentity : Obligations.EncodeDecodeIdentity := by
  intro w i h
  cases w with
  | cmd w =>
    cases h
    exact ⟨(encode_decodeOp _ _).trans (congrArg Code.cmd (cmdWord_eta w)), decodeOp_wellFormed _ _⟩
  | sym p n v => exact encode_of_decodeSym h
  | step p => exact encode_of_decodeStep h

/-! ### The opcode table (R70) -/

/-- No code selects both rows: they stand in different phases, or a bit that both masks hold differs. -/
def rowsApart (r r' : Row) : Prop := r.phase = r'.phase → r.mtch &&& r'.mask ≠ r'.mtch &&& r.mask

theorem rowsApart_symm {r r' : Row} (h : rowsApart r r') : rowsApart r' r := fun hp he => h hp.symm he.symm

theorem opcodeTable_apart : opcodeTable.Pairwise rowsApart := by
  unfold rowsApart
  decide

theorem Row.matches_iff {r : Row} {c : Code} :
    r.matches c = true ↔ r.phase = c.phase ∧ c.value &&& r.mask = r.mtch := by
  simp [Row.matches]

/-- Two rows that one code selects agree with it, hence with each other, on the bits that both masks hold. -/
theorem not_rowsApart_of_matches {r r' : Row} {c : Code} (h : r.matches c = true) (h' : r'.matches c = true) :
    ¬rowsApart r r' := by
  obtain ⟨hp, hm⟩ := Row.matches_iff.mp h
  obtain ⟨hp', hm'⟩ := Row.matches_iff.mp h'
  exact fun hne => hne (hp.trans hp'.symm) (by rw [← hm, ← hm', Nat.and_right_comm])

theorem Row.eq_of_matches {r r' : Row} {c : Code} (hr : r ∈ opcodeTable) (hr' : r' ∈ opcodeTable)
    (h : r.matches c = true) (h' : r'.matches c = true) : r = r' := by
  have hsymm : Std.Symm rowsApart := ⟨fun _ _ => rowsApart_symm⟩
  by_contra hne
  exact not_rowsApart_of_matches h h' (opcodeTable_apart.forall hr hr' hne)

/-- Every instruction's encoding selects the instruction's row (R70). -/
theorem row_matches_encode (i : Instr) : i.row.matches (encode i) = true := by
  cases i
  case decode | copyRaw | imgClear | fold | illegal0 | illegal5 =>
    exact Laws.Encoding.command_matches _ _ _ _ _ rfl rfl
  case illegal67 b g => exact Laws.Encoding.command_matches _ _ _ _ _ rfl (Laws.Encoding.op67 b)
  case illegal8F l g => exact Laws.Encoding.command_matches _ _ _ _ _ rfl (Laws.Encoding.op8F l)
  case mdist n e => exact Row.matches_iff.mpr ⟨rfl, Nat.and_zero _⟩
  all_goals rfl

/-- Settles O3: the code is the encoding of the instruction it decodes to, whose row it selects. -/
theorem rowSelection : Obligations.RowSelection := by
  refine ⟨fun w i h => ?_, fun w => ⟨_, rfl⟩, fun p n v => decodeSym_of_symbolWidth⟩
  obtain ⟨rfl, -⟩ := encodeDecodeIdentity w i h
  have hrow := Laws.Encoding.row_mem i
  have hsel := row_matches_encode i
  exact ⟨hrow, hsel, fun r hr hm => Row.eq_of_matches hr hrow hm hsel⟩

/-- Settles O4. -/
theorem wordsWrittenOut : Obligations.WordsWrittenOut :=
  ⟨rfl, rfl, rfl, rfl, rfl, rfl, rfl, rfl, rfl, rfl, rfl, rfl, rfl, rfl, rfl, rfl, rfl, rfl⟩

/-! ### The ignored bits (R58) -/

theorem exec_decodeOp_ignored (op : BitVec 4) (g g' : BitVec 28) (s : Machine.State) :
    Machine.exec (decodeOp op g) s = Machine.exec (decodeOp op g') s := by
  unfold decodeOp
  split_ifs <;> rfl

/-- Settles O5: no meaning reads the ignored bits, and OP is the word modulo 16. -/
theorem commandBitsAboveOpIgnored : Obligations.CommandBitsAboveOpIgnored := by
  intro w w' s h
  have hop : cmdOp w = cmdOp w' := BitVec.eq_of_toNat_eq (by rw [cmdOp_toNat, cmdOp_toNat, h])
  rw [decodeCmd, decodeCmd, hop]
  exact exec_decodeOp_ignored _ _ _ s

end Sys2Proof
end

section
/-! PROOFS. A reserved OP's start step (R59, R135), and the step on a unit's turn (R41, R61, R70, R91, R134). -/

namespace Sys2Proof.Machine

/-! ### Reserved OPs -/

theorem illegalStep_faults {s : State} {u : DecUnit} {n : Nat} (hu : s.units[s.cur]? = some u)
    (hb : u.state ≠ .busy) (hn : n < 16) : illegalStep (BitVec.ofNat 4 n) s =
      .next (withCurrent s (faultedWith (startedWith u (BitVec.ofNat 4 n)) .illegalCommand .badOpcode n)) := by
  have hv : (BitVec.ofNat 4 n).toNat = n := by rw [BitVec.toNat_ofNat, Nat.mod_eq_of_lt hn]
  rw [illegalStep_eq, commandStep_start hu hb, hv]
  rfl

theorem op67_eq : ∀ b : BitVec 1, 3#3 ++ b = BitVec.ofNat 4 (6 + b.toNat) := by decide

theorem op8F_eq : ∀ l : BitVec 3, 1#1 ++ l = BitVec.ofNat 4 (8 + l.toNat) := by decide

/-- Settles O32: each reserved row is the start step of its OP, whose one action is to raise. -/
theorem illegalStart : Obligations.IllegalStart := by
  intro g s u hu hb
  refine ⟨illegalStep_faults hu hb (by decide), illegalStep_faults hu hb (by decide), fun b => ?_, fun l => ?_⟩
  · rw [exec_illegal67, op67_eq]
    exact illegalStep_faults hu hb (by have := b.isLt; omega)
  · rw [exec_illegal8F, op8F_eq]
    exact illegalStep_faults hu hb (by have := l.isLt; omega)

/-! ### A unit's turn -/

theorem recordStop_of_ne_unwritten {s : State} {o : Out} (h : ∀ m a, o ≠ .fault (.unwritten m a)) :
    recordStop s o = o := by
  cases o with
  | next t => rfl
  | refused r => rfl
  | fault f =>
    cases f with
    | unwritten m a => exact absurd rfl (h m a)
    | noSuchAddress m a => rfl
    | noSuchUnit k => rfl
    | noStep k => rfl

/-- A fetch raises only where its read does (R74). -/
theorem fetchCode_raise {k p : Nat} {c : Config} {u : DecUnit} {d : Cause} (h : fetchCode k c u = .raise d p) :
    d = .fwdExhaust ∧ p = u.wp := by
  unfold fetchCode at h
  cases hp : u.phase <;> rw [hp] at h
  case ctrl | litsel => exact read1_raise (Res.map_eq_raise.mp h)
  case litcode | mlen2 => exact read2_raise (Res.map_eq_raise.mp h)
  case midx | mlenn => exact read4_raise (Res.map_eq_raise.mp h)
  case mdist => exact readX_raise (Res.map_eq_raise.mp h)
  all_goals cases h

section
variable {s t : State} {k : Nat} {u : DecUnit}

/-- What a unit's turn makes of its fetch (R41, R70, R134). -/
theorem step_unitTurn_ok {w : Code} {i : Instr} (ht : unitTurn s k t) (hu : t.units[k]? = some u)
    (hf : fetchCode k t.cfg u = .ok w) (hd : decode w = .ok i) : step s = recordStop t (exec i t) := by
  obtain ⟨-, -, -, rfl, -⟩ := unitTurn_units ht
  rw [step_unitTurn ht]
  simp only [unitFetch, hu, hf, hd, runFetched_run]

@[inherit_doc step_unitTurn_ok] theorem step_unitTurn_stop {f : Fault} (ht : unitTurn s k t)
    (hu : t.units[k]? = some u) (hf : fetchCode k t.cfg u = .stop f) : step s = recordStop t (.fault f) := by
  obtain ⟨-, -, -, rfl, -⟩ := unitTurn_units ht
  rw [step_unitTurn ht]
  simp only [unitFetch, hu, hf, runFetched_out]

@[inherit_doc step_unitTurn_ok] theorem step_unitTurn_raise {d : Cause} {p : Nat} (ht : unitTurn s k t)
    (hu : t.units[k]? = some u) (hf : fetchCode k t.cfg u = .raise d p) :
    step s = .next (withUnitAt t k (u.enterFault d p)) := by
  obtain ⟨-, -, -, rfl, -⟩ := unitTurn_units ht
  rw [step_unitTurn ht]
  simp only [unitFetch, hu, hf, runFetched_out]
  rfl

end

/-- Settles O34: the turn is the fetch and what it leads to, and the fetch is its phase's read. -/
theorem stepRunsUnitInstruction : Obligations.StepRunsUnitInstruction := by
  refine ⟨fun s t k u ht hu => ?_, fun k c u => ?_⟩
  · obtain ⟨-, -, -, rfl, -⟩ := unitTurn_units ht
    refine ⟨fun w i hf hd => ?_, fun m a hf => step_unitTurn_stop ht hu hf, fun d p hf => ?_⟩
    · have hstep := step_unitTurn_ok ht hu hf hd
      exact ⟨fun m a he => by rw [hstep, he]; rfl, fun hne => hstep.trans (recordStop_of_ne_unwritten hne)⟩
    · obtain ⟨rfl, rfl⟩ := fetchCode_raise hf
      exact step_unitTurn_raise ht hu hf
  · refine ⟨?_, ?_, ?_, fun h => ?_, fun h => ?_⟩
    · rintro (h | h) <;> simp only [fetchCode, h]
    · rintro (h | h) <;> simp only [fetchCode, h]
    · rintro (h | h) <;> simp only [fetchCode, h]
    · simp only [fetchCode, h]
    · simp only [List.mem_cons, List.not_mem_nil, or_false] at h
      rcases h with h | h | h | h | h | h <;> simp only [fetchCode, h]

end Sys2Proof.Machine
end

section
/-! PROOFS. The symbol reads from the cursors' pending words and the literal byte at TAIL (R75 to R81): what each read
takes, when it refills, and that it leaves the other cursors alone. -/

namespace Sys2Proof.Machine

/-! ### Sequencing -/

theorem Res.map_bind {α β γ : Type} (x : Res α) (f : α → Res β) (g : β → γ) :
    (x.bind f).map g = x.bind fun a => (f a).map g := by
  cases x <;> rfl

theorem Res.bind_map {α β γ : Type} (x : Res α) (g : α → β) (f : β → Res γ) :
    (x.map g).bind f = x.bind fun a => f (g a) := by
  cases x <;> rfl

/-! ### The bits of a word -/

/-- A field of a word as a quotient: the form in which the statements name the bits that a read takes. -/
theorem extractLsb'_eq_ofNat_div {w : Nat} (x : BitVec w) (i n : Nat) :
    x.extractLsb' i n = BitVec.ofNat n (x.toNat / 2 ^ i) := by
  rw [← Nat.shiftRight_eq_div_pow]
  rfl

theorem extractLsb'_one {w : Nat} (x : BitVec w) (i : Nat) : x.extractLsb' i 1 = BitVec.ofBool (x.getLsbD i) := by
  refine BitVec.eq_of_getLsbD_eq fun j hj => ?_
  obtain rfl : j = 0 := by omega
  simp

theorem toNat_extractLsb'_one {w : Nat} (x : BitVec w) (i : Nat) :
    (x.extractLsb' i 1).toNat = x.toNat / 2 ^ i % 2 := by
  rw [extractLsb'_eq_ofNat_div, BitVec.toNat_ofNat, Nat.pow_one]

/-! ### One read: its cursor has bits, or it is refilled first (R75 to R79) -/

section
variable {c : Config} {u : DecUnit}

theorem read1_of_rem (h : u.c1.rem ≠ 0) : read1 c u =
    .ok (u.c1.pend.extractLsb' (u.c1.rem - 1) 1, u.setC1 ⟨u.c1.pend, u.c1.rem - 1⟩) := by
  rw [read1, readyC1, if_neg h, Res.map_ok]

theorem read1_of_empty (h : u.c1.rem = 0) : read1 c u =
    (take16 c u .c1).map fun t => (t.1.extractLsb' 15 1, t.2.setC1 ⟨t.1, 15⟩) := by
  rw [read1, readyC1, if_pos h, Res.map_map]
  rfl

theorem read2_of_rem (h : u.c2.rem ≠ 0) : read2 c u =
    .ok (u.c2.pend.extractLsb' (u.c2.rem - 2) 2, u.setC2 ⟨u.c2.pend, u.c2.rem - 2⟩) := by
  rw [read2, readyC2, if_neg h, Res.map_ok]

theorem read2_of_empty (h : u.c2.rem = 0) : read2 c u =
    (take16 c u .c2).map fun t => (t.1.extractLsb' 14 2, t.2.setC2 ⟨t.1, 14⟩) := by
  rw [read2, readyC2, if_pos h, Res.map_map]
  rfl

theorem readXBit_of_rem (h : u.cx.rem ≠ 0) : readXBit c u =
    .ok (u.cx.pend.extractLsb' (u.cx.rem - 1) 1, u.setCX ⟨u.cx.pend, u.cx.rem - 1⟩) := by
  rw [readXBit, readyCX, if_neg h, Res.map_ok]

theorem readXBit_of_empty (h : u.cx.rem = 0) : readXBit c u =
    (take16 c u .cx).map fun t => (t.1.extractLsb' 15 1, t.2.setCX ⟨t.1, 15⟩) := by
  rw [readXBit, readyCX, if_pos h, Res.map_map]
  rfl

theorem read4_of_rem (h : u.c4.rem ≠ 0) : read4 c u =
    .ok (u.c4.pend.extractLsb' 0 4, u.setC4 ⟨u.c4.pend >>> 4, u.c4.rem - 4⟩) := by
  rw [read4, readyC4, if_neg h, Res.map_ok]

theorem read4_of_empty (h : u.c4.rem = 0) : read4 c u =
    (take32 c u).map fun t => (t.1.extractLsb' 0 4, t.2.setC4 ⟨t.1 >>> 4, 28⟩) := by
  rw [read4, readyC4, if_pos h, Res.map_map]
  rfl

end

/-- Settles O7: each read with bits left, after a refill, and where the refill raises. -/
theorem msbSymbolReads : Obligations.MsbSymbolReads := by
  refine fun c u => ⟨fun h => ?_, fun w v h ht => ?_, fun d p h ht => ?_, fun h => ?_, fun w v h ht => ?_,
    fun d p h ht => ?_⟩
  · rw [read1_of_rem h, extractLsb'_one]
    rfl
  · rw [read1_of_empty h, ht, Res.map_ok, extractLsb'_one]
    rfl
  · rw [read1_of_empty h, ht, Res.map_raise]
  · rw [read2_of_rem (by omega), extractLsb'_eq_ofNat_div]
    rfl
  · rw [read2_of_empty h, ht, Res.map_ok, extractLsb'_eq_ofNat_div]
    rfl
  · rw [read2_of_empty h, ht, Res.map_raise]

theorem extractLsb'_nibble {w : Nat} (x : BitVec w) : x.extractLsb' 0 4 = BitVec.ofNat 4 (x.toNat % 16) := by
  refine BitVec.eq_of_toNat_eq ?_
  simp only [extractLsb'_eq_ofNat_div, BitVec.toNat_ofNat]
  omega

/-- Settles O9: the read with nibbles left, after a refill, and where the refill raises. -/
theorem nibbleRead : Obligations.NibbleRead := by
  refine fun c u => ⟨fun h => ?_, fun w v h ht => ?_, fun d p h ht => ?_⟩
  · rw [read4_of_rem h, extractLsb'_nibble]
    rfl
  · rw [read4_of_empty h, ht, Res.map_ok, extractLsb'_nibble]
    rfl
  · rw [read4_of_empty h, ht, Res.map_raise]

/-! ### The tail byte (R18, R80) -/

theorem fwdHi_eq_ite (c : Config) (u : DecUnit) :
    fwdHi c u = if c.fwdMode = .shared then u.fwd else max (max u.off.c1 u.off.c2) (max u.off.cx u.off.c4) := by
  unfold fwdHi
  cases c.fwdMode <;> rfl

/-- Settles O10. -/
theorem tailByteRead : Obligations.TailByteRead := by
  intro c u hi hhi
  rw [← fwdHi_eq_ite] at hhi
  subst hhi
  refine ⟨fun h => tailByte_eq_raise.mpr ⟨h, rfl, rfl⟩, fun b h hp hr => ?_⟩
  exact tailByte_eq_ok.mpr ⟨h, pmRead_written (by omega) hr, rfl⟩

/-! ### Other cursors (R81) -/

/-- Unit u with the four forward cursors given. -/
def withCursors (u : DecUnit) (a1 a2 ax : Cursor 16) (a4 : Cursor 32) : DecUnit :=
  { u with c1 := a1, c2 := a2, cx := ax, c4 := a4 }

section
variable {c : Config} {u : DecUnit} {a1 a2 ax : Cursor 16} {a4 : Cursor 32}

theorem setForward_withCursors (k : CursorId) (n : Nat) :
    setForward c (withCursors u a1 a2 ax a4) k n = withCursors (setForward c u k n) a1 a2 ax a4 := by
  unfold setForward
  cases c.fwdMode <;> rfl

theorem pmRead_withCursors (i : Nat) : pmRead c (withCursors u a1 a2 ax a4) i = pmRead c u i := rfl

/-- What a refill takes and where it leaves the forward index depend on no cursor's word or count. -/
theorem forwardTake_withCursors (k : CursorId) (w : Nat) : forwardTake c (withCursors u a1 a2 ax a4) k w =
    (forwardTake c u k w).map fun t => (t.1, withCursors t.2 a1 a2 ax a4) := by
  have hp : forwardPos c (withCursors u a1 a2 ax a4) k = forwardPos c u k := rfl
  simp only [forwardTake, hp, setForward_withCursors]
  by_cases h : u.tail < forwardPos c u k + w
  · rw [if_pos h]
    exact if_pos h
  · rw [if_neg h]
    exact if_neg h

@[inherit_doc forwardTake_withCursors] theorem take16_withCursors (k : CursorId) :
    take16 c (withCursors u a1 a2 ax a4) k =
      (take16 c u k).map fun t => (t.1, withCursors t.2 a1 a2 ax a4) := by
  simp only [take16, forwardTake_withCursors, Res.bind_map, Res.map_bind, pmRead_withCursors, Res.map_ok]

@[inherit_doc forwardTake_withCursors] theorem take32_withCursors : take32 c (withCursors u a1 a2 ax a4) =
    (take32 c u).map fun t => (t.1, withCursors t.2 a1 a2 ax a4) := by
  simp only [take32, forwardTake_withCursors, Res.bind_map, Res.map_bind, pmRead_withCursors, Res.map_ok]

/-- A read commutes with a replacement of the cursors that it does not read. -/
theorem read1_withCursors : read1 c (withCursors u u.c1 a2 ax a4) =
    (read1 c u).map fun x => (x.1, withCursors x.2 x.2.c1 a2 ax a4) := by
  by_cases h : u.c1.rem = 0
  · rw [read1_of_empty (u := withCursors u u.c1 a2 ax a4) h, read1_of_empty h, take16_withCursors, Res.map_map,
      Res.map_map]
    rfl
  · rw [read1_of_rem (u := withCursors u u.c1 a2 ax a4) h, read1_of_rem h]
    rfl

@[inherit_doc read1_withCursors] theorem read2_withCursors : read2 c (withCursors u a1 u.c2 ax a4) =
    (read2 c u).map fun x => (x.1, withCursors x.2 a1 x.2.c2 ax a4) := by
  by_cases h : u.c2.rem = 0
  · rw [read2_of_empty (u := withCursors u a1 u.c2 ax a4) h, read2_of_empty h, take16_withCursors, Res.map_map,
      Res.map_map]
    rfl
  · rw [read2_of_rem (u := withCursors u a1 u.c2 ax a4) h, read2_of_rem h]
    rfl

@[inherit_doc read1_withCursors] theorem readXBit_withCursors : readXBit c (withCursors u a1 a2 u.cx a4) =
    (readXBit c u).map fun x => (x.1, withCursors x.2 a1 a2 x.2.cx a4) := by
  by_cases h : u.cx.rem = 0
  · rw [readXBit_of_empty (u := withCursors u a1 a2 u.cx a4) h, readXBit_of_empty h, take16_withCursors, Res.map_map,
      Res.map_map]
    rfl
  · rw [readXBit_of_rem (u := withCursors u a1 a2 u.cx a4) h, readXBit_of_rem h]
    rfl

@[inherit_doc read1_withCursors] theorem read4_withCursors : read4 c (withCursors u a1 a2 ax u.c4) =
    (read4 c u).map fun x => (x.1, withCursors x.2 a1 a2 ax x.2.c4) := by
  by_cases h : u.c4.rem = 0
  · rw [read4_of_empty (u := withCursors u a1 a2 ax u.c4) h, read4_of_empty h, take32_withCursors, Res.map_map,
      Res.map_map]
    rfl
  · rw [read4_of_rem (u := withCursors u a1 a2 ax u.c4) h, read4_of_rem h]
    rfl

@[inherit_doc read1_withCursors] theorem readXFrom_withCursors {n : Nat} : ∀ {r : Nat} {u : DecUnit},
    readXFrom n r c (withCursors u a1 a2 u.cx a4) =
      (readXFrom n r c u).map fun x => (x.1, withCursors x.2 a1 a2 x.2.cx a4) := by
  induction n with
  | zero => exact fun {r u} => rfl
  | succ n ih =>
    intro r u
    simp only [readXFrom, readXBit_withCursors, Res.bind_map, Res.map_bind, ih]

end

/-- Settles O12: each read commutes with replacing the other three cursors. -/
theorem readsLeaveOtherCursors : Obligations.ReadsLeaveOtherCursors := by
  intro c u a1 a2 ax a4
  exact ⟨read1_withCursors, read2_withCursors, fun n => readXFrom_withCursors, read4_withCursors⟩

/-! ### Extra bits (R78) -/

/-- The bit above n bits of a number, as the loop of READX adds it. -/
theorem bit_above_mod (p k n : Nat) :
    p / 2 ^ (k + n) % 2 * 2 ^ n + p / 2 ^ k % 2 ^ n = p / 2 ^ k % 2 ^ (n + 1) := by
  rw [Nat.mod_pow_succ, Nat.div_div_eq_div_mul, ← Nat.pow_add, Nat.mul_comm, Nat.add_comm]

section
variable {c : Config} {u : DecUnit}

/-- While CX has the bits, the loop takes them from the top of its unread part. -/
theorem readXFrom_of_le {n : Nat} : ∀ {r : Nat} {u : DecUnit}, n ≤ u.cx.rem → readXFrom n r c u =
    .ok (r * 2 ^ n + u.cx.pend.toNat / 2 ^ (u.cx.rem - n) % 2 ^ n, u.setCX ⟨u.cx.pend, u.cx.rem - n⟩) := by
  induction n with
  | zero =>
    intro r u _
    simp only [readXFrom, Nat.pow_zero, Nat.mod_one, Nat.mul_one, Nat.add_zero, Nat.sub_zero]
    rfl
  | succ n ih =>
    intro r u h
    have hle : n ≤ u.cx.rem - 1 := by omega
    have hk : u.cx.rem - 1 - n = u.cx.rem - (n + 1) := by omega
    have htop : u.cx.rem - (n + 1) + n = u.cx.rem - 1 := by omega
    have hbit := bit_above_mod u.cx.pend.toNat (u.cx.rem - (n + 1)) n
    rw [htop] at hbit
    rw [readXFrom, readXBit_of_rem (by omega), Res.bind_ok, ih hle]
    simp only [DecUnit.setCX_cx, toNat_extractLsb'_one, hk, ← hbit]
    congr 2
    ring

/-- The loop can be cut at any bit. -/
theorem readXFrom_add (m : Nat) {n : Nat} : ∀ {r : Nat} {u : DecUnit},
    readXFrom (m + n) r c u = (readXFrom m r c u).bind fun x => readXFrom n x.1 c x.2 := by
  induction m with
  | zero =>
    intro r u
    rw [Nat.zero_add]
    rfl
  | succ m ih =>
    intro r u
    rw [Nat.succ_add, readXFrom, readXFrom]
    cases readXBit c u with
    | ok x => exact ih
    | raise d p => rfl
    | stop f => rfl
    | refuse e => rfl

/-- The bits still to take once CX has run out: the refill, then the top of the new word. -/
theorem readXFrom_of_empty {n r : Nat} (h : u.cx.rem = 0) (hn : n ≠ 0) : readXFrom n r c u =
    (take16 c u .cx).bind fun t => readXFrom n r c (t.2.setCX ⟨t.1, 16⟩) := by
  obtain ⟨m, rfl⟩ := Nat.exists_eq_succ_of_ne_zero hn
  rw [readXFrom, readXBit_of_empty h, Res.bind_map]
  rfl

/-- The refill of an emptied CX is the refill of the unit as it was. -/
theorem readXFrom_refill {n r : Nat} (p : BitVec 16) (hn : n ≠ 0) : readXFrom n r c (u.setCX ⟨p, 0⟩) =
    (take16 c u .cx).bind fun t => readXFrom n r c (t.2.setCX ⟨t.1, 16⟩) := by
  have ht : take16 c (u.setCX ⟨p, 0⟩) .cx = (take16 c u .cx).map fun t =>
    (t.1, withCursors t.2 u.c1 u.c2 ⟨p, 0⟩ u.c4) := take16_withCursors .cx
  rw [readXFrom_of_empty rfl hn, ht, Res.bind_map]
  cases hv : take16 c u .cx with
  | ok t =>
    obtain ⟨-, ⟨h1, h2, -, h4⟩, -⟩ := take16_ok (w := t.1) (v := t.2) hv
    rw [Res.bind_ok, Res.bind_ok, ← h1, ← h2, ← h4]
    rfl
  | raise d q => rfl
  | stop f => rfl
  | refuse e => rfl

/-- READX past the end of CX: its bits are the high part, and the rest are the top of the word of one refill. -/
theorem readX_across {n : Nat} (h : u.cx.rem < n) : readX n c u =
    (take16 c u .cx).bind fun t =>
      readXFrom (n - u.cx.rem) (u.cx.pend.toNat % 2 ^ u.cx.rem) c (t.2.setCX ⟨t.1, 16⟩) := by
  have hcut : readX n c u = (readXFrom u.cx.rem 0 c u).bind fun x => readXFrom (n - u.cx.rem) x.1 c x.2 := by
    rw [readX, ← readXFrom_add, Nat.add_sub_cancel' h.le]
  rw [hcut, readXFrom_of_le (Nat.le_refl _), Res.bind_ok]
  simp only [Nat.sub_self, Nat.pow_zero, Nat.div_one, Nat.zero_mul, Nat.zero_add]
  exact readXFrom_refill _ (by omega)

end

/-- The top k bits of a word of 16 are a quotient alone. -/
theorem top_bits (w : BitVec 16) {k : Nat} (hk : k ≤ 16) :
    w.toNat / 2 ^ (16 - k) % 2 ^ k = w.toNat / 2 ^ (16 - k) := by
  refine Nat.mod_eq_of_lt (Nat.div_lt_of_lt_mul ?_)
  rw [← Nat.pow_add, Nat.sub_add_cancel hk]
  exact w.isLt

/-- Settles O8: inside the word by the loop's closed form, past its end by the cut at CX's last bit. -/
theorem extraBitsRead : Obligations.ExtraBitsRead := by
  refine fun n c u hr hn => ⟨fun h => ?_, fun w v h ht => ?_, fun d p h ht => ?_⟩
  · rw [readX, readXFrom_of_le h, Nat.zero_mul, Nat.zero_add]
    rfl
  · have hk : n - u.cx.rem ≤ 16 := by omega
    rw [readX_across h, ht, Res.bind_ok, readXFrom_of_le (u := v.setCX ⟨w, 16⟩) hk]
    simp only [DecUnit.setCX_cx, top_bits w hk]
    rfl
  · rw [readX_across h, ht, Res.bind_raise]

end Sys2Proof.Machine
end

section
/-! PROOFS. The VLC distance table: what the seeds build (R83 to R85), the lookup (R86), and the bands (R87). -/

namespace Sys2Proof.Machine

/-- The seeds build the table that R85 lists. -/
theorem buildVlc_vlcSeeds : buildVlc 0 vlcSeeds = vlcTable := by decide

/-- Every index has an entry, which fits MBL's four bits and MBASE's sixteen: the lookup cuts nothing off (R86). -/
theorem vlcTable_getElem? : ∀ i : BitVec 4,
    vlcTable[i.toNat]? = some ((vlcLookup i).1.toNat, (vlcLookup i).2.toNat) := by decide

/-- MBASE restarts at 0 at the start of each band, the indices that R87 names. -/
theorem vlcLookup_base_of_band_start {i : BitVec 4} (h : i = 0 ∨ i = 4 ∨ i = 10) : (vlcLookup i).2 = 0 := by
  rcases h with rfl | rfl | rfl <;> rfl

/-- Inside a band an entry begins where the entry before it ends (R87). -/
theorem vlcLookup_base_of_pred : ∀ i : BitVec 4, i ≠ 0 → i ≠ 4 → i ≠ 10 →
    (vlcLookup i).2.toNat = (vlcLookup (i - 1)).2.toNat + 2 ^ (vlcLookup (i - 1)).1.toNat := by decide

/-- Settles O11: the seeds build the table that the lookup indexes, and the bands are read off its entries. -/
theorem vlcTableIsBuilt : Obligations.VlcTableIsBuilt :=
  ⟨rfl, buildVlc_vlcSeeds, fun i => buildVlc_vlcSeeds ▸ vlcTable_getElem? i,
    fun _ => vlcLookup_base_of_band_start, vlcLookup_base_of_pred⟩

end Sys2Proof.Machine
end

section
/-! PROOFS. The rows of the literal and match phases that read a symbol (R92 to R94, R97 to R100): what each leaves when
its symbol is read, and the FAULT that the job ends in when the read raises. -/

namespace Sys2Proof.Machine

section
variable {s : State} {u v : DecUnit} {p : Phase} {i : Instr} {w : Nat}
  {rd : Config → DecUnit → Res (BitVec w × DecUnit)} {b : BitVec w} {act : DecUnit → DecUnit}

/-! ### The two ends of a symbol row -/

/-- A symbol row whose read raises ends the job in FAULT with FWD_EXHAUST at WP (R74, R134). -/
theorem symbolStep_exhausted {d : Cause} {q : Nat} (hu : s.units[s.cur]? = some u) (hb : u.state = .busy)
    (hp : u.phase = p) (hr : rd s.cfg u = .raise d q) (hd : d = .fwdExhaust ∧ q = u.wp) :
    symbolStep s p rd b act = .next (withCurrent s (faultedWith u .corruptStream .fwdExhaust u.wp)) := by
  obtain ⟨rfl, rfl⟩ := hd
  exact symbolStep_raise hu hb hp hr

theorem read2_litcnt {c : Config} {b : BitVec 2} (h : read2 c u = .ok (b, v)) : v.litcnt = u.litcnt := by
  rw [(read2_ok h).1.1]

theorem read4_mlen {c : Config} {b : BitVec 4} (h : read4 c u = .ok (b, v)) : v.mlen = u.mlen := by
  rw [(read4_ok h).1.1]

end

/-! ### The literal phases -/

/-- Settles O13. -/
theorem ctrlSteps : Obligations.CtrlSteps := by
  refine fun s u hu hb hp => ⟨fun v hr => (exec_ctrlLit s).trans (symbolStep_ok hu hb hp hr),
    fun v hr => (exec_ctrlNolit s).trans (symbolStep_ok hu hb hp hr), fun d q hr i hi => ?_⟩
  rcases hi with rfl | rfl
  · exact (exec_ctrlLit s).trans (symbolStep_exhausted hu hb hp hr (read1_raise hr))
  · exact (exec_ctrlNolit s).trans (symbolStep_exhausted hu hb hp hr (read1_raise hr))

/-- Settles O14. -/
theorem litselSteps : Obligations.LitselSteps := by
  refine fun s u hu hb hp => ⟨fun v hr => (exec_litExt s).trans (symbolStep_ok hu hb hp hr),
    fun v hr => (exec_litOne s).trans (symbolStep_ok hu hb hp hr), fun d q hr i hi => ?_⟩
  rcases hi with rfl | rfl
  · exact (exec_litExt s).trans (symbolStep_exhausted hu hb hp hr (read1_raise hr))
  · exact (exec_litOne s).trans (symbolStep_exhausted hu hb hp hr (read1_raise hr))

/-- The rows of LITCODE that stop are those of the codes 1 to 3 (R61, R94). -/
theorem litcode_stop_rows : ∀ row ∈ [(Instr.litcodeAdd4, 1#2), (.litcodeAdd3, 2), (.litcodeAdd2, 3)],
    row.1 = decodeLc row.2 ∧ row.2 ≠ 0#2 := by decide

theorem litcode_rows : ∀ i ∈ [Instr.litcodeCont, .litcodeAdd4, .litcodeAdd3, .litcodeAdd2], ∃ b, i = decodeLc b := by
  decide

/-- Settles O15: each row is the row of its code, and the code decides between going on and stopping. -/
theorem litcodeSteps : Obligations.LitcodeSteps := by
  refine fun s u hu hb hp => ⟨fun v hr => ?_, fun v i n hr hi => ?_, fun d q hr i hi => ?_⟩
  · rw [← read2_litcnt hr]
    exact (exec_litcodeCont s).trans (symbolStep_ok hu hb hp hr)
  · obtain ⟨hi, hn⟩ : i = decodeLc n ∧ n ≠ 0#2 := litcode_stop_rows (i, n) hi
    rw [hi, exec_decodeLc, symbolStep_ok hu hb hp hr, if_neg hn, read2_litcnt hr]
    rfl
  · obtain ⟨b, rfl⟩ := litcode_rows i hi
    rw [exec_decodeLc]
    exact symbolStep_exhausted hu hb hp hr (read2_raise hr)

/-! ### The match phases -/

/-- The rows of MIDX with the entries of R85's table. -/
def midxRows : List (Instr × BitVec 4 × BitVec 4 × BitVec 16) :=
  [(.midx0, 0, 4, 0), (.midx1, 1, 6, 16), (.midx2, 2, 8, 80), (.midx3, 3, 9, 336),
    (.midx4, 4, 4, 0), (.midx5, 5, 7, 16), (.midx6, 6, 9, 144), (.midx7, 7, 11, 656),
    (.midx8, 8, 13, 2704), (.midx9, 9, 14, 10896), (.midx10, 10, 5, 0), (.midx11, 11, 7, 32),
    (.midx12, 12, 9, 160), (.midx13, 13, 11, 672), (.midx14, 14, 13, 2720), (.midx15, 15, 14, 10912)]

/-- Each row of MIDX is the row of its index, with the index's entry (R85, R86, R97). -/
theorem midxRows_lookup : ∀ row ∈ midxRows, row.1 = decodeI row.2.1 ∧ vlcLookup row.2.1 = row.2.2 := by decide

theorem midx_rows : ∀ i ∈ [Instr.midx0, .midx1, .midx2, .midx3, .midx4, .midx5, .midx6, .midx7, .midx8, .midx9, .midx10,
    .midx11, .midx12, .midx13, .midx14, .midx15], ∃ b, i = decodeI b := by decide

/-- Settles O16: each row is the row of its index, and loads the index's entry. -/
theorem midxSteps : Obligations.MidxSteps := by
  refine fun s u hu hb hp => ⟨fun v row hr hrow => ?_, fun d q hr i hi => ?_⟩
  · obtain ⟨hi, hentry⟩ := midxRows_lookup row hrow
    rw [hi, exec_decodeI, symbolStep_ok hu hb hp hr, hentry]
    rfl
  · obtain ⟨b, rfl⟩ := midx_rows i hi
    rw [exec_decodeI]
    exact symbolStep_exhausted hu hb hp hr (read4_raise hr)

/-- The three length classes of an index (R87, R98). -/
theorem setDistance_eq (e : Nat) (u : DecUnit) : setDistance e u =
    if u.midx.toNat < 4 then { u with dist := u.mbase.toNat + e, mlen := 2, phase := .mcopy }
    else if u.midx.toNat < 10 then { u with dist := u.mbase.toNat + e, mlen := 3, phase := .mcopy }
    else { u with dist := u.mbase.toNat + e, phase := .mlen2 } := rfl

/-- Settles O17: the read leaves MIDX and MBASE, from which the distance and the length class come. -/
theorem mdistStep : Obligations.MdistStep := by
  refine fun s u hu hb hp => ⟨fun v e hr => ?_, fun d q hr n e => ?_⟩
  · have hcur := (readX_ok hr).1.1
    have hidx : v.midx = u.midx := by rw [hcur]
    have hbase : v.mbase = u.mbase := by rw [hcur]
    have hrun : exec (.mdist u.mbl e) s = .next (s.setUnit (setDistance e.toNat v)) := by
      rw [exec_mdist]
      exact unitStep_ok hu hb hp (by rw [hr, Res.bind_ok, if_pos ⟨rfl, rfl⟩])
    rw [hrun, setDistance_eq, hidx, hbase]
    rfl
  · obtain ⟨rfl, rfl⟩ := readX_raise hr
    rw [exec_mdist, unitStep_raise hu hb hp (by rw [hr, Res.bind_raise])]
    rfl

theorem mlen2_stop_rows : ∀ row ∈ [(Instr.mlen2L6, 1#2), (.mlen2L5, 2), (.mlen2L4, 3)],
    row.1 = decodeMc row.2 ∧ row.2 ≠ 0#2 := by decide

theorem mlen2_rows : ∀ i ∈ [Instr.mlen2Ext, .mlen2L6, .mlen2L5, .mlen2L4], ∃ b, i = decodeMc b := by decide

/-- Settles O18: each row is the row of its code, and the code decides between a nibble code and a length. -/
theorem mlen2Steps : Obligations.Mlen2Steps := by
  refine fun s u hu hb hp => ⟨fun v hr => (exec_mlen2Ext s).trans (symbolStep_ok hu hb hp hr),
    fun v i n hr hi => ?_, fun d q hr i hi => ?_⟩
  · obtain ⟨hi, hn⟩ : i = decodeMc n ∧ n ≠ 0#2 := mlen2_stop_rows (i, n) hi
    rw [hi, exec_decodeMc, symbolStep_ok hu hb hp hr, if_neg hn]
    rfl
  · obtain ⟨b, rfl⟩ := mlen2_rows i hi
    rw [exec_decodeMc]
    exact symbolStep_exhausted hu hb hp hr (read2_raise hr)

/-- The rows of MLENN that stop, with the amounts that they add (R61, R100). -/
def mlennStopRows : List (Instr × BitVec 4 × Nat) :=
  [(.mlennAdd1, 15, 1), (.mlennAdd2, 14, 2), (.mlennAdd3, 13, 3), (.mlennAdd4, 12, 4), (.mlennAdd5, 11, 5),
    (.mlennAdd6, 10, 6), (.mlennAdd7, 9, 7), (.mlennAdd8, 8, 8), (.mlennAdd9, 7, 9), (.mlennAdd10, 6, 10),
    (.mlennAdd11, 5, 11), (.mlennAdd12, 4, 12), (.mlennAdd13, 3, 13), (.mlennAdd14, 2, 14), (.mlennAdd15, 1, 15)]

theorem mlennStopRows_adds : ∀ row ∈ mlennStopRows,
    row.1 = decodeN row.2.1 ∧ row.2.1 ≠ 0#4 ∧ row.2.2 = 16 - row.2.1.toNat := by decide

theorem mlenn_rows : ∀ i ∈ [Instr.mlennCont, .mlennAdd1, .mlennAdd2, .mlennAdd3, .mlennAdd4, .mlennAdd5, .mlennAdd6,
    .mlennAdd7, .mlennAdd8, .mlennAdd9, .mlennAdd10, .mlennAdd11, .mlennAdd12, .mlennAdd13, .mlennAdd14, .mlennAdd15],
    ∃ b, i = decodeN b := by decide

/-- Settles O19: each row is the row of its nibble, and the nibble decides between going on and stopping. -/
theorem mlennSteps : Obligations.MlennSteps := by
  refine fun s u hu hb hp => ⟨fun v hr => ?_, fun v i n k hr hi => ?_, fun d q hr i hi => ?_⟩
  · rw [← read4_mlen hr]
    exact (exec_mlennCont s).trans (symbolStep_ok hu hb hp hr)
  · obtain ⟨hi, hn, hk⟩ : i = decodeN n ∧ n ≠ 0#4 ∧ k = 16 - n.toNat := mlennStopRows_adds (i, n, k) hi
    rw [hi, hk, exec_decodeN, symbolStep_ok hu hb hp hr, if_neg hn, read4_mlen hr]
    rfl
  · obtain ⟨b, rfl⟩ := mlenn_rows i hi
    rw [exec_decodeN]
    exact symbolStep_exhausted hu hb hp hr (read4_raise hr)

end Sys2Proof.Machine
end

section
/-! PROOFS. The steps that move bytes from PM and OM to OM (R90, R95, R96, R101, R102): what they leave, byte by byte,
and their faults in order. -/

namespace Sys2Proof.Machine

/-- Fault entry of a unit's own step, spelled out (R133, R134). -/
theorem unitStep_faults {s : State} {u : DecUnit} {p : Phase} {own : Config → DecUnit → Res DecUnit} {q : Nat}
    (d : Cause) (hu : s.units[s.cur]? = some u) (hb : u.state = .busy) (hp : u.phase = p)
    (ho : own s.cfg u = .raise d q) : unitStep s p own = .next (withCurrent s (faultedWith u d.kind d q)) :=
  unitStep_raise hu hb hp ho

/-! ### The literal copy -/

section
variable {c : Config} {u : DecUnit}

/-- LITCOPY with a run that fits is its loop (R95). -/
theorem literalBody_fits (h : u.wp + u.litcnt ≤ u.dstLen.toNat) :
    literalBody c u = (copyLiterals u.litcnt c u).map fun v => v.goto .endchk :=
  if_neg (Nat.not_lt.mpr h)

end

/-- Settles O20: the loop runs to its end, and has done what a finished literal copy does. -/
theorem litcopyStep : Obligations.LitcopyStep := by
  intro s u hu hb hp hfit hdst hfwd htail hpm
  obtain ⟨v, hv⟩ := copyLiterals_run hfwd htail hpm (by omega)
  obtain ⟨hframe, -, -, hnew, -, hold, -⟩ := copyLiterals_ok hv
  refine ⟨v.om, ?_, hnew, hold⟩
  rw [exec_litcopy, unitStep_ok hu hb hp (by rw [literalBody_fits hfit, hv, Res.map_ok]), hframe]
  rfl

/-- Settles O21: the run's length is checked first; the loop then crosses where the tail meets FwdHi. -/
theorem litcopyFaults : Obligations.LitcopyFaults := by
  refine fun s u hu hb hp => ⟨fun hover => ?_, fun hfit hdst hone hcross htail hpm => ?_⟩
  · refine (exec_litcopy s).trans (unitStep_faults .litOverrun hu hb hp ?_)
    rw [literalBody, if_pos hover]
  · refine (exec_litcopy s).trans (unitStep_faults .tailCross hu hb hp ?_)
    rw [literalBody_fits hfit, copyLiterals_cross hone hcross htail hpm (by omega), Res.map_raise]

/-! ### done() -/

theorem finish_eq_finishedWith (u : DecUnit) : u.finish = finishedWith u := by
  unfold DecUnit.finish finishedWith
  by_cases h : u.lastOp = 1#4 ∨ u.lastOp = 2#4
  · simp only [if_pos h]
  · simp only [if_neg h]

/-- Settles O22. -/
theorem endchkStep : Obligations.EndchkStep := by
  refine fun s u hu hb hp => ⟨fun hw => ?_, fun hw => ?_⟩
  · rw [exec_endchk, unitStep_ok hu hb hp (by rw [if_pos hw]), finish_eq_finishedWith]
    rfl
  · rw [exec_endchk, unitStep_ok hu hb hp (by rw [if_neg hw])]
    rfl

/-! ### The match copy -/

section
variable {c : Config} {u v : DecUnit} {n : Nat}

/-- A match repeats the DIST bytes before it (R101, R156): a byte copied from the match's own output is the byte one
period earlier. -/
theorem copyMatch_periodic (h : copyMatch n c u = .ok v) (hd : 1 ≤ u.dist) (hw : u.dist ≤ u.wp) (j : Nat) (hj : j < n) :
    v.om.read (u.wp + j) = u.om.read (u.wp - u.dist + j % u.dist) := by
  obtain ⟨-, -, hcopy, -, hold, -⟩ := copyMatch_ok h hd hw
  induction j using Nat.strongRecOn with
  | ind j ih =>
    rw [hcopy j hj]
    by_cases hlt : j < u.dist
    · rw [hold _ (.inl (by omega)), Nat.mod_eq_of_lt hlt]
      congr 1
      omega
    · have hback := ih (j - u.dist) (by omega) (by omega)
      rw [← Nat.mod_eq_sub_mod (by omega)] at hback
      rw [← hback]
      congr 1
      omega

/-- MCOPY with checks that pass is its loop (R101). -/
theorem matchBody_fits (hd : 1 ≤ u.dist) (hw : u.dist ≤ u.wp) (h : u.wp + u.mlen ≤ u.dstLen.toNat) :
    matchBody c u = (copyMatch u.mlen c u).map fun v => v.goto .ctrl := by
  rw [matchBody, if_neg (by omega), if_neg (by omega), if_neg (by omega)]

end

/-- Settles O23: the loop runs to its end, and has done what a finished match copy does. -/
theorem mcopyStep : Obligations.McopyStep := by
  intro s u hu hb hp hd hw hfit hdst hom
  obtain ⟨v, hv⟩ := copyMatch_run (n := u.mlen) hd hw hom (hfit.trans hdst)
  obtain ⟨hframe, -, hcopy, -, hold, -⟩ := copyMatch_ok hv hd hw
  refine ⟨v.om, ?_, hcopy, copyMatch_periodic hv hd hw, hold⟩
  rw [exec_mcopy, unitStep_ok hu hb hp (by rw [matchBody_fits hd hw hfit, hv, Res.map_ok]), hframe]
  rfl

/-- Settles O24: each check raises at WP once those before it have passed. -/
theorem mcopyFaults : Obligations.McopyFaults := by
  refine fun s u hu hb hp => ⟨fun h0 => ?_, fun h0 hbefore => ?_, fun h0 hw hover => ?_⟩
  · refine (exec_mcopy s).trans (unitStep_faults .distZero hu hb hp ?_)
    rw [matchBody, if_pos h0]
  · refine (exec_mcopy s).trans (unitStep_faults .distBeforeStart hu hb hp ?_)
    rw [matchBody, if_neg h0, if_pos hbefore]
  · refine (exec_mcopy s).trans (unitStep_faults .matchOverrun hu hb hp ?_)
    rw [matchBody, if_neg h0, if_neg (Nat.not_lt.mpr hw), if_pos hover]

/-! ### The raw copy -/

/-- Settles O25: the loop runs to its end, and has done what a finished raw copy does. -/
theorem rawcopyStep : Obligations.RawcopyStep := by
  intro s u hu hb hp hpm hom hwritten
  obtain ⟨v, hv⟩ := copyRawFrom_run (i := 0) (n := u.dstLen.toNat) (c := s.cfg) (u := u) (by omega) (by omega)
    (by rwa [Nat.zero_add])
  obtain ⟨hframe, -, hnew, hold, -⟩ := copyRawFrom_ok hv
  refine ⟨v.om, ?_, fun i hi => (hnew i (Nat.zero_le i) (by omega)).1, fun i hi => hold i (.inr (by omega))⟩
  rw [exec_rawcopy, unitStep_ok hu hb hp (by rw [hv, Res.map_ok]), finish_eq_finishedWith, hframe]
  rfl

end Sys2Proof.Machine
end

section
/-! PROOFS. The start steps of DECODE and COPY_RAW (R73, R88, R89): their checks in order, and how the job begins. -/

namespace Sys2Proof.Machine

/-- A check of a start step: a raise leaves the unit that `before` says, in FAULT (R10, R134). -/
theorem settle_refuseIf {s : State} {before : DecUnit} {bad : Prop} [Decidable bad] {c : Cause} {q : Nat}
    {rest : Res State} : settle s before (refuseIf bad c q rest) =
      if bad then .next (s.setUnit (before.enterFault c q)) else settle s before rest := by
  unfold refuseIf
  split <;> rfl

/-- A DECODE job at its first step (R73, R88). -/
def decodeStarted (c : Config) (u : DecUnit) : DecUnit :=
  ((cursorInit c (clearOutput (u.startJob 1#4))).setWp 0).goto .ctrl

/-- Fresh cursors and the forward index of the mode in hand (R16, R17, R73). -/
theorem cursorInit_eq (c : Config) (u : DecUnit) : cursorInit c u =
    { u with
      c1 := ⟨0, 0⟩, c2 := ⟨0, 0⟩, cx := ⟨0, 0⟩, c4 := ⟨0, 0⟩, tail := u.srcLen.toNat
      fwd := if c.fwdMode = .shared then 0 else u.fwd
      off := if c.fwdMode = .shared then u.off else c.initOff } := by
  unfold cursorInit
  cases c.fwdMode <;> rfl

section
variable {s : State} {u : DecUnit}

/-- DECODE's start step: the range checks, then the job at its first step (R88). -/
theorem exec_decode_start (g : BitVec 28) (hu : s.units[s.cur]? = some u) (hb : u.state ≠ .busy) :
    exec (.decode g) s = .next (s.setUnit
      (if s.cfg.pmSize < u.srcLen.toNat then
        ((clearOutput (u.startJob 1#4)).goto .none).enterFault .srcRange u.srcLen.toNat
      else if s.cfg.omSize < u.dstLen.toNat then
        ((clearOutput (u.startJob 1#4)).goto .none).enterFault .dstRange u.dstLen.toNat
      else decodeStarted s.cfg u)) := by
  rw [exec_decode, commandStep_start hu hb, checkRanges, settle_refuseIf, settle_refuseIf]
  rw [clearOutput_srcLen, clearOutput_dstLen, DecUnit.startJob_srcLen, DecUnit.startJob_dstLen]
  split
  · rfl
  split <;> rfl

end

/-- Settles O28. -/
theorem decodeStart : Obligations.DecodeStart := by
  intro g s u hu hb
  rw [exec_decode_start g hu hb, decodeStarted, cursorInit_eq]
  rfl

/-- Settles O29: the three checks in order, then the job at its first step. -/
theorem copyRawStart : Obligations.CopyRawStart := by
  intro g s u hu hb
  rw [exec_copyRaw, commandStep_start hu hb, checkRanges, settle_refuseIf, settle_refuseIf, settle_refuseIf]
  rw [clearOutput_srcLen, clearOutput_dstLen, DecUnit.startJob_srcLen, DecUnit.startJob_dstLen]
  split
  · rfl
  split
  · rfl
  split <;> rfl

end Sys2Proof.Machine
end

section
/-! PROOFS. The counters and offsets of a DECODE job (R7, R17, R22, R106): LITCNT and MLEN are paid for by the forward
bits that their symbols take, DIST comes from the VLC table, and each OFF[k] moves below TAIL only. -/

namespace Sys2Proof.Machine

section
variable {c : Config} {s : State} {u v x : DecUnit}

/-! ### The parts of R106's bounds -/

/-- What the forward bits taken so far have paid for, phase by phase: the working register that the phase goes on
with (R22, R106). -/
def workPaid (c : Config) (u : DecUnit) : Prop :=
  match u.phase with
  | .litcode => 2 * u.litcnt + 3 * forwardBits c u ≤ 96 * u.srcLen.toNat
  | .litcopy => 2 * u.litcnt + 3 * forwardBits c u ≤ 96 * u.srcLen.toNat + 2
  | .mlen2 => u.dist ≤ 27295
  | .mlenn | .mcopy => 4 * u.mlen + 15 * forwardBits c u ≤ 480 * u.srcLen.toNat + 24 ∧ u.dist ≤ 27295
  | _ => True

/-- Each OFF[k] is INIT_OFF[k], or a refill has moved it inside the packed bytes (R17, R74). -/
def offsetsOk (c : Config) (u : DecUnit) : Prop :=
  c.fwdMode = .independent →
    (u.off.c1 = c.initOff.c1 ∨ u.off.c1 ≤ u.srcLen.toNat) ∧ (u.off.c2 = c.initOff.c2 ∨ u.off.c2 ≤ u.srcLen.toNat)
      ∧ (u.off.cx = c.initOff.cx ∨ u.off.cx ≤ u.srcLen.toNat) ∧ (u.off.c4 = c.initOff.c4 ∨ u.off.c4 ≤ u.srcLen.toNat)

/-- R106's bounds in parts: the forward bits, the working registers and the offsets. -/
def jobPaid (c : Config) (u : DecUnit) : Prop :=
  forwardBits c u ≤ 32 * u.srcLen.toNat ∧ workPaid c u ∧ offsetsOk c u

theorem countersOk_iff : countersOk c u ↔ (u.state = .busy → decoding u.phase = true → jobPaid c u) := by
  unfold countersOk jobPaid workPaid offsetsOk
  cases u.phase <;> simp [and_assoc]

theorem countersOk_of_not_busy (h : u.state ≠ .busy) : countersOk c u := fun hb => absurd hb h

theorem countersOk_of_not_decoding (h : decoding u.phase = false) : countersOk c u := fun _ hd => by
  rw [h] at hd
  cases hd

/-! ### A symbol row -/

/-- The table's distances end at 27295 (R85, R98). -/
theorem vlcLookup_reach : ∀ i : BitVec 4, (vlcLookup i).2.toNat + 2 ^ (vlcLookup i).1.toNat ≤ 27296 := by decide

/-- The distance that MDIST forms from its extra bits (R98). -/
theorem mdist_reach {e : Nat} (hm : (u.mbl, u.mbase) = vlcLookup u.midx) (he : e < 2 ^ u.mbl.toNat) :
    u.mbase.toNat + e ≤ 27295 := by
  have h := vlcLookup_reach u.midx
  rw [← hm] at h
  dsimp only at h
  omega

theorem setDistance_workPaid {e : Nat} (hf : forwardBits c x ≤ 32 * x.srcLen.toNat) (he : x.mbase.toNat + e ≤ 27295) :
    workPaid c (setDistance e x) := by
  have paid : ∀ n, n ≤ 3 → 4 * n + 15 * forwardBits c x ≤ 480 * x.srcLen.toNat + 24 := fun n hn => by omega
  unfold setDistance
  simp only
  split
  · exact ⟨paid 2 (by omega), he⟩
  split
  · exact ⟨paid 3 (by omega), he⟩
  · exact he

/-- Each symbol pays for what it adds to LITCNT or MLEN with the bits that it takes (R94, R99, R100, R106). -/
theorem symbolMoved_workPaid (hc : cursorsOk u) (hm : u.phase = .mdist → (u.mbl, u.mbase) = vlcLookup u.midx)
    (hf : forwardBits c u ≤ 32 * u.srcLen.toNat) (hu : workPaid c u) (h : symbolMoved c u v) : workPaid c v := by
  obtain ⟨x, ⟨hx, -⟩, h⟩ := h
  have hsrc : x.srcLen.toNat = u.srcLen.toNat := by rw [hx]
  have hdist : x.dist = u.dist := by rw [hx]
  unfold workPaid at hu
  rcases h with ⟨-, -, rfl | rfl⟩ | ⟨-, hb, rfl | rfl⟩ | ⟨hp, -, hb, rfl | ⟨k, -, hk, rfl⟩⟩ | ⟨-, -, i, rfl⟩ |
    ⟨hp, hb, e, he, rfl⟩ | ⟨hp, hb, rfl | ⟨k, -, hk, rfl⟩⟩ | ⟨hp, -, hb, rfl | ⟨k, -, hk, rfl⟩⟩
  · trivial
  · trivial
  · show 2 * 0 + 3 * forwardBits c x ≤ 96 * x.srcLen.toNat
    omega
  · show 2 * 1 + 3 * forwardBits c x ≤ 96 * x.srcLen.toNat + 2
    omega
  · have hb := hb hc
    rw [hp] at hu
    show 2 * (u.litcnt + 3) + 3 * forwardBits c x ≤ 96 * x.srcLen.toNat
    omega
  · have hb := hb hc
    rw [hp] at hu
    show 2 * (u.litcnt + k) + 3 * forwardBits c x ≤ 96 * x.srcLen.toNat + 2
    omega
  · trivial
  · have hbase : x.mbase = u.mbase := by rw [hx]
    exact setDistance_workPaid (by omega) (hbase ▸ mdist_reach (hm hp) he)
  · rw [hp] at hu
    refine ⟨?_, hdist.trans_le hu⟩
    show 4 * 6 + 15 * forwardBits c x ≤ 480 * x.srcLen.toNat + 24
    omega
  · rw [hp] at hu
    refine ⟨?_, hdist.trans_le hu⟩
    show 4 * k + 15 * forwardBits c x ≤ 480 * x.srcLen.toNat + 24
    omega
  · have hb := hb hc
    rw [hp] at hu
    obtain ⟨hlen, hd⟩ := hu
    refine ⟨?_, hdist.trans_le hd⟩
    show 4 * (u.mlen + 15) + 15 * forwardBits c x ≤ 480 * x.srcLen.toNat + 24
    omega
  · have hb := hb hc
    rw [hp] at hu
    obtain ⟨hlen, hd⟩ := hu
    refine ⟨?_, hdist.trans_le hd⟩
    show 4 * (u.mlen + k) + 15 * forwardBits c x ≤ 480 * x.srcLen.toNat + 24
    omega

/-- Setting the working registers leaves the forward bits to come. -/
theorem forwardBits_workFrame (h : workFrame x v) : forwardBits c v = forwardBits c x := by
  rw [h]
  rfl

/-- A symbol row takes forward bits (R105). -/
theorem symbolMoved_forwardBits_lt (hm : u.phase = .mdist → 1 ≤ u.mbl.toNat) (h : symbolMoved c u v) :
    forwardBits c v < forwardBits c u := by
  obtain ⟨x, -, h⟩ := h
  rcases h with ⟨-, hb, rfl | rfl⟩ | ⟨-, hb, rfl | rfl⟩ | ⟨-, hb, -, rfl | ⟨k, -, -, rfl⟩⟩ | ⟨-, hb, i, rfl⟩ |
    ⟨hp, hb, e, -, rfl⟩ | ⟨-, hb, rfl | ⟨k, -, -, rfl⟩⟩ | ⟨-, hb, -, rfl | ⟨k, -, -, rfl⟩⟩
  case inr.inr.inr.inr.inl =>
    have hone := hm hp
    rw [forwardBits_workFrame (workFrame_setDistance e x)]
    omega
  all_goals
    change forwardBits c x < _
    omega

theorem forwardKept_offsetsOk (hk : forwardKept u v) (hs : v.srcLen = u.srcLen) (ht : u.tail ≤ u.srcLen.toNat)
    (hu : offsetsOk c u) : offsetsOk c v := by
  intro hm
  have h := hu hm
  unfold forwardKept at hk
  rw [hs]
  omega

theorem symbolMoved_jobPaid (hc : cursorsOk u) (hj : decodeJobOk c u) (hw : workOk u) (hu : jobPaid c u)
    (h : symbolMoved c u v) : jobPaid c v := by
  obtain ⟨hbits, hwork, hoff⟩ := hu
  obtain ⟨-, -, -, htail, -⟩ := hj
  obtain ⟨hmdist, -⟩ := hw
  obtain ⟨x, ⟨hx, -, hkept⟩, hv⟩ := symbolMoved_workFrame h
  have hsrc : v.srcLen = u.srcLen := by rw [hv, hx]
  have hlt := symbolMoved_forwardBits_lt (fun hp => ?_) h
  · refine ⟨by rw [hsrc]; omega, symbolMoved_workPaid hc hmdist hbits hwork h,
      forwardKept_offsetsOk ?_ hsrc htail hoff⟩
    rw [hv]
    exact hkept
  · have hmbl : u.mbl = (vlcLookup u.midx).1 := congrArg Prod.fst (hmdist hp)
    have := (vlcLookup_width u.midx).1
    rw [hmbl]
    omega

/-! ### Every step -/

/-- A row without a symbol takes no forward bit back, and goes to a phase that uses no working register. -/
theorem jobPaid_of_blockFrame (h : blockFrame u v) (ht : v.tail ≤ u.tail) (hw : workPaid c v) (hu : jobPaid c u) :
    jobPaid c v := by
  obtain ⟨hbits, -, hoff⟩ := hu
  have hle : forwardBits c v ≤ forwardBits c u := by
    refine forwardBits_frame c ?_ ?_ ?_ ?_ ?_ ?_ ht <;> rw [h]
  have hsrc : v.srcLen = u.srcLen := by rw [h]
  refine ⟨by rw [hsrc]; omega, hw, ?_⟩
  rw [h]
  exact hoff

theorem unitMoved_countersOk (hc : cursorsOk u) (hj : jobOk c u) (hu : countersOk c u) (hb : u.state = .busy)
    (h : unitMoved c u v) : countersOk c v := by
  have hpaid := countersOk_iff.mp hu hb
  refine countersOk_iff.mpr fun hvb hvd => ?_
  rcases h with h | ⟨hp, -, x, hx, rfl⟩ | ⟨-, -, rfl⟩ | ⟨hp, -, rfl⟩ | ⟨hp, hd, hw, -, x, hx, rfl⟩ | ⟨-, x, -, rfl⟩
  · obtain ⟨hdu, -⟩ := symbolMoved_decoding h
    obtain ⟨hjob, hwork⟩ := jobOk_decoding hj hb hdu
    exact symbolMoved_jobPaid hc hjob hwork (hpaid hdu) h
  · obtain ⟨hv, -⟩ := copyLiterals_ok hx
    refine jobPaid_of_blockFrame ?_ ?_ trivial (hpaid (by rw [hp]; rfl)) <;> rw [hv]
    · rfl
    · exact Nat.sub_le _ _
  · exact absurd hvb (finish_not_busy u)
  · exact jobPaid_of_blockFrame rfl (Nat.le_refl _) trivial (hpaid (by rw [hp]; rfl))
  · obtain ⟨hv, -⟩ := copyMatch_ok hx hd hw
    refine jobPaid_of_blockFrame ?_ ?_ trivial (hpaid (by rw [hp]; rfl)) <;> rw [hv]
    · rfl
    · exact Nat.le_refl _
  · exact absurd hvb (finish_not_busy _)

/-- A DECODE job starts with no bit pending, and with at most 8 * SRC_LEN for each forward index (R73). -/
theorem jobPaid_cursorInit : jobPaid c (((cursorInit c u).setWp 0).goto .ctrl) := by
  refine ⟨?_, trivial, ?_⟩
  · unfold forwardBits cursorInit
    cases c.fwdMode <;> simp <;> omega
  · intro hm
    simp [cursorInit, hm]

theorem unitStarted_countersOk (h : unitStarted s u v) : countersOk s.cfg v := by
  rcases h with ⟨op, d, p, -, rfl⟩ | ⟨op, d, p, -, rfl⟩ | ⟨-, -, rfl⟩ | ⟨-, -, -, rfl⟩ | ⟨-, -, rfl⟩ | ⟨-, -, -, -, rfl⟩
  · exact countersOk_of_not_busy nofun
  · exact countersOk_of_not_busy nofun
  · exact countersOk_iff.mpr fun _ _ => jobPaid_cursorInit
  all_goals exact countersOk_of_not_decoding rfl

theorem unitStepped_countersOk (hc : cursorsOk u) (hj : jobOk s.cfg u) (hu : countersOk s.cfg u)
    (h : unitStepped s u v) : countersOk s.cfg v := by
  rcases h with ⟨off, w, rfl⟩ | ⟨hb, a, bytes, -, rfl⟩ | ⟨-, h⟩ | ⟨hb, h⟩ | ⟨-, -, rfl⟩ | ⟨-, -, d, p, -, rfl⟩
  · by_cases hb : u.state = .busy
    · rwa [writeReg_busy u off w hb]
    · obtain ⟨_, _, _, _, _, _, hw⟩ := writeReg_keeps u off w
      rw [hw]
      exact countersOk_of_not_busy hb
  · exact countersOk_of_not_busy hb
  · exact unitStarted_countersOk h
  · exact unitMoved_countersOk hc hj hu hb h
  · exact countersOk_of_not_busy (finish_not_busy u)
  · exact countersOk_of_not_busy nofun

/-! ### R7's bound -/

/-- What R7 bounds: the forward indices with TAIL and WP, and the working counters. -/
def positionsBelow (u : DecUnit) : Prop :=
  (u.fwd < 2 ^ 32 ∧ u.off.c1 < 2 ^ 32 ∧ u.off.c2 < 2 ^ 32 ∧ u.off.cx < 2 ^ 32 ∧ u.off.c4 < 2 ^ 32)
    ∧ u.tail < 2 ^ 32 ∧ u.wp < 2 ^ 32

@[inherit_doc positionsBelow] def workBelow (u : DecUnit) : Prop :=
  u.litcnt < 2 ^ 32 ∧ u.dist < 2 ^ 32 ∧ u.mlen < 2 ^ 32

theorem belowWord_iff : belowWord u ↔ positionsBelow u ∧ workBelow u := by
  unfold belowWord positionsBelow workBelow
  simp only [and_assoc]

theorem belowWord_of_blockFrame (h : blockFrame u v) (ht : v.tail ≤ u.tail) (hw : v.wp < 2 ^ 32) (hu : belowWord u) :
    belowWord v := by
  obtain ⟨⟨hfwd, htail, -⟩, hwork⟩ := belowWord_iff.mp hu
  refine belowWord_iff.mpr ⟨⟨?_, by omega, hw⟩, ?_⟩ <;> rw [h]
  · exact hfwd
  · exact hwork

theorem belowWord_finish (hu : belowWord u) : belowWord u.finish := by
  obtain ⟨⟨-, -, hwp⟩, -⟩ := belowWord_iff.mp hu
  exact belowWord_of_blockFrame (blockFrame_finish u) (Nat.le_of_eq (DecUnit.finish_tail u))
    ((DecUnit.finish_wp u).trans_lt hwp) hu

theorem positionsBelow_read (hx : readKeeps u x) (hu : positionsBelow u) : positionsBelow x := by
  obtain ⟨hcur, -, hkept⟩ := hx
  have hwp := cursorsOnly_wp hcur
  have htail := cursorsOnly_tail hcur
  unfold forwardKept at hkept
  unfold positionsBelow at *
  omega

theorem setDistance_workBelow {e : Nat} (he : x.mbase.toNat + e ≤ 27295) (hx : workBelow x) :
    workBelow (setDistance e x) := by
  obtain ⟨hlit, -, hlen⟩ := hx
  have hdist : x.mbase.toNat + e < 2 ^ 32 := by omega
  unfold setDistance
  simp only
  split
  · exact ⟨hlit, hdist, (by omega : 2 < 2 ^ 32)⟩
  split
  · exact ⟨hlit, hdist, (by omega : 3 < 2 ^ 32)⟩
  · exact ⟨hlit, hdist, hlen⟩

/-- PM holds fewer than 2^25 bytes, so what the forward bits pay for stays below 2^32 (R6, R7, R106). -/
theorem symbolMoved_workBelow (hsrc : u.srcLen.toNat < 2 ^ 25)
    (hm : u.phase = .mdist → (u.mbl, u.mbase) = vlcLookup u.midx) (hpaid : workPaid c v) (hu : workBelow u)
    (h : symbolMoved c u v) : workBelow v := by
  obtain ⟨x, ⟨hx, -⟩, h⟩ := h
  have hxs : x.srcLen.toNat = u.srcLen.toNat := by rw [hx]
  have hxw : workBelow x := by rw [hx]; exact hu
  obtain ⟨hlit, hdist, hlen⟩ := hxw
  rcases h with ⟨-, -, rfl | rfl⟩ | ⟨-, -, rfl | rfl⟩ | ⟨-, -, -, rfl | ⟨k, -, -, rfl⟩⟩ | ⟨-, -, i, rfl⟩ |
    ⟨hp, -, e, he, rfl⟩ | ⟨-, -, rfl | ⟨k, -, hk, rfl⟩⟩ | ⟨-, -, -, rfl | ⟨k, -, -, rfl⟩⟩
  · exact ⟨hlit, hdist, hlen⟩
  · exact ⟨hlit, hdist, hlen⟩
  · exact ⟨(by omega : 0 < 2 ^ 32), hdist, hlen⟩
  · exact ⟨(by omega : 1 < 2 ^ 32), hdist, hlen⟩
  · have hpaid : 2 * (u.litcnt + 3) + 3 * forwardBits c x ≤ 96 * x.srcLen.toNat := hpaid
    exact ⟨(by omega : u.litcnt + 3 < 2 ^ 32), hdist, hlen⟩
  · have hpaid : 2 * (u.litcnt + k) + 3 * forwardBits c x ≤ 96 * x.srcLen.toNat + 2 := hpaid
    exact ⟨(by omega : u.litcnt + k < 2 ^ 32), hdist, hlen⟩
  · exact ⟨hlit, hdist, hlen⟩
  · have hbase : x.mbase = u.mbase := by rw [hx]
    exact setDistance_workBelow (hbase ▸ mdist_reach (hm hp) he) ⟨hlit, hdist, hlen⟩
  · exact ⟨hlit, hdist, (by omega : 6 < 2 ^ 32)⟩
  · exact ⟨hlit, hdist, (by omega : k < 2 ^ 32)⟩
  · have hpaid : 4 * (u.mlen + 15) + 15 * forwardBits c x ≤ 480 * x.srcLen.toNat + 24 := hpaid.1
    exact ⟨hlit, hdist, (by omega : u.mlen + 15 < 2 ^ 32)⟩
  · have hpaid : 4 * (u.mlen + k) + 15 * forwardBits c x ≤ 480 * x.srcLen.toNat + 24 := hpaid.1
    exact ⟨hlit, hdist, (by omega : u.mlen + k < 2 ^ 32)⟩

theorem pmSize_lt (hv : paramsValid c = true) : c.pmSize < 2 ^ 25 := by
  simp only [paramsValid, Bool.and_eq_true, decide_eq_true_eq] at hv
  obtain ⟨⟨⟨⟨-, -, h⟩, -⟩, -⟩, -⟩ := hv
  exact h

theorem initOff_lt (hv : paramsValid c = true) :
    c.initOff.c1 < 2 ^ 32 ∧ c.initOff.c2 < 2 ^ 32 ∧ c.initOff.cx < 2 ^ 32 ∧ c.initOff.c4 < 2 ^ 32 := by
  simp only [paramsValid, Bool.and_eq_true, decide_eq_true_eq, and_assoc] at hv
  obtain ⟨-, -, -, -, -, -, h⟩ := hv
  exact h

theorem symbolMoved_belowWord (hv : paramsValid c = true) (hc : cursorsOk u) (hj : decodeJobOk c u) (hw : workOk u)
    (hpaid : jobPaid c u) (hu : belowWord u) (h : symbolMoved c u v) : belowWord v := by
  obtain ⟨hpos, hwork⟩ := belowWord_iff.mp hu
  obtain ⟨-, hvpaid, -⟩ := symbolMoved_jobPaid hc hj hw hpaid h
  obtain ⟨x, hx, hvx⟩ := symbolMoved_workFrame h
  obtain ⟨-, -, -, -, hsrc, -⟩ := hj
  refine belowWord_iff.mpr ⟨?_, symbolMoved_workBelow (hsrc.trans_lt (pmSize_lt hv)) hw.1 hvpaid hwork h⟩
  have hxpos := positionsBelow_read hx hpos
  rw [hvx]
  exact hxpos

theorem unitMoved_belowWord (hv : paramsValid c = true) (hc : cursorsOk u) (hj : jobOk c u) (hk : countersOk c u)
    (hb : u.state = .busy) (hu : belowWord u) (h : unitMoved c u v) : belowWord v := by
  have hdst := u.dstLen.isLt
  rcases h with h | ⟨-, hr, x, hx, rfl⟩ | ⟨-, -, rfl⟩ | ⟨-, -, rfl⟩ | ⟨-, hd, hw, hr, x, hx, rfl⟩ | ⟨-, x, hx, rfl⟩
  · obtain ⟨hdu, -⟩ := symbolMoved_decoding h
    obtain ⟨hjob, hwork⟩ := jobOk_decoding hj hb hdu
    exact symbolMoved_belowWord hv hc hjob hwork (countersOk_iff.mp hk hb hdu) hu h
  · obtain ⟨hv, -⟩ := copyLiterals_ok hx
    refine belowWord_of_blockFrame ?_ ?_ ?_ hu <;> rw [hv]
    · rfl
    · exact Nat.sub_le _ _
    · exact hr.trans_lt hdst
  · exact belowWord_finish hu
  · exact hu
  · obtain ⟨hv, -⟩ := copyMatch_ok hx hd hw
    refine belowWord_of_blockFrame ?_ ?_ ?_ hu <;> rw [hv]
    · rfl
    · exact Nat.le_refl _
    · exact hr.trans_lt hdst
  · obtain ⟨hv, -⟩ := copyRawFrom_ok hx
    refine belowWord_of_blockFrame (copyRawFrom_frame hx).1 ?_ ?_ hu
    · rw [DecUnit.finish_tail, hv]
      exact Nat.le_refl _
    · rw [DecUnit.finish_wp, DecUnit.setWp_wp]
      exact x.dstLen.isLt

theorem unitStarted_belowWord (hv : paramsValid s.cfg = true) (hu : belowWord u) (h : unitStarted s u v) :
    belowWord v := by
  obtain ⟨hpos, hwork⟩ := belowWord_iff.mp hu
  obtain ⟨hfwd, htail, -⟩ := hpos
  rcases h with ⟨op, d, p, -, rfl⟩ | ⟨op, d, p, -, rfl⟩ | ⟨-, -, rfl⟩ | ⟨-, -, -, rfl⟩ | ⟨-, -, rfl⟩ | ⟨-, -, -, -, rfl⟩
  · exact hu
  · exact hu
  · have hinit := initOff_lt hv
    have hsrc := u.srcLen.isLt
    refine belowWord_iff.mpr ⟨⟨?_, ?_, (by omega : 0 < 2 ^ 32)⟩, ?_⟩ <;> unfold cursorInit <;>
      cases s.cfg.fwdMode
    · exact ⟨(by omega : 0 < 2 ^ 32), hfwd.2⟩
    · exact ⟨hfwd.1, hinit⟩
    · exact hsrc
    · exact hsrc
    · exact hwork
    · exact hwork
  · exact belowWord_iff.mpr ⟨⟨hfwd, htail, (by omega : 0 < 2 ^ 32)⟩, hwork⟩
  · exact hu
  · exact hu

theorem unitStepped_belowWord (hv : paramsValid s.cfg = true) (hc : cursorsOk u) (hj : jobOk s.cfg u)
    (hk : countersOk s.cfg u) (hu : belowWord u) (h : unitStepped s u v) : belowWord v := by
  rcases h with ⟨off, w, rfl⟩ | ⟨-, a, bytes, -, rfl⟩ | ⟨-, h⟩ | ⟨hb, h⟩ | ⟨-, -, rfl⟩ | ⟨-, -, d, p, -, rfl⟩
  · obtain ⟨_, _, _, _, _, _, hw⟩ := writeReg_keeps u off w
    rw [hw]
    exact hu
  · exact hu
  · exact unitStarted_belowWord hv hu h
  · exact unitMoved_belowWord hv hc hj hk hb hu h
  · exact belowWord_finish hu
  · exact hu

/-! ### The bounds of R106 -/

theorem litcnt_le_of_workPaid (h : workPaid c u) (hp : u.phase = .litcode ∨ u.phase = .litcopy) :
    u.litcnt ≤ 48 * u.srcLen.toNat + 4 := by
  unfold workPaid at h
  rcases hp with hp | hp <;> rw [hp] at h <;> dsimp only at h <;> omega

theorem mlen_le_of_workPaid (h : workPaid c u) (hp : u.phase = .mlenn ∨ u.phase = .mcopy) :
    u.mlen ≤ 6 + 120 * u.srcLen.toNat := by
  unfold workPaid at h
  rcases hp with hp | hp <;> rw [hp] at h <;> dsimp only at h <;> omega

theorem dist_le_of_workPaid (h : workPaid c u) (hp : u.phase = .mlen2 ∨ u.phase = .mlenn ∨ u.phase = .mcopy) :
    u.dist ≤ 27295 := by
  unfold workPaid at h
  rcases hp with hp | hp | hp <;> rw [hp] at h
  · exact h
  · exact h.2
  · exact h.2

/-- In independent mode each OFF[k] is INIT_OFF[k] or in the packed bytes, and below TAIL under R82's condition. -/
theorem offsets_bounded (hv : paramsValid c = true) (hm : c.fwdMode = .independent) (hu : offsetsOk c u)
    (hhi : c.fwdMode = .shared ∨ initHi c ≤ u.srcLen.toNat → fwdHi c u ≤ u.tail) :
    ∀ x ∈ [(u.off.c1, c.initOff.c1), (u.off.c2, c.initOff.c2), (u.off.cx, c.initOff.cx), (u.off.c4, c.initOff.c4)],
      (x.1 = x.2 ∨ x.1 ≤ u.srcLen.toNat) ∧ x.1 < 2 ^ 32 ∧ (initHi c ≤ u.srcLen.toNat → x.1 ≤ u.tail) := by
  obtain ⟨h1, h2, hx, h4⟩ := hu hm
  obtain ⟨i1, i2, ix, i4⟩ := initOff_lt hv
  have hsrc := u.srcLen.isLt
  have hhi := fun h => hhi (.inr h)
  simp only [fwdHi, hm] at hhi
  simp only [List.forall_mem_cons, List.not_mem_nil, false_implies, implies_true, and_true]
  exact ⟨⟨h1, by omega, fun h => by have := hhi h; omega⟩, ⟨h2, by omega, fun h => by have := hhi h; omega⟩,
    ⟨hx, by omega, fun h => by have := hhi h; omega⟩, ⟨h4, by omega, fun h => by have := hhi h; omega⟩⟩

end

/-- Settles O53: unit by unit, the bounds are kept together with R15 and the job that they lean on; R106's numbers are
read off them. -/
theorem countersStayBounded : Obligations.CountersStayBounded := by
  refine ⟨fun s t hc hj hk h => ?_, fun c u hv hj hk hb hd => ?_⟩
  · have hv : paramsValid s.cfg = true := (step_next_cases h).1
    have hcounters := step_units_invariant
      (P := fun c u => cursorsOk u ∧ (jobOk c u ∧ outputOk c u) ∧ countersOk c u)
      (fun c => ⟨reset_cursorsOk, reset_jobOk c, countersOk_of_not_busy reset_not_busy⟩)
      (fun s u v ⟨huc, huj, huk⟩ hs =>
        ⟨unitStepped_cursorsOk huc hs, unitStepped_jobOk huj hs, unitStepped_countersOk huc huj.1 huk hs⟩)
      (fun u hu => ⟨hc u hu, hj u hu, hk u hu⟩) h
    refine ⟨fun u hu => let ⟨_, _, huk⟩ := hcounters u hu; huk, fun hw v hvm => ?_⟩
    rcases (step_unit_cases h).2 v hvm with hm | rfl | ⟨u, hu, hs⟩
    · exact hw v hm
    · exact reset_belowWord
    · exact unitStepped_belowWord hv (hc u hu) (hj u hu).1 (hk u hu) (hw u hu) hs
  · obtain ⟨-, hwork, hoff⟩ := countersOk_iff.mp hk hb hd
    obtain ⟨⟨-, -, hhi, htail, hsrc, hwp, hdst, -⟩, -⟩ := jobOk_decoding hj hb hd
    have hpm := pmSize_lt hv
    have hdlt := u.dstLen.isLt
    refine ⟨fun hp => ?_, fun hp => ?_, dist_le_of_workPaid hwork, hwp, hdst, by omega, htail, by omega, fun hm => ?_,
      fun hm => offsets_bounded hv hm hoff hhi⟩
    · have := litcnt_le_of_workPaid hwork hp
      exact ⟨this, by omega⟩
    · have := mlen_le_of_workPaid hwork hp
      exact ⟨this, by omega⟩
    · have := hhi (.inl hm)
      simp only [fwdHi, hm] at this
      exact ⟨this, by omega⟩

end Sys2Proof.Machine
end

section
/-! PROOFS. A DECODE job run by its unit's own steps ends (R102, R104, R105): each step lowers `decodeMeasure`, and a
job whose packed bytes are written never stops. -/

namespace Sys2Proof.Machine

section
variable {c : Config} {s t : State} {u v x : DecUnit} {f : Fault}

/-! ### A job in progress -/

/-- A DECODE job in progress, in its ranges (R88, R91), with no output announced (R29). -/
def jobRuns (c : Config) (u : DecUnit) : Prop :=
  u.state = .busy ∧ decoding u.phase = true ∧ jobOk c u ∧ u.omLen = 0

/-- A completed step of the job leaves it in progress, or is the ENDCHK of a full output (R96). -/
theorem unitMoved_jobRuns (hu : jobRuns c u) (h : unitMoved c u v) :
    jobRuns c v ∨ (v = u.finish ∧ u.wp = u.dstLen.toNat) := by
  obtain ⟨hb, hd, hj, hlen⟩ := hu
  have hjv := (unitMoved_jobOk hj hb h).1
  have goes : statusSame u v → decoding v.phase = true → jobRuns c v := fun ⟨hs, _, _, _, _, hl⟩ hp =>
    ⟨hs.trans hb, hp, hjv, hl.trans hlen⟩
  rcases h with h | ⟨-, -, x, hx, rfl⟩ | ⟨-, hw, rfl⟩ | ⟨-, -, rfl⟩ | ⟨-, hd, hw, -, x, hx, rfl⟩ | ⟨hp, -⟩
  · obtain ⟨x, hx, hv⟩ := symbolMoved_workFrame h
    exact .inl (goes (statusSame_of_read hx hv) (symbolMoved_decoding h).2)
  · refine .inl (goes ?_ rfl)
    rw [(copyLiterals_ok hx).1]
    exact ⟨rfl, rfl, rfl, rfl, rfl, rfl⟩
  · exact .inr ⟨rfl, hw⟩
  · exact .inl (goes ⟨rfl, rfl, rfl, rfl, rfl, rfl⟩ rfl)
  · refine .inl (goes ?_ rfl)
    rw [(copyMatch_ok hx hd hw).1]
    exact ⟨rfl, rfl, rfl, rfl, rfl, rfl⟩
  · rw [hp] at hd
    cases hd

theorem jobRuns_omLen_le_wp (hu : jobRuns c u) : u.omLen.toNat ≤ u.wp := by
  obtain ⟨-, -, -, hlen⟩ := hu
  rw [hlen]
  exact Nat.zero_le _

/-- No step of a job writes its lengths or PM. -/
theorem unitMoved_source (h : unitMoved c u v) : v.srcLen = u.srcLen ∧ v.dstLen = u.dstLen ∧ v.pm = u.pm := by
  rcases unitMoved_frame h with ⟨x, ⟨hx, -⟩, hv⟩ | hv
  · rw [hv, hx]
    exact ⟨rfl, rfl, rfl⟩
  · rw [hv]
    exact ⟨rfl, rfl, rfl⟩

/-- A job stops only on a packed byte that the host has not written (R39, R41). Unlike `phaseBody_stop` it asks nothing
of the parameters and the image, which a DECODE job does not read. -/
theorem jobRuns_stop (hu : jobRuns s.cfg u) (h : phaseBody s u = .stop f) : stopsInSource u f := by
  obtain ⟨hb, hd, hj, -⟩ := hu
  obtain ⟨hj, -⟩ := jobOk_decoding hj hb hd
  unfold phaseBody at h
  cases hp : u.phase <;> rw [hp] at h hd
  case none | rawcopy | imgclear | fold => cases hd
  case endchk => cases h
  case ctrl | litsel => exact stopsInSource_of_tail hj (read1_stop (Res.map_eq_stop.mp h))
  case litcode | mlen2 => exact stopsInSource_of_tail hj (read2_stop (Res.map_eq_stop.mp h))
  case midx | mlenn => exact stopsInSource_of_tail hj (read4_stop (Res.map_eq_stop.mp h))
  case mdist => exact stopsInSource_of_tail hj (readX_stop (Res.map_eq_stop.mp h))
  case litcopy => exact literalBody_stop hj (Res.map_eq_stop.mp h)
  case mcopy => exact absurd (Res.map_eq_stop.mp h) (matchBody_ne_stop hj)

/-- A completed step of a job leaves the shared state alone. -/
theorem jobRuns_ok {r : State} (hu : jobRuns s.cfg u) (h : phaseBody s u = .ok r) :
    ∃ v, unitMoved s.cfg u v ∧ r = s.setUnit v := by
  obtain ⟨-, hd, -⟩ := hu
  rcases phaseBody_ok h with h | ⟨hp, -⟩ | ⟨hp, -⟩
  · exact h
  · rw [hp] at hd
    cases hd
  · rw [hp] at hd
    cases hd

/-! ### The measure of R105 -/

theorem decodeMeasure_lt_of_paid
    (h : forwardBits c v + (v.dstLen.toNat - v.wp) < forwardBits c u + (u.dstLen.toNat - u.wp)) :
    decodeMeasure c v < decodeMeasure c u := by
  unfold decodeMeasure
  split <;> split <;> omega

/-- Every step that leaves the job in progress takes a forward bit, writes an output byte, or leaves ENDCHK. -/
theorem unitMoved_measure_lt (hu : jobRuns c u) (h : unitMoved c u v) (hv : v.state = .busy) :
    decodeMeasure c v < decodeMeasure c u := by
  obtain ⟨hb, hd, hj, -⟩ := hu
  obtain ⟨-, -, hlit, -, hmatch⟩ := jobOk_decoding hj hb hd
  rcases h with h | ⟨hp, hr, x, hx, rfl⟩ | ⟨-, -, rfl⟩ | ⟨hp, -, rfl⟩ | ⟨hp, hd, hw, hr, x, hx, rfl⟩ | ⟨-, x, -, rfl⟩
  · have hlt := symbolMoved_forwardBits_lt (fun hp => by have := (mbl_of_jobOk hj hb hp).1; omega) h
    obtain ⟨-, hdst, -⟩ := unitMoved_source (.inl h)
    obtain ⟨x, ⟨hx, -⟩, hvx⟩ := symbolMoved_workFrame h
    have hwp : v.wp = u.wp := by rw [hvx, hx]
    exact decodeMeasure_lt_of_paid (by rw [hdst, hwp]; omega)
  · have hone := hlit hp
    refine decodeMeasure_lt_of_paid ?_
    rw [(copyLiterals_ok hx).1]
    refine Nat.add_lt_add_of_le_of_lt (forwardBits_frame c rfl rfl rfl rfl rfl rfl (Nat.sub_le _ _)) ?_
    show u.dstLen.toNat - (u.wp + u.litcnt) < _
    omega
  · exact absurd hv (finish_not_busy u)
  · show 2 * (forwardBits c u + (u.dstLen.toNat - u.wp)) + 0 < decodeMeasure c u
    rw [decodeMeasure, if_pos hp]
    exact Nat.lt_succ_self _
  · have htwo := hmatch hp
    refine decodeMeasure_lt_of_paid ?_
    rw [(copyMatch_ok hx hd hw).1]
    show forwardBits c u + (u.dstLen.toNat - (u.wp + u.mlen)) < _
    omega
  · exact absurd hv (finish_not_busy _)

/-! ### The unit's own steps -/

theorem soloRun_succ {n : Nat} (h : soloStep s = .next t) : soloRun (n + 1) s = soloRun n t := by
  rw [soloRun, h]

theorem soloStep_jobRuns (hu : s.units[s.cur]? = some u) (hn : isStopped s.stopped s.cur = false)
    (hr : jobRuns s.cfg u) : soloStep s = recordStop s (settle s u (phaseBody s u)) := by
  obtain ⟨hb, -, hj, -⟩ := hr
  exact soloStep_run hu hb hn (mbl_of_jobOk hj hb)

/-- How a DECODE job of u's lengths has ended: a full valid output, or FAULT without an output (R29, R102, R104). -/
def jobEnded (u v : DecUnit) : Prop :=
  v.state = .done ∧ v.wp = u.dstLen.toNat ∧ v.omValid = true ∧ v.omLen = u.dstLen ∧ writtenBelow v.om u.dstLen.toNat
    ∨ v.state = .fault ∧ v.omValid = false ∧ v.omLen = 0

theorem jobEnded_finish (hu : jobRuns c u) (hw : u.wp = u.dstLen.toNat) : jobEnded u u.finish := by
  obtain ⟨hb, hd, hj, -⟩ := hu
  obtain ⟨⟨hop, -, -, -, -, -, -, hom⟩, -⟩ := jobOk_decoding hj hb hd
  refine .inl ⟨DecUnit.finish_state u, (DecUnit.finish_wp u).trans hw, ?_, ?_, ?_⟩
  · rw [DecUnit.finish_omValid, if_pos (.inl hop)]
  · rw [DecUnit.finish_omLen, if_pos (.inl hop)]
  · rw [DecUnit.finish_om, ← hw]
    exact hom

theorem jobEnded_enterFault (hu : jobRuns c u) (d : Cause) (p : Nat) : jobEnded u (u.enterFault d p) := by
  obtain ⟨hb, hd, hj, hlen⟩ := hu
  obtain ⟨⟨-, hv, -⟩, -⟩ := jobOk_decoding hj hb hd
  exact .inr ⟨rfl, hv, hlen⟩

/-- A job whose packed bytes are written ends within its measure. -/
theorem soloRun_ends (hu : s.units[s.cur]? = some u) (hn : isStopped s.stopped s.cur = false) (hr : jobRuns s.cfg u)
    (hpm : writtenBelow u.pm u.srcLen.toNat) : ∃ n t v, n ≤ decodeMeasure s.cfg u + 1 ∧ soloRun n s = .next t
      ∧ t.units[s.cur]? = some v ∧ t.stopped = s.stopped ∧ jobEnded u v := by
  induction hm : decodeMeasure s.cfg u using Nat.strongRecOn generalizing s u with
  | ind m ih =>
    have hstep := soloStep_jobRuns hu hn hr
    cases hb : phaseBody s u with
    | ok r =>
      obtain ⟨v, hv, rfl⟩ := jobRuns_ok hr hb
      rw [hb] at hstep
      have hv' := State.setUnit_unit? s u v hu
      rcases unitMoved_jobRuns hr hv with hvr | ⟨rfl, hw⟩
      · have hlt := unitMoved_measure_lt hr hv hvr.1
        obtain ⟨hsrc, hdst, hpmv⟩ := unitMoved_source hv
        obtain ⟨n, t, w, hle, hrun, ht, hst, hend⟩ := ih _ (hm ▸ hlt) (s := s.setUnit v) hv' hn hvr
          (by rwa [hpmv, hsrc]) rfl
        rw [State.setUnit_cfg] at hle
        refine ⟨n + 1, t, w, by omega, (soloRun_succ hstep).trans hrun, ht, hst, ?_⟩
        unfold jobEnded at hend
        rwa [hdst] at hend
      · exact ⟨1, _, _, by omega, soloRun_succ hstep, hv', rfl, jobEnded_finish hr hw⟩
    | raise d p =>
      rw [hb] at hstep
      exact ⟨1, _, _, by omega, soloRun_succ hstep, State.setUnit_unit? s u _ hu, rfl, jobEnded_enterFault hr d p⟩
    | stop f =>
      obtain ⟨i, -, hi, hnone⟩ := jobRuns_stop hr hb
      exact absurd hnone (hpm i hi)
    | refuse e => exact absurd hb phaseBody_ne_refuse

/-! ### The start of a job -/

theorem decodeStarted_eq (c : Config) (u : DecUnit) : decodeStarted c u =
    { u with
      state := .busy, lastOp := 1, errKind := .none, errCause := .none, errPos := 0, omValid := false, omLen := 0
      c1 := ⟨0, 0⟩, c2 := ⟨0, 0⟩, cx := ⟨0, 0⟩, c4 := ⟨0, 0⟩, tail := u.srcLen.toNat, wp := 0, phase := .ctrl
      fwd := if c.fwdMode = .shared then 0 else u.fwd
      off := if c.fwdMode = .shared then u.off else c.initOff } := by
  rw [decodeStarted, cursorInit_eq]
  rfl

theorem jobRuns_decodeStarted (hs : u.srcLen.toNat ≤ c.pmSize) (hd : u.dstLen.toNat ≤ c.omSize) :
    jobRuns c (decodeStarted c u) := by
  have hj := jobOk_of_decoding (u := decodeStarted c u) rfl (decodeJobOk_start rfl rfl hs hd)
    (workOk_of_phase (by simp [decodeStarted]))
  refine ⟨?_, rfl, hj.1, ?_⟩ <;> rw [decodeStarted_eq]

/-- R105's bound, at the start of a job. -/
theorem decodeMeasure_decodeStarted_le :
    decodeMeasure c (decodeStarted c u) ≤ 2 * (32 * u.srcLen.toNat + u.dstLen.toNat) := by
  have hbits : forwardBits c (decodeStarted c u) ≤ 32 * (decodeStarted c u).srcLen.toNat := jobPaid_cursorInit.1
  have hp : (decodeStarted c u).phase ≠ .endchk := nofun
  rw [decodeMeasure, if_neg hp]
  generalize forwardBits c (decodeStarted c u) = b at hbits
  rw [decodeStarted_eq] at hbits ⊢
  dsimp only at hbits ⊢
  omega

/-- A DECODE whose ranges are right, run by its unit alone, is the run of the started job. -/
theorem decodeRun_started (n : Nat) (hu : s.units[s.cur]? = some u) (hb : u.state ≠ .busy)
    (hs : u.srcLen.toNat ≤ s.cfg.pmSize) (hd : u.dstLen.toNat ≤ s.cfg.omSize) :
    decodeRun n s = soloRun n (s.setUnit (decodeStarted s.cfg u)) := by
  rw [decodeRun, exec_decode_start 0 hu hb, if_neg (Nat.not_lt.mpr hs), if_neg (Nat.not_lt.mpr hd)]

end

/-- Settles O58: the started job runs within its measure, which R105 bounds. -/
theorem decodeJobEnds : Obligations.DecodeJobEnds := by
  intro s u hu hb hst hs hd hpm
  have hn : isStopped s.stopped s.cur = false := isStopped_eq_false.mpr (not_stopped_of_not_busy hst hu hb)
  have hle := decodeMeasure_decodeStarted_le (c := s.cfg) (u := u)
  obtain ⟨n, t, v, hn', hrun, hv, hstop, hend⟩ := soloRun_ends (s := s.setUnit (decodeStarted s.cfg u))
    (State.setUnit_unit? s u _ hu) hn (jobRuns_decodeStarted hs hd) (by rw [decodeStarted_eq]; exact hpm)
  refine ⟨n, t, v, ?_, (decodeRun_started n hu hb hs hd).trans hrun, hv, hstop, ?_⟩
  · rw [State.setUnit_cfg] at hn'
    omega
  · rw [decodeStarted_eq] at hend
    exact hend

end Sys2Proof.Machine
end

section
/-! PROOFS. The outcome of a DECODE job is determined by its lengths and its packed bytes (R41, R103, R160): two jobs that
agree on them differ by a graft throughout, and what is grafted on never shows. -/

namespace Sys2Proof.Machine

section
variable {c : Config} {s s' : State} {d u v x : DecUnit}

/-! ### Two jobs that run alike -/

/-- The packed bytes and the output so far are the same: PM below SRC_LEN and OM below WP. -/
def dataAlike (d u : DecUnit) : Prop :=
  (∀ i, i < u.srcLen.toNat → d.pm.read i = u.pm.read i) ∧ ∀ a, a < u.wp → d.om.read a = u.om.read a

/-- The working registers that the next steps use are the same (R22). -/
def workAlike (d u : DecUnit) : Prop :=
  match u.phase with
  | .litcode | .litcopy => d.litcnt = u.litcnt
  | .mdist => d.midx = u.midx ∧ d.mbl = u.mbl ∧ d.mbase = u.mbase
  | .mlen2 => d.dist = u.dist
  | .mlenn | .mcopy => d.dist = u.dist ∧ d.mlen = u.mlen
  | _ => True

/-- What d must share with u for the job of u with d grafted on to run like that of u. -/
def jobAlike (d u : DecUnit) : Prop := dataAlike d u ∧ workAlike d u

/-- Outcomes of one step of the two jobs: both complete, and what was grafted still need not show, or both raise alike,
or both stop alike. -/
def turnsAlike (s s' : State) (x y : Res State) : Prop :=
  (∃ v d, x = .ok (s.setUnit v) ∧ y = .ok (s'.setUnit (graft s.cfg d v)) ∧ jobAlike d v)
    ∨ (∃ e p, x = .raise e p ∧ y = .raise e p) ∨ ∃ f, x = .stop f ∧ y = .stop f

theorem dataAlike_read (h : cursorsOnly u x) (hd : dataAlike d u) : dataAlike d x := by
  rw [h]
  exact hd

theorem pmAgrees_of_dataAlike (hj : decodeJobOk c u) (hd : dataAlike d u) : pmAgrees d u := by
  obtain ⟨-, -, -, htail, -⟩ := hj
  exact fun i hi => hd.1 i (by omega)

theorem graft_finish : (graft c d u).finish = graft c d u.finish := by
  unfold DecUnit.finish
  rw [show (graft c d u).lastOp = u.lastOp from rfl]
  simp only
  split <;> rfl

/-! ### The rows that read a symbol -/

/-- A symbol row runs alike if what it makes of the unit read does. -/
theorem symbol_turnsAlike {α : Type} {r : Res (α × DecUnit)} {act : α → DecUnit → DecUnit} (hne : ∀ {e}, r ≠ .refuse e)
    (hcur : ∀ {b x}, r = .ok (b, x) → cursorsOnly u x) (hd : dataAlike d u)
    (hact : ∀ b x, cursorsOnly u x → dataAlike d x →
      ∃ d', act b (graft s.cfg d x) = graft s.cfg d' (act b x) ∧ jobAlike d' (act b x)) :
    turnsAlike s s' (r.map fun x => s.setUnit (act x.1 x.2))
      ((r.map (graftRes s.cfg d)).map fun x => s'.setUnit (act x.1 x.2)) := by
  cases r with
  | ok x =>
    have hx : cursorsOnly u x.2 := hcur rfl
    obtain ⟨d', he, ha⟩ := hact x.1 x.2 hx (dataAlike_read hx hd)
    exact .inl ⟨_, d', rfl, congrArg (fun y => Res.ok (s'.setUnit y)) he, ha⟩
  | raise e p => exact .inr (.inl ⟨e, p, rfl, rfl⟩)
  | stop f => exact .inr (.inr ⟨f, rfl, rfl⟩)
  | refuse e => exact absurd rfl hne

/-- MDIST's extra bits lead both jobs to the same distance and length class (R98). -/
theorem setDistance_alike {e : Nat} (hd : dataAlike d x) (hidx : d.midx = x.midx) (hbase : d.mbase = x.mbase) :
    ∃ d', setDistance e (graft c d x) = graft c d' (setDistance e x) ∧ jobAlike d' (setDistance e x) := by
  have hg : (graft c d x).midx = x.midx := hidx
  have hdist : d.mbase.toNat + e = x.mbase.toNat + e := by rw [hbase]
  unfold setDistance
  simp only [hg]
  split
  · exact ⟨(d.setDist (d.mbase.toNat + e)).setMlen 2, rfl, hd, hdist, rfl⟩
  split
  · exact ⟨(d.setDist (d.mbase.toNat + e)).setMlen 3, rfl, hd, hdist, rfl⟩
  · exact ⟨d.setDist (d.mbase.toNat + e), rfl, hd, hdist⟩

/-! ### The rows that move bytes -/

/-- Both literal copies write the same packed bytes (R95). -/
theorem copyLiterals_om_alike {m : Memory} (hpm : pmAgrees d u) (hd : dataAlike d u)
    (hv : copyLiterals u.litcnt c u = .ok v)
    (hv' : copyLiterals u.litcnt c (graft c d u) = .ok (graft c { d with om := m } v)) :
    ∀ a, a < u.wp + u.litcnt → m.read a = v.om.read a := by
  obtain ⟨-, hroom, -, hnew, -, hold, -⟩ := copyLiterals_ok hv
  obtain ⟨-, -, -, hnew', -, hold', -⟩ := copyLiterals_ok hv'
  intro a ha
  by_cases hlt : a < u.wp
  · exact (hold' a (.inl hlt)).trans ((hd.2 a hlt).trans (hold a (.inl hlt)).symm)
  · obtain ⟨j, rfl⟩ := Nat.exists_eq_add_of_le (Nat.le_of_not_lt hlt)
    have hj : j < u.litcnt := by omega
    have hroom := hroom (by omega)
    exact (hnew' j hj).trans ((hpm (u.tail - 1 - j) (by omega)).trans (hnew j hj).symm)

theorem literalBody_alike (hpm : pmAgrees d u) (hd : dataAlike d u) (hl : d.litcnt = u.litcnt) :
    turnsAlike s s' ((literalBody s.cfg u).map s.setUnit) ((literalBody s.cfg (graft s.cfg d u)).map s'.setUnit) := by
  unfold literalBody
  rw [graft_wp, show (graft s.cfg d u).litcnt = u.litcnt from hl, show (graft s.cfg d u).dstLen = u.dstLen from rfl]
  split
  · exact .inr (.inl ⟨_, _, rfl, rfl⟩)
  rcases copyLiterals_graft (n := u.litcnt) (c := s.cfg) hpm with ⟨v, m, hv, hv'⟩ | ⟨e, p, hv, hv'⟩ | ⟨f, hv, hv'⟩
  · have hom := copyLiterals_om_alike hpm hd hv hv'
    have hframe := (copyLiterals_ok hv).1
    rw [hv, hv']
    refine .inl ⟨v.goto .endchk, { d with om := m }, rfl, rfl, ⟨?_, fun a ha => hom a ?_⟩, trivial⟩
    · rw [hframe]
      exact hd.1
    · rwa [hframe] at ha
  · exact .inr (.inl ⟨e, p, by rw [hv]; rfl, by rw [hv']; rfl⟩)
  · exact .inr (.inr ⟨f, by rw [hv]; rfl, by rw [hv']; rfl⟩)

/-- Both match copies repeat the same bytes (R101). -/
theorem copyMatch_om_alike {v' : DecUnit} {n : Nat} (hd : dataAlike d u) (hdist : d.dist = u.dist) (h1 : 1 ≤ u.dist)
    (hw : u.dist ≤ u.wp) (hv : copyMatch n c u = .ok v) (hv' : copyMatch n c (graft c d u) = .ok v') :
    ∀ a, a < u.wp + n → v'.om.read a = v.om.read a := by
  have hg : (graft c d u).dist = u.dist := hdist
  obtain ⟨-, -, -, -, hold, -⟩ := copyMatch_ok hv h1 hw
  obtain ⟨-, -, -, -, hold', -⟩ := copyMatch_ok hv' (hg ▸ h1) (hg ▸ hw)
  intro a ha
  by_cases hlt : a < u.wp
  · exact (hold' a (.inl hlt)).trans ((hd.2 a hlt).trans (hold a (.inl hlt)).symm)
  · obtain ⟨j, rfl⟩ := Nat.exists_eq_add_of_le (Nat.le_of_not_lt hlt)
    have hj : j < n := by omega
    have hmod : j % u.dist < u.dist := Nat.mod_lt j h1
    have hnew' := copyMatch_periodic hv' (hg ▸ h1) (hg ▸ hw) j hj
    rw [hg] at hnew'
    exact hnew'.trans ((hd.2 _ (by rw [graft_wp]; omega)).trans (copyMatch_periodic hv h1 hw j hj).symm)

theorem matchBody_alike (hj : decodeJobOk s.cfg u) (hd : dataAlike d u) (hdist : d.dist = u.dist)
    (hlen : d.mlen = u.mlen) :
    turnsAlike s s' ((matchBody s.cfg u).map s.setUnit) ((matchBody s.cfg (graft s.cfg d u)).map s'.setUnit) := by
  have hg : (graft s.cfg d u).dist = u.dist := hdist
  unfold matchBody
  rw [graft_wp, hg, show (graft s.cfg d u).mlen = u.mlen from hlen, show (graft s.cfg d u).dstLen = u.dstLen from rfl]
  split
  · exact .inr (.inl ⟨_, _, rfl, rfl⟩)
  split
  · exact .inr (.inl ⟨_, _, rfl, rfl⟩)
  split
  · exact .inr (.inl ⟨_, _, rfl, rfl⟩)
  rename_i h0 hbefore hover
  obtain ⟨-, -, -, -, -, -, ho, hom⟩ := hj
  have h1 : 1 ≤ u.dist := Nat.pos_of_ne_zero h0
  have hw : u.dist ≤ u.wp := Nat.le_of_not_lt hbefore
  have hom' : writtenBelow (graft s.cfg d u).om (graft s.cfg d u).wp := fun a ha => by
    rw [show (graft s.cfg d u).om = d.om from rfl, hd.2 a ha]
    exact hom a ha
  obtain ⟨v, hv⟩ := copyMatch_run (n := u.mlen) (c := s.cfg) h1 hw hom (by omega)
  obtain ⟨v', hv'⟩ := copyMatch_run (n := u.mlen) (c := s.cfg) (hg ▸ h1) (hg ▸ hw) hom' (by rw [graft_wp]; omega)
  have hsame := copyMatch_om_alike hd hdist h1 hw hv hv'
  have hframe := (copyMatch_ok hv h1 hw).1
  have hframe' := (copyMatch_ok hv' (hg ▸ h1) (hg ▸ hw)).1
  rw [hv, hv']
  refine .inl ⟨v.goto .ctrl, { d with om := v'.om }, rfl, ?_, ⟨?_, fun a ha => hsame a ?_⟩, trivial⟩
  · rw [hframe', hframe]
    rfl
  · rw [hframe]
    exact hd.1
  · rwa [hframe] at ha

/-! ### One step of both jobs -/

theorem phaseBody_alike (hc : s'.cfg = s.cfg) (hr : jobRuns s.cfg u) (ha : jobAlike d u) :
    turnsAlike s s' (phaseBody s u) (phaseBody s' (graft s.cfg d u)) := by
  obtain ⟨hb, hdec, hj, -⟩ := hr
  obtain ⟨hj, -⟩ := jobOk_decoding hj hb hdec
  obtain ⟨hd, hw⟩ := ha
  have hpm := pmAgrees_of_dataAlike hj hd
  unfold workAlike at hw
  unfold phaseBody
  rw [show (graft s.cfg d u).phase = u.phase from rfl, hc]
  cases hp : u.phase <;> rw [hp] at hw hdec <;> dsimp only at hw ⊢
  case none | rawcopy | imgclear | fold => cases hdec
  case ctrl =>
    rw [read1_graft hpm]
    refine symbol_turnsAlike (act := fun b x => if b = 0#1 then x.goto .litsel else x.goto .endchk)
      read1_ne_refuse (fun h => (read1_ok h).1.1) hd fun b x _ hdx => ?_
    split
    · exact ⟨d, rfl, hdx, trivial⟩
    · exact ⟨d, rfl, hdx, trivial⟩
  case litsel =>
    rw [read1_graft hpm]
    refine symbol_turnsAlike
      (act := fun b x => if b = 0#1 then (x.setLitcnt 0).goto .litcode else (x.setLitcnt 1).goto .litcopy)
      read1_ne_refuse (fun h => (read1_ok h).1.1) hd fun b x _ hdx => ?_
    split
    · exact ⟨d.setLitcnt 0, rfl, hdx, rfl⟩
    · exact ⟨d.setLitcnt 1, rfl, hdx, rfl⟩
  case litcode =>
    rw [read2_graft hpm]
    refine symbol_turnsAlike
      (act := fun b x => if b = 0#2 then (x.setLitcnt (x.litcnt + 3)).goto .litcode
        else (x.setLitcnt (x.litcnt + (5 - b.toNat))).goto .litcopy)
      read2_ne_refuse (fun h => (read2_ok h).1.1) hd fun b x hx hdx => ?_
    have hl : ∀ k, d.litcnt + k = x.litcnt + k := fun k => by rw [hw, hx]
    split
    · exact ⟨d.setLitcnt (d.litcnt + 3), rfl, hdx, hl 3⟩
    · exact ⟨d.setLitcnt (d.litcnt + (5 - b.toNat)), rfl, hdx, hl _⟩
  case litcopy => exact literalBody_alike hpm hd hw
  case endchk =>
    rw [graft_wp, show (graft s.cfg d u).dstLen = u.dstLen from rfl]
    split
    · refine .inl ⟨u.finish, d, rfl, by rw [graft_finish], ?_⟩
      simp only [jobAlike, dataAlike, workAlike, DecUnit.finish_srcLen, DecUnit.finish_pm, DecUnit.finish_wp,
        DecUnit.finish_om, DecUnit.finish_phase]
      exact ⟨hd, trivial⟩
    · exact .inl ⟨u.goto .midx, d, rfl, rfl, hd, trivial⟩
  case midx =>
    rw [read4_graft hpm]
    exact symbol_turnsAlike (act := fun b x => (x.setIndex b (vlcLookup b).1 (vlcLookup b).2).goto .mdist)
      read4_ne_refuse (fun h => (read4_ok h).1.1) hd
      fun b x _ hdx => ⟨d.setIndex b (vlcLookup b).1 (vlcLookup b).2, rfl, hdx, rfl, rfl, rfl⟩
  case mdist =>
    obtain ⟨hidx, hmbl, hbase⟩ := hw
    rw [show (graft s.cfg d u).mbl = u.mbl from hmbl, readX_graft hpm]
    exact symbol_turnsAlike (act := setDistance) readX_ne_refuse (fun h => (readX_ok h).1.1) hd
      fun b x hx hdx => setDistance_alike hdx (by rw [hidx, hx]) (by rw [hbase, hx])
  case mlen2 =>
    rw [read2_graft hpm]
    refine symbol_turnsAlike
      (act := fun b x => if b = 0#2 then (x.setMlen 6).goto .mlenn else (x.setMlen (3 + (4 - b.toNat))).goto .mcopy)
      read2_ne_refuse (fun h => (read2_ok h).1.1) hd fun b x hx hdx => ?_
    have hdist : d.dist = x.dist := by rw [hw, hx]
    split
    · exact ⟨d.setMlen 6, rfl, hdx, hdist, rfl⟩
    · exact ⟨d.setMlen (3 + (4 - b.toNat)), rfl, hdx, hdist, rfl⟩
  case mlenn =>
    obtain ⟨hdist, hlen⟩ := hw
    rw [read4_graft hpm]
    refine symbol_turnsAlike
      (act := fun b x => if b = 0#4 then (x.setMlen (x.mlen + 15)).goto .mlenn
        else (x.setMlen (x.mlen + (16 - b.toNat))).goto .mcopy)
      read4_ne_refuse (fun h => (read4_ok h).1.1) hd fun b x hx hdx => ?_
    have hdist : d.dist = x.dist := by rw [hdist, hx]
    have hl : ∀ k, d.mlen + k = x.mlen + k := fun k => by rw [hlen, hx]
    split
    · exact ⟨d.setMlen (d.mlen + 15), rfl, hdx, hdist, hl 15⟩
    · exact ⟨d.setMlen (d.mlen + (16 - b.toNat)), rfl, hdx, hdist, hl _⟩
  case mcopy => exact matchBody_alike hj hd hw.1 hw.2

/-! ### Runs -/

theorem soloStep_of_not_busy (hu : s.units[s.cur]? = some u) (hb : u.state ≠ .busy) : soloStep s = .next s := by
  have hu : s.unit? = some u := hu
  simp only [soloStep, hu, hb, false_and, if_false]

theorem soloStep_of_stopped (hu : s.units[s.cur]? = some u) (hn : isStopped s.stopped s.cur = true) :
    soloStep s = .next s := by
  have hu : s.unit? = some u := hu
  simp [soloStep, hu, hn]

theorem soloRun_of_ended (h : soloStep s = .next s) (n : Nat) : soloRun n s = .next s := by
  induction n with
  | zero => rfl
  | succ n ih => rw [soloRun_succ h, ih]

theorem stopsOfUnit_of_not_stopped (hn : isStopped s.stopped s.cur = false) : stopsOfUnit s = [] := by
  have hn := isStopped_eq_false.mp hn
  simpa [stopsOfUnit] using hn

theorem stopsOfUnit_stopUnit (m : Space) (a : Nat) : stopsOfUnit (s.stopUnit m a) = (m, a) :: stopsOfUnit s := by
  simp [stopsOfUnit]

/-- What was grafted on does not show in the end of a job (R160): a valid output stands below WP. -/
theorem sameEnd_graft (hd : dataAlike d u) (hlen : u.omLen.toNat ≤ u.wp) : sameEnd u (graft c d u) :=
  ⟨rfl, rfl, rfl, rfl, rfl, rfl, rfl, fun i hi => hd.2 i (by omega)⟩

theorem soloStep_graft (hu' : s'.units[s'.cur]? = some (graft c d u)) (hn' : isStopped s'.stopped s'.cur = false)
    (hr : jobRuns c u) (ha : jobAlike d u) :
    soloStep s' = recordStop s' (settle s' (graft c d u) (phaseBody s' (graft c d u))) := by
  obtain ⟨hb, -, hj, -⟩ := hr
  obtain ⟨-, hw⟩ := ha
  refine soloStep_run hu' hb hn' fun hp => ?_
  have hp : u.phase = .mdist := hp
  unfold workAlike at hw
  rw [hp] at hw
  rw [show (graft c d u).mbl = u.mbl from hw.2.1]
  exact mbl_of_jobOk hj hb hp

theorem finish_omLen_le_wp (hr : jobRuns c u) (hw : u.wp = u.dstLen.toNat) : u.finish.omLen.toNat ≤ u.finish.wp := by
  obtain ⟨hb, hd, hj, -⟩ := hr
  obtain ⟨⟨hop, -⟩, -⟩ := jobOk_decoding hj hb hd
  rw [DecUnit.finish_omLen, if_pos (.inl hop), DecUnit.finish_wp]
  exact hw.ge

/-- Two jobs that run alike end alike, after any number of their units' steps. -/
theorem soloRun_alike (n : Nat) (hc : s'.cfg = s.cfg) (hu : s.units[s.cur]? = some u)
    (hu' : s'.units[s'.cur]? = some (graft s.cfg d u)) (hn : isStopped s.stopped s.cur = false)
    (hn' : isStopped s'.stopped s'.cur = false) (hr : jobRuns s.cfg u) (ha : jobAlike d u) :
    sameOutcome (soloRun n s) (soloRun n s') := by
  have hstops : stopsOfUnit s' = stopsOfUnit s := by
    rw [stopsOfUnit_of_not_stopped hn, stopsOfUnit_of_not_stopped hn']
  have hlen := jobRuns_omLen_le_wp hr
  induction n generalizing s s' u d with
  | zero => exact ⟨u, _, hu, hu', sameEnd_graft ha.1 hlen, hstops⟩
  | succ n ih =>
    have hstep := soloStep_jobRuns hu hn hr
    have hstep' := soloStep_graft hu' hn' hr ha
    -- Both steps have left a unit that moves no more.
    have ended : ∀ {v d'}, v.state ≠ .busy → dataAlike d' v → v.omLen.toNat ≤ v.wp →
        soloStep s = .next (s.setUnit v) → soloStep s' = .next (s'.setUnit (graft s.cfg d' v)) →
        sameOutcome (soloRun (n + 1) s) (soloRun (n + 1) s') := by
      intro v d' hv hd hlen hs hs'
      have hset := State.setUnit_unit? s u v hu
      have hset' := State.setUnit_unit? s' _ (graft s.cfg d' v) hu'
      rw [soloRun_succ hs, soloRun_succ hs', soloRun_of_ended (soloStep_of_not_busy hset hv),
        soloRun_of_ended (soloStep_of_not_busy hset' hv)]
      exact ⟨v, _, hset, hset', sameEnd_graft hd hlen, hstops⟩
    rcases phaseBody_alike hc hr ha with ⟨v, d', hb, hb', ha'⟩ | ⟨e, p, hb, hb'⟩ | ⟨f, hb, hb'⟩ <;>
      rw [hb] at hstep <;> rw [hb'] at hstep'
    · obtain ⟨w, hv, he⟩ := jobRuns_ok hr hb
      have hset := State.setUnit_unit? s u v hu
      obtain rfl : v = w := Option.some.inj (hset.symm.trans (he ▸ State.setUnit_unit? s u w hu))
      rcases unitMoved_jobRuns hr hv with hvr | ⟨rfl, hw⟩
      · rw [soloRun_succ hstep, soloRun_succ hstep']
        exact ih (s := s.setUnit v) (s' := s'.setUnit (graft s.cfg d' v)) hc hset (State.setUnit_unit? s' _ _ hu') hn hn'
          hvr ha' hstops (jobRuns_omLen_le_wp hvr)
      · exact ended (finish_not_busy u) ha'.1 (finish_omLen_le_wp hr hw) hstep hstep'
    · exact ended (v := u.enterFault e p) nofun ha.1 hlen hstep hstep'
    · obtain ⟨i, rfl, -⟩ := jobRuns_stop hr hb
      have hstopped : ∀ t : State, isStopped (t.stopUnit .pm i).stopped (t.stopUnit .pm i).cur = true := fun t =>
        isStopped_eq_true.mpr ⟨_, List.mem_cons_self, rfl⟩
      rw [soloRun_succ hstep, soloRun_succ hstep',
        soloRun_of_ended (soloStep_of_stopped (s := s.stopUnit .pm i) hu (hstopped s)),
        soloRun_of_ended (soloStep_of_stopped (s := s'.stopUnit .pm i) hu' (hstopped s'))]
      exact ⟨u, _, hu, hu', sameEnd_graft ha.1 hlen, by rw [stopsOfUnit_stopUnit, stopsOfUnit_stopUnit, hstops]⟩

/-! ### The start of both jobs -/

/-- Two jobs of the same lengths start alike but for what a graft replaces (R73, R88). -/
theorem decodeStarted_graft {u' : DecUnit} (hs : u'.srcLen = u.srcLen) (hd : u'.dstLen = u.dstLen) :
    decodeStarted c u' = graft c (decodeStarted c u') (decodeStarted c u) := by
  rw [decodeStarted_eq, decodeStarted_eq, graft, hs, hd]
  cases c.fwdMode <;> rfl

theorem jobAlike_decodeStarted {u' : DecUnit} (hpm : ∀ i, i < u.srcLen.toNat → u'.pm.read i = u.pm.read i) :
    jobAlike (decodeStarted c u') (decodeStarted c u) := by
  rw [decodeStarted_eq, decodeStarted_eq]
  exact ⟨⟨hpm, nofun⟩, trivial⟩

/-- Two start steps that fail at the same check end alike: in FAULT, without an output (R88, R134). -/
theorem decodeRun_failed_alike {u' : DecUnit} {e : Cause} {p : Nat} (n : Nat) (hu : s.units[s.cur]? = some u)
    (hu' : s'.units[s'.cur]? = some u') (hstops : stopsOfUnit s' = stopsOfUnit s) :
    sameOutcome (soloRun n (s.setUnit (((clearOutput (u.startJob 1#4)).goto .none).enterFault e p)))
      (soloRun n (s'.setUnit (((clearOutput (u'.startJob 1#4)).goto .none).enterFault e p))) := by
  have hset := State.setUnit_unit? s u (((clearOutput (u.startJob 1#4)).goto .none).enterFault e p) hu
  have hset' := State.setUnit_unit? s' u' (((clearOutput (u'.startJob 1#4)).goto .none).enterFault e p) hu'
  rw [soloRun_of_ended (soloStep_of_not_busy hset nofun), soloRun_of_ended (soloStep_of_not_busy hset' nofun)]
  exact ⟨_, _, hset, hset', ⟨rfl, rfl, rfl, rfl, rfl, rfl, rfl, nofun⟩, hstops⟩

end

/-- Settles O59: the start steps make the same checks, and the jobs that they start run alike. -/
theorem decodeOutcomeIsDetermined : Obligations.DecodeOutcomeIsDetermined := by
  intro s s' u u' n hu hu' hb hb' hst hst' hc hs hd hpm
  have hn : isStopped s.stopped s.cur = false := isStopped_eq_false.mpr (not_stopped_of_not_busy hst hu hb)
  have hn' : isStopped s'.stopped s'.cur = false := isStopped_eq_false.mpr (not_stopped_of_not_busy hst' hu' hb')
  have hstops : stopsOfUnit s' = stopsOfUnit s := by
    rw [stopsOfUnit_of_not_stopped hn, stopsOfUnit_of_not_stopped hn']
  rw [decodeRun, decodeRun, exec_decode_start 0 hu hb, exec_decode_start 0 hu' hb', hc, hs, hd]
  dsimp only
  split
  · exact decodeRun_failed_alike n hu hu' hstops
  split
  · exact decodeRun_failed_alike n hu hu' hstops
  · rename_i hsrc hdst
    have hset' := State.setUnit_unit? s' u' (decodeStarted s.cfg u') hu'
    rw [decodeStarted_graft hs hd] at hset'
    rw [decodeStarted_graft hs hd]
    exact soloRun_alike n hc (State.setUnit_unit? s u _ hu) hset' hn hn'
      (jobRuns_decodeStarted (Nat.le_of_not_lt hsrc) (Nat.le_of_not_lt hdst)) (jobAlike_decodeStarted hpm)

end Sys2Proof.Machine
end

section
/-! PROOFS. The search for a plane tag (R116): its result is the least offset at or after the start where the tag stands
in the file. -/

namespace Sys2Proof.Machine

/-- `o` is the least element of `S`, or none where `S` is empty. -/
def LeastOrNone (S : Set Nat) : Option Nat → Prop
  | some m => IsLeast S m
  | none => S = ∅

theorem LeastOrNone.unique {S : Set Nat} {o o' : Option Nat} (h : LeastOrNone S o) (h' : LeastOrNone S o') :
    o = o' := by
  match o, o' with
  | none, none => rfl
  | none, some m => exact absurd (h ▸ h'.1) (Set.notMem_empty m)
  | some m, none => exact absurd (h' ▸ h.1) (Set.notMem_empty m)
  | some m, some m' => exact congrArg some (IsLeast.unique h h')

/-- The offsets at or after `s` where a whole tag stands in the file (R116). -/
def tagOffsets (tag f : List Byte) (s : Nat) : Set Nat :=
  {n | s ≤ n ∧ (f.drop n).take 4 = tag}

section
variable {tag f : List Byte} {s : Nat}

theorem tagOffsets_eq_empty (ht : 0 < tag.length) (h : f.length ≤ s) : tagOffsets tag f s = ∅ := by
  refine Set.eq_empty_of_forall_notMem fun n hn => ?_
  obtain ⟨hs, hn⟩ := hn
  have := length_of_slice hn ht
  omega

theorem isLeast_tagOffsets (h : (f.drop s).take 4 = tag) : IsLeast (tagOffsets tag f s) s :=
  ⟨⟨le_rfl, h⟩, fun _ hn => hn.1⟩

theorem tagOffsets_succ (h : (f.drop s).take 4 ≠ tag) : tagOffsets tag f (s + 1) = tagOffsets tag f s := by
  ext n
  refine ⟨fun ⟨hs, hn⟩ => ⟨Nat.le_of_succ_le hs, hn⟩, fun ⟨hs, hn⟩ => ⟨Nat.lt_of_le_of_ne hs ?_, hn⟩⟩
  rintro rfl
  exact h hn

theorem searchFrom_leastOrNone (ht : 0 < tag.length) {rest : List Byte} (hr : f.drop s = rest) :
    LeastOrNone (tagOffsets tag f s) (searchFrom tag s rest) := by
  induction rest generalizing s with
  | nil => exact tagOffsets_eq_empty ht (List.drop_eq_nil_iff.mp hr)
  | cons b bs ih =>
    rw [searchFrom, ← hr]
    split
    · next h => exact isLeast_tagOffsets h
    · next h =>
      have hbs : f.drop (s + 1) = bs := by rw [← List.tail_drop, hr, List.tail_cons]
      exact tagOffsets_succ h ▸ ih hbs

end

theorem tagBytes_length_pos (t : Tag) : 0 < (tagBytes t).length := Nat.zero_lt_succ _

theorem searchPlane_eq_iff {c : Config} {f : List Byte} {s : Nat} {o : Option Nat} :
    searchPlane c f s = o ↔ LeastOrNone (tagOffsets (tagBytes c.tagPlane) f s) o := by
  have hs : LeastOrNone (tagOffsets (tagBytes c.tagPlane) f s) (searchPlane c f s) :=
    searchFrom_leastOrNone (tagBytes_length_pos c.tagPlane) rfl
  exact ⟨fun h => h ▸ hs, hs.unique⟩

/-- Settles O45: the search's result is the least of the tag's offsets, and a tag that stands in the file ends in it. -/
theorem searchFindsLeast : Obligations.SearchFindsLeast := by
  intro c f s
  have hlen {n : Nat} (h : (f.drop n).take 4 = tagBytes c.tagPlane) : n + 4 ≤ f.length :=
    length_of_slice h (tagBytes_length_pos c.tagPlane)
  refine ⟨fun m => searchPlane_eq_iff.trans ⟨fun ⟨⟨hs, hm⟩, hleast⟩ => ?_, fun ⟨hs, _, hm, hleast⟩ => ?_⟩,
    searchPlane_eq_iff.trans ⟨fun hnone n hs _ hn => ?_, fun hnone => ?_⟩⟩
  · exact ⟨hs, hlen hm, hm, fun n hsn hnm hn => Nat.not_le.mpr hnm (hleast ⟨hsn, hn⟩)⟩
  · exact ⟨⟨hs, hm⟩, fun n ⟨hsn, hn⟩ => Nat.le_of_not_lt fun hnm => hleast n hsn hnm hn⟩
  · exact Set.eq_empty_iff_forall_notMem.mp hnone n ⟨hs, hn⟩
  · exact Set.eq_empty_of_forall_notMem fun n ⟨hs, hn⟩ => hnone n hs (hlen hn) hn

end Sys2Proof.Machine
end

section
/-! PROOFS. The range of the pixels (R124, R128): a fold ORs one bit below IMG_BPC into each pixel, and with one unit
what the start step of a FOLD checked still holds at its own step (R126, R154). -/

namespace Sys2Proof.Machine

/-! ### The pixels -/

/-- A plane bit stands at bit PLANE (R127). -/
theorem planeBit_shifted_lt (b : BitVec 1) {plane n : Nat} (h : plane < n) :
    ((b.setWidth 8) <<< plane : Byte).toNat < 2 ^ n := by
  have hb : (b.setWidth 8).toNat ≤ 1 := by
    rw [BitVec.toNat_setWidth_of_le (by decide)]
    exact Nat.le_of_lt_succ b.isLt
  calc ((b.setWidth 8) <<< plane : Byte).toNat
      ≤ (b.setWidth 8).toNat * 2 ^ plane := by
        rw [BitVec.toNat_shiftLeft, Nat.shiftLeft_eq]
        exact Nat.mod_le _ _
    _ ≤ 1 * 2 ^ plane := Nat.mul_le_mul_right _ hb
    _ = 2 ^ plane := Nat.one_mul _
    _ < 2 ^ n := Nat.pow_lt_pow_right (by decide) h

/-- Folding a plane below n keeps a pixel of n bits (R128). -/
theorem foldedByte_lt {v : Byte} {b : BitVec 1} {plane n : Nat} (hv : v.toNat < 2 ^ n) (h : plane < n) :
    (foldedByte v b plane).toNat < 2 ^ n := by
  rw [foldedByte, BitVec.toNat_or]
  exact Nat.or_lt_two_pow hv (planeBit_shifted_lt b h)

section
variable {s t r : State} {u v : DecUnit}

/-- The image is untouched, empty, zeroed with a BPC that its start step checked, or one plane more is folded in. -/
theorem imageStepped_pixelsOk (hs : pixelsOk s) (hj : allJobsOk s) (hf : foldsOk s) (h : imageStepped s r) :
    pixelsOk r := by
  obtain ⟨hbpc, hpix⟩ := hs
  unfold pixelsOk
  rcases h with ⟨h1, h2, h3, h4⟩ | ⟨h1, h2, h3, h4, -⟩ | ⟨u, hu, hb, hp, hm, h2, h3, h4⟩ |
    ⟨u, hu, hb, hp, hm, h2, h3, h4⟩
  · rw [h1, h2, h3, h4]
    exact ⟨hbpc, hpix⟩
  · rw [h1, h2, h3, h4]
    exact ⟨Nat.zero_le 8, nofun⟩
  · obtain ⟨-, -, hclear, -⟩ := (hj u hu).1 hb
    obtain ⟨-, -, hbpc'⟩ := hclear hp
    obtain ⟨-, hzero, -⟩ := clearFrom_ok hm
    rw [h2, h3, h4]
    refine ⟨hbpc', fun i b hi hread => ?_⟩
    obtain rfl := Option.some.inj ((hzero i (Nat.zero_le i) (by omega)).symm.trans hread)
    exact Nat.two_pow_pos _
  · obtain ⟨-, hplane, -⟩ := hf u hu hb hp
    obtain ⟨-, hfold, -⟩ := foldFrom_ok hm
    rw [h2, h3, h4]
    refine ⟨hbpc, fun i b hi hread => ?_⟩
    obtain ⟨x, w, -, hold, hnew⟩ := hfold i (Nat.zero_le i) (by omega)
    obtain rfl := Option.some.inj (hnew.symm.trans hread)
    exact foldedByte_lt (hpix i w hi hold) hplane

/-! ### A FOLD in progress -/

/-- The unit is at its FOLD.STEP (R126). -/
def folding (u : DecUnit) : Prop := u.state = .busy ∧ u.phase = .fold

theorem not_folding_of_not_busy (h : u.state ≠ .busy) : ¬folding u := fun hf => h hf.1

theorem not_folding_of_phase (h : u.phase ≠ .fold) : ¬folding u := fun hf => h hf.2

/-- FOLD.STEP is no step that another phase leads to: only FOLD's start step does (R126). -/
theorem unitMoved_not_folding {c : Config} (h : unitMoved c u v) : ¬folding v := by
  rcases h with h | ⟨-, -, x, -, rfl⟩ | ⟨-, -, rfl⟩ | ⟨-, -, rfl⟩ | ⟨-, -, -, -, x, -, rfl⟩ | ⟨-, x, -, rfl⟩
  · refine not_folding_of_phase fun hp => ?_
    have hd := (symbolMoved_decoding h).2
    rw [hp] at hd
    cases hd
  · exact not_folding_of_phase nofun
  · exact not_folding_of_not_busy (finish_not_busy _)
  · exact not_folding_of_phase nofun
  · exact not_folding_of_phase nofun
  · exact not_folding_of_not_busy (finish_not_busy _)

theorem foldsOk_of_blockSame (h : blockSame s t) (hs : foldsOk s) : foldsOk t := by
  obtain ⟨h1, h2, -, h4, h5, h6, h7, -⟩ := h
  unfold foldsOk foldReady at *
  rwa [h1, h2, h4, h5, h6, h7]

/-- The host's access to one unit leaves the image, and with it the checks of the others (R126). -/
theorem foldsOk_putUnit (hs : foldsOk s) (k : Nat) (hv : ¬folding v) : foldsOk (s.putUnit k v) := by
  intro x hx hb hp
  rcases mem_set hx with hx | rfl
  · exact hs x hx hb hp
  · exact absurd ⟨hb, hp⟩ hv

theorem hostEffect_foldsOk (hs : foldsOk s) (h : hostEffect s r) : foldsOk r := by
  rcases h with h | ⟨k, d, off, x, hd, rfl⟩ | ⟨k, d, a, bytes, -, hb, -, rfl⟩ | h
  · exact foldsOk_of_blockSame h hs
  · by_cases hb : d.state = .busy
    · obtain ⟨hk, rfl⟩ := List.getElem?_eq_some_iff.mp hd
      rw [writeReg_busy _ off x hb, State.putUnit, List.set_getElem_self]
      exact hs
    · obtain ⟨_, _, _, _, _, _, hw⟩ := writeReg_keeps d off x
      rw [hw]
      exact foldsOk_putUnit hs k (not_folding_of_not_busy hb)
  · exact foldsOk_putUnit hs k (not_folding_of_not_busy hb)
  · refine foldsOk_of_blockSame h fun u hu hb => ?_
    rw [List.eq_of_mem_replicate hu] at hb
    exact absurd hb reset_not_busy

/-! ### One unit (R154) -/

/-- The only unit's replacement is every unit there is. -/
theorem foldsOk_setUnit_sole (h1 : s.units.length = 1) (hu : s.units[s.cur]? = some u)
    (hv : folding v → foldReady s v) : foldsOk (s.setUnit v) := by
  obtain ⟨x, hx⟩ := List.length_eq_one_iff.mp h1
  have h0 : s.cur = 0 := by have := State.unit?_lt hu; omega
  intro y hy hb hp
  rw [State.setUnit_units, hx, h0, List.set_cons_zero, List.mem_singleton] at hy
  subst hy
  exact hv ⟨hb, hp⟩

/-- Of the commands only FOLD starts a fold, and it has made R126's checks. -/
theorem command_foldsOk {w : BitVec 32} (h1 : s.units.length = 1) (hs : foldsOk s)
    (h : exec (decodeCmd w) s = .next r) : foldsOk r := by
  obtain ⟨u, hu, ⟨-, rfl⟩ | ⟨-, h⟩⟩ := command_cases h
  · exact hs
  rcases h with ⟨op, c, p, -, rfl⟩ | ⟨op, c, p, -, rfl⟩ | ⟨-, -, rfl⟩ | ⟨-, -, -, rfl⟩ | ⟨-, -, rfl⟩ |
    ⟨himage, hplane, -, hrows, rfl⟩
  · exact foldsOk_setUnit_sole h1 hu fun hf => absurd hf (not_folding_of_not_busy nofun)
  · exact foldsOk_setUnit_sole h1 hu fun hf => absurd hf (not_folding_of_not_busy nofun)
  · exact foldsOk_setUnit_sole h1 hu fun hf => absurd hf (not_folding_of_phase nofun)
  · exact foldsOk_setUnit_sole h1 hu fun hf => absurd hf (not_folding_of_phase nofun)
  · exact foldsOk_setUnit_sole (s := { s with imValid := false }) h1 hu
      fun hf => absurd hf (not_folding_of_phase nofun)
  · exact foldsOk_setUnit_sole h1 hu fun _ => ⟨himage, hplane, hrows⟩

/-- After its own turn the unit is at no fold. -/
theorem turnEnds_foldsOk (h1 : s.units.length = 1) (hs : foldsOk s) (hu : s.units[s.cur]? = some u)
    (h : turnEnds s r u) : foldsOk r := by
  have sole : ∀ {x : State} {v : DecUnit}, x.units = s.units → x.cur = s.cur → ¬folding v → foldsOk (x.setUnit v) :=
    fun hx hc hv => foldsOk_setUnit_sole (hx ▸ h1) (by rw [hx, hc, hu]) fun hf => absurd hf hv
  rcases h with h | ⟨c, p, -, rfl⟩ | ⟨m, a, -, rfl⟩
  · rcases phaseBody_ok h with ⟨v, hv, rfl⟩ | ⟨-, m, -, rfl⟩ | ⟨-, m, -, rfl⟩
    · exact sole rfl rfl (unitMoved_not_folding hv)
    · exact sole rfl rfl (not_folding_of_not_busy (finish_not_busy u))
    · exact sole rfl rfl (not_folding_of_not_busy (finish_not_busy u))
  · exact sole rfl rfl (not_folding_of_not_busy nofun)
  · exact hs

theorem step_foldsOk (h1 : s.units.length = 1) (hs : foldsOk s) (h : step s = .next r) : foldsOk r := by
  have one : ∀ t, blockSame s t → t.units.length = 1 := fun t ⟨_, hunits, _⟩ => hunits ▸ h1
  obtain ⟨-, rfl | ⟨t, hb, he⟩ | ⟨t, w, hb, hc⟩ | ⟨t, u, hb, hu, -, hr, -⟩⟩ := step_next_cases h
  · exact hs
  · exact hostEffect_foldsOk (foldsOk_of_blockSame hb hs) he
  · exact command_foldsOk (one t hb) (foldsOk_of_blockSame hb hs) hc
  · exact turnEnds_foldsOk (one t hb) (foldsOk_of_blockSame hb hs) hu hr

end

/-- Settles O55: the pixels by what a step makes of the image, the folds by whose turn it was. -/
theorem pixelsStayInRange : Obligations.PixelsStayInRange := by
  intro s t hone hcount hj hpix hf h
  exact ⟨imageStepped_pixelsOk hpix hj hf (step_image_cases h), step_foldsOk (hcount.trans hone) hf h⟩

end Sys2Proof.Machine
end

section
/-! PROOFS. The plane assembler (R44, R124 to R127, R130, R131): its start steps, what a finished clear and a finished
fold leave, and that folds commute and repeat. -/

namespace Sys2Proof.Machine

/-! ### The start steps -/

/-- Settles O30: the two checks in order, then IM_VALID clear and the job at its step. -/
theorem imgClearStart : Obligations.ImgClearStart := by
  intro g s u hu hb
  rw [exec_imgClear, commandStep_start hu hb, settle_refuseIf, settle_refuseIf]
  rfl

/-- Settles O31: the four checks in order, then the job at its step. -/
theorem foldStart : Obligations.FoldStart := by
  intro g s u hu hb
  rw [exec_fold, commandStep_start hu hb, settle_refuseIf, settle_refuseIf, settle_refuseIf, settle_refuseIf]
  rw [id, DecUnit.startJob_plane, DecUnit.startJob_omValid, DecUnit.startJob_omLen, stride]
  split
  · rfl
  split
  · rfl
  split
  · rfl
  split <;> rfl

/-! ### The clear (R125) -/

/-- Settles O26: the loop runs to its end, and has done what a finished clear does. -/
theorem imgclearStep : Obligations.ImgclearStep := by
  intro s u hu hb hp hsize
  obtain ⟨m, hm⟩ := clearFrom_run (n := u.width.toNat * u.height.toNat) (i := 0) (c := s.cfg) (im := s.im)
    (by omega)
  obtain ⟨-, hzero, hkept, -⟩ := clearFrom_ok hm
  refine ⟨m, ?_, fun i hi => hzero i (Nat.zero_le i) (by omega), fun i hi => hkept i (.inr (by omega))⟩
  rw [exec_imgclear, phaseStep_run hu hb hp, hm, finish_eq_finishedWith]
  rfl

/-! ### The fold (R127) -/

/-- A fold ORs its plane bit into the pixel at bit PLANE (R127). -/
theorem foldedByte_extractLsb (v b : Byte) (n plane : Nat) :
    foldedByte v (b.extractLsb' n 1) plane = v ||| (if b.getLsbD n then 1#8 <<< plane else 0#8) := by
  have hbit : b.extractLsb' n 1 = BitVec.ofBool (b.getLsbD n) := by
    ext i hi
    obtain rfl : i = 0 := by omega
    simp
  rw [foldedByte, hbit]
  cases b.getLsbD n
  · rw [show (BitVec.ofBool false).setWidth 8 = 0#8 from rfl, BitVec.zero_shiftLeft]
    rfl
  · rfl

/-- Pixel (x, y) of an image of width w stands at bit y * S + x of the plane (R44). -/
theorem planeIndex_row (c : Config) {w x : Nat} (y : Nat) (hx : x < w) :
    planeIndex c w (y * w + x) = y * stride c w + x := by
  have hpos : 0 < w := Nat.zero_lt_of_lt hx
  rw [planeIndex, Nat.mul_comm y w, Nat.mul_add_div hpos, Nat.mul_add_mod, Nat.div_eq_of_lt hx, Nat.mod_eq_of_lt hx,
    Nat.add_zero]

theorem pixel_lt {w h x y : Nat} (hx : x < w) (hy : y < h) : y * w + x < w * h :=
  calc y * w + x < y * w + w := Nat.add_lt_add_left hx _
    _ = (y + 1) * w := (Nat.succ_mul y w).symm
    _ ≤ h * w := Nat.mul_le_mul_right w hy
    _ = w * h := Nat.mul_comm h w

section
variable {c : Config} {n w p : Nat} {om im m : Memory}

/-- What a finished fold of the first n pixels leaves: IM has room for them, each has taken its plane bit, and the other
bytes are as they were (R127). -/
def pixelsFolded (c : Config) (w p n : Nat) (om im m : Memory) : Prop :=
  n ≤ c.imSize
    ∧ (∀ j, j < n → ∃ b v, planeBit c w om j = .ok b ∧ im.read j = some v ∧ m.read j = some (foldedByte v b p))
    ∧ ∀ a, n ≤ a → m.read a = im.read a

theorem pixelsFolded_of_foldFrom (h : foldFrom n 0 c w p om im = .ok m) : pixelsFolded c w p n om im m := by
  obtain ⟨hsize, hnew, hkept, -⟩ := foldFrom_ok h
  exact ⟨by omega, fun j hj => hnew j (Nat.zero_le j) (by omega), fun a ha => hkept a (.inr (by omega))⟩

theorem foldFrom_wf (him : im.wf) (h : foldFrom n 0 c w p om im = .ok m) : m.wf := by
  obtain ⟨-, -, -, hwf, -⟩ := foldFrom_ok h
  exact hwf him

/-- When a fold of the first n pixels ends. -/
theorem foldFrom_zero_run (hsize : n ≤ c.imSize) (him : writtenBelow im n)
    (hbit : ∀ j, j < n → ∃ b, planeBit c w om j = .ok b) : ∃ m, foldFrom n 0 c w p om im = .ok m :=
  foldFrom_run (by omega) (fun j _ hj => him j (by omega)) fun j _ hj => hbit j (by omega)

/-- What a fold needs can be read off what it leaves. -/
theorem pixelsFolded_needs (h : pixelsFolded c w p n om im m) :
    n ≤ c.imSize ∧ writtenBelow im n ∧ ∀ j, j < n → ∃ b, planeBit c w om j = .ok b := by
  obtain ⟨hsize, hnew, -⟩ := h
  refine ⟨hsize, fun j hj => ?_, fun j hj => ?_⟩ <;> obtain ⟨b, v, hb, hv, -⟩ := hnew j hj
  · exact Option.ne_none_iff_exists'.mpr ⟨v, hv⟩
  · exact ⟨b, hb⟩

end

/-- Settles O27: the loop finds every pixel and every plane bit, and has done what a finished fold does. -/
theorem foldStepResult : Obligations.FoldStepResult := by
  rintro s u _ _ _ hu hb hp hv rfl rfl rfl hsize him hom
  have hbit : ∀ j, j < s.imgW.toNat * s.imgH.toNat → ∃ b, planeBit s.cfg s.imgW.toNat u.om j = .ok b := by
    intro j hj
    obtain ⟨hlt, hwritten⟩ := hom _ (planeIndex_lt (stride_le hv _) hj)
    obtain ⟨b, hb⟩ := Option.ne_none_iff_exists'.mp hwritten
    exact ⟨_, planeBit_eq_ok.mpr ⟨b, hlt, hb, rfl⟩⟩
  obtain ⟨m, hm⟩ := foldFrom_zero_run (p := u.plane.toNat) hsize him hbit
  obtain ⟨-, hfold, hkept⟩ := pixelsFolded_of_foldFrom hm
  refine ⟨m, ?_, fun x y hx hy => ?_, hkept⟩
  · rw [exec_foldStep, phaseStep_run hu hb hp, hm, finish_eq_finishedWith]
    rfl
  · obtain ⟨_, p, hbit, hold, hnew⟩ := hfold _ (pixel_lt hx hy)
    obtain ⟨b, -, hread, rfl⟩ := planeBit_eq_ok.mp hbit
    rw [planeIndex_row _ y hx] at hread hnew
    exact ⟨b, p, hread, hold, hnew.trans (congrArg some (foldedByte_extractLsb p b _ _))⟩

/-! ### Folds one after the other (R130, R131) -/

section
variable {c : Config} {n w p q : Nat} {om on im m m1 m2 : Memory} {s t : State}

/-- Two planes' bits are ORed into a pixel in either order (R130). -/
theorem foldedByte_comm (v : Byte) (a b : BitVec 1) (p q : Nat) :
    foldedByte (foldedByte v a p) b q = foldedByte (foldedByte v b q) a p := by
  unfold foldedByte
  ac_rfl

/-- A plane's bit ORed in twice is ORed in once (R131). -/
theorem foldedByte_again (v : Byte) (b : BitVec 1) (p : Nat) :
    foldedByte (foldedByte v b p) b p = foldedByte v b p := by
  rw [foldedByte, foldedByte, BitVec.or_assoc, BitVec.or_self]

/-- A fold of an image leaves the same bytes each time. -/
theorem pixelsFolded_read_eq (h1 : pixelsFolded c w p n om im m1) (h2 : pixelsFolded c w p n om im m2) (a : Nat) :
    m1.read a = m2.read a := by
  obtain ⟨-, hnew1, hkept1⟩ := h1
  obtain ⟨-, hnew2, hkept2⟩ := h2
  by_cases ha : a < n
  · obtain ⟨b, v, hb, hv, hr⟩ := hnew1 a ha
    obtain ⟨b', v', hb', hv', hr'⟩ := hnew2 a ha
    obtain rfl := Res.ok.inj (hb.symm.trans hb')
    obtain rfl := Option.some.inj (hv.symm.trans hv')
    exact hr.trans hr'.symm
  · exact (hkept1 a (by omega)).trans (hkept2 a (by omega)).symm

/-- A canonical memory with the bytes of a finished fold is what the loop gives. -/
theorem foldFrom_of_pixelsFolded (him : im.wf) (hm : m.wf) (h : pixelsFolded c w p n om im m) :
    foldFrom n 0 c w p om im = .ok m := by
  obtain ⟨hsize, hwritten, hbit⟩ := pixelsFolded_needs h
  obtain ⟨x, hx⟩ := foldFrom_zero_run (p := p) hsize hwritten hbit
  rw [hx, Memory.ext_of_read (foldFrom_wf him hx) hm (pixelsFolded_read_eq (pixelsFolded_of_foldFrom hx) h)]

/-- A second fold of the same plane changes nothing (R131). -/
theorem pixelsFolded_again (h : pixelsFolded c w p n om im m) : pixelsFolded c w p n om m m := by
  obtain ⟨hsize, hnew, -⟩ := h
  refine ⟨hsize, fun j hj => ?_, fun _ _ => rfl⟩
  obtain ⟨b, v, hb, -, hr⟩ := hnew j hj
  exact ⟨b, _, hb, hr, by rw [foldedByte_again, hr]⟩

theorem foldFrom_again (him : im.wf) (h : foldFrom n 0 c w p om im = .ok m) : foldFrom n 0 c w p om m = .ok m :=
  have hm := foldFrom_wf him h
  foldFrom_of_pixelsFolded hm hm (pixelsFolded_again (pixelsFolded_of_foldFrom h))

/-- Of two folds the one that went first leaves, after the other, the bytes that both left in their order (R130). -/
theorem pixelsFolded_comm (h1 : pixelsFolded c w p n om im m1) (h2 : pixelsFolded c w q n on m1 m2)
    (h : pixelsFolded c w q n on im m) : pixelsFolded c w p n om m m2 := by
  obtain ⟨hsize, hnew1, hkept1⟩ := h1
  obtain ⟨-, hnew2, hkept2⟩ := h2
  obtain ⟨-, hnew, hkept⟩ := h
  refine ⟨hsize, fun j hj => ?_, fun a ha => (hkept2 a ha).trans ((hkept1 a ha).trans (hkept a ha).symm)⟩
  obtain ⟨a, v, ha, hv, hr1⟩ := hnew1 j hj
  obtain ⟨b, x, hb, hx, hr2⟩ := hnew2 j hj
  obtain ⟨b', v', hb', hv', hr⟩ := hnew j hj
  obtain rfl := Option.some.inj (hr1.symm.trans hx)
  obtain rfl := Res.ok.inj (hb.symm.trans hb')
  obtain rfl := Option.some.inj (hv.symm.trans hv')
  exact ⟨a, _, ha, hr, hr2.trans (congrArg some (foldedByte_comm v a b p q))⟩

theorem foldFrom_comm (him : im.wf) (h1 : foldFrom n 0 c w p om im = .ok m1) (h2 : foldFrom n 0 c w q on m1 = .ok m2) :
    ∃ m, foldFrom n 0 c w q on im = .ok m ∧ foldFrom n 0 c w p om m = .ok m2 := by
  have hp1 := pixelsFolded_of_foldFrom h1
  have hp2 := pixelsFolded_of_foldFrom h2
  obtain ⟨hsize, hwritten, -⟩ := pixelsFolded_needs hp1
  obtain ⟨-, -, hbit⟩ := pixelsFolded_needs hp2
  obtain ⟨m, h⟩ := foldFrom_zero_run (p := q) hsize hwritten hbit
  exact ⟨m, h, foldFrom_of_pixelsFolded (foldFrom_wf him h) (foldFrom_wf (foldFrom_wf him h1) h2)
    (pixelsFolded_comm hp1 hp2 (pixelsFolded_of_foldFrom h))⟩

/-- What FOLD.STEP needs and leaves when it answers a next state (R127). -/
theorem exec_foldStep_eq_next : exec .foldStep s = .next t ↔
    ∃ u m, s.units[s.cur]? = some u ∧ folding u
      ∧ foldFrom (s.imgW.toNat * s.imgH.toNat) 0 s.cfg s.imgW.toNat u.plane.toNat u.om s.im = .ok m
      ∧ t = { s with im := m }.setUnit u.finish := by
  rw [exec_foldStep]
  constructor
  · intro h
    obtain ⟨u, hu, hb, hp, hr | ⟨c, p, hr, -⟩⟩ := phaseStep_cases h
    · obtain ⟨m, hm, ht⟩ := Res.map_eq_ok.mp hr
      exact ⟨u, m, hu, ⟨hb, hp⟩, hm, ht.symm⟩
    · exact absurd (Res.map_eq_raise.mp hr) foldFrom_ne_raise
  · rintro ⟨u, m, hu, ⟨hb, hp⟩, hm, rfl⟩
    rw [phaseStep_run hu hb hp, hm]
    rfl

end

section
variable {s t t1 t2 : State} {u : DecUnit} {a b : Nat}

theorem foldStep_comm (hab : a ≠ b) (him : s.im.wf) (h1 : exec .foldStep { s with cur := a } = .next t1)
    (h2 : exec .foldStep { t1 with cur := b } = .next t2) :
    ∃ r1 r2, exec .foldStep { s with cur := b } = .next r1 ∧ exec .foldStep { r1 with cur := a } = .next r2
      ∧ r2 = { t2 with cur := a } := by
  obtain ⟨u, m1, hu, hfu, hm1, rfl⟩ := exec_foldStep_eq_next.mp h1
  obtain ⟨v, m2, hv, hfv, hm2, rfl⟩ := exec_foldStep_eq_next.mp h2
  have hv' : s.units[b]? = some v := by rwa [← List.getElem?_set_ne hab]
  have hu' : (s.units.set b v.finish)[a]? = some u := by rwa [List.getElem?_set_ne hab.symm]
  obtain ⟨m, hm, hm'⟩ := foldFrom_comm him hm1 hm2
  refine ⟨_, _, exec_foldStep_eq_next.mpr ⟨v, m, hv', hfv, hm, rfl⟩,
    exec_foldStep_eq_next.mpr ⟨u, m2, hu', hfu, hm', rfl⟩, ?_⟩
  simp only [State.setUnit, List.set_comm _ _ hab]

theorem foldStep_again (him : s.im.wf) (hu : s.units[s.cur]? = some u) (h : exec .foldStep s = .next t) :
    exec .foldStep (withCurrent t u) = .next t := by
  obtain ⟨v, m, hv, hf, hm, rfl⟩ := exec_foldStep_eq_next.mp h
  obtain rfl := Option.some.inj (hu.symm.trans hv)
  refine exec_foldStep_eq_next.mpr ⟨u, m, ?_, hf, foldFrom_again him hm, ?_⟩
  · exact List.getElem?_set_self (by simpa using State.unit?_lt hu)
  · simp only [withCurrent, State.setUnit, List.set_set]

end

/-- Settles O60: the two folds leave the same bytes in either order, and a repeated one the same again. -/
theorem foldsCommuteAndRepeat : Obligations.FoldsCommuteAndRepeat :=
  ⟨fun _ _ _ _ _ => foldStep_comm, fun _ _ _ => foldStep_again⟩

end Sys2Proof.Machine
end
